-- ==== Sys2Proof/Word.lean ====
section
/-! DEFINITION. The words of the formats: one byte of a frame, a reply or the description memory, and the
16-bit and 32-bit figures that frames carry (spec/10_formats.md: multi-byte fields stand most significant byte first). -/

namespace Sys2Proof

/-- One byte on a port, on the sign line or in the description memory. -/
abbrev Byte := BitVec 8

/-- A 16-bit figure: a notice value, a check, a mask, a target set. -/
abbrev Word16 := BitVec 16

/-- One analog conversion, 0 to 4095 (R107). -/
abbrev Raw := BitVec 12

end Sys2Proof
end

