-- ==== Sys2Proof/Syntax.lean ====
section
/-! DEFINITION. The commands of the block: one constructor per row of spec/opcode_table.json. A master's command
(STATUS to RELOAD) is taken by TRANSFER_END as the bytes of a request frame and waits in a QUEUED request slot with its
code and body (R165, R166), so its row carries the port alone: the operands of the command are the body bytes of that
port's oldest QUEUED slot, read by Machine/Operands.lean. -/

namespace Sys2Proof

/-- The three masters, each behind the port of its name (spec/00_scope.md, "The part and its surroundings"). -/
inductive Master where
  | centre | slope | crew
deriving DecidableEq, Repr

/-- The holder of a closure claim (R2): a master, or the hazard engine acting for one avalanche path. -/
inductive Holder where
  | master (m : Master)
  | hazard (path : Nat)
deriving DecidableEq, Repr

/-- What the description memory answers for one byte (R178): how many reads of it go unacknowledged before one is
acknowledged, and the byte then read. -/
structure MemCell where
  nacks : Nat
  value : Byte
deriving DecidableEq, Repr

/-- The steps of the part, each whole and indivisible (spec/opcode_table.json, spec/95_what_each_step_holds.md). -/
inductive Instr where
  /-- POWER_ON (R183): the supply rises from off. -/
  | powerOn
  /-- PIN_RESET (R183): the reset pin is asserted. -/
  | pinReset
  /-- LOW_SUPPLY (R159): the supply falls below the monitor's threshold. -/
  | lowSupply
  /-- RESET_END (R183): the reset in progress ends. -/
  | resetEnd
  /-- DESCRIPTION_LOAD_END (R184): the load ends, having met this memory, byte by byte from its first address. -/
  | descriptionLoadEnd (image : List MemCell)
  /-- TRANSFER_START (R164): the master selects its port. -/
  | transferStart (port : Master)
  /-- TRANSFER_END (R166): the master deselects its port, having clocked these bytes in (and as many out). -/
  | transferEnd (port : Master) (clocked : List Byte)
  /-- UNKNOWN_COMMAND (R167): the port's oldest QUEUED command, of a code the part does not know, is executed. -/
  | unknownCommand (port : Master)
  | status (port : Master)
  | fetchNotice (port : Master)
  | setNoticeMask (port : Master)
  | resetPort (port : Master)
  | readSegment (port : Master)
  | placeClaim (port : Master)
  | releaseClaim (port : Master)
  | confirmSweep (port : Master)
  | setAuthority (port : Master)
  /-- CLAIM_START (R4): the start timer of the holder's claim on the segment expires. -/
  | claimStart (segment : Nat) (holder : Holder)
  /-- CLAIM_EXPIRY (R5): the end timer of the holder's claim on the segment expires. -/
  | claimExpiry (segment : Nat) (holder : Holder)
  /-- CONFIRMING_EXPIRY (R12): 60 s in phase CONFIRMING run out. -/
  | confirmingExpiry (segment : Nat)
  /-- PREWARN_MINUTE_CHANGE (R13): the rounded-up minute figure of the countdown falls. -/
  | prewarnMinuteChange (segment : Nat)
  /-- PREWARN_END (R13): pre-warning remaining reaches 0. -/
  | prewarnEnd (segment : Nat)
  | readGate (port : Master)
  | resetGate (port : Master)
  /-- INPUT_EDGE (R113): the present input of the line becomes asserted or released. -/
  | inputEdge (line : Nat) (asserted : Bool)
  /-- DEBOUNCE_EXPIRY (R113): the line's stability timer ends. -/
  | debounceExpiry (line : Nat)
  /-- TRAVEL_TIMEOUT (R44): the gate's travel remaining reaches 0 under drive. -/
  | travelTimeout (gate : Nat)
  /-- REVERSAL_PAUSE_END (R43): the gate's pause remaining reaches 0. -/
  | reversalPauseEnd (gate : Nat)
  /-- HOLD_OFF_END (R48): the gate's hold-off remaining reaches 0. -/
  | holdOffEnd (gate : Nat)
  /-- LAMP_TOGGLE (R34): 0.5 s of the gate's flashing lamp run out. -/
  | lampToggle (gate : Nat)
  | postMessage (port : Master)
  | withdrawMessage (port : Master)
  | setPriorityMap (port : Master)
  | setClock (port : Master)
  /-- SLOT_EXPIRY (R66): the end timer of a posted slot runs out. -/
  | slotExpiry (slot : Nat)
  | readSign (port : Master)
  | setSignDisable (port : Master)
  | setSignEnable (port : Master)
  /-- TRANSACTION_START (R86): the head entry is taken and its first exchange is formed. -/
  | transactionStart
  /-- MESSAGE_SENT (R87): the last byte of the message has gone out unchanged. -/
  | messageSent
  /-- ECHO_MISMATCH (R91): a byte read back differs from the byte sent. -/
  | echoMismatch
  /-- REPLY_RECEIVED (R88): these bytes have arrived in the reply window. -/
  | replyReceived (bytes : List Byte)
  /-- REPLY_TIMEOUT (R87): the reply window expires. -/
  | replyTimeout
  /-- REFRESH_DUE (R95): the sign's refresh due time arrives. -/
  | refreshDue (sign : Nat)
  /-- PROBE_DUE (R92): the sign's probe due time arrives. -/
  | probeDue (sign : Nat)
  /-- LINE_RECOVERY (R94): the 10 s recovery timer expires. -/
  | lineRecovery
  | readChannel (port : Master)
  | submitObservation (port : Master)
  /-- SCAN_ROUND_START (R108): the scan interval elapses. -/
  | scanRoundStart
  /-- CHANNEL_CONVERSION_DONE (R109): the conversions of the channel in hand are complete, with these raw values. -/
  | channelConversionDone (raws : List Raw)
  /-- HOLD_AGE_EXPIRY (R111): the hold-age timer of a HELD channel expires. -/
  | holdAgeExpiry (channel : Nat)
  /-- SILENCE_EXPIRY (R111): the silence timer of a REMOTE channel expires. -/
  | silenceExpiry (channel : Nat)
  | readPower (port : Master)
  /-- HAZARD_PERIOD_EXPIRY (R121): the hazard period expires. -/
  | hazardPeriodExpiry
  /-- FLOOR_END (R132): the end timer of the path's floor expires. -/
  | floorEnd (path : Nat)
  | readPath (port : Master)
  | reportDetection (port : Master)
  | clearPath (port : Master)
  | setPathFloor (port : Master)
  | seedPath (port : Master)
  | reload (port : Master)
deriving DecidableEq, Repr

end Sys2Proof
end

