-- ==== Sys2Proof/Decode.lean ====
section
/-! DEFINITION. spec/opcode_table.json gives no row any bits ("fields" is empty in every row and no row has "fixed"):
no word spells a command. The byte formats of the ports, the sign line and the description memory are not encodings of
the table's rows; they are read by Machine/Formats.lean, Machine/Operands.lean and Machine/Loader.lean. -/

namespace Sys2Proof

/-- The command that a word spells by the table's bits: none, for every word, since the table gives no bits. -/
def decodeTableWord (_nbits _w : Nat) : Option Instr := none

end Sys2Proof
end

