-- ==== Sys2Proof/Config.lean ====
section
/-! DEFINITION. What the manual fixes as plain figures, and the free values: constants with no body, one for each point
where the manual leaves a value open and the part goes on. Nothing can be proved of a free value but what holds for
every value it could have. Each is named in notes/assumptions. -/

namespace Sys2Proof.Config

/-- R165: request slots of a port. -/
def requestSlots : Nat := 8
/-- R169: entries a notice queue holds. -/
def noticeQueueSize : Nat := 16
/-- R12: the longest stay in phase CONFIRMING, in seconds. -/
def confirmingLimit : Nat := 60
/-- R22: the longest start delay, in seconds. -/
def maxStartDelay : Nat := 86400
/-- R22, R75: the longest duration of a claim or a posted message, in seconds. -/
def maxDuration : Nat := 604800
/-- R142: the longest duration of a path floor, in seconds. -/
def maxFloorDuration : Nat := 172800
/-- R43: the reversal pause, in tenths. -/
def reversalPause : Nat := 20
/-- R48: the obstruction hold-off, in tenths. -/
def holdOff : Nat := 50
/-- R34: half a flash of a gate lamp, in milliseconds. -/
def lampHalfPeriod : Nat := 500
/-- R113: the stability time of an input line, in milliseconds. -/
def stabilityTime : Nat := 40
/-- R87: the least idle time before a message, in milliseconds. -/
def lineIdle : Nat := 2
/-- R87: the reply window, in milliseconds. -/
def replyWindow : Nat := 30
/-- R93: the line error count at which the line goes DOWN. -/
def lineDownCount : Nat := 128
/-- R93: the rise of the line error count at an echo mismatch. -/
def echoPenalty : Nat := 8
/-- R93: the recovery time of the line, in seconds. -/
def recoveryTime : Nat := 10
/-- R92: the probing interval of an UNREACHABLE sign, in seconds. -/
def probeInterval : Nat := 60
/-- R120: the hazard period before a description supplies one, in seconds. -/
def defaultHazardPeriod : Nat := 600
/-- R58: the absent value of a parameter or a notice figure. -/
def absentFigure : Int := 32767
/-- R178: the reads of one byte after which a byte counts as unreadable. -/
def readTries : Nat := 3
/-- R1 and the conventions: the corridor clock is 32 bits wide. -/
def clockModulus : Nat := 4294967296

/-- FREE VALUE (DESIGN CHOICE, notes/assumptions/2.md): the choice among events that fall due at the same moment, whose
order the manual leaves open. -/
opaque eventOrder : Nat → Nat

/-- FREE VALUE (DESIGN CHOICE, notes/assumptions/4.md): what the 32-bit corridor clock holds after its highest value. -/
opaque clockAfterHighest : Nat

/-- FREE VALUE (DESIGN CHOICE, notes/assumptions/5.md): whether a pin assertion during a POWER_ON reset makes the cause PIN. -/
opaque pinOverPowerOn : Bool

/-- FREE VALUE (DESIGN CHOICE, notes/assumptions/11.md): whether a channel record whose source byte is neither LOCAL nor
REMOTE is taken as REMOTE. -/
opaque unlistedSourceIsRemote : Nat → Bool

/-- FREE VALUE (DESIGN CHOICE, notes/assumptions/36.md): at a derivation, whether a channel whose hold-age and silence
timers ran out at the same moment takes the cause of its hold age. -/
opaque holdAgeFirst : Nat → Nat → Bool

end Sys2Proof.Config
end

