-- ==== Sys2Proof/Machine/State.lean ====
section
/-! DEFINITION. Everything the manual gives the part to hold, as plain data, grouped by the block that owns it
(spec/00_scope.md, "Block overview"), and the state right after a reset. INVENTORY.md lists each field with its rule. -/

namespace Sys2Proof.Machine

/-! ### The named values of the records -/

/-- R182. -/
inductive PartState where
  | loading | ready | degraded | noCorridor
deriving DecidableEq, Repr

/-- R183. -/
inductive ResetCause where
  | powerOn | pin | lowSupply | reload
deriving DecidableEq, Repr

/-- R1: the standing of a segment. -/
inductive SegState where
  | opened | restricted | closing | closed | reopening
deriving DecidableEq, Repr

/-- R1: the stage of a closure in progress. -/
inductive Phase where
  | confirming | prewarn | lowering
deriving DecidableEq, Repr

/-- R1, R2: an effective level, and a claim's level (which is never `noLevel`). -/
inductive Level where
  | noLevel | advise | chains | close
deriving DecidableEq, Repr

/-- R1, R19: what a segment asks of its gates. -/
inductive Demand where
  | noDemand | lower | hold | raise
deriving DecidableEq, Repr

/-- R31. -/
inductive GateState where
  | up | lowering | down | raising | stopped | fault | manual
deriving DecidableEq, Repr

/-- R31: the sub-phase of LOWERING. -/
inductive SubPhase where
  | reversing | driving
deriving DecidableEq, Repr

/-- R32. -/
inductive Position where
  | atUp | atDown | between | conflict
deriving DecidableEq, Repr

/-- R52. -/
inductive FaultReason where
  | travelTimeout | limitConflict | leftPosition | positionUnknown
deriving DecidableEq, Repr

/-- R81. -/
inductive SignKind where
  | panel | weather | picto
deriving DecidableEq, Repr

/-- R82. -/
inductive SignState where
  | unknown | online | degraded | unreachable | disabled
deriving DecidableEq, Repr

/-- R83: why a sign waits to be addressed. -/
inductive EntryReason where
  | change | blank | refresh | probe
deriving DecidableEq, Repr

/-- R93. -/
inductive LineState where
  | up | down
deriving DecidableEq, Repr

/-- R105, R106: the quantity of a channel. -/
inductive ChannelKind where
  | depth | airTemp | surfaceTemp | windSpeed | windDir
  | batteryVoltage | batteryCurrent | batteryTemp | sourceVoltage
deriving DecidableEq, Repr

/-- R110. -/
inductive Quality where
  | never | good | held | failed
deriving DecidableEq, Repr

/-- R110. -/
inductive FailCause where
  | badCount | holdAge | noSubmission
deriving DecidableEq, Repr

/-- R119. -/
inductive Latch where
  | clear | release | deposit
deriving DecidableEq, Repr

/-- R136. -/
inductive DetectionKind where
  | release | deposit | controlled
deriving DecidableEq, Repr

/-- R156. -/
inductive Mode where
  | normal | economy | reserve
deriving DecidableEq, Repr

/-- R148, R149. -/
inductive ChargeState where
  | noSource | recover | bulk | absorb | float | lockout
deriving DecidableEq, Repr

/-- Response codes (spec/00_scope.md, spec/10_formats.md 10.1). -/
inductive RespCode where
  | ok | notReady | noRight | badArg | wrongState | noClaim | poolFull | busy | badFrame | unknownCommand | empty
deriving DecidableEq, Repr

/-- R169: the 14 notice kinds, in the order of their codes. -/
inductive NoticeKind where
  | restarted | segmentState | claimEnded | unwarned | gateState | gateHeld | pathLevel | pathInput
  | channelState | signState | busState | powerMode | chargeState | slotEnded
deriving DecidableEq, Repr

/-- R67. -/
inductive SlotEndCause where
  | expired | claimEnded | withdrawn
deriving DecidableEq, Repr

/-- The outcome of one description group (spec/10_formats.md 10.3, "load outcome"). -/
inductive LoadOutcome where
  | taken | absent | checkFailed | readFault | lengthFault | rangeFault | referenceFault | notRead
deriving DecidableEq, Repr

/-! ### The segment table (chapter 1) -/

/-- R2: an in-use claim record. `pending` is the standing of R4: the start timer has not yet been taken. -/
structure Claim where
  segment : Nat
  holder : Holder
  level : Level
  urgent : Bool
  reason : Nat
  since : Nat
  start : Option Nat
  endsAt : Option Nat
  link : Option Nat
  pending : Bool
deriving DecidableEq, Repr

/-- R1: the configured fields of a segment. -/
structure SegmentConfig where
  gates : List Nat
  approach : List Nat
  interval : Nat
deriving DecidableEq, Repr

/-- R1: a segment record. `confirmDue` is the moment at which the 60 s of R12 run out. -/
structure Segment where
  cfg : SegmentConfig
  state : SegState
  phase : Option Phase
  since : Nat
  level : Level
  urgent : Bool
  deciding : Option Holder
  secured : Bool
  unwarned : Bool
  swept : Bool
  demand : Demand
  remaining : Nat
  confirmDue : Option Nat
deriving DecidableEq, Repr

/-- R1, R2, R9: segment records, in-use claims (the claims of one segment stand in their order of R3) and the authority
map, whose entry for segment k and the master of number m is at 3 k + m: bit 0 ADVISE to bit 4 SWEEP. -/
structure SegmentTable where
  records : List Segment
  claims : List Claim
  authority : List (BitVec 5)
deriving DecidableEq, Repr

/-! ### The gate sequencer (chapter 2) -/

/-- R31: the configured fields of a gate. -/
structure GateConfig where
  segment : Nat
  lowerLine : Nat
  raiseLine : Nat
  lampLine : Nat
  upLine : Nat
  downLine : Nat
  obstructionLine : Nat
  keyLine : Nat
  timeout : Nat
  lowerCost : Nat
  raiseCost : Nat
deriving DecidableEq, Repr

/-- R31, R34: a gate record, with the lamp setting handed over, the present lamp level and the milliseconds left of the
present half flash. -/
structure Gate where
  cfg : GateConfig
  state : GateState
  sub : Option SubPhase
  position : Position
  travel : Nat
  pause : Option Nat
  reason : Option FaultReason
  raiseHeld : Bool
  holdOff : Option Nat
  demand : Demand
  flashing : Bool
  lampOn : Bool
  lampLeft : Nat
deriving DecidableEq, Repr

/-! ### The slot store and selector (chapter 3) -/

/-- R59: the content of a valid slot. -/
structure Content where
  origin : Nat
  cls : Nat
  catalogue : Nat
  params : List Int
deriving DecidableEq, Repr

/-- R58: what a posted slot holds beside its content; the link is the segment of the owner's claim that names it (R6). -/
structure Posted where
  owner : Master
  targets : Word16
  urgency : Nat
  endsAt : Option Nat
  link : Option Nat
deriving DecidableEq, Repr

/-- R58: a message slot; it is valid exactly when it has content. -/
structure Slot where
  content : Option Content
  generation : Nat
  posted : Option Posted
deriving DecidableEq, Repr

/-- R73: a sign's top-candidate record; no slot is BLANK. -/
structure Top where
  slot : Option Nat
  generation : Nat
  cls : Nat
deriving DecidableEq, Repr

/-- R58, R64, R73: the 64 slots, the 16 classes of the priority map, the top-candidate records of the described signs. -/
structure SlotStore where
  slots : List Slot
  priority : List Nat
  tops : List Top
deriving DecidableEq, Repr

/-! ### The sign line controller (chapter 4) -/

/-- R81: shown content. -/
structure Shown where
  slot : Nat
  generation : Nat
  cls : Nat
  catalogue : Nat
  params : List Int
deriving DecidableEq, Repr

/-- R81: the configured fields of a sign. -/
structure SignConfig where
  kind : SignKind
  address : Nat
  lookahead : List Nat
  station : Nat
deriving DecidableEq, Repr

/-- R81: a sign record; acknowledged content is absent for BLANK. -/
structure Sign where
  cfg : SignConfig
  state : SignState
  ack : Option Shown
  lampFault : Bool
  heaterFault : Bool
  doorOpen : Bool
  refused : Bool
  disablePending : Bool
  attempts : Nat
  lastAck : Option Nat
  refreshDue : Option Nat
  probeDue : Option Nat
deriving DecidableEq, Repr

/-- R83, R84: an entry of the transmit list; `order` counts the entries in the order in which they first entered. -/
structure Entry where
  sign : Nat
  reason : EntryReason
  time : Nat
  order : Nat
deriving DecidableEq, Repr

/-- R86: what an exchange asks of the sign. -/
inductive Operation where
  | show (cls catalogue : Nat) (params : List Int)
  | blank
  | probe
deriving DecidableEq, Repr

/-- R89: which exchange of the transaction is in hand. -/
inductive Stage where
  | first | fallback | final
deriving DecidableEq, Repr

/-- R87: the standing of the exchange on the line: idle before the message for this many more milliseconds, sending,
or waiting for the reply for this many more milliseconds. -/
inductive Exchange where
  | idle (left : Nat)
  | sending
  | window (left : Nat)
deriving DecidableEq, Repr

/-- R85, R86: the transaction in flight: its entry, the request held for its sign, whether it is the final BLANK of a
disable (R101), the content noted at the start, the exchange in hand and the bytes of its message. -/
structure InFlight where
  entry : Entry
  held : Option EntryReason
  finalBlank : Bool
  noted : Option Shown
  stage : Stage
  op : Operation
  message : List Byte
  exchange : Exchange
deriving DecidableEq, Repr

/-- R81 to R93: the sign records, the transmit list, the transaction in flight, the line and its error count, the moment
of recovery while the line is DOWN, and the count of entries made. -/
structure SignLine where
  signs : List Sign
  entries : List Entry
  inFlight : Option InFlight
  state : LineState
  errors : Nat
  recovery : Option Nat
  made : Nat
deriving DecidableEq, Repr

/-! ### The sensor scan and input block (chapter 5) -/

/-- R105, R106: where a channel's readings come from. A fixed power channel has no analog input number. -/
inductive Source where
  | wired (input : Option Nat) (span offset : Int) (averaging : Nat)
  | remote (feeder : Master)
deriving DecidableEq, Repr

/-- R105, R106: a channel's description. -/
structure ChannelDesc where
  source : Source
  kind : ChannelKind
  station : Option Nat
  lo : Int
  hi : Int
  holdLimit : Nat
deriving DecidableEq, Repr

/-- R110, R117: the last submission of a REMOTE channel. -/
structure Submission where
  value : Int
  suspect : Bool
  clamped : Bool
  time : Nat
deriving DecidableEq, Repr

/-- R110, R111: a channel record. The hold-age timer runs while HELD, from `heldSince`; the silence timer of a REMOTE
channel runs from `silenceFrom`. Both stand at their start plus the hold limit. -/
structure Channel where
  desc : ChannelDesc
  value : Option Int
  quality : Quality
  badCount : Nat
  heldSince : Option Nat
  cause : Option FailCause
  lastReading : Option Nat
  lastRaw : Option Nat
  submission : Option Submission
  silenceFrom : Option Nat
deriving DecidableEq, Repr

/-- R113: an input line: its present input, its debounced level and the milliseconds left of a running stability timer. -/
structure InputLine where
  present : Bool
  level : Bool
  stability : Option Nat
deriving DecidableEq, Repr

/-- R105 to R113: the 32 channel places, the 48 input lines, the channel being converted while a round runs, the start
of the latest round and the start fixed for the next one. -/
structure Scan where
  channels : List (Option Channel)
  lines : List InputLine
  converting : Option Nat
  roundStart : Nat
  nextRound : Option Nat
deriving DecidableEq, Repr

/-! ### The hazard engine (chapter 6) -/

/-- R119: the configured fields of a path. -/
structure PathConfig where
  depthChannel : Nat
  speedChannel : Nat
  directionChannel : Nat
  airChannel : Nat
  centre : Nat
  halfWidth : Nat
  sensitivity : Nat
  t1 : Nat
  t2 : Nat
  t3 : Nat
  t4 : Nat
  band : Nat
  minDwell : Nat
  adviseLevel : Nat
  closeLevel : Nat
  segments : List Nat
  residual : Nat
  trip : Option Nat
deriving DecidableEq, Repr

/-- R119, R142: a floor. -/
structure Floor where
  level : Nat
  endsAt : Nat
deriving DecidableEq, Repr

/-- R119, R133: the channels for which the latest period used a substitute. -/
structure Substitutes where
  depth : Bool
  wind : Bool
  temperature : Bool
deriving DecidableEq, Repr

/-- R122: the figures of the latest period. -/
structure Working where
  time : Nat
  depth : Option Int
  newSnow : Nat
  inSector : Option Bool
  windFactor : Nat
  snowTerm : Nat
  drift : Nat
  rate : Nat
  settle : Nat
  oldLoading : Nat
  newLoading : Nat
  rawBefore : Nat
  rawAfter : Nat
  levelBefore : Nat
deriving DecidableEq, Repr

/-- R119: a path record. -/
structure Path where
  cfg : PathConfig
  loading : Nat
  refDepth : Option Int
  level : Nat
  dwell : Nat
  latch : Latch
  floor : Option Floor
  degraded : Bool
  substitutes : Substitutes
  unseeded : Bool
  working : Option Working
deriving DecidableEq, Repr

/-- R119, R120: the path records, the hazard period and its next expiry. -/
structure Hazard where
  paths : List Path
  period : Nat
  nextExpiry : Nat
deriving DecidableEq, Repr

/-! ### The power controller (chapter 7) -/

/-- R146: the power parameters; the capacity is kept in mAh. -/
structure PowerParams where
  capacity : Nat
  recoverThreshold : Nat
  recoverCurrent : Nat
  bulkCurrent : Nat
  absorbVoltage : Nat
  floatVoltage : Nat
  coefficient : Int
  cutoffCurrent : Nat
  absorbLimit : Nat
  rebulkThreshold : Nat
  coldLockout : Int
  hotLockout : Nat
  economyPercent : Nat
  reservePercent : Nat
deriving DecidableEq, Repr

/-- R150: the compensated targets of one update, with the compensation temperature and whether it was the substitute. -/
structure Targets where
  absorb : Int
  float : Int
  temperature : Int
  substitute : Bool
deriving DecidableEq, Repr

/-- R146 to R156, R189: the parameters in force and whether the power group gave them; the parameters last taken, which
come into force at the next end of a round, and whether the power group gave those; the charge state, its entry time and
absorb since; charge-enable, the set-point figures and the last set-point word sent; the account, its remainder and
the time of the latest update; the closure reserve; the mode; the targets of the latest update. -/
structure Power where
  params : PowerParams
  fromGroup : Bool
  taken : PowerParams
  takenFromGroup : Bool
  charge : ChargeState
  entered : Nat
  absorbSince : Option Nat
  enable : Bool
  target : Int
  limit : Nat
  word : Option (List Byte)
  account : Nat
  remainder : Nat
  updated : Nat
  reserve : Nat
  mode : Mode
  targets : Option Targets
deriving DecidableEq, Repr

/-! ### The port block (chapter 8) -/

/-- R169: a notice record. -/
structure Notice where
  kind : NoticeKind
  object : Nat
  first : Word16
  second : Word16
  third : Word16
  time : Nat
deriving DecidableEq, Repr

/-- R165: what a QUEUED request slot holds. -/
structure Request where
  tag : Byte
  code : Byte
  body : List Byte
deriving DecidableEq, Repr

/-- R165: what a DONE request slot holds. -/
structure Response where
  tag : Byte
  code : RespCode
  body : List Byte
deriving DecidableEq, Repr

/-- R164, R168: a transfer under way: the frame going out, whether it is a response, the marks its header carries, and
whether each mark has been set again since the header was formed. -/
structure Transfer where
  frame : List Byte
  response : Bool
  overrun : Bool
  overflow : Bool
  overflowAgain : Bool
deriving DecidableEq, Repr

/-- R165, R168, R169: a port. The QUEUED slots stand in the order in which they were taken and the DONE slots in the
order in which they became DONE; every other of the 8 slots is EMPTY. Bit n of the mask admits kind n. -/
structure Port where
  queued : List Request
  done : List Response
  notices : List Notice
  mask : Word16
  overrun : Bool
  overflow : Bool
  transfer : Option Transfer
deriving DecidableEq, Repr

/-- The three ports. -/
structure Ports where
  centre : Port
  slope : Port
  crew : Port
deriving DecidableEq, Repr

/-! ### The description loader (chapter 9) and the clocks -/

/-- R181: the outcome of each of the nine groups, the order number of the first faulty group and the fault found there. -/
structure LoadReport where
  outcomes : List LoadOutcome
  firstFaulty : Nat
  fault : LoadOutcome
deriving DecidableEq, Repr

/-- R182, R183. -/
structure Loader where
  state : PartState
  cause : ResetCause
  report : LoadReport
deriving DecidableEq, Repr

/-- R68: the setting of the display clock: minute m given at corridor time t0. -/
structure ClockSetting where
  minute : Nat
  setAt : Nat
deriving DecidableEq, Repr

/-- The corridor clock in seconds, the milliseconds of the present second, and the display clock (R68). -/
structure Clocks where
  seconds : Nat
  millis : Nat
  display : Option ClockSetting
deriving DecidableEq, Repr

/-! ### The state -/

/-- The whole machine. `pending` is the queue of commands that wait, first in first out. `held` is the cause of a reset
in progress, absent while the part runs. `drawn` is the model's own: the free values of Config.eventOrder drawn so far. -/
structure State where
  pending : List Instr
  held : Option ResetCause
  drawn : Nat
  clocks : Clocks
  segs : SegmentTable
  gates : List Gate
  store : SlotStore
  line : SignLine
  scan : Scan
  hazard : Hazard
  power : Power
  ports : Ports
  loader : Loader
deriving DecidableEq, Repr

/-- No command of this block stops with a fault: every step of the manual gives a next state. -/
inductive Fault where
deriving DecidableEq, Repr

/-- Why a command has no meaning. Raised by exec alone. -/
inductive Refusal where
  /-- The row has no meaning in this model yet; raised by exec's arm; safe, since the run stops. -/
  | notModelled (mnemonic : String)
deriving DecidableEq, Repr

/-! ### The values after a reset -/

/-- R9: the default rights of the masters. -/
def defaultRights : List (BitVec 5) := [0b01111#5, 0b00101#5, 0b10111#5]

/-- R9: the map when the description gives none. -/
def defaultAuthority : List (BitVec 5) := (List.replicate 16 defaultRights).flatten

/-- R64: the default classes. -/
def defaultPriority : List Nat := [1, 2, 2, 3, 3, 1, 0, 0, 0, 1, 1, 2, 2, 3, 3, 2]

/-- R146: the default parameters. -/
def defaultParams : PowerParams :=
  { capacity := 200000, recoverThreshold := 21000, recoverCurrent := 2000, bulkCurrent := 20000,
    absorbVoltage := 28800, floatVoltage := 27000, coefficient := -36, cutoffCurrent := 2000,
    absorbLimit := 14400, rebulkThreshold := 25200, coldLockout := -200, hotLockout := 500,
    economyPercent := 40, reservePercent := 15 }

/-- R115: a channel record as a reset makes it. -/
def Channel.fresh (d : ChannelDesc) : Channel :=
  { desc := d, value := none, quality := .never, badCount := 0, heldSince := none, cause := none,
    lastReading := none, lastRaw := none, submission := none, silenceFrom := none }

/-- R106: the fixed descriptions of channels 28 to 31. -/
def fixedDescs : List ChannelDesc :=
  [{ source := .wired none 32000 0 4, kind := .batteryVoltage, station := none, lo := 0, hi := 32000, holdLimit := 600 },
   { source := .wired none 60000 (-30000) 4, kind := .batteryCurrent, station := none, lo := -30000, hi := 30000, holdLimit := 600 },
   { source := .wired none 1400 (-500) 4, kind := .batteryTemp, station := none, lo := -400, hi := 800, holdLimit := 600 },
   { source := .wired none 60000 0 4, kind := .sourceVoltage, station := none, lo := 0, hi := 60000, holdLimit := 600 }]

/-- R115: the channels after a reset: none of 0 to 27 has a record. -/
def resetChannels : List (Option Channel) := List.replicate 28 none ++ fixedDescs.map (fun d => some (Channel.fresh d))

/-- R159: the power controller after a reset. -/
def resetPower : Power :=
  { params := defaultParams, fromGroup := false, taken := defaultParams, takenFromGroup := false, charge := .noSource, entered := 0, absorbSince := none,
    enable := false, target := 28800, limit := 2000, word := none, account := 100000, remainder := 0,
    updated := 0, reserve := 0, mode := .normal, targets := none }

/-- R175: the mask that admits all 14 kinds. -/
def fullMask : Word16 := 0x3FFF#16

/-- R175: a port with its slots EMPTY, holding these notices. -/
def resetPort (notices : List Notice) : Port :=
  { queued := [], done := [], notices := notices, mask := fullMask, overrun := false, overflow := false,
    transfer := none }

/-- The code of a reset cause (spec/10_formats.md 10.3). -/
def ResetCause.code : ResetCause → Nat
  | .powerOn => 0 | .pin => 1 | .lowSupply => 2 | .reload => 3

/-- R177: the RESTARTED notice queued at this corridor time; the part state it carries is LOADING, code 0. -/
def restartedNotice (cause : ResetCause) (time : Nat) : Notice :=
  { kind := .restarted, object := 0, first := BitVec.ofNat 16 cause.code, second := 0#16, third := 0#16, time := time }

/-- R175: the three ports holding these notices. -/
def resetPorts (notices : List Notice) : Ports :=
  { centre := resetPort notices, slope := resetPort notices, crew := resetPort notices }

/-- The load report before any load has ended: no group read. -/
def emptyReport : LoadReport :=
  { outcomes := List.replicate 9 .notRead, firstFaulty := 0, fault := .taken }

/-- R58, R74: a slot after a reset. -/
def resetSlot : Slot := { content := none, generation := 0, posted := none }

/-- R98: the sign line after a reset. -/
def resetLine : SignLine :=
  { signs := [], entries := [], inFlight := none, state := .up, errors := 0, recovery := none, made := 0 }

/-- The machine right after the end of a POWER_ON reset (R183): the clock at 0, LOADING, RESTARTED queued at each port,
the first scan round begun at its first channel, 28; the 48 input lines released (a value the model names). -/
def State.reset : State :=
  { pending := [], held := none, drawn := 0,
    clocks := { seconds := 0, millis := 0, display := none },
    segs := { records := [], claims := [], authority := defaultAuthority },
    gates := [],
    store := { slots := List.replicate 64 resetSlot, priority := defaultPriority, tops := [] },
    line := resetLine,
    scan := { channels := resetChannels, lines := List.replicate 48 { present := false, level := false, stability := none },
              converting := some 28, roundStart := 0, nextRound := none },
    hazard := { paths := [], period := Config.defaultHazardPeriod, nextExpiry := Config.defaultHazardPeriod },
    power := resetPower,
    ports := resetPorts [restartedNotice .powerOn 0],
    loader := { state := .loading, cause := .powerOn, report := emptyReport } }

end Sys2Proof.Machine
end

