-- ==== Sys2Proof/Machine/Formats.lean ====
section
/-! DEFINITION. The byte formats of spec/10_formats.md: multi-byte figures, the two checks (R187, R188), the codes of
the named values, the frames of the ports, the messages and replies of the sign line, and the set-point word (R189). -/

namespace Sys2Proof.Machine

/-! ### Figures -/

/-- One byte, the low 8 bits of a number. -/
def byteOf (n : Nat) : Byte := BitVec.ofNat 8 n

/-- A 1-byte field. -/
def bytes1 (n : Nat) : List Byte := [byteOf n]

/-- A 2-byte field, most significant byte first, two's complement for a negative figure. -/
def bytes2 (i : Int) : List Byte :=
  let w := BitVec.ofInt 16 i
  [w.extractLsb' 8 8, w.extractLsb' 0 8]

/-- A 4-byte field, most significant byte first, two's complement for a negative figure. -/
def bytes4 (i : Int) : List Byte :=
  let w := BitVec.ofInt 32 i
  [w.extractLsb' 24 8, w.extractLsb' 16 8, w.extractLsb' 8 8, w.extractLsb' 0 8]

/-- A 1-byte number, FFh when absent (10.3, "Response bodies"). -/
def opt1 : Option Nat → List Byte
  | some n => bytes1 n
  | none => [0xFF#8]

/-- A 16-bit figure, 7FFFh when absent. -/
def opt2 : Option Int → List Byte
  | some i => bytes2 i
  | none => [0x7F#8, 0xFF#8]

/-- A 32-bit time, FFFFFFFFh when absent. -/
def opt4 : Option Nat → List Byte
  | some n => bytes4 n
  | none => [0xFF#8, 0xFF#8, 0xFF#8, 0xFF#8]

/-- The code of a mark: no 0, yes 1. -/
def markCode (b : Bool) : Nat := if b then 1 else 0

/-- A mark as a 1-byte field. -/
def mark1 (b : Bool) : List Byte := bytes1 (markCode b)

/-- A list field: a count, then its entries up to the largest number, unused ones FFh. -/
def listField (most : Nat) (l : List Nat) : List Byte :=
  bytes1 l.length ++ (l.map byteOf ++ List.replicate most 0xFF#8).take most

/-- The byte at a place, 0 beyond the end. -/
def byteAt (bytes : List Byte) (i : Nat) : Byte := bytes.getD i 0#8

/-- A 1-byte field read. -/
def read1 (bytes : List Byte) (i : Nat) : Nat := (byteAt bytes i).toNat

/-- A 2-byte unsigned field read. -/
def read2 (bytes : List Byte) (i : Nat) : Nat := read1 bytes i * 256 + read1 bytes (i + 1)

/-- A 2-byte signed field read. -/
def readInt2 (bytes : List Byte) (i : Nat) : Int := (BitVec.ofNat 16 (read2 bytes i)).toInt

/-- A 1-byte signed field read. -/
def readInt1 (bytes : List Byte) (i : Nat) : Int := (byteAt bytes i).toInt

/-- A 4-byte unsigned field read. -/
def read4 (bytes : List Byte) (i : Nat) : Nat := read2 bytes i * 65536 + read2 bytes (i + 2)

/-- A 16-bit notice value from a figure. -/
def value16 (i : Int) : Word16 := BitVec.ofInt 16 i

/-- A notice value that packs a high and a low byte (10.2). -/
def packed (high low : Nat) : Word16 := BitVec.ofNat 16 (high * 256 + low)

/-! ### Checks -/

/-- R187: one bit of the register's shift. -/
def crcShift (r : Word16) : Word16 :=
  if r.getLsbD 15 then (r <<< 1) ^^^ 0x1021#16 else r <<< 1

/-- R187: one byte fed, most significant bit first. -/
def crcByte (r : Word16) (b : Byte) : Word16 :=
  let r0 := r ^^^ (b.setWidth 16 <<< 8)
  crcShift (crcShift (crcShift (crcShift (crcShift (crcShift (crcShift (crcShift r0)))))))

/-- R187: the 16-bit check over these bytes; the register starts at FFFFh. -/
def crc (bytes : List Byte) : Word16 := bytes.foldl crcByte 0xFFFF#16

/-- R187: the check as sent, high byte first. -/
def crcBytes (bytes : List Byte) : List Byte :=
  [(crc bytes).extractLsb' 8 8, (crc bytes).extractLsb' 0 8]

/-- R188: the 8-bit sum of these bytes. -/
def sumBytes (bytes : List Byte) : Byte := bytes.foldl (· + ·) 0#8

/-- R188: the sign line check, the two's complement of the sum. -/
def sumCheck (bytes : List Byte) : Byte := -(sumBytes bytes)

/-- R188: a message with its check appended. -/
def withSumCheck (bytes : List Byte) : List Byte := bytes ++ [sumCheck bytes]

/-! ### Codes of the named values (10.1 to 10.3) -/

def RespCode.code : RespCode → Nat
  | .ok => 0 | .notReady => 1 | .noRight => 2 | .badArg => 3 | .wrongState => 4 | .noClaim => 5
  | .poolFull => 6 | .busy => 7 | .badFrame => 8 | .unknownCommand => 9 | .empty => 15

def NoticeKind.code : NoticeKind → Nat
  | .restarted => 0 | .segmentState => 1 | .claimEnded => 2 | .unwarned => 3 | .gateState => 4
  | .gateHeld => 5 | .pathLevel => 6 | .pathInput => 7 | .channelState => 8 | .signState => 9
  | .busState => 10 | .powerMode => 11 | .chargeState => 12 | .slotEnded => 13

def PartState.code : PartState → Nat
  | .loading => 0 | .ready => 1 | .degraded => 2 | .noCorridor => 3

def masterCode : Master → Nat
  | .centre => 0 | .slope => 1 | .crew => 2

def holderCode : Holder → Nat
  | .master m => masterCode m
  | .hazard _ => 3

/-- The path of a HAZARD holder. -/
def holderPath : Holder → Option Nat
  | .master _ => none
  | .hazard p => some p

def Level.code : Level → Nat
  | .noLevel => 0 | .advise => 1 | .chains => 2 | .close => 3

def SegState.code : SegState → Nat
  | .opened => 0 | .restricted => 1 | .closing => 2 | .closed => 3 | .reopening => 4

def phaseCode : Option Phase → Nat
  | none => 0 | some .confirming => 1 | some .prewarn => 2 | some .lowering => 3

def Demand.code : Demand → Nat
  | .noDemand => 0 | .lower => 1 | .hold => 2 | .raise => 3

def GateState.code : GateState → Nat
  | .up => 0 | .lowering => 1 | .down => 2 | .raising => 3 | .stopped => 4 | .fault => 5 | .manual => 6

def subCode : Option SubPhase → Nat
  | none => 0 | some .reversing => 1 | some .driving => 2

def Position.code : Position → Nat
  | .atUp => 0 | .atDown => 1 | .between => 2 | .conflict => 3

def reasonCode : Option FaultReason → Nat
  | none => 0 | some .travelTimeout => 1 | some .limitConflict => 2 | some .leftPosition => 3
  | some .positionUnknown => 4

def SignKind.code : SignKind → Nat
  | .panel => 0 | .weather => 1 | .picto => 2

def SignState.code : SignState → Nat
  | .unknown => 0 | .online => 1 | .degraded => 2 | .unreachable => 3 | .disabled => 4

def EntryReason.code : EntryReason → Nat
  | .change => 1 | .blank => 2 | .refresh => 3 | .probe => 4

def LineState.code : LineState → Nat
  | .up => 0 | .down => 1

def ChannelKind.code : ChannelKind → Nat
  | .depth => 0 | .airTemp => 1 | .surfaceTemp => 2 | .windSpeed => 3 | .windDir => 4
  | .batteryVoltage => 5 | .batteryCurrent => 6 | .batteryTemp => 7 | .sourceVoltage => 8

def Quality.code : Quality → Nat
  | .never => 0 | .good => 1 | .held => 2 | .failed => 3

def failCauseCode : Option FailCause → Nat
  | none => 0 | some .badCount => 1 | some .holdAge => 2 | some .noSubmission => 3

def Latch.code : Latch → Nat
  | .clear => 0 | .release => 1 | .deposit => 2

def Substitutes.code (x : Substitutes) : Nat :=
  markCode x.depth + 2 * markCode x.wind + 4 * markCode x.temperature

def Mode.code : Mode → Nat
  | .normal => 0 | .economy => 1 | .reserve => 2

def ChargeState.code : ChargeState → Nat
  | .noSource => 0 | .recover => 1 | .bulk => 2 | .absorb => 3 | .float => 4 | .lockout => 5

def SlotEndCause.code : SlotEndCause → Nat
  | .expired => 0 | .claimEnded => 1 | .withdrawn => 2

def LoadOutcome.code : LoadOutcome → Nat
  | .taken => 0 | .absent => 1 | .checkFailed => 2 | .readFault => 3 | .lengthFault => 4
  | .rangeFault => 5 | .referenceFault => 6 | .notRead => 7

/-- A level field of a request: ADVISE 1, CHAINS 2, CLOSE 3. -/
def levelOfCode : Nat → Option Level
  | 1 => some .advise | 2 => some .chains | 3 => some .close | _ => none

/-- A master field: CENTRE 0, SLOPE 1, CREW 2. -/
def masterOfCode : Nat → Option Master
  | 0 => some .centre | 1 => some .slope | 2 => some .crew | _ => none

/-- A detection kind field: RELEASE 1, DEPOSIT 2, CONTROLLED 3. -/
def detectionOfCode : Nat → Option DetectionKind
  | 1 => some .release | 2 => some .deposit | 3 => some .controlled | _ => none

/-- A channel kind field of the description. -/
def channelKindOfCode : Nat → Option ChannelKind
  | 0 => some .depth | 1 => some .airTemp | 2 => some .surfaceTemp | 3 => some .windSpeed | 4 => some .windDir
  | _ => none

/-- A sign kind field of the description. -/
def signKindOfCode : Nat → Option SignKind
  | 0 => some .panel | 1 => some .weather | 2 => some .picto | _ => none

/-! ### Frames of the ports (10.1) -/

/-- 10.1: the lead byte of a request frame. -/
def requestLead : Byte := 0xA6#8

/-- 10.1: the marks byte of a header. -/
def marksByte (overrun overflow : Bool) (state : PartState) : Byte :=
  byteOf (128 * markCode overrun + 64 * markCode overflow + state.code)

/-- 10.1: a response or EMPTY status frame: its seven header bytes, its body and its check (R187). -/
def responseFrame (r : Response) (free waiting : Nat) (overrun overflow : Bool) (state : PartState) : List Byte :=
  let covered := [0x5A#8, r.tag, byteOf r.code.code, byteOf free, byteOf waiting,
    marksByte overrun overflow state, byteOf r.body.length] ++ r.body
  covered ++ crcBytes covered

/-- R166: how the bytes clocked into a port are taken. -/
inductive Incoming where
  | null
  | bad (tag : Byte)
  | request (r : Request)
deriving DecidableEq, Repr

/-- R166 step 3, R187: the check of the frame whose body has this length agrees, and its lead byte is that of a request. -/
def frameCheckOk (bytes : List Byte) (len : Nat) : Bool :=
  byteAt bytes 0 == requestLead &&
    (bytes.drop (4 + len)).take 2 == crcBytes (bytes.take (4 + len))

/-- R166 step 3: fewer than four bytes, a body length above 24, or fewer than 6 + body length bytes. -/
def lengthInconsistent (bytes : List Byte) : Bool :=
  decide (bytes.length < 4) || decide (24 < read1 bytes 3) || decide (bytes.length < 6 + read1 bytes 3)

/-- R166, 10.1: a first byte 00h is the null frame; a frame of inconsistent length or failed check is bad, with the tag
of its second byte or 0; any other is a request. -/
def parseIncoming (bytes : List Byte) : Incoming :=
  if bytes.head? = some 0#8 then .null
  else if lengthInconsistent bytes || !frameCheckOk bytes (read1 bytes 3) then .bad (byteAt bytes 1)
  else .request { tag := byteAt bytes 1, code := byteAt bytes 2, body := (bytes.drop 4).take (read1 bytes 3) }

/-- 10.1: a request frame, as a master sends it. -/
def requestFrame (r : Request) : List Byte :=
  let covered := [requestLead, r.tag, r.code, byteOf r.body.length] ++ r.body
  covered ++ crcBytes covered

/-- 10.2: the 13 bytes of a notice. -/
def noticeBytes (n : Notice) (overflow : Bool) : List Byte :=
  bytes1 n.kind.code ++ bytes1 n.object ++
    [n.first.extractLsb' 8 8, n.first.extractLsb' 0 8, n.second.extractLsb' 8 8, n.second.extractLsb' 0 8,
      n.third.extractLsb' 8 8, n.third.extractLsb' 0 8] ++ bytes4 n.time ++ mark1 overflow

/-- 10.2: the 13 bytes where no notice is present: all zero but the overflow mark. -/
def noNoticeBytes (overflow : Bool) : List Byte := List.replicate 12 0#8 ++ mark1 overflow

/-! ### The sign line (10.4) -/

/-- 10.4: the sync byte. -/
def syncByte : Byte := 0xC5#8

/-- 10.4: the bytes of a message, its check included. -/
def messageBytes (address : Nat) : Operation → List Byte
  | .show cls catalogue params =>
    withSumCheck ([syncByte, byteOf address, 1#8, byteOf cls, byteOf catalogue, byteOf params.length] ++
      params.flatMap bytes2)
  | .blank => withSumCheck [syncByte, byteOf address, 2#8, 0#8, 0#8, 0#8]
  | .probe => withSumCheck [syncByte, byteOf address, 3#8, 0#8, 0#8, 0#8]

/-- R87, R188: how a complete reply is taken. -/
inductive SignReply where
  | ack (lamp heater door : Bool)
  | nakContent
  | nakBusy
  | bad
deriving DecidableEq, Repr

/-- R188: a bad reply: a failed check, a wrong sync byte or address, a type that is neither ACK nor NAK, a NAK reason
outside 01h to 03h, or an ACK health bit above bit 2. -/
def parseReply (address : Nat) (bytes : List Byte) : SignReply :=
  let reply := bytes.take 5
  let item := read1 reply 3
  if sumBytes reply != 0#8 || byteAt reply 0 != syncByte || byteAt reply 1 != byteOf address then .bad
  else if byteAt reply 2 = 0x06#8 then
    if 8 ≤ item then .bad
    else .ack ((byteAt reply 3).getLsbD 0) ((byteAt reply 3).getLsbD 1) ((byteAt reply 3).getLsbD 2)
  else if byteAt reply 2 = 0x15#8 then
    if item = 1 ∨ item = 2 then .nakContent else if item = 3 then .nakBusy else .bad
  else .bad

/-! ### The charge stage (R189) -/

/-- R189: the set-point word: target voltage, current limit, and a check formed as R188 lays down. -/
def setPointWord (target : Int) (limit : Nat) : List Byte := withSumCheck (bytes2 target ++ bytes2 limit)

end Sys2Proof.Machine
end

