-- ==== Sys2Proof/Machine/Operands.lean ====
section
/-! DEFINITION. The operands of the masters' commands, read from the body bytes of a request (10.3): the command codes,
the body lengths a command takes (R167 step 3), and the arguments of the commands that carry several. -/

namespace Sys2Proof.Machine

/-- 10.3: the commands of the masters. -/
inductive Command where
  | status | fetchNotice | setNoticeMask | resetPort
  | readSegment | placeClaim | releaseClaim | confirmSweep | setAuthority
  | readGate | resetGate
  | postMessage | withdrawMessage | setPriorityMap | setClock
  | readSign | setSign
  | readChannel | submitObservation
  | readPath | reportDetection | clearPath | setPathFloor | seedPath
  | readPower | reload
deriving DecidableEq, Repr

/-- 10.3: the code of a command. -/
def Command.code : Command → Byte
  | .status => 0x01#8 | .fetchNotice => 0x02#8 | .setNoticeMask => 0x03#8 | .resetPort => 0x04#8
  | .readSegment => 0x10#8 | .placeClaim => 0x11#8 | .releaseClaim => 0x12#8 | .confirmSweep => 0x13#8
  | .setAuthority => 0x14#8
  | .readGate => 0x20#8 | .resetGate => 0x21#8
  | .postMessage => 0x30#8 | .withdrawMessage => 0x31#8 | .setPriorityMap => 0x32#8 | .setClock => 0x33#8
  | .readSign => 0x40#8 | .setSign => 0x41#8
  | .readChannel => 0x50#8 | .submitObservation => 0x51#8
  | .readPath => 0x60#8 | .reportDetection => 0x61#8 | .clearPath => 0x62#8 | .setPathFloor => 0x63#8
  | .seedPath => 0x64#8
  | .readPower => 0x70#8 | .reload => 0x7F#8

/-- The commands in the order of their codes. -/
def allCommands : List Command :=
  [.status, .fetchNotice, .setNoticeMask, .resetPort, .readSegment, .placeClaim, .releaseClaim, .confirmSweep,
   .setAuthority, .readGate, .resetGate, .postMessage, .withdrawMessage, .setPriorityMap, .setClock, .readSign,
   .setSign, .readChannel, .submitObservation, .readPath, .reportDetection, .clearPath, .setPathFloor, .seedPath,
   .readPower, .reload]

/-- R167 step 1: the command of a code the part knows. -/
def commandOfCode (code : Byte) : Option Command := allCommands.find? (fun c => c.code == code)

/-- 10.3, R167 step 3: the body length is one that the command takes. -/
def Command.takesLength (c : Command) (body : List Byte) : Bool :=
  match c with
  | .status | .fetchNotice | .resetPort | .readPower | .reload => body.length == 0
  | .readSegment | .confirmSweep | .readGate | .resetGate | .withdrawMessage | .readSign | .readChannel
  | .readPath | .clearPath => body.length == 1
  | .setNoticeMask | .releaseClaim | .setClock | .setSign | .reportDetection => body.length == 2
  | .setAuthority | .seedPath => body.length == 3
  | .submitObservation => body.length == 4
  | .setPathFloor => body.length == 6
  | .placeClaim => body.length == 13
  | .postMessage => decide (read1 body 3 ≤ 4) && body.length == 9 + 2 * read1 body 3
  | .setPriorityMap => decide (1 ≤ body.length) && decide (body.length ≤ 16)

/-- R167 step 2: the commands executed in LOADING and NO_CORRIDOR. -/
def Command.anyState : Command → Bool
  | .status | .fetchNotice | .setNoticeMask | .resetPort | .reload => true
  | _ => false

/-- 10.3: a delay or duration field, where 0 means none. -/
def optionalTime (n : Nat) : Option Nat := if n = 0 then none else some n

/-- 10.3: a slot field, where FFh means none. -/
def optionalSlot (n : Nat) : Option Nat := if n = 255 then none else some n

/-- R22: the arguments of PLACE CLAIM. -/
structure PlaceArgs where
  segment : Nat
  level : Level
  urgent : Bool
  reason : Nat
  delay : Option Nat
  duration : Option Nat
  link : Option Nat
deriving DecidableEq, Repr

/-- R22 step 1, for what the body alone decides: the level, the urgent field, urgent only with CLOSE, the reason and the
linked slot in range. -/
def parsePlace (body : List Byte) : Option PlaceArgs :=
  match levelOfCode (read1 body 1) with
  | none => none
  | some level =>
    let urgent := read1 body 2
    let link := optionalSlot (read1 body 12)
    if urgent ≤ 1 ∧ (urgent = 1 → level = .close) ∧ read1 body 3 ≤ 15 ∧
        (link = none ∨ (32 ≤ read1 body 12 ∧ read1 body 12 ≤ 63)) then
      some { segment := read1 body 0, level := level, urgent := urgent == 1, reason := read1 body 3,
             delay := optionalTime (read4 body 4), duration := optionalTime (read4 body 8), link := link }
    else none

/-- R75: the arguments of POST MESSAGE. -/
structure PostArgs where
  targets : Word16
  catalogue : Nat
  params : List Int
  urgency : Nat
  duration : Option Nat
deriving DecidableEq, Repr

/-- R75: the fields of POST MESSAGE; the parameter count is within 4 when the body length is one the command takes. -/
def parsePost (body : List Byte) : PostArgs :=
  { targets := BitVec.ofNat 16 (read2 body 0), catalogue := read1 body 2,
    params := (List.range (read1 body 3)).map (fun i => readInt2 body (9 + 2 * i)),
    urgency := read1 body 4, duration := optionalTime (read4 body 5) }

/-- R78: one entry of SET PRIORITY MAP: origin in bits 7 to 4; a set bit 3 or 2 is a class above 3. -/
def parsePriority (body : List Byte) : List (Nat × Nat) := body.map (fun b => (b.toNat / 16, b.toNat % 16))

end Sys2Proof.Machine
end

