-- ==== Sys2Proof/Machine/Ops.lean ====
section
/-! DEFINITION. The operations the blocks share: the clock, the records, the ports and their notices (R169), and the
entering of a request for a sign (R83). -/

namespace Sys2Proof.Machine

/-! ### The clock and the records -/

/-- The corridor time. -/
def State.now (s : State) : Nat := s.clocks.seconds

/-- READY and DEGRADED behave alike in every block (R182). -/
def State.described (s : State) : Bool := s.loader.state == .ready || s.loader.state == .degraded

/-- The segment record, changed in place. -/
def State.updSegment (s : State) (k : Nat) (f : Segment → Segment) : State :=
  { s with segs := { s.segs with records := s.segs.records.modify k f } }

/-- The claim list replaced. -/
def State.setClaims (s : State) (claims : List Claim) : State :=
  { s with segs := { s.segs with claims := claims } }

/-- The gate record, changed in place. -/
def State.updGate (s : State) (g : Nat) (f : Gate → Gate) : State :=
  { s with gates := s.gates.modify g f }

/-- The sign record, changed in place. -/
def State.updSign (s : State) (k : Nat) (f : Sign → Sign) : State :=
  { s with line := { s.line with signs := s.line.signs.modify k f } }

/-- The transaction in flight replaced. -/
def State.setInFlight (s : State) (x : Option InFlight) : State :=
  { s with line := { s.line with inFlight := x } }

/-- The path record, changed in place. -/
def State.updPath (s : State) (n : Nat) (f : Path → Path) : State :=
  { s with hazard := { s.hazard with paths := s.hazard.paths.modify n f } }

/-- The record of a channel, absent when the channel has none. -/
def State.channel? (s : State) (c : Nat) : Option Channel := (s.scan.channels[c]?).join

/-- The channel record written. -/
def State.setChannel (s : State) (c : Nat) (x : Channel) : State :=
  { s with scan := { s.scan with channels := s.scan.channels.set c (some x) } }

/-- R113: the debounced level of an input line: asserted or not. -/
def State.asserted (s : State) (line : Nat) : Bool := ((s.scan.lines[line]?).map (·.level)).getD false

/-! ### The ports -/

def Ports.get (p : Ports) : Master → Port
  | .centre => p.centre
  | .slope => p.slope
  | .crew => p.crew

def Ports.set (p : Ports) (m : Master) (x : Port) : Ports :=
  match m with
  | .centre => { p with centre := x }
  | .slope => { p with slope := x }
  | .crew => { p with crew := x }

/-- The port of this master. -/
def State.port (s : State) (m : Master) : Port := s.ports.get m

/-- The port of this master, replaced. -/
def State.setPort (s : State) (m : Master) (x : Port) : State := { s with ports := s.ports.set m x }

/-- R165: the free slot count, the number of EMPTY slots. -/
def Port.free (p : Port) : Nat := Config.requestSlots - (p.queued.length + p.done.length)

/-- R169: the same kind and object. -/
def Notice.sameKey (a b : Notice) : Bool := a.kind == b.kind && a.object == b.object

/-- R173: the mask admits the kind. -/
def Port.admits (p : Port) (k : NoticeKind) : Bool := p.mask.getLsbD k.code

/-- R168, R169 step 4: the overflow mark set; it is then set again for a transfer under way. -/
def Port.setOverflow (p : Port) : Port :=
  { p with overflow := true, transfer := p.transfer.map (fun t => { t with overflowAgain := true }) }

/-- R169: a port takes a notice raised for it: masked out, updated in place, dropped at a full queue, or queued. -/
def Port.take (p : Port) (n : Notice) : Port :=
  if !p.admits n.kind then p
  else if p.notices.any (fun e => e.sameKey n) then
    { p with notices := p.notices.map (fun e => if e.sameKey n then n else e) }
  else if Config.noticeQueueSize ≤ p.notices.length then p.setOverflow
  else { p with notices := p.notices ++ [n] }

/-- R169: the port of this master takes a notice. -/
def Ports.take (p : Ports) (m : Master) (n : Notice) : Ports := p.set m ((p.get m).take n)

/-- A notice raised for one port. -/
def State.tell (s : State) (m : Master) (n : Notice) : State := { s with ports := s.ports.take m n }

/-- A notice raised for every port, CENTRE, SLOPE and CREW in turn. -/
def State.tellAll (s : State) (n : Notice) : State := ((s.tell .centre n).tell .slope n).tell .crew n

/-- A notice of the present corridor time. -/
def State.notice (s : State) (kind : NoticeKind) (object : Nat) (first second third : Word16) : Notice :=
  { kind := kind, object := object, first := first, second := second, third := third, time := s.now }

/-- R170: the level of a port's attention line. -/
def State.attention (s : State) (m : Master) : Bool := s.held.isNone && !(s.port m).notices.isEmpty

/-! ### Claims (R2, R3) -/

/-- This is the record of the pair of segment and holder. -/
def Claim.isOf (c : Claim) (k : Nat) (h : Holder) : Bool := c.segment == k && c.holder == h

/-- R2: the in-use claim of the holder on the segment. -/
def State.claim? (s : State) (k : Nat) (h : Holder) : Option Claim := s.segs.claims.find? (fun c => c.isOf k h)

/-- R3: the in-use claims of a segment, oldest first. -/
def State.claimsOf (s : State) (k : Nat) : List Claim := s.segs.claims.filter (fun c => c.segment == k)

/-- R3: a claim ends; the claims behind it close up. -/
def State.dropClaim (s : State) (k : Nat) (h : Holder) : State :=
  s.setClaims (s.segs.claims.filter (fun c => !c.isOf k h))

/-- R3: the claim keeps its place and takes new fields. -/
def State.replaceClaim (s : State) (k : Nat) (h : Holder) (x : Claim) : State :=
  s.setClaims (s.segs.claims.map (fun c => if c.isOf k h then x else c))

/-- R3: the claim stands at the tail, whether it is new or moves there. -/
def State.tailClaim (s : State) (k : Nat) (h : Holder) (x : Claim) : State :=
  s.setClaims (s.segs.claims.filter (fun c => !c.isOf k h) ++ [x])

/-- R6: the claim of this master on this segment, if any, loses its linked slot. -/
def State.unlinkClaim (s : State) (k : Nat) (m : Master) : State :=
  s.setClaims (s.segs.claims.map (fun c => if c.isOf k (.master m) then { c with link := none } else c))

/-! ### The transmit list (R83, R84) -/

/-- R83: the rank CHANGE, BLANK, REFRESH, PROBE. -/
def EntryReason.rank : EntryReason → Nat
  | .change => 0 | .blank => 1 | .refresh => 2 | .probe => 3

/-- R83: the higher-ranked of two reasons. -/
def EntryReason.merge (a b : EntryReason) : EntryReason := if a.rank ≤ b.rank then a else b

/-- R85: two reasons merged, one of which may be absent. -/
def mergeHeld (a : EntryReason) : Option EntryReason → EntryReason
  | none => a
  | some b => a.merge b

/-- R85: the transaction in flight is one for this sign. -/
def State.inFlightFor (s : State) (k : Nat) : Bool :=
  match s.line.inFlight with
  | some x => x.entry.sign == k
  | none => false

/-- R83: a new entry joins the list, with the present corridor time as its request time. -/
def State.newEntry (s : State) (k : Nat) (r : EntryReason) : State :=
  { s with line := { s.line with
      entries := s.line.entries ++ [{ sign := k, reason := r, time := s.now, order := s.line.made }],
      made := s.line.made + 1 } }

/-- R83, R85: a request that is not dropped is held for a transaction in flight, merged into the sign's entry, or entered. -/
def State.enter (s : State) (k : Nat) (r : EntryReason) : State :=
  if s.inFlightFor k then
    s.setInFlight (s.line.inFlight.map (fun x => { x with held := some (mergeHeld r x.held) }))
  else if s.line.entries.any (fun e => e.sign == k) then
    { s with line := { s.line with
        entries := s.line.entries.map (fun e => if e.sign == k then { e with reason := e.reason.merge r } else e) } }
  else s.newEntry k r

/-- R83: a request is dropped for a sign that is DISABLED or has disable pending (or is not described). -/
def Sign.takesRequests (x : Sign) : Bool := x.state != .disabled && !x.disablePending

/-- R83: a request for a sign. -/
def State.request (s : State) (k : Nat) (r : EntryReason) : State :=
  match s.line.signs[k]? with
  | none => s
  | some x => if x.takesRequests then s.enter k r else s

end Sys2Proof.Machine
end

