-- ==== Sys2Proof/Machine/Selector.lean ====
section
/-! DEFINITION. The slot store and the selector (chapter 3): the candidates of a sign and their order (R70 to R72), the
top-candidate records (R73), a change of a slot's content (R59), and the content of the weather slots (R62, R63). -/

namespace Sys2Proof.Machine

/-- R72: what the order of candidates looks at. `place` is the place in the lookahead list for a segment slot, and
7 less the urgency for a posted slot, so that the smaller stands first in both. -/
structure Candidate where
  slot : Nat
  generation : Nat
  cls : Nat
  posted : Bool
  place : Nat
deriving DecidableEq, Repr

/-- R72: the first candidate stands before the second. -/
def Candidate.before (a b : Candidate) : Bool :=
  decide (b.cls < a.cls) ||
    (a.cls == b.cls && ((!a.posted && b.posted) ||
      (a.posted == b.posted && (decide (a.place < b.place) ||
        (a.place == b.place && decide (a.slot < b.slot))))))

/-- A slot as a candidate, when it is valid. -/
def Slot.candidate (x : Slot) (slot : Nat) (posted : Bool) (place : Nat) : Option Candidate :=
  x.content.map (fun c => { slot := slot, generation := x.generation, cls := c.cls, posted := posted, place := place })

/-- R70: the valid segment slots of a lookahead list, nearest first. -/
def State.segmentCandidates (s : State) (lookahead : List Nat) : List Candidate :=
  lookahead.zipIdx.filterMap (fun (k, i) => (s.store.slots[k]?).bind (fun x => x.candidate k false i))

/-- R70: the valid posted slots whose target set names the sign, by its bit (DEDUCED, notes/assumptions/41.md). -/
def State.postedCandidates (s : State) (sign : Nat) : List Candidate :=
  (s.store.slots.zipIdx.drop 32).filterMap (fun (x, n) =>
    x.posted.bind (fun p => if p.targets.getLsbD sign then x.candidate n true (7 - p.urgency) else none))

/-- R70: the candidates of a sign by its kind. -/
def State.allCandidates (s : State) (sign : Nat) (cfg : SignConfig) : List Candidate :=
  match cfg.kind with
  | .panel => s.segmentCandidates cfg.lookahead ++ s.postedCandidates sign
  | .picto => s.segmentCandidates cfg.lookahead
  | .weather => ((s.store.slots[16 + sign]?).bind (fun x => x.candidate (16 + sign) false 0)).toList

/-- R71: the candidates as the power mode filters them. -/
def State.candidates (s : State) (sign : Nat) (cfg : SignConfig) : List Candidate :=
  if s.power.mode = .reserve then
    (match cfg.kind with
      | .weather => []
      | _ => (s.allCandidates sign cfg).filter (fun c => decide (2 ≤ c.cls)))
  else s.allCandidates sign cfg

/-- R72: the candidate that stands first. -/
def firstCandidate : List Candidate → Option Candidate
  | [] => none
  | c :: rest =>
    match firstCandidate rest with
    | none => some c
    | some d => if d.before c then some d else some c

/-- R72: BLANK, the top candidate of a sign with no candidate. -/
def Top.blank : Top := { slot := none, generation := 0, cls := 0 }

/-- R72, R73: the record of the chosen top candidate. -/
def State.chooseTop (s : State) (sign : Nat) (cfg : SignConfig) : Top :=
  match firstCandidate (s.candidates sign cfg) with
  | none => Top.blank
  | some c => { slot := some c.slot, generation := c.generation, cls := c.cls }

/-- R73: one sign is reselected; CHANGE is asked when the record changes. -/
def State.reselectSign (s : State) (k : Nat) : State :=
  match s.line.signs[k]?, s.store.tops[k]? with
  | some x, some top =>
    let chosen := s.chooseTop k x.cfg
    if chosen = top then s
    else ({ s with store := { s.store with tops := s.store.tops.set k chosen } } : State).request k .change
  | _, _ => s

/-- R73: every described sign is reselected, in ascending sign number. -/
def State.reselect (s : State) : State := (List.range s.line.signs.length).foldl State.reselectSign s

/-- R59: the generation steps, from 255 to 0 on wrapping. -/
def nextGeneration (g : Nat) : Nat := (g + 1) % 256

/-- R59: a slot takes new fields; the generation steps when the content differs. -/
def Slot.renew (old new : Slot) : Slot :=
  { new with generation := if new.content = old.content then old.generation else nextGeneration old.generation }

/-- R59: a slot is written; when its content changes, every sign is reselected. -/
def State.writeSlot (s : State) (n : Nat) (f : Slot → Slot) : State :=
  match s.store.slots[n]? with
  | none => s
  | some old =>
    let new := old.renew (f old)
    let s' : State := { s with store := { s.store with slots := s.store.slots.set n new } }
    if new.content = old.content then s' else s'.reselect

/-- R59: the content of a slot is formed. -/
def State.formSlot (s : State) (n : Nat) (c : Option Content) : State :=
  s.writeSlot n (fun x => { x with content := c })

/-- R64: the class of an origin. -/
def State.classOf (s : State) (origin : Nat) : Nat := s.store.priority.getD origin 0

/-- A content with the class the priority map gives its origin (R64). -/
def State.content (s : State) (origin catalogue : Nat) (params : List Int) : Content :=
  { origin := origin, cls := s.classOf origin, catalogue := catalogue, params := params }

/-! ### Weather slots -/

/-- R63: tenths of a degree in whole degrees, rounded half away from zero. -/
def displayTemperature (v : Int) : Int :=
  let magnitude : Int := ((v.natAbs + 5) / 10 : Nat)
  if v < 0 then -magnitude else magnitude

/-- R63: tenths of a metre per second in whole km/h; a value below 0 is shown as 0. -/
def displayWind (v : Int) : Int := if v < 0 then 0 else (v * 36 + 50) / 100

/-- R123: the value of a channel that is usable, GOOD or HELD. -/
def Channel.usable (c : Channel) : Option Int :=
  if c.quality = .good ∨ c.quality = .held then c.value else none

/-- R62: the lowest-numbered described channel of this kind at this station. -/
def State.stationChannel (s : State) (station : Nat) (kind : ChannelKind) : Option (Nat × Channel) :=
  (s.scan.channels.zipIdx.filterMap (fun (x, c) => x.map (fun y => (c, y)))).find?
    (fun (_, y) => y.desc.kind == kind && y.desc.station == some station)

/-- R62: a figure of a weather slot, 32767 when it is not known. -/
def State.weatherFigure (s : State) (station : Nat) (kind : ChannelKind) (display : Int → Int) : Int :=
  match (s.stationChannel station kind).bind (fun (_, y) => y.usable) with
  | some v => display v
  | none => Config.absentFigure

/-- R62: the content of the weather slot of a sign at this station. -/
def State.weatherContent (s : State) (station : Nat) : Content :=
  s.content 6 7 [s.weatherFigure station .airTemp displayTemperature,
    s.weatherFigure station .surfaceTemp displayTemperature,
    s.weatherFigure station .windSpeed displayWind]

/-- R62: the weather slot of a sign is formed anew; it is valid only for a sign of kind WEATHER. -/
def State.formWeather (s : State) (k : Nat) : State :=
  match s.line.signs[k]? with
  | some x => if x.cfg.kind = .weather then s.formSlot (16 + k) (some (s.weatherContent x.cfg.station)) else s
  | none => s

/-- R112 step 2: a publication of channel c forms the weather slots that draw on it. -/
def State.formWeatherFrom (s : State) (c : Nat) (y : Channel) : State :=
  (List.range s.line.signs.length).foldl (fun s k =>
    match s.line.signs[k]? with
    | some x =>
      if x.cfg.kind = .weather ∧
          (y.desc.kind = .airTemp ∨ y.desc.kind = .surfaceTemp ∨ y.desc.kind = .windSpeed) ∧
          y.desc.station = some x.cfg.station ∧
          (s.stationChannel x.cfg.station y.desc.kind).map Prod.fst = some c
      then s.formWeather k else s
    | none => s) s

end Sys2Proof.Machine
end

