-- ==== Sys2Proof/Machine/Mode.lean ====
section
/-! DEFINITION. The operating mode (R155 to R158): its thresholds, its evaluation, and the handing on of a change to the
selector (R71) and the sign line controller (R95, R96). -/

namespace Sys2Proof.Machine

/-- R146: a share of the capacity in mAh, remainder dropped. -/
def PowerParams.share (p : PowerParams) (percent : Nat) : Nat := p.capacity * percent / 100

/-- R146: the economy threshold E1. -/
def PowerParams.e1 (p : PowerParams) : Nat := p.share p.economyPercent
/-- R146: the reserve threshold E2. -/
def PowerParams.e2 (p : PowerParams) : Nat := p.share p.reservePercent
/-- R146: the mode hysteresis, 5 % of the capacity. -/
def PowerParams.hysteresis (p : PowerParams) : Nat := p.share 5

/-- R155: the headroom H, signed. -/
def Power.headroom (p : Power) : Int := (p.account : Int) - p.reserve

/-- R156: the mode after one evaluation, at most one step away. -/
def Power.nextMode (p : Power) : Mode :=
  match p.mode with
  | .normal => if p.headroom < p.params.e1 then .economy else .normal
  | .economy =>
    if p.headroom < p.params.e2 then .reserve
    else if (p.params.e1 + p.params.hysteresis : Nat) ≤ p.headroom then .normal
    else .economy
  | .reserve => if (p.params.e2 + p.params.hysteresis : Nat) ≤ p.headroom then .economy else .reserve

/-- R163: a charge in thousandths of the capacity, the fraction dropped toward zero. -/
def Power.thousandths (p : Power) (charge : Int) : Int := (charge * 1000).tdiv p.params.capacity

/-- R163: POWER_MODE. -/
def State.powerModeNotice (s : State) : Notice :=
  s.notice .powerMode 0 (packed 0 s.power.mode.code) (value16 (s.power.thousandths s.power.headroom))
    (value16 (s.power.thousandths s.power.account))

/-- R95: the refresh interval of a kind of sign in a mode. -/
def refreshInterval : Mode → SignKind → Option Nat
  | .normal, _ => some 60
  | .economy, _ => some 120
  | .reserve, .weather => none
  | .reserve, _ => some 120

/-- R95: the refresh due time of a sign, from its last ACK. -/
def Sign.refreshTime (x : Sign) (mode : Mode) : Option Nat :=
  if (x.state = .online ∨ x.state = .degraded) ∧ !x.disablePending then
    x.lastAck.bind (fun t => (refreshInterval mode x.cfg.kind).map (fun i => t + i))
  else none

/-- R95: at a change of mode a sign's refresh due is set again; one at or before the moment enters its REFRESH at once. -/
def State.resetRefresh (s : State) (k : Nat) : State :=
  match s.line.signs[k]? with
  | none => s
  | some x =>
    match x.refreshTime s.power.mode with
    | none => s.updSign k (fun y => { y with refreshDue := none })
    | some t =>
      if t ≤ s.now then (s.updSign k (fun y => { y with refreshDue := none })).request k .refresh
      else s.updSign k (fun y => { y with refreshDue := some t })

/-- R96: at a change into RESERVE a WEATHER sign that is not DISABLED is asked to go BLANK and loses its refresh. -/
def State.blankWeather (s : State) (k : Nat) : State :=
  match s.line.signs[k]? with
  | none => s
  | some x =>
    if x.cfg.kind = .weather then
      (s.updSign k (fun y => { y with refreshDue := none })).request k .blank
    else s

/-- A step over every described sign, in ascending sign number. -/
def State.eachSign (s : State) (f : State → Nat → State) : State := (List.range s.line.signs.length).foldl f s

/-- R157: a change of mode, already recorded, is handed to the selector and then to the sign line controller. -/
def State.handMode (s : State) (old : Mode) : State :=
  let s := if old = .reserve ∨ s.power.mode = .reserve then s.reselect else s
  let s := s.eachSign State.resetRefresh
  if s.power.mode = .reserve then s.eachSign State.blankWeather else s

/-- R156, R157: one evaluation of the mode; `silent` at the derivations of R159 and R160, which raise no POWER_MODE. -/
def State.evaluateMode (s : State) (silent : Bool) : State :=
  let next := s.power.nextMode
  if next = s.power.mode then s
  else
    let old := s.power.mode
    let s : State := { s with power := { s.power with mode := next } }
    let s := if silent then s else s.tellAll s.powerModeNotice
    s.handMode old

/-! ### The closure reserve and raise admission -/

/-- R155: the gates whose arms are not down and which the sequencer can still drive down. -/
def GateState.counted : GateState → Bool
  | .up | .raising | .lowering | .stopped => true
  | .down | .fault | .manual => false

/-- R155: the closure reserve of these gates. -/
def closureReserve (gates : List Gate) : Nat :=
  gates.foldr (fun g sum => (if g.state.counted then g.cfg.lowerCost else 0) + sum) 0

/-- R155: the reserve follows a gate state report; a change of it starts an evaluation of the mode. -/
def State.updateReserve (s : State) : State :=
  let rg := closureReserve s.gates
  if rg = s.power.reserve then s
  else ({ s with power := { s.power with reserve := rg } } : State).evaluateMode false

/-- R158: admission of a raise. -/
def Power.admits (p : Power) (g : GateConfig) : Bool :=
  (p.mode == .normal || p.mode == .economy) &&
    decide ((p.reserve : Int) ≤ (p.account : Int) - g.raiseCost - g.lowerCost)

end Sys2Proof.Machine
end

