-- ==== Sys2Proof/Machine/Flags.lean ====
section
/-! DEFINITION. The marks and standings the blocks compute: level, urgency and deciding claim of a segment (R7), the
tests on its gates (R12, R16, R18), its demand and lamps (R19), its notice (R28), positions and drives of a gate (R32,
R33), and the state a sign takes at an ACK (R82). -/

namespace Sys2Proof.Machine

/-! ### Claims and levels -/

/-- R7: the higher of two levels. -/
def Level.higher (a b : Level) : Level := if a.code < b.code then b else a

/-- R4: the level a claim counts as; a pending claim counts as ADVISE. -/
def Claim.counted (c : Claim) : Level := if c.pending then .advise else c.level

/-- R7: the highest counted level, NONE without claims. -/
def effectiveLevel (claims : List Claim) : Level := claims.foldr (fun c l => c.counted.higher l) .noLevel

/-- R4, R7: this claim makes its segment urgent. -/
def Claim.presses (c : Claim) : Bool := !c.pending && c.level == .close && c.urgent

/-- R7: at least one active CLOSE claim is urgent. -/
def urgentClaims (claims : List Claim) : Bool := claims.any Claim.presses

/-- R7: the oldest claim at the effective level. -/
def decidingClaim (claims : List Claim) : Option Claim :=
  claims.find? (fun c => c.counted == effectiveLevel claims)

/-- R9: the right of a level. -/
def levelRight : Level → Nat
  | .noLevel => 0 | .advise => 0 | .chains => 1 | .close => 2

/-- R9: the bits of OVERRIDE and SWEEP. -/
def overrideRight : Nat := 3
def sweepRight : Nat := 4

/-- R9: the master holds this right on the segment, by the map as it stands. -/
def State.hasRight (s : State) (k : Nat) (m : Master) (right : Nat) : Bool :=
  ((s.segs.authority[3 * k + masterCode m]?).map (fun r => r.getLsbD right)).getD false

/-! ### Segments -/

/-- R11, R18: OPEN or RESTRICTED by the effective level. -/
def openState (l : Level) : SegState := if l = .chains then .restricted else .opened

/-- R19: the demand of a state and phase. -/
def Segment.wantedDemand (x : Segment) : Demand :=
  match x.state with
  | .opened | .restricted => .noDemand
  | .closing => if x.phase = some .lowering then .lower else .noDemand
  | .closed => .lower
  | .reopening => if x.swept then .raise else .hold

/-- R19: the lamps of a state flash. -/
def Segment.wantedLamps (x : Segment) : Bool := x.state != .opened && x.state != .restricted

/-- R28: what a SEGMENT_STATE notice is raised for. -/
structure SegmentKey where
  state : SegState
  phase : Option Phase
  level : Level
  secured : Bool
  swept : Bool
deriving DecidableEq, Repr

def Segment.key (x : Segment) : SegmentKey :=
  { state := x.state, phase := x.phase, level := x.level, secured := x.secured, swept := x.swept }

/-- R28: SEGMENT_STATE with these values. -/
def State.segmentNotice (s : State) (k : Nat) (x : Segment) : Notice :=
  s.notice .segmentState k (packed x.state.code (phaseCode x.phase)) (packed x.level.code (markCode x.urgent))
    (packed 0 (markCode x.secured + 2 * markCode x.unwarned + 4 * markCode x.swept))

/-- R28: an event of segment k, with the one SEGMENT_STATE it raises when the standing differs after it. -/
def State.withSegmentNotice (s : State) (k : Nat) (f : State → State) : State :=
  let t := f s
  match s.segs.records[k]?, t.segs.records[k]? with
  | some x, some y => if x.key = y.key then t else t.tellAll (t.segmentNotice k y)
  | _, _ => t

/-- R13: pre-warning remaining in whole minutes, rounded up. -/
def minuteFigure (seconds : Nat) : Nat := (seconds + 59) / 60

/-! ### Gates -/

/-- R32. -/
def positionOf (up down : Bool) : Position :=
  match up, down with
  | true, false => .atUp
  | false, true => .atDown
  | false, false => .between
  | true, true => .conflict

/-- R32: the position of a gate from the debounced levels of its limit lines. -/
def State.positionOf (s : State) (g : GateConfig) : Position :=
  Machine.positionOf (s.asserted g.upLine) (s.asserted g.downLine)

/-- R33: the lower drive. -/
def Gate.lowerDrive (g : Gate) : Bool := g.state == .lowering && g.sub == some .driving

/-- R33: the raise drive. -/
def Gate.raiseDrive (g : Gate) : Bool := g.state == .raising

/-- R42: the travel timer runs. -/
def Gate.travelling (g : Gate) : Bool := g.lowerDrive || g.raiseDrive

/-- R33, R34, R159: the level of an output line; all are off in a reset, in LOADING and in NO_CORRIDOR. -/
def State.output (s : State) (line : Nat) : Bool :=
  s.held.isNone && s.described && s.gates.any (fun g =>
    (g.cfg.lowerLine == line && g.lowerDrive) || (g.cfg.raiseLine == line && g.raiseDrive) ||
      (g.cfg.lampLine == line && g.flashing && g.lampOn))

/-- R159, R189: the level of the charge-enable line. -/
def State.chargeEnable (s : State) : Bool := s.held.isNone && s.power.enable

/-- R16: a gate that holds its segment in phase LOWERING. -/
def Gate.lowers (g : Gate) : Bool := g.state == .lowering || g.state == .stopped

/-- R16: a gate counted as down. -/
def Gate.isDown (g : Gate) : Bool := g.state == .down || (g.state == .manual && g.position == .atDown)

/-- R18: a gate counted as up. -/
def Gate.isUp (g : Gate) : Bool := g.state == .up || (g.state == .manual && g.position == .atUp)

/-- The gate records of a gate list, in its order. -/
def State.gatesOf (s : State) (list : List Nat) : List Gate := list.filterMap (fun g => s.gates[g]?)

/-- R16: phase LOWERING ends. -/
def State.loweringDone (s : State) (list : List Nat) : Bool := (s.gatesOf list).all (fun g => !g.lowers)

/-- R16: every gate is down. -/
def State.allDown (s : State) (list : List Nat) : Bool := (s.gatesOf list).all Gate.isDown

/-- R18: every gate is up. -/
def State.allUp (s : State) (list : List Nat) : Bool := (s.gatesOf list).all Gate.isUp

/-! ### Signs -/

/-- R82: the state an ACK gives. -/
def ackState (lamp heater door refused : Bool) : SignState :=
  if lamp || heater || door || refused then .degraded else .online

/-- R12: the segment owning the slot is in a state in which content of its slot warns for segment k: k itself CLOSING, or
an earlier segment of the lookahead list CLOSING, CLOSED or REOPENING. -/
def State.ownerWarns (s : State) (k owner : Nat) (lookahead : List Nat) : Bool :=
  match s.segs.records[owner]? with
  | none => false
  | some x =>
    if owner = k then x.state == .closing
    else (lookahead.takeWhile (fun j => j != k)).contains owner && lookahead.contains k &&
      (x.state == .closing || x.state == .closed || x.state == .reopening)

/-- R12: the acknowledged content of this sign confirms a warning for segment k. -/
def State.confirms (s : State) (k : Nat) (x : Sign) : Bool :=
  match x.ack with
  | none => false
  | some a => a.cls == 3 && decide (a.slot < 16) && s.ownerWarns k a.slot x.cfg.lookahead

/-- R12: the test at entry to CONFIRMING, over the approach signs in ONLINE or DEGRADED. -/
def State.entryConfirmed (s : State) (k : Nat) (approach : List Nat) : Bool :=
  approach.any (fun n =>
    match s.line.signs[n]? with
    | some x => (x.state == .online || x.state == .degraded) && s.confirms k x
    | none => false)

end Sys2Proof.Machine
end

