-- ==== Sys2Proof/Machine/Road.lean ====
section
/-! DEFINITION. What the segment table and the gate sequencer do to each other: the content of a segment slot (R60,
R61, R69), lamps and demand (R19, R34, R36 to R40), gate state reports (R35) with their tests (R16 to R18), and the
recomputation of a segment (R8). -/

namespace Sys2Proof.Machine

/-! ### Segment slots -/

/-- R69: the start minute of a start s under a display clock setting, rounded up to the next whole minute. -/
def startMinute (c : ClockSetting) (start : Nat) : Nat := (c.minute + (start - c.setAt + 59) / 60) % 1440

/-- R61: the parameter of CLOSURE SCHEDULED. -/
def State.scheduledMinute (s : State) (c : Claim) : Int :=
  match s.clocks.display, c.start with
  | some d, some t => (startMinute d t : Int)
  | _, _ => Config.absentFigure

/-- R61: the highest level among the paths of the segment's HAZARD claims. -/
def State.dangerLevel (s : State) (k : Nat) : Int :=
  let levels := (s.claimsOf k).filterMap (fun c => (holderPath c.holder).bind (fun p => (s.hazard.paths[p]?).map (·.level)))
  match levels with
  | [] => Config.absentFigure
  | _ => (levels.foldr Nat.max 0 : Nat)

/-- R61: the content of the slot of segment k. -/
def State.segmentContent (s : State) (k : Nat) (x : Segment) : Option Content :=
  let deciding := decidingClaim (s.claimsOf k)
  let reason : Int := ((deciding.map (·.reason)).getD 0 : Nat)
  match x.state with
  | .opened =>
    match x.level, deciding with
    | .advise, some c =>
      if c.pending then some (s.content 5 6 [s.scheduledMinute c])
      else if c.reason = 2 then some (s.content 1 2 [s.dangerLevel k])
      else some (s.content 0 1 [reason])
    | _, _ => none
  | .restricted => some (s.content 2 3 [reason])
  | .closing => some (s.content 3 4 [(minuteFigure x.remaining : Nat), reason])
  | .closed | .reopening => some (s.content 4 5 [reason])

/-- R60: the segment slot is formed. -/
def State.formSegmentSlot (s : State) (k : Nat) : State :=
  match s.segs.records[k]? with
  | none => s
  | some x => s.formSlot k (s.segmentContent k x)

/-! ### Lamps and recorded demand -/

/-- R34: the sequencer starts or stops the flashing of a gate's lamp. -/
def Gate.setLamp (g : Gate) (flash : Bool) : Gate :=
  if g.flashing = flash then g
  else { g with flashing := flash, lampOn := flash, lampLeft := if flash then Config.lampHalfPeriod else 0 }

/-- R34: the lamp setting of a segment handed over for its gate list. -/
def State.handLamps (s : State) (list : List Nat) (flash : Bool) : State :=
  list.foldl (fun s g => s.updGate g (fun x => x.setLamp flash)) s

/-- R36, R41: a gate records a demand; when it leaves RAISE, raise held becomes no. -/
def Gate.record (g : Gate) (d : Demand) : Gate :=
  { g with demand := d, raiseHeld := g.raiseHeld && d == .raise }

/-- R36: the demand of a segment recorded in each gate of its gate list. -/
def State.recordDemand (s : State) (list : List Nat) (d : Demand) : State :=
  list.foldl (fun s g => s.updGate g (fun x => x.record d)) s

/-! ### Gate state reports -/

/-- R16 to R18: the test of a segment at a gate state report or a demand-applied report. A completed reopening hands
demand NONE, which starts no travel and is not reported (R40). -/
def State.testGates (s : State) (k : Nat) : State :=
  match s.segs.records[k]? with
  | none => s
  | some x =>
    match x.state with
    | .closing =>
      if x.phase = some .lowering ∧ s.loweringDone x.cfg.gates then
        (s.updSegment k (fun y => { y with
          state := .closed, phase := none, since := s.now, remaining := 0, confirmDue := none,
          secured := s.allDown x.cfg.gates })).formSegmentSlot k
      else s
    | .closed => s.updSegment k (fun y => { y with secured := s.allDown x.cfg.gates })
    | .reopening =>
      if x.swept ∧ s.allUp x.cfg.gates then
        let s := s.updSegment k (fun y => { y with
          state := openState y.level, since := s.now, swept := false, demand := .noDemand })
        let s := s.handLamps x.cfg.gates false
        (s.recordDemand x.cfg.gates .noDemand).formSegmentSlot k
      else s
    | _ => s

/-- R56: GATE_STATE. -/
def State.gateNotice (s : State) (g : Nat) (x : Gate) : Notice :=
  s.notice .gateState g (packed x.state.code (16 * reasonCode x.reason + subCode x.sub))
    (packed x.position.code (markCode x.raiseHeld)) (value16 x.travel)

/-- R35: a gate state report, to the segment table, to the power controller, and as GATE_STATE. The notice shows the gate
as it reports itself, its raise held mark too: a report that completes a reopening, whose demand NONE then clears the mark
(R41), shows the mark it had (DESIGN CHOICE, notes/assumptions/45.md). -/
def State.gateReport (s : State) (g : Nat) : State :=
  match s.gates[g]? with
  | none => s
  | some x =>
    let s := (s.testGates x.cfg.segment).updateReserve
    s.tellAll (s.gateNotice g x)

/-- A change of a gate's record that is reported (R35). -/
def State.changeGate (s : State) (g : Nat) (f : Gate → Gate) : State := (s.updGate g f).gateReport g

/-! ### The changes of a gate's state -/

/-- R37, R42, R43: a full lowering under drive begins. -/
def Gate.startLowering (g : Gate) : Gate :=
  { g with state := .lowering, sub := some .driving, travel := g.cfg.timeout, pause := none, holdOff := none }

/-- R37, R43: the arm waits with its full travel, no hold-off running. -/
def Gate.startStopped (g : Gate) : Gate :=
  { g with state := .stopped, sub := none, travel := g.cfg.timeout, pause := none, holdOff := none }

/-- R37: a raising arm reverses through its pause. -/
def Gate.reverse (g : Gate) : Gate :=
  { g with state := .lowering, sub := some .reversing, travel := g.cfg.timeout, pause := some Config.reversalPause,
           holdOff := none }

/-- R38: a raise begins. -/
def Gate.startRaising (g : Gate) : Gate :=
  { g with state := .raising, sub := none, travel := g.cfg.timeout, pause := none, holdOff := none, raiseHeld := false }

/-- R42, R45, R47, R55: the arm comes to rest UP or DOWN. Raise held keeps its value, so that a gate that went to FAULT
while held and is reset to UP under demand RAISE shows it yes (DEDUCED, notes/assumptions/15.md). -/
def Gate.rest (g : Gate) (state : GateState) : Gate :=
  { g with state := state, sub := none, travel := 0, pause := none, holdOff := none, reason := none }

/-- R44 to R46: the gate goes to FAULT. Raise held keeps its value (DEDUCED, notes/assumptions/15.md). -/
def Gate.toFault (g : Gate) (reason : FaultReason) : Gate :=
  { g with state := .fault, sub := none, travel := 0, pause := none, holdOff := none, reason := some reason }

/-- R50: the gate goes to MANUAL. -/
def Gate.toManual (g : Gate) : Gate :=
  { g with state := .manual, sub := none, travel := 0, pause := none, holdOff := none, reason := none, raiseHeld := false }

/-! ### Demand applied -/

/-- R37: demand LOWER applied to a gate. -/
def State.applyLower (s : State) (g : Nat) : State :=
  match s.gates[g]? with
  | none => s
  | some x =>
    match x.state with
    | .up =>
      if s.asserted x.cfg.obstructionLine then s.changeGate g Gate.startStopped else s.changeGate g Gate.startLowering
    | .raising => s.changeGate g Gate.reverse
    | .down | .lowering | .stopped | .fault | .manual => s

/-- R57: GATE_HELD, at the mode of the refused test. -/
def State.heldNotice (s : State) (g : Nat) (x : Gate) : Notice :=
  s.notice .gateHeld g (value16 x.cfg.segment) (packed 0 s.power.mode.code) (value16 ((x.cfg.raiseCost + x.cfg.lowerCost : Nat) : Int))

/-- R38: demand RAISE applied to a gate. -/
def State.applyRaise (s : State) (g : Nat) : State :=
  match s.gates[g]? with
  | none => s
  | some x =>
    match x.state with
    | .down =>
      if s.power.admits x.cfg then s.changeGate g Gate.startRaising
      else if x.raiseHeld then s
      else
        let s := s.updGate g (fun y => { y with raiseHeld := true })
        s.tellAll (s.heldNotice g x)
    | .up | .raising | .lowering | .stopped | .fault | .manual => s

/-- R40: the demand recorded in a gate applied to it alone; NONE and HOLD start no travel. -/
def State.applyRecorded (s : State) (g : Nat) : State :=
  match s.gates[g]? with
  | none => s
  | some x =>
    match x.demand with
    | .lower => s.applyLower g
    | .raise => s.applyRaise g
    | .noDemand | .hold => s

/-- R40, R45: a gate arrives at UP or DOWN: it is reported, and the recorded demand is applied to it. -/
def State.arrive (s : State) (g : Nat) (state : GateState) : State :=
  (s.changeGate g (fun x => x.rest state)).applyRecorded g

/-- R36: a new demand handed for a gate list: recorded in each gate, applied one after another, and then tested for the
segment on the demand-applied report (R16). -/
def State.handDemand (s : State) (k : Nat) (list : List Nat) (d : Demand) : State :=
  (list.foldl State.applyRecorded (s.recordDemand list d)).testGates k

/-! ### Segments -/

/-- R8 steps 3 and 4, R19: lamps and demand that differ from those the segment's standing calls for are handed over, and
the segment slot is formed. -/
def State.followUp (s : State) (k : Nat) : State :=
  match s.segs.records[k]? with
  | none => s
  | some x =>
    let s := s.handLamps x.cfg.gates x.wantedLamps
    let s :=
      if x.demand = x.wantedDemand then s
      else (s.updSegment k (fun y => { y with demand := x.wantedDemand })).handDemand k x.cfg.gates x.wantedDemand
    s.formSegmentSlot k

/-- R13: a segment in phase PREWARN whose countdown has nothing left to run passes at once to LOWERING. -/
def Segment.toPrewarn (x : Segment) : Segment :=
  if x.remaining = 0 then { x with phase := some .lowering, confirmDue := none }
  else { x with phase := some .prewarn, confirmDue := none }

/-- R13, R14: phase LOWERING, with nothing of the pre-warning left. -/
def Segment.toLowering (x : Segment) : Segment :=
  { x with phase := some .lowering, remaining := 0, confirmDue := none }

/-- R11, R15: OPEN or RESTRICTED by the level; since changes on entry to a new state. -/
def Segment.toOpen (x : Segment) (now : Nat) : Segment :=
  if x.state = openState x.level then { x with phase := none, remaining := 0, confirmDue := none }
  else { x with state := openState x.level, phase := none, since := now, remaining := 0, confirmDue := none, swept := false }

/-- R15, R17: REOPENING, not swept. -/
def Segment.toReopening (x : Segment) (now : Nat) : Segment :=
  { x with state := .reopening, phase := none, since := now, remaining := 0, confirmDue := none, secured := false,
           swept := false }

/-- R11, R12: entry to CLOSING from OPEN or RESTRICTED, not urgent; `confirmed` is the result of the entry test. -/
def Segment.toClosing (x : Segment) (now : Nat) (confirmed : Bool) : Segment :=
  let y := { x with state := .closing, since := now, unwarned := false, remaining := x.cfg.interval }
  if x.cfg.approach.isEmpty || confirmed then y.toPrewarn
  else { y with phase := some .confirming, confirmDue := some (now + Config.confirmingLimit) }

/-- R11, R18: entry to CLOSING straight in phase LOWERING. -/
def Segment.toClosingLowering (x : Segment) (now : Nat) : Segment :=
  ({ x with state := .closing, since := now, swept := false }).toLowering

/-- R11, R14, R15, R17, R18: the state rule for a segment whose level and urgency have been derived anew. The test of
R12 at entry to CONFIRMING finds segment k itself CLOSING, so it is made by the caller on that footing. -/
def Segment.step (x : Segment) (now : Nat) (confirmed : Bool) : Segment :=
  match x.state with
  | .opened | .restricted =>
    if x.level = .close then
      (if x.urgent then { x.toClosingLowering now with unwarned := false } else x.toClosing now confirmed)
    else x.toOpen now
  | .closing =>
    if x.phase = some .lowering then (if x.level = .close then x else x.toReopening now)
    else if x.level = .close then (if x.urgent then x.toLowering else x)
    else x.toOpen now
  | .closed => if x.level = .close then x else x.toReopening now
  | .reopening => if x.level = .close then x.toClosingLowering now else x

/-- R7, R8 step 1: the level, urgency and deciding claim of a segment, derived from its claims. -/
def Segment.derive (x : Segment) (claims : List Claim) : Segment :=
  { x with level := effectiveLevel claims, urgent := urgentClaims claims,
           deciding := (decidingClaim claims).map (·.holder) }

/-- R8 steps 1 and 2. The entry test of R12 is made with segment k counted as CLOSING. -/
def State.stepSegment (s : State) (k : Nat) : State :=
  match s.segs.records[k]? with
  | none => s
  | some x =>
    let confirmed := (s.updSegment k (fun y => { y with state := .closing })).entryConfirmed k x.cfg.approach
    s.updSegment k (fun y => (y.derive (s.claimsOf k)).step s.now confirmed)

/-- R8: recomputation of a segment, with its SEGMENT_STATE. -/
def State.recompute (s : State) (k : Nat) : State :=
  s.withSegmentNotice k (fun s => (s.stepSegment k).followUp k)

/-! ### HAZARD claims -/

/-- R134: what a path calls for on its segments: CLOSE urgent, CLOSE, ADVISE, or nothing (`noLevel`). -/
structure Call where
  level : Level
  urgent : Bool
deriving DecidableEq, Repr

/-- R10: the segment table makes the path's claim on segment k match the call, and recomputes on a change. -/
def State.matchClaim (s : State) (k path : Nat) (call : Call) : State :=
  match s.claim? k (.hazard path) with
  | none =>
    if call.level = .noLevel then s
    else (s.tailClaim k (.hazard path) {
      segment := k, holder := .hazard path, level := call.level, urgent := call.urgent,
      reason := 2, since := s.now, start := none, endsAt := none, link := none, pending := false }).recompute k
  | some c =>
    if call.level = .noLevel then (s.dropClaim k (.hazard path)).recompute k
    else if c.level.code < call.level.code then
      (s.tailClaim k (.hazard path) { c with level := call.level, urgent := call.urgent, since := s.now }).recompute k
    else if c.level = call.level ∧ c.urgent = call.urgent then s
    else (s.replaceClaim k (.hazard path) { c with level := call.level, urgent := call.urgent }).recompute k

/-- R60: the slot of segment k depends on path levels. -/
def State.showsDanger (s : State) (k : Nat) : Bool :=
  match s.segs.records[k]?, decidingClaim (s.claimsOf k) with
  | some x, some c => x.state == .opened && x.level == .advise && !c.pending && c.reason == 2
  | _, _ => false

/-- R135: one call handed over to one segment; the slot that depends on path levels is formed anew (R60). -/
def State.handCall (s : State) (k path : Nat) (call : Call) : State :=
  let s := s.matchClaim k path call
  if s.showsDanger k then s.formSegmentSlot k else s

/-- R134: the call of a path. -/
def Path.call (p : Path) : Call :=
  if p.latch ≠ .clear ∨ p.level = 5 then { level := .close, urgent := true }
  else if p.cfg.closeLevel ≤ p.level then { level := .close, urgent := false }
  else if p.cfg.adviseLevel ≤ p.level then { level := .advise, urgent := false }
  else { level := .noLevel, urgent := false }

/-- R135: a path's calls, handed to each affected segment in turn. -/
def State.handOver (s : State) (path : Nat) : State :=
  match s.hazard.paths[path]? with
  | none => s
  | some p => p.cfg.segments.foldl (fun s k => s.handCall k path p.call) s

end Sys2Proof.Machine
end

