-- ==== Sys2Proof/Machine/Posted.lean ====
section
/-! DEFINITION. Posted slots (R66, R67): how one ends, and what that does to its claim and its owner. -/

namespace Sys2Proof.Machine

/-- R58: the first slot and the number of slots of a master's range. -/
def postedRange : Master → Nat × Nat
  | .centre => (32, 16)
  | .slope => (48, 8)
  | .crew => (56, 8)

/-- R66: the origin of a posted slot. -/
def postedOrigin (owner : Master) (urgency : Nat) : Nat := if owner = .crew then 15 else 7 + urgency

/-- R80: SLOT_ENDED. -/
def State.slotNotice (s : State) (n : Nat) (cause : SlotEndCause) (catalogue : Nat) (link : Option Nat) : Notice :=
  s.notice .slotEnded n (packed 0 cause.code) (packed 0 catalogue) (value16 ((link.map Int.ofNat).getD Config.absentFigure))

/-- R67, R80: a posted slot ends: its claim loses the link, the slot becomes invalid, and SLOT_ENDED goes to its owner's
port where the cause calls for one. -/
def State.endPosted (s : State) (n : Nat) (cause : SlotEndCause) (tell : Bool) : State :=
  match s.store.slots[n]? with
  | none => s
  | some x =>
    match x.content, x.posted with
    | some c, some p =>
      let t := match p.link with
        | some k => s.unlinkClaim k p.owner
        | none => s
      let t := t.writeSlot n (fun y => { y with content := none, posted := none })
      if tell then t.tell p.owner (t.slotNotice n cause c.catalogue p.link) else t
    | _, _ => s

/-- R6: the link of a posted slot set or cleared; it is not content. -/
def State.linkSlot (s : State) (n : Nat) (link : Option Nat) : State :=
  { s with store := { s.store with slots := s.store.slots.modify n (fun x =>
      { x with posted := x.posted.map (fun p => { p with link := link }) }) } }

/-- R6: when a claim ends, its linked slot is withdrawn with cause CLAIM_ENDED. -/
def State.withdrawLinked (s : State) (c : Claim) : State :=
  match c.link with
  | none => s
  | some n => s.endPosted n .claimEnded true

end Sys2Proof.Machine
end

