-- ==== Sys2Proof/Machine/Execution.lean ====
section
/-! DEFINITION. The execution of a QUEUED command (R167): the port block's own checks, the handing to the owning block,
and the response that makes the slot DONE. -/

namespace Sys2Proof.Machine

/-- What the owning block answers: a response code, a body and the state after. -/
structure Answer where
  code : RespCode
  body : List Byte
  state : State

/-- An accepted command. -/
def Answer.ok (body : List Byte) (s : State) : Answer := { code := .ok, body := body, state := s }

/-- A refused command changes nothing. -/
def Answer.refuse (code : RespCode) (s : State) : Answer := { code := code, body := [], state := s }

/-- R165: the slot of a command in execution leaves the QUEUED slots. -/
def State.takeQueued (s : State) (m : Master) (rest : List Request) : State :=
  s.setPort m { s.port m with queued := rest }

/-- R165: a slot becomes DONE with this response. A response whose code is other than OK has no body (10.3). -/
def State.finish (s : State) (m : Master) (r : Response) : State :=
  s.setPort m { s.port m with done := (s.port m).done ++ [r] }

/-- R167 steps 2 and 3, then the owning block: the answer to a command the part knows. -/
def State.answer (s : State) (c : Command) (body : List Byte) (owner : List Byte → State → Answer) : Answer :=
  if !c.anyState && !s.described then Answer.refuse .notReady s
  else if !c.takesLength body then Answer.refuse .badArg s
  else owner body s

/-- The response of an answer. -/
def Answer.response (a : Answer) (tag : Byte) : Response :=
  { tag := tag, code := a.code, body := if a.code = .ok then a.body else [] }

/-- R165, R167: the port's oldest QUEUED command, when it is the one this step executes, is executed whole and its slot
becomes DONE. Where it is another command, or none waits, or the part is held in reset, there is no such step. -/
def State.execute (s : State) (m : Master) (c : Command) (applies : List Byte → Bool)
    (owner : List Byte → State → Answer) : State :=
  if s.held.isSome then s
  else
    match (s.port m).queued with
    | [] => s
    | r :: rest =>
      if commandOfCode r.code = some c ∧ applies r.body then
        let a := (s.takeQueued m rest).answer c r.body owner
        a.state.finish m (a.response r.tag)
      else s

/-- R167 step 1: the port's oldest QUEUED command has a code the part does not know. -/
def State.executeUnknown (s : State) (m : Master) : State :=
  if s.held.isSome then s
  else
    match (s.port m).queued with
    | [] => s
    | r :: rest =>
      if commandOfCode r.code = none then
        (s.takeQueued m rest).finish m { tag := r.tag, code := .unknownCommand, body := [] }
      else s

/-- Every body of the command belongs to this step. -/
def anyBody (_ : List Byte) : Bool := true

end Sys2Proof.Machine
end

