-- ==== Sys2Proof/Machine/PortBlock.lean ====
section
/-! DEFINITION. The port block (chapter 8): TRANSFER_START, TRANSFER_END, UNKNOWN_COMMAND, STATUS, FETCH NOTICE,
SET NOTICE MASK and RESET PORT. -/

namespace Sys2Proof.Machine

/-! ### Transfers -/

/-- R164: the EMPTY status frame's response. -/
def emptyResponse : Response := { tag := 0#8, code := .empty, body := [] }

/-- R164, R168: the frame chosen at the start of a transfer, the oldest DONE response or the EMPTY status frame, with a
header formed at that moment. -/
def Port.startTransfer (p : Port) (state : PartState) : Port :=
  { p with transfer := some {
      frame := responseFrame (p.done.headD emptyResponse) p.free p.notices.length p.overrun p.overflow state,
      response := !p.done.isEmpty, overrun := p.overrun, overflow := p.overflow, overflowAgain := false } }

/-- TRANSFER_START (R164). A port held in reset takes no frames; a transfer under way goes on. -/
def execTransferStart (m : Master) (s : State) : Host.Outcome State Fault Refusal :=
  .next (if s.held.isSome || (s.port m).transfer.isSome then s
    else s.setPort m ((s.port m).startTransfer s.loader.state))

/-- R164, R168: the end of the outgoing frame: a delivered response empties its slot and the marks it reported clear,
but for one set again since. -/
def Port.endOutgoing (p : Port) (t : Transfer) (clocked : Nat) : Port :=
  if t.frame.length ≤ clocked then
    { p with transfer := none,
             done := if t.response then p.done.tail else p.done,
             overrun := p.overrun && !t.overrun,
             overflow := if t.overflow then t.overflowAgain else p.overflow }
  else { p with transfer := none }

/-- R166: the incoming frame is taken. -/
def Port.takeIncoming (p : Port) (bytes : List Byte) : Port :=
  match parseIncoming bytes with
  | .null => p
  | .bad tag =>
    if p.free = 0 then { p with overrun := true }
    else { p with done := p.done ++ [{ tag := tag, code := .badFrame, body := [] }] }
  | .request r =>
    if p.free = 0 then { p with overrun := true }
    else { p with queued := p.queued ++ [r] }

/-- TRANSFER_END (R166). A transfer that a reset has cut off, selected before it or during it, ends without effect, after
the end of that reset too, where the manual does not say whether its frame is taken (DESIGN CHOICE, notes/assumptions/47.md). -/
def execTransferEnd (m : Master) (clocked : List Byte) (s : State) : Host.Outcome State Fault Refusal :=
  .next (match (s.port m).transfer with
    | none => s
    | some t =>
      if s.held.isSome then s
      else s.setPort m (((s.port m).endOutgoing t clocked.length).takeIncoming clocked))

/-- UNKNOWN_COMMAND (R167). -/
def execUnknownCommand (m : Master) (s : State) : Host.Outcome State Fault Refusal := .next (s.executeUnknown m)

/-! ### STATUS -/

/-- R171: the counts of EMPTY, QUEUED and DONE slots and of notice entries; `own` counts the slot of the STATUS itself
as DONE. -/
def Port.counts (p : Port) (own : Nat) : List Byte :=
  bytes1 (p.free - own) ++ bytes1 p.queued.length ++ bytes1 (p.done.length + own) ++ bytes1 p.notices.length

/-- 10.3: the load report in STATUS. -/
def LoadReport.bytes (r : LoadReport) : List Byte :=
  r.outcomes.map (fun o => byteOf o.code) ++ bytes1 r.firstFaulty ++ bytes1 r.fault.code

/-- R171, 10.3: the body of STATUS, as the sender's port executes it. -/
def State.statusBody (s : State) (m : Master) : List Byte :=
  bytes1 s.loader.state.code ++ bytes1 s.loader.cause.code ++ bytes1 s.power.mode.code ++ bytes4 s.now ++
    [Master.centre, .slope, .crew].flatMap (fun x => (s.port x).counts (if x = m then 1 else 0)) ++
    s.loader.report.bytes

/-- STATUS (R171). -/
def execStatus (m : Master) (s : State) : Host.Outcome State Fault Refusal :=
  .next (s.execute m .status anyBody (fun _ s => Answer.ok (s.statusBody m) s))

/-! ### FETCH NOTICE, SET NOTICE MASK, RESET PORT -/

/-- R172: the oldest notice removed and returned, or none. -/
def State.fetchNotice (s : State) (m : Master) : Answer :=
  let p := s.port m
  match p.notices with
  | [] => Answer.ok (bytes1 0 ++ noNoticeBytes p.overflow ++ bytes1 0) s
  | n :: rest =>
    Answer.ok (bytes1 1 ++ noticeBytes n p.overflow ++ bytes1 rest.length) (s.setPort m { p with notices := rest })

/-- FETCH NOTICE (R172). -/
def execFetchNotice (m : Master) (s : State) : Host.Outcome State Fault Refusal :=
  .next (s.execute m .fetchNotice anyBody (fun _ s => s.fetchNotice m))

/-- R173: a set bit 14 or 15 names a kind outside the 14. -/
def State.setMask (s : State) (m : Master) (mask : Word16) : Answer :=
  if mask.getLsbD 14 || mask.getLsbD 15 then Answer.refuse .badArg s
  else Answer.ok [] (s.setPort m { s.port m with mask := mask })

/-- SET NOTICE MASK (R173). -/
def execSetNoticeMask (m : Master) (s : State) : Host.Outcome State Fault Refusal :=
  .next (s.execute m .setNoticeMask anyBody (fun body s => s.setMask m (BitVec.ofNat 16 (read2 body 0))))

/-- R174: the QUEUED slots become DONE with NOT_READY, the notice queue is emptied, the mask admits all kinds and the
overflow mark is cleared; the overrun mark is kept. -/
def Port.cutOff (p : Port) : Port :=
  { p with
    queued := [],
    done := p.done ++ p.queued.map (fun r => { tag := r.tag, code := .notReady, body := [] }),
    notices := [], mask := fullMask, overflow := false,
    transfer := p.transfer.map (fun t => { t with overflowAgain := false }) }

/-- RESET PORT (R174); its own slot becomes DONE after those it cuts off. -/
def execResetPort (m : Master) (s : State) : Host.Outcome State Fault Refusal :=
  .next (s.execute m .resetPort anyBody (fun _ s => Answer.ok [] (s.setPort m (s.port m).cutOff)))

end Sys2Proof.Machine
end

