-- ==== Sys2Proof/Machine/SegmentFamily.lean ====
section
/-! DEFINITION. The segment table's commands and timers (chapter 1): READ SEGMENT, PLACE CLAIM, RELEASE CLAIM,
CONFIRM SWEEP, SET AUTHORITY, CLAIM_START, CLAIM_EXPIRY, CONFIRMING_EXPIRY, PREWARN_MINUTE_CHANGE and PREWARN_END. -/

namespace Sys2Proof.Machine

/-! ### READ SEGMENT -/

/-- 10.3: a claim record of READ SEGMENT. The urgent field is given for CLOSE claims. -/
def Claim.bytes (c : Claim) : List Byte :=
  bytes1 (holderCode c.holder) ++ opt1 (holderPath c.holder) ++ bytes1 c.level.code ++
    opt1 (if c.level = .close then some (markCode c.urgent) else none) ++ bytes1 c.reason ++ mark1 c.pending ++
    bytes4 c.since ++ opt4 c.start ++ opt4 c.endsAt ++ opt1 c.link

/-- 10.3: the position, counted from 1, of the deciding claim in the segment's order. -/
def decidingPosition (claims : List Claim) (deciding : Option Holder) : Option Nat :=
  deciding.bind (fun h => (claims.findIdx? (fun c => c.holder == h)).map (· + 1))

/-- R21, 10.3: the body of READ SEGMENT. -/
def State.segmentBody (s : State) (k : Nat) (x : Segment) : List Byte :=
  let claims := s.claimsOf k
  bytes1 k ++ bytes1 x.state.code ++ bytes1 (phaseCode x.phase) ++ bytes4 x.since ++
    bytes1 x.level.code ++ mark1 x.urgent ++ opt1 (decidingPosition claims x.deciding) ++ mark1 x.secured ++
    mark1 x.unwarned ++ mark1 x.swept ++ bytes1 x.demand.code ++
    opt2 (if x.state = .closing then some (x.remaining : Int) else none) ++ bytes2 x.cfg.interval ++
    listField 2 x.cfg.gates ++ listField 3 x.cfg.approach ++ bytes1 claims.length ++ claims.flatMap Claim.bytes

/-- R21. -/
def State.readSegment (s : State) (body : List Byte) : Answer :=
  match s.segs.records[read1 body 0]? with
  | none => Answer.refuse .badArg s
  | some x => Answer.ok (s.segmentBody (read1 body 0) x) s

/-- READ SEGMENT (R21). -/
def execReadSegment (m : Master) (s : State) : Host.Outcome State Fault Refusal :=
  .next (s.execute m .readSegment anyBody (fun body s => s.readSegment body))

/-! ### PLACE CLAIM -/

/-- R22 step 3: the slot is a valid posted slot of the sender, linked to no claim but the sender's on this segment. -/
def State.linkAllowed (s : State) (m : Master) (k n : Nat) : Bool :=
  match s.store.slots[n]? with
  | none => false
  | some x =>
    match x.content, x.posted with
    | some _, some p => p.owner == m && (p.link == none || p.link == some k)
    | _, _ => false

/-- R5, R22: the start and end fixed at execution, with the clamps. A start or an end past the highest value of the 32-bit
clock, of which the manual does not speak, is kept as the whole sum, a moment the clock never reaches; READ SEGMENT shows
its low 32 bits (DESIGN CHOICE, notes/assumptions/44.md). -/
def PlaceArgs.start (a : PlaceArgs) (now : Nat) : Option Nat := a.delay.map (fun d => now + Nat.min d Config.maxStartDelay)
/-- R5, R22: the end, from the start or the time of execution, kept whole past the clock's highest value
(DESIGN CHOICE, notes/assumptions/44.md). -/
def PlaceArgs.endsAt (a : PlaceArgs) (now : Nat) : Option Nat :=
  a.duration.map (fun d => (a.start now).getD now + Nat.min d Config.maxDuration)

/-- R23: the claim an accepted PLACE CLAIM asks for; R24 gives its since when it changes one in force. -/
def PlaceArgs.claim (a : PlaceArgs) (m : Master) (now since : Nat) : Claim :=
  { segment := a.segment, holder := .master m, level := a.level, urgent := a.urgent, reason := a.reason, since := since,
    start := a.start now, endsAt := a.endsAt now, link := a.link, pending := a.delay.isSome }

/-- R6: the links of the slots follow a change of the claim's link. -/
def State.relink (s : State) (k : Nat) (old new : Option Nat) : State :=
  let s := match old with
    | some n => if new = some n then s else s.linkSlot n none
    | none => s
  match new with
  | some n => s.linkSlot n (some k)
  | none => s

/-- R23, R24: the claim placed, or changed with its place by R3. -/
def State.putClaim (s : State) (m : Master) (a : PlaceArgs) : State :=
  match s.claim? a.segment (.master m) with
  | none => (s.tailClaim a.segment (.master m) (a.claim m s.now s.now)).relink a.segment none a.link
  | some c =>
    let s' :=
      if c.counted.code < (a.claim m s.now s.now).counted.code then
        s.tailClaim a.segment (.master m) (a.claim m s.now s.now)
      else s.replaceClaim a.segment (.master m) (a.claim m s.now c.since)
    s'.relink a.segment c.link a.link

/-- R22 to R24. -/
def State.placeClaim (s : State) (m : Master) (body : List Byte) : Answer :=
  match parsePlace body with
  | none => Answer.refuse .badArg s
  | some a =>
    if s.segs.records[a.segment]? = none then Answer.refuse .badArg s
    else if !s.hasRight a.segment m (levelRight a.level) then Answer.refuse .noRight s
    else if a.link.any (fun n => !s.linkAllowed m a.segment n) then Answer.refuse .badArg s
    else Answer.ok [] ((s.putClaim m a).recompute a.segment)

/-- PLACE CLAIM (R22). -/
def execPlaceClaim (m : Master) (s : State) : Host.Outcome State Fault Refusal :=
  .next (s.execute m .placeClaim anyBody (fun body s => s.placeClaim m body))

/-! ### RELEASE CLAIM -/

/-- R29: CLAIM_ENDED, at the holder's port and at CENTRE's, once when the holder is CENTRE; cause EXPIRED 0, OVERRIDDEN 1. -/
def State.tellClaimEnded (s : State) (k : Nat) (m : Master) (reason cause : Nat) : State :=
  let n := s.notice .claimEnded k (packed 0 (masterCode m)) (packed 0 reason) (packed 0 cause)
  if m = .centre then s.tell .centre n else (s.tell m n).tell .centre n

/-- R25: the claim removed, its linked slot withdrawn, CLAIM_ENDED raised when another master released it, and the
segment recomputed. -/
def State.releaseMasterClaim (s : State) (sender m : Master) (k : Nat) : Answer :=
  if sender ≠ m ∧ !s.hasRight k sender overrideRight then Answer.refuse .noRight s
  else
    match s.claim? k (.master m) with
    | none => Answer.refuse .noClaim s
    | some c =>
      let t := (s.dropClaim k (.master m)).withdrawLinked c
      let t := if sender = m then t else t.tellClaimEnded k m c.reason 1
      Answer.ok [] (t.recompute k)

/-- R25: the checks on the segment and the holder; a HAZARD claim is released by no master. -/
def State.releaseClaim (s : State) (sender : Master) (body : List Byte) : Answer :=
  let k := read1 body 0
  if s.segs.records[k]? = none ∨ 3 < read1 body 1 then Answer.refuse .badArg s
  else
    match masterOfCode (read1 body 1) with
    | none => Answer.refuse .noRight s
    | some m => s.releaseMasterClaim sender m k

/-- RELEASE CLAIM (R25). -/
def execReleaseClaim (m : Master) (s : State) : Host.Outcome State Fault Refusal :=
  .next (s.execute m .releaseClaim anyBody (fun body s => s.releaseClaim m body))

/-! ### CONFIRM SWEEP -/

/-- R26: sweep confirmed becomes yes; demand RAISE and the completion test follow. -/
def State.sweep (s : State) (k : Nat) : State :=
  s.withSegmentNotice k (fun s => (s.updSegment k (fun x => { x with swept := true })).followUp k)

/-- R26. -/
def State.confirmSweep (s : State) (m : Master) (body : List Byte) : Answer :=
  let k := read1 body 0
  match s.segs.records[k]? with
  | none => Answer.refuse .badArg s
  | some x =>
    if !s.hasRight k m sweepRight then Answer.refuse .noRight s
    else if x.state ≠ .reopening then Answer.refuse .wrongState s
    else if x.swept then Answer.ok [] s
    else Answer.ok [] (s.sweep k)

/-- CONFIRM SWEEP (R26). -/
def execConfirmSweep (m : Master) (s : State) : Host.Outcome State Fault Refusal :=
  .next (s.execute m .confirmSweep anyBody (fun body s => s.confirmSweep m body))

/-! ### SET AUTHORITY -/

/-- R27: the entry of a segment and a master replaced. -/
def State.setAuthorityEntry (s : State) (k : Nat) (x : Master) (rights : BitVec 5) : State :=
  { s with segs := { s.segs with authority := s.segs.authority.set (3 * k + masterCode x) rights } }

/-- R27; a rights byte naming a right outside the five is out of range. -/
def State.setAuthority (s : State) (m : Master) (body : List Byte) : Answer :=
  let k := read1 body 0
  if m ≠ .centre then Answer.refuse .noRight s
  else
    match s.segs.records[k]?, masterOfCode (read1 body 1) with
    | some _, some x =>
      if 32 ≤ read1 body 2 then Answer.refuse .badArg s
      else Answer.ok [] (s.setAuthorityEntry k x (BitVec.ofNat 5 (read1 body 2)))
    | _, _ => Answer.refuse .badArg s

/-- SET AUTHORITY (R27). -/
def execSetAuthority (m : Master) (s : State) : Host.Outcome State Fault Refusal :=
  .next (s.execute m .setAuthority anyBody (fun body s => s.setAuthority m body))

/-! ### The claim timers -/

/-- A timer event of a block that acts only while the corridor is described (R20, R167, R184). -/
def State.whenRunning (s : State) (f : State → State) : State := if s.held.isNone && s.described then f s else s

/-- R4: a pending claim's start arrives: it is active, since its start, at the tail. -/
def State.startClaim (s : State) (k : Nat) (h : Holder) : State :=
  match s.claim? k h with
  | none => s
  | some c =>
    match c.start with
    | none => s
    | some t =>
      if c.pending ∧ t ≤ s.now then (s.tailClaim k h { c with pending := false, since := t }).recompute k else s

/-- CLAIM_START (R4). -/
def execClaimStart (k : Nat) (h : Holder) (s : State) : Host.Outcome State Fault Refusal :=
  .next (s.whenRunning (fun s => s.startClaim k h))

/-- R5: a master's claim expires: it is removed, the segment is recomputed, its linked slot is withdrawn and CLAIM_ENDED
is raised. HAZARD claims never expire. -/
def State.expireClaim (s : State) (k : Nat) (h : Holder) : State :=
  match h, s.claim? k h with
  | .master m, some c =>
    match c.endsAt with
    | none => s
    | some t =>
      if t ≤ s.now then (((s.dropClaim k h).recompute k).withdrawLinked c).tellClaimEnded k m c.reason 0 else s
  | _, _ => s

/-- CLAIM_EXPIRY (R5). -/
def execClaimExpiry (k : Nat) (h : Holder) (s : State) : Host.Outcome State Fault Refusal :=
  .next (s.whenRunning (fun s => s.expireClaim k h))

/-! ### The phase timers -/

/-- R30: UNWARNED. -/
def State.unwarnedNotice (s : State) (k : Nat) (x : Segment) : Notice :=
  s.notice .unwarned k (value16 x.cfg.approach.length) (value16 x.cfg.interval) 0#16

/-- R12: the 60 s expire: PREWARN, unwarned, with UNWARNED. -/
def State.expireConfirming (s : State) (k : Nat) : State :=
  match s.segs.records[k]? with
  | none => s
  | some x =>
    match x.confirmDue with
    | none => s
    | some t =>
      if x.state = .closing ∧ x.phase = some .confirming ∧ t ≤ s.now then
        let s := s.withSegmentNotice k (fun s =>
          (s.updSegment k (fun y => { y.toPrewarn with unwarned := true })).followUp k)
        s.tellAll (s.unwarnedNotice k x)
      else s

/-- CONFIRMING_EXPIRY (R12). -/
def execConfirmingExpiry (k : Nat) (s : State) : Host.Outcome State Fault Refusal :=
  .next (s.whenRunning (fun s => s.expireConfirming k))

/-- R13, R60: in phase PREWARN the slot is formed with the minute figure as it stands. -/
def State.changeMinute (s : State) (k : Nat) : State :=
  match s.segs.records[k]? with
  | none => s
  | some x => if x.state = .closing ∧ x.phase = some .prewarn then s.formSegmentSlot k else s

/-- PREWARN_MINUTE_CHANGE (R13). -/
def execPrewarnMinuteChange (k : Nat) (s : State) : Host.Outcome State Fault Refusal :=
  .next (s.whenRunning (fun s => s.changeMinute k))

/-- R13: pre-warning remaining is 0: phase LOWERING, demand LOWER. -/
def State.endPrewarn (s : State) (k : Nat) : State :=
  match s.segs.records[k]? with
  | none => s
  | some x =>
    if x.state = .closing ∧ x.phase = some .prewarn ∧ x.remaining = 0 then
      s.withSegmentNotice k (fun s => (s.updSegment k Segment.toLowering).followUp k)
    else s

/-- PREWARN_END (R13). -/
def execPrewarnEnd (k : Nat) (s : State) : Host.Outcome State Fault Refusal :=
  .next (s.whenRunning (fun s => s.endPrewarn k))

end Sys2Proof.Machine
end

