-- ==== Sys2Proof/Machine/GateFamily.lean ====
section
/-! DEFINITION. The gate sequencer's commands and timers (chapter 2): READ GATE, RESET GATE, TRAVEL_TIMEOUT,
REVERSAL_PAUSE_END, HOLD_OFF_END and LAMP_TOGGLE; and the taken changes of a gate's input lines (R45 to R51), which
DEBOUNCE_EXPIRY delivers. -/

namespace Sys2Proof.Machine

/-! ### READ GATE -/

/-- 10.3: the input levels of a gate, bit 0 up limit, bit 1 down limit, bit 2 obstruction, bit 3 key. -/
def State.gateInputs (s : State) (c : GateConfig) : Nat :=
  markCode (s.asserted c.upLine) + 2 * markCode (s.asserted c.downLine) +
    4 * markCode (s.asserted c.obstructionLine) + 8 * markCode (s.asserted c.keyLine)

/-- R54, 10.3: the body of READ GATE. -/
def State.gateBody (s : State) (g : Nat) (x : Gate) : List Byte :=
  bytes1 g ++ bytes1 x.cfg.segment ++ bytes1 x.cfg.lowerLine ++ bytes1 x.cfg.raiseLine ++ bytes1 x.cfg.lampLine ++
    bytes1 x.cfg.upLine ++ bytes1 x.cfg.downLine ++ bytes1 x.cfg.obstructionLine ++ bytes1 x.cfg.keyLine ++
    bytes2 x.cfg.timeout ++ bytes2 x.cfg.lowerCost ++ bytes2 x.cfg.raiseCost ++
    bytes1 x.state.code ++ bytes1 (subCode x.sub) ++ bytes1 x.position.code ++ bytes2 x.travel ++
    opt1 x.pause ++ bytes1 (reasonCode x.reason) ++ mark1 x.raiseHeld ++ opt1 x.holdOff ++ bytes1 x.demand.code ++
    bytes1 (s.gateInputs x.cfg) ++ bytes1 (markCode x.lowerDrive + 2 * markCode x.raiseDrive) ++ mark1 x.flashing

/-- R54. -/
def State.readGate (s : State) (body : List Byte) : Answer :=
  match s.gates[read1 body 0]? with
  | none => Answer.refuse .badArg s
  | some x => Answer.ok (s.gateBody (read1 body 0) x) s

/-- READ GATE (R54). -/
def execReadGate (m : Master) (s : State) : Host.Outcome State Fault Refusal :=
  .next (s.execute m .readGate anyBody (fun body s => s.readGate body))

/-! ### RESET GATE -/

/-- R55: the state a position of a gate at a limit gives. -/
def Position.restState : Position → Option GateState
  | .atUp => some .up
  | .atDown => some .down
  | .between | .conflict => none

/-- R55. -/
def State.resetGate (s : State) (m : Master) (body : List Byte) : Answer :=
  if m ≠ .crew then Answer.refuse .noRight s
  else
    match s.gates[read1 body 0]? with
    | none => Answer.refuse .badArg s
    | some x =>
      if x.state ≠ .fault then Answer.refuse .wrongState s
      else
        match x.position.restState with
        | none => Answer.refuse .wrongState s
        | some state =>
          Answer.ok [] (s.withSegmentNotice x.cfg.segment (fun s => s.arrive (read1 body 0) state))

/-- RESET GATE (R55). -/
def execResetGate (m : Master) (s : State) : Host.Outcome State Fault Refusal :=
  .next (s.execute m .resetGate anyBody (fun body s => s.resetGate m body))

/-! ### Limit changes -/

/-- The two limit lines of a gate. -/
inductive Limit where
  | up | down
deriving DecidableEq, Repr

/-- What a taken limit change does to a gate, its position derived anew. -/
inductive LimitEffect where
  /-- The position is held and nothing else changes. -/
  | held
  /-- The position is held and reported (MANUAL). -/
  | reported
  /-- The arm comes to rest. -/
  | rests (state : GateState)
  /-- The gate goes to FAULT. -/
  | faults (reason : FaultReason)
deriving DecidableEq, Repr

/-- R45 to R47: the effect of a limit change by the state, the new position, the line and its new level. -/
def limitEffect (state : GateState) (position : Position) (limit : Limit) (asserted : Bool) : LimitEffect :=
  match state with
  | .manual => .reported
  | .up =>
    if position = .conflict then .faults .limitConflict
    else if limit = .up ∧ !asserted then .faults .leftPosition else .held
  | .down =>
    if position = .conflict then .faults .limitConflict
    else if limit = .down ∧ !asserted then .faults .leftPosition else .held
  | .lowering =>
    if position = .conflict ∨ (limit = .up ∧ asserted) then .faults .limitConflict
    else if limit = .down ∧ asserted then .rests .down else .held
  | .raising =>
    if position = .conflict ∨ (limit = .down ∧ asserted) then .faults .limitConflict
    else if limit = .up ∧ asserted then .rests .up else .held
  | .stopped =>
    if position = .conflict then .faults .limitConflict
    else if limit = .down ∧ asserted then .rests .down else .held
  | .fault => if position = .conflict then .faults .limitConflict else .held

/-- R32: the gate holds a new position. -/
def State.holdPosition (s : State) (g : Nat) (p : Position) : State := s.updGate g (fun y => { y with position := p })

/-- R45 to R47: a taken change of a limit line of gate g. -/
def State.limitChange (s : State) (g : Nat) (limit : Limit) (asserted : Bool) : State :=
  match s.gates[g]? with
  | none => s
  | some x =>
    let position := s.positionOf x.cfg
    match limitEffect x.state position limit asserted with
    | .held => s.holdPosition g position
    | .reported => if position = x.position then s else (s.holdPosition g position).gateReport g
    | .rests state => (s.holdPosition g position).arrive g state
    | .faults reason =>
      if x.state = .fault ∧ x.reason = some reason then s.holdPosition g position
      else (s.holdPosition g position).changeGate g (fun y => y.toFault reason)

/-! ### The obstruction line -/

/-- R48: the lowering arm halts with its travel frozen. -/
def Gate.halt (g : Gate) : Gate := { g with state := .stopped, sub := none, holdOff := none }

/-- R48: a taken change of the obstruction line of gate g. -/
def State.obstructionChange (s : State) (g : Nat) (asserted : Bool) : State :=
  match s.gates[g]? with
  | none => s
  | some x =>
    if asserted then
      if x.lowerDrive then s.changeGate g Gate.halt
      else if x.state = .stopped then s.updGate g (fun y => { y with holdOff := none })
      else s
    else if x.state = .stopped then s.updGate g (fun y => { y with holdOff := some Config.holdOff })
    else s

/-! ### The key line -/

/-- R51: the key is released: the state is taken from the position. -/
def State.leaveManual (s : State) (g : Nat) (x : Gate) : State :=
  match x.position.restState with
  | some state => s.arrive g state
  | none => s.changeGate g (fun y => y.toFault .positionUnknown)

/-- R50, R51: a taken change of the key line of gate g. -/
def State.keyChange (s : State) (g : Nat) (asserted : Bool) : State :=
  match s.gates[g]? with
  | none => s
  | some x =>
    if asserted then (if x.state = .manual then s else s.changeGate g Gate.toManual)
    else if x.state = .manual then s.leaveManual g x
    else s

/-! ### Delivery -/

/-- One event of gate g, with the SEGMENT_STATE it may raise for the gate's segment (R28). -/
def State.gateEvent (s : State) (g : Nat) (f : State → State) : State :=
  match s.gates[g]? with
  | none => s
  | some x => s.withSegmentNotice x.cfg.segment f

/-- A line of gate g, when it is the one that changed. -/
def State.gateLine (s : State) (g : Nat) (own line : Nat) (f : State → State) : State :=
  if own = line then s.gateEvent g f else s

/-- R114: the change delivered to gate g, in each role the line has there. -/
def State.deliverGate (s : State) (g line : Nat) (asserted : Bool) : State :=
  match s.gates[g]? with
  | none => s
  | some x =>
    let s := s.gateLine g x.cfg.upLine line (fun s => s.limitChange g .up asserted)
    let s := s.gateLine g x.cfg.downLine line (fun s => s.limitChange g .down asserted)
    let s := s.gateLine g x.cfg.obstructionLine line (fun s => s.obstructionChange g asserted)
    s.gateLine g x.cfg.keyLine line (fun s => s.keyChange g asserted)

/-- R114: the change delivered to every gate that names the line. -/
def State.deliverGates (s : State) (line : Nat) (asserted : Bool) : State :=
  (List.range s.gates.length).foldl (fun s g => s.deliverGate g line asserted) s

/-! ### The gate timers -/

/-- R44: travel remaining has reached 0 under drive. -/
def State.travelTimeout (s : State) (g : Nat) : State :=
  match s.gates[g]? with
  | none => s
  | some x =>
    if x.travelling ∧ x.travel = 0 then s.gateEvent g (fun s => s.changeGate g (fun y => y.toFault .travelTimeout)) else s

/-- TRAVEL_TIMEOUT (R44). -/
def execTravelTimeout (g : Nat) (s : State) : Host.Outcome State Fault Refusal :=
  .next (s.whenRunning (fun s => s.travelTimeout g))

/-- R43: the reversal pause has run out: by the position and the level of the obstruction line. -/
def State.endPause (s : State) (g : Nat) (x : Gate) : State :=
  if x.position = .atDown then s.arrive g .down
  else if s.asserted x.cfg.obstructionLine then s.changeGate g Gate.startStopped
  else s.changeGate g Gate.startLowering

/-- R43: the pause of gate g, when it has run out. -/
def State.reversalPauseEnd (s : State) (g : Nat) : State :=
  match s.gates[g]? with
  | none => s
  | some x =>
    if x.state = .lowering ∧ x.sub = some .reversing ∧ x.pause = some 0 then
      s.gateEvent g (fun s => s.endPause g x)
    else s

/-- REVERSAL_PAUSE_END (R43). -/
def execReversalPauseEnd (g : Nat) (s : State) : Host.Outcome State Fault Refusal :=
  .next (s.whenRunning (fun s => s.reversalPauseEnd g))

/-- R48: the arm resumes its lowering with the travel it was frozen at. -/
def Gate.resume (g : Gate) : Gate := { g with state := .lowering, sub := some .driving, holdOff := none }

/-- R48: the hold-off of gate g, when it has run out. -/
def State.holdOffEnd (s : State) (g : Nat) : State :=
  match s.gates[g]? with
  | none => s
  | some x =>
    if x.state = .stopped ∧ x.holdOff = some 0 then s.gateEvent g (fun s => s.changeGate g Gate.resume) else s

/-- HOLD_OFF_END (R48). -/
def execHoldOffEnd (g : Nat) (s : State) : Host.Outcome State Fault Refusal :=
  .next (s.whenRunning (fun s => s.holdOffEnd g))

/-- R34: the lamp alternates, when its half flash has run out. -/
def Gate.toggle (g : Gate) : Gate :=
  if g.flashing ∧ g.lampLeft = 0 then { g with lampOn := !g.lampOn, lampLeft := Config.lampHalfPeriod } else g

/-- LAMP_TOGGLE (R34). -/
def execLampToggle (g : Nat) (s : State) : Host.Outcome State Fault Refusal :=
  .next (s.whenRunning (fun s => s.updGate g Gate.toggle))

end Sys2Proof.Machine
end

