-- ==== Sys2Proof/Machine/SlotFamily.lean ====
section
/-! DEFINITION. The slot store's commands and timer (chapter 3): POST MESSAGE, WITHDRAW MESSAGE, SET PRIORITY MAP,
SET CLOCK and SLOT_EXPIRY. -/

namespace Sys2Proof.Machine

/-! ### POST MESSAGE -/

/-- R75 step 1: the target set names at least one sign, and every sign it names is described. Bit n of the two bytes, the
least significant being bit 0, stands for sign n (DEDUCED, notes/assumptions/41.md). -/
def State.targetsOk (s : State) (targets : Word16) : Bool :=
  targets != 0#16 && (List.range 16).all (fun k => !targets.getLsbD k || decide (k < s.line.signs.length))

/-- R75 step 1: the arguments are in range; the parameter count is one the body length bears out. -/
def State.postOk (s : State) (a : PostArgs) : Bool :=
  s.targetsOk a.targets && decide (8 ≤ a.catalogue) && decide (a.urgency ≤ 7)

/-- R76: the lowest-numbered invalid slot of the sender's range. -/
def State.freeSlot (s : State) (m : Master) : Option Nat :=
  (List.range' (postedRange m).1 (postedRange m).2).find? (fun n =>
    match s.store.slots[n]? with
    | some x => x.content.isNone
    | none => false)

/-- R75, R76: the end fixed at execution, with the clamp. -/
def PostArgs.endsAt (a : PostArgs) (now : Nat) : Option Nat :=
  a.duration.map (fun d => now + Nat.min d Config.maxDuration)

/-- R76: the slot a POST MESSAGE makes valid. -/
def State.postedSlot (s : State) (m : Master) (a : PostArgs) (x : Slot) : Slot :=
  { x with
    content := some (s.content (postedOrigin m a.urgency) a.catalogue a.params),
    posted := some { owner := m, targets := a.targets, urgency := a.urgency, endsAt := a.endsAt s.now, link := none } }

/-- The generation of a slot. -/
def State.generation (s : State) (n : Nat) : Nat := ((s.store.slots[n]?).map (·.generation)).getD 0

/-- R75, R76. -/
def State.postMessage (s : State) (m : Master) (body : List Byte) : Answer :=
  if !s.postOk (parsePost body) then Answer.refuse .badArg s
  else
    match s.freeSlot m with
    | none => Answer.refuse .poolFull s
    | some n =>
      let t := s.writeSlot n (s.postedSlot m (parsePost body))
      Answer.ok (bytes1 n ++ bytes1 (t.generation n)) t

/-- POST MESSAGE (R75, R76). -/
def execPostMessage (m : Master) (s : State) : Host.Outcome State Fault Refusal :=
  .next (s.execute m .postMessage anyBody (fun body s => s.postMessage m body))

/-! ### WITHDRAW MESSAGE -/

/-- The posted part of a valid posted slot. -/
def State.postedIn (s : State) (n : Nat) : Option Posted :=
  match s.store.slots[n]? with
  | none => none
  | some x => if x.content.isSome then x.posted else none

/-- R77. -/
def State.withdrawMessage (s : State) (m : Master) (body : List Byte) : Answer :=
  let n := read1 body 0
  if n < 32 ∨ 63 < n then Answer.refuse .badArg s
  else
    match s.postedIn n with
    | none => Answer.refuse .badArg s
    | some p =>
      if m ≠ p.owner ∧ m ≠ .centre then Answer.refuse .noRight s
      else Answer.ok [] (s.endPosted n .withdrawn (m != p.owner))

/-- WITHDRAW MESSAGE (R77). -/
def execWithdrawMessage (m : Master) (s : State) : Host.Outcome State Fault Refusal :=
  .next (s.execute m .withdrawMessage anyBody (fun body s => s.withdrawMessage m body))

/-! ### SET PRIORITY MAP -/

/-- R65, R78: an entry written; origins 3 and 4 stay at class 3. -/
def writePriority (map : List Nat) (e : Nat × Nat) : List Nat :=
  if e.1 = 3 ∨ e.1 = 4 then map else map.set e.1 e.2

/-- R78: a valid slot takes the class of its origin's entry. -/
def Slot.reclass (x : Slot) (map : List Nat) : Slot :=
  x.renew { x with content := x.content.map (fun c => { c with cls := map.getD c.origin 0 }) }

/-- R78: the map written, the slots reclassed, the signs reselected once. -/
def State.writePriorityMap (s : State) (entries : List (Nat × Nat)) : State :=
  let map := entries.foldl writePriority s.store.priority
  ({ s with store := { s.store with priority := map, slots := s.store.slots.map (fun x => x.reclass map) } }
    : State).reselect

/-- R78. -/
def State.setPriorityMap (s : State) (m : Master) (body : List Byte) : Answer :=
  if m ≠ .centre then Answer.refuse .noRight s
  else if (parsePriority body).any (fun e => decide (3 < e.2)) then Answer.refuse .badArg s
  else Answer.ok [] (s.writePriorityMap (parsePriority body))

/-- SET PRIORITY MAP (R78). -/
def execSetPriorityMap (m : Master) (s : State) : Host.Outcome State Fault Refusal :=
  .next (s.execute m .setPriorityMap anyBody (fun body s => s.setPriorityMap m body))

/-! ### SET CLOCK -/

/-- R68: the minute of the display clock at a corridor time, when it is set. -/
def Clocks.minute (c : Clocks) : Option Nat :=
  c.display.map (fun d => (d.minute + (c.seconds - d.setAt) / 60) % 1440)

/-- R79: the slot of segment k shows CLOSURE SCHEDULED. -/
def State.showsScheduled (s : State) (k : Nat) : Bool :=
  ((s.store.slots[k]?).bind (·.content)).any (fun c => c.catalogue == 6)

/-- R79: the display clock set, and every segment slot that shows CLOSURE SCHEDULED formed anew. -/
def State.setDisplay (s : State) (minute : Nat) : State :=
  let t : State := { s with clocks := { s.clocks with display := some { minute := minute, setAt := s.now } } }
  (List.range t.segs.records.length).foldl
    (fun t k => if t.showsScheduled k then t.formSegmentSlot k else t) t

/-- R79. -/
def State.setClock (s : State) (m : Master) (body : List Byte) : Answer :=
  if m ≠ .centre then Answer.refuse .noRight s
  else if 1439 < read2 body 0 then Answer.refuse .badArg s
  else Answer.ok [] (s.setDisplay (read2 body 0))

/-- SET CLOCK (R79). -/
def execSetClock (m : Master) (s : State) : Host.Outcome State Fault Refusal :=
  .next (s.execute m .setClock anyBody (fun body s => s.setClock m body))

/-! ### SLOT_EXPIRY -/

/-- R66: a posted slot whose end has come ends with cause EXPIRED. -/
def State.expireSlot (s : State) (n : Nat) : State :=
  match (s.postedIn n).bind (·.endsAt) with
  | none => s
  | some t => if t ≤ s.now then s.endPosted n .expired true else s

/-- SLOT_EXPIRY (R66). -/
def execSlotExpiry (n : Nat) (s : State) : Host.Outcome State Fault Refusal :=
  .next (s.whenRunning (fun s => s.expireSlot n))

end Sys2Proof.Machine
end

