-- ==== Sys2Proof/Machine/SignFamily.lean ====
section
/-! DEFINITION. The sign line controller (chapter 4): READ SIGN, SET SIGN, TRANSACTION_START, MESSAGE_SENT,
ECHO_MISMATCH, REPLY_RECEIVED, REPLY_TIMEOUT, REFRESH_DUE, PROBE_DUE and LINE_RECOVERY. -/

namespace Sys2Proof.Machine

/-! ### READ SIGN -/

/-- 10.3: the acknowledged content in READ SIGN: slot, generation, class, catalogue, parameter count, 4 parameters. -/
def shownBytes : Option Shown → List Byte
  | none => opt1 none ++ bytes1 0 ++ bytes1 0 ++ opt1 none ++ bytes1 0 ++ (List.replicate 4 (opt2 none)).flatten
  | some a => bytes1 a.slot ++ bytes1 a.generation ++ bytes1 a.cls ++ bytes1 a.catalogue ++ bytes1 a.params.length ++
      (a.params.flatMap bytes2 ++ (List.replicate 4 (opt2 none)).flatten).take 8

/-- R99: the entry of a sign, in the list or in flight. -/
def State.entryOf (s : State) (k : Nat) : Option Entry :=
  match s.line.inFlight with
  | some x => if x.entry.sign = k then some x.entry else s.line.entries.find? (fun e => e.sign == k)
  | none => s.line.entries.find? (fun e => e.sign == k)

/-- 10.3: a sign's health marks. -/
def Sign.health (x : Sign) : Nat := markCode x.lampFault + 2 * markCode x.heaterFault + 4 * markCode x.doorOpen

/-- R99, 10.3: the body of READ SIGN. Only a WEATHER sign has a station. -/
def State.signBody (s : State) (k : Nat) (x : Sign) : List Byte :=
  let top := (s.store.tops[k]?).getD Top.blank
  let entry := s.entryOf k
  bytes1 k ++ bytes1 x.cfg.kind.code ++ bytes1 x.cfg.address ++ listField 4 x.cfg.lookahead ++
    opt1 (if x.cfg.kind = .weather then some x.cfg.station else none) ++ bytes1 x.state.code ++ shownBytes x.ack ++
    bytes1 x.health ++ mark1 x.refused ++ mark1 x.disablePending ++ bytes1 x.attempts ++
    opt4 x.lastAck ++ opt4 x.refreshDue ++ opt4 x.probeDue ++
    bytes1 ((entry.map (·.reason.code)).getD 0) ++ opt4 (entry.map (·.time)) ++ mark1 (s.inFlightFor k) ++
    opt1 top.slot ++ bytes1 top.generation ++ bytes1 top.cls ++ bytes1 s.line.state.code ++ bytes1 s.line.errors

/-- R99. -/
def State.readSign (s : State) (body : List Byte) : Answer :=
  match s.line.signs[read1 body 0]? with
  | none => Answer.refuse .badArg s
  | some x => Answer.ok (s.signBody (read1 body 0) x) s

/-- READ SIGN (R99). -/
def execReadSign (m : Master) (s : State) : Host.Outcome State Fault Refusal :=
  .next (s.execute m .readSign anyBody (fun body s => s.readSign body))

/-! ### Notices -/

/-- R103: SIGN_STATE. -/
def State.signNotice (s : State) (k : Nat) (x : Sign) : Notice :=
  s.notice .signState k (packed x.state.code (x.health + 8 * markCode x.refused))
    (value16 ((x.ack.map (fun a => (a.slot : Int))).getD Config.absentFigure))
    (packed ((x.ack.map (·.generation)).getD 0) ((x.ack.map (·.cls)).getD 0))

/-- R82, R103: SIGN_STATE when the sign's state is not what it was. -/
def State.tellSign (s : State) (k : Nat) (old : SignState) : State :=
  match s.line.signs[k]? with
  | none => s
  | some x => if x.state = old then s else s.tellAll (s.signNotice k x)

/-- R104: BUS_STATE. -/
def State.busNotice (s : State) : Notice :=
  s.notice .busState 0 (packed 0 s.line.state.code) (packed 0 s.line.errors) (value16 s.line.entries.length)

/-! ### SET SIGN -/

/-- R101: the sign's entry becomes BLANK in place of whatever reason it held. -/
def State.forceBlank (s : State) (k : Nat) : State :=
  if s.inFlightFor k then s.setInFlight (s.line.inFlight.map (fun x => { x with held := some .blank }))
  else if s.line.entries.any (fun e => e.sign == k) then
    { s with line := { s.line with
        entries := s.line.entries.map (fun e => if e.sign == k then { e with reason := .blank } else e) } }
  else s.newEntry k .blank

/-- R101: attempts becomes 0, but not under a transaction in flight, which runs on to its own third failure (R85). -/
def State.disableSign (s : State) (k : Nat) : State :=
  let flying := s.inFlightFor k
  (s.forceBlank k).updSign k (fun x =>
    { x with disablePending := true, attempts := if flying then x.attempts else 0, refreshDue := none, probeDue := none })

/-- R102: an accepted enable. -/
def State.enableSign (s : State) (k : Nat) (old : SignState) : State :=
  let t := s.updSign k (fun x =>
    { x with state := .unknown, lampFault := false, heaterFault := false, doorOpen := false, refused := false,
             attempts := 0, lastAck := none, refreshDue := none, probeDue := none })
  (t.tellSign k old).request k .probe

/-- R100: by the sign's standing. -/
def State.applySetSign (s : State) (k : Nat) (x : Sign) (enable : Bool) : Answer :=
  if x.disablePending then (if enable then Answer.refuse .wrongState s else Answer.ok [] s)
  else if x.state = .disabled then Answer.ok [] (if enable then s.enableSign k x.state else s)
  else Answer.ok [] (if enable then s else s.disableSign k)

/-- R100; an enable byte other than 00h and 01h is out of range. -/
def State.setSign (s : State) (m : Master) (body : List Byte) : Answer :=
  if m ≠ .centre then Answer.refuse .noRight s
  else
    match s.line.signs[read1 body 0]? with
    | none => Answer.refuse .badArg s
    | some x =>
      if 1 < read1 body 1 then Answer.refuse .badArg s
      else s.applySetSign (read1 body 0) x (read1 body 1 == 1)

/-- SET SIGN, disable (R101): a body that does not ask for an enable. -/
def execSetSignDisable (m : Master) (s : State) : Host.Outcome State Fault Refusal :=
  .next (s.execute m .setSign (fun body => read1 body 1 != 1) (fun body s => s.setSign m body))

/-- SET SIGN, enable (R102): a body that does not ask for a disable. -/
def execSetSignEnable (m : Master) (s : State) : Host.Outcome State Fault Refusal :=
  .next (s.execute m .setSign (fun body => read1 body 1 != 0) (fun body s => s.setSign m body))

/-! ### TRANSACTION_START -/

/-- R84: the class of an entry, from the top-candidate record as it stands. -/
def State.entryClass (s : State) (e : Entry) : Nat :=
  match e.reason with
  | .change | .refresh => ((s.store.tops[e.sign]?).map (·.cls)).getD 0
  | .blank | .probe => 0

/-- R84: the first entry stands before the second: class, then request time, then order of entry. -/
def State.entryBefore (s : State) (a b : Entry) : Bool :=
  decide (s.entryClass b < s.entryClass a) ||
    (s.entryClass a == s.entryClass b && (decide (a.time < b.time) || (a.time == b.time && decide (a.order < b.order))))

/-- R84: the head of the list. -/
def State.headEntry (s : State) : List Entry → Option Entry
  | [] => none
  | e :: rest =>
    match s.headEntry rest with
    | none => some e
    | some d => if s.entryBefore d e then some d else some e

/-- R86: the content a CHANGE or REFRESH sends, noted with the entry; absent for BLANK. -/
def State.notedContent (s : State) (k : Nat) : Option Shown :=
  ((s.store.tops[k]?).bind (·.slot)).bind (fun n =>
    (s.store.slots[n]?).bind (fun x => x.content.map (fun c =>
      { slot := n, generation := x.generation, cls := c.cls, catalogue := c.catalogue, params := c.params })))

/-- R86: the first exchange of an entry, with the content noted. -/
def State.firstExchange (s : State) (e : Entry) : Operation × Option Shown :=
  match e.reason with
  | .probe => (.probe, none)
  | .blank => (.blank, none)
  | .change | .refresh =>
    match s.notedContent e.sign with
    | none => (.blank, none)
    | some a => (.show a.cls a.catalogue a.params, some a)

/-- R86, R87: the transaction of an entry, its message formed and the line to be held idle first. -/
def State.openTransaction (s : State) (e : Entry) (x : Sign) : InFlight :=
  { entry := e, held := none, finalBlank := x.disablePending, noted := (s.firstExchange e).2, stage := .first,
    op := (s.firstExchange e).1, message := messageBytes x.cfg.address (s.firstExchange e).1,
    exchange := .idle Config.lineIdle }

/-- R85, R86: the head entry leaves the list and its transaction starts. -/
def State.startTransaction (s : State) : State :=
  match s.headEntry s.line.entries with
  | none => s
  | some e =>
    match s.line.signs[e.sign]? with
    | none => s
    | some x =>
      { s with line := { s.line with
          entries := s.line.entries.filter (fun y => y.sign != e.sign),
          inFlight := some (s.openTransaction e x) } }

/-- R86: the conditions under which a transaction starts, beside the part state and an entry. -/
def SignLine.idle (l : SignLine) : Bool := l.state == .up && l.inFlight.isNone

/-- TRANSACTION_START (R86). -/
def execTransactionStart (s : State) : Host.Outcome State Fault Refusal :=
  .next (s.whenRunning (fun s => if s.line.idle then s.startTransaction else s))

/-! ### The exchange -/

/-- The transaction in flight is in this standing. -/
def State.sending (s : State) : Option InFlight :=
  match s.line.inFlight with
  | some x => if x.exchange = .sending then some x else none
  | none => none

/-- The transaction in flight, when its reply window is open. -/
def State.awaiting (s : State) : Option (InFlight × Nat) :=
  match s.line.inFlight with
  | none => none
  | some x =>
    match x.exchange with
    | .window left => some (x, left)
    | _ => none

/-- R87: the last byte has gone out unchanged; the reply window opens. -/
def State.messageSent (s : State) : State :=
  match s.sending with
  | none => s
  | some x => s.setInFlight (some { x with exchange := .window Config.replyWindow })

/-- MESSAGE_SENT (R87). -/
def execMessageSent (s : State) : Host.Outcome State Fault Refusal := .next (s.whenRunning State.messageSent)

/-- R85: the in-flight entry returns to the list with its request time and order. For a disable accepted during the
flight the returned entry takes reason BLANK. -/
def State.returnEntry (s : State) (x : InFlight) (disabling : Bool) : State :=
  let reason := if disabling then .blank else mergeHeld x.entry.reason x.held
  { s with line := { s.line with inFlight := none, entries := s.line.entries ++ [{ x.entry with reason := reason }] } }

/-- R85: the disable was accepted while this transaction was in flight. -/
def Sign.disabling (y : Sign) (x : InFlight) : Bool := y.disablePending && !x.finalBlank

/-- R93: a rise of the error count, and the line DOWN at 128 or more. -/
def State.raiseErrors (s : State) : State :=
  let errors := Nat.min 255 (s.line.errors + Config.echoPenalty)
  if Config.lineDownCount ≤ errors then
    let t : State := { s with line := { s.line with
      errors := errors, state := .down, recovery := some (s.now + Config.recoveryTime) } }
    t.tellAll t.busNotice
  else { s with line := { s.line with errors := errors } }

/-- R91: the transaction ends, no attempt counted. -/
def State.echoMismatch (s : State) : State :=
  match s.sending with
  | none => s
  | some x =>
    match s.line.signs[x.entry.sign]? with
    | none => s
    | some y =>
      let t := s.returnEntry x (y.disabling x)
      let t := if y.disabling x then t.updSign x.entry.sign (fun y => { y with attempts := 0 }) else t
      t.raiseErrors

/-- ECHO_MISMATCH (R91). -/
def execEchoMismatch (s : State) : Host.Outcome State Fault Refusal := .next (s.whenRunning State.echoMismatch)

/-! ### The end of a transaction by an ACK (R88) -/

/-- R88, R89: the acknowledged content an ACK leaves. -/
def InFlight.acknowledged (x : InFlight) (old : Option Shown) : Option Shown :=
  match x.op, x.stage with
  | .probe, _ => old
  | .blank, _ => none
  | .show _ _ _, .first => x.noted
  | .show _ catalogue params, _ => x.noted.map (fun a => { a with catalogue := catalogue, params := params })

/-- R89: only the final BLANK of a refused fallback leaves content refused set. So the ACK of a later fallback clears it as
the ACK of a later first exchange does, and R82 then gives ONLINE; the other reading, by R89's "until an ACK answers the
first exchange", keeps the sign DEGRADED there (DESIGN CHOICE, notes/assumptions/46.md). -/
def InFlight.refusedAfter (x : InFlight) : Bool := x.stage == .final

/-- R88: the sign record an ACK writes; refresh due is that of the state it leaves (R95). -/
def Sign.acknowledge (y : Sign) (x : InFlight) (lamp heater door : Bool) (now : Nat) (mode : Mode) : Sign :=
  let z := { y with
    ack := x.acknowledged y.ack, lampFault := lamp, heaterFault := heater, doorOpen := door,
    refused := x.refusedAfter, state := ackState lamp heater door x.refusedAfter,
    attempts := 0, lastAck := some now, probeDue := none }
  { z with refreshDue := z.refreshTime mode }

/-- R12, R88: the test of one segment at the acknowledgement of sign n. -/
def State.testConfirming (s : State) (n k : Nat) : State :=
  match s.segs.records[k]?, s.line.signs[n]? with
  | some x, some y =>
    if x.state = .closing ∧ x.phase = some .confirming ∧ x.cfg.approach.contains n ∧ s.confirms k y then
      s.withSegmentNotice k (fun s =>
        (s.updSegment k (fun z => { z.toPrewarn with unwarned := false })).followUp k)
    else s
  | _, _ => s

/-- R88: the acknowledgement reported to the segment table, which tests its segments in ascending order. -/
def State.reportAck (s : State) (n : Nat) : State :=
  (List.range s.segs.records.length).foldl (fun s k => s.testConfirming n k) s

/-- R85, R101: the final BLANK of a disable has ended: DISABLED. -/
def State.settleDisabled (s : State) (k : Nat) : State :=
  match s.line.signs[k]? with
  | none => s
  | some y =>
    let t := s.updSign k (fun z =>
      { z with state := .disabled, disablePending := false, attempts := 0, refreshDue := none, probeDue := none })
    t.tellSign k y.state

/-- R85, R88: what an ACK enters at the end of the transaction: the held request, merged with the CHANGE that the ACK
of a PROBE asks. For a sign with disable pending only the held BLANK is entered. -/
def State.enterAfterAck (s : State) (k : Nat) (x : InFlight) : State :=
  match s.line.signs[k]?, s.line.inFlight with
  | some y, some z =>
    let t := s.setInFlight none
    if x.finalBlank then t
    else if y.disabling x then t.newEntry k .blank
    else
      match x.op, z.held with
      | .probe, held => t.newEntry k (mergeHeld .change held)
      | _, some r => t.newEntry k r
      | _, none => t
  | _, _ => s

/-- R93: a transaction whose last exchange received a valid reply. -/
def State.lowerErrors (s : State) : State := { s with line := { s.line with errors := s.line.errors - 1 } }

/-- R88, R97: the transaction ends with an ACK: the record, the segment table, the notice, the held request. -/
def State.endAck (s : State) (x : InFlight) (lamp heater door : Bool) : State :=
  let k := x.entry.sign
  match s.line.signs[k]? with
  | none => s
  | some y =>
    let t := (s.updSign k (fun z => z.acknowledge x lamp heater door s.now s.power.mode)).lowerErrors
    let t := if x.op = .probe then t else t.reportAck k
    let t := t.tellSign k y.state
    let t := t.enterAfterAck k x
    if x.finalBlank then t.settleDisabled k else t

/-! ### Failed attempts (R90) -/

/-- R90: the third failure of an entry: UNREACHABLE, probed in 60 s. -/
def State.failUnreachable (s : State) (k : Nat) (old : SignState) : State :=
  let t := s.updSign k (fun z =>
    { z with state := .unreachable, attempts := 0, refreshDue := none, probeDue := some (s.now + Config.probeInterval) })
  t.tellSign k old

/-- R85, R90: the third failure, by what the transaction was. -/
def State.thirdFailure (s : State) (x : InFlight) (y : Sign) : State :=
  let k := x.entry.sign
  let t := s.setInFlight none
  if x.finalBlank then t.settleDisabled k
  else if y.disabling x then (t.updSign k (fun z => { z with attempts := 0 })).newEntry k .blank
  else t.failUnreachable k y.state

/-- R90: a failed attempt; the transaction ends. -/
def State.failAttempt (s : State) (x : InFlight) : State :=
  let k := x.entry.sign
  match s.line.signs[k]? with
  | none => s
  | some y =>
    if 2 ≤ y.attempts then s.thirdFailure x y
    else
      (s.updSign k (fun z => { z with attempts := if y.disabling x then 0 else z.attempts + 1 })).returnEntry x
        (y.disabling x)

/-! ### Refused content (R89) -/

/-- R89: the fallback exchange by the class of the refused SHOW. -/
def fallbackOp (cls : Nat) : Operation :=
  if cls = 3 then .show 3 5 []
  else if cls = 2 then .show 2 3 []
  else if cls = 1 then .show 1 1 []
  else .blank

/-- R87, R89: another exchange of the same transaction. -/
def State.nextExchange (s : State) (x : InFlight) (y : Sign) (stage : Stage) (op : Operation) : State :=
  s.setInFlight (some { x with
    stage := stage, op := op, message := messageBytes y.cfg.address op, exchange := .idle Config.lineIdle })

/-- R89: a NAK of the content. -/
def State.refuseContent (s : State) (x : InFlight) : State :=
  match s.line.signs[x.entry.sign]?, x.op, x.stage with
  | some y, .show cls _ _, .first => s.nextExchange x y .fallback (fallbackOp cls)
  | some y, .show _ _ _, _ => s.nextExchange x y .final .blank
  | some _, _, _ => (s.failAttempt x).lowerErrors
  | none, _, _ => s

/-! ### Replies -/

/-- The address of the message in flight. -/
def State.addressOf (s : State) (x : InFlight) : Nat := ((s.line.signs[x.entry.sign]?).map (·.cfg.address)).getD 0

/-- R87 to R90: a complete reply within the window. -/
def State.replyReceived (s : State) (bytes : List Byte) : State :=
  match s.awaiting with
  | none => s
  | some (x, _) =>
    if bytes.length < 5 then s
    else
      match parseReply (s.addressOf x) bytes with
      | .ack lamp heater door => s.endAck x lamp heater door
      | .nakContent => s.refuseContent x
      | .nakBusy => (s.failAttempt x).lowerErrors
      | .bad => s.failAttempt x

/-- REPLY_RECEIVED (R88). -/
def execReplyReceived (bytes : List Byte) (s : State) : Host.Outcome State Fault Refusal :=
  .next (s.whenRunning (fun s => s.replyReceived bytes))

/-- R87: the window has expired without a complete reply. -/
def State.replyTimeout (s : State) : State :=
  match s.awaiting with
  | none => s
  | some (x, left) => if left = 0 then s.failAttempt x else s

/-- REPLY_TIMEOUT (R87). -/
def execReplyTimeout (s : State) : Host.Outcome State Fault Refusal := .next (s.whenRunning State.replyTimeout)

/-! ### The timers -/

/-- R95: refresh due has come. -/
def State.refreshArrives (s : State) (k : Nat) : State :=
  match (s.line.signs[k]?).bind (·.refreshDue) with
  | none => s
  | some t =>
    if t ≤ s.now then (s.updSign k (fun x => { x with refreshDue := none })).request k .refresh else s

/-- REFRESH_DUE (R95). -/
def execRefreshDue (k : Nat) (s : State) : Host.Outcome State Fault Refusal :=
  .next (s.whenRunning (fun s => s.refreshArrives k))

/-- R92: probe due has come; the next is 60 s on. -/
def State.probeArrives (s : State) (k : Nat) : State :=
  match (s.line.signs[k]?).bind (·.probeDue) with
  | none => s
  | some t =>
    if t ≤ s.now then
      (s.updSign k (fun x => { x with probeDue := some (t + Config.probeInterval) })).request k .probe
    else s

/-- PROBE_DUE (R92). -/
def execProbeDue (k : Nat) (s : State) : Host.Outcome State Fault Refusal :=
  .next (s.whenRunning (fun s => s.probeArrives k))

/-- R94: the line is UP with count 0, and every sign not DISABLED is asked a REFRESH. -/
def State.recoverLine (s : State) : State :=
  let t : State := { s with line := { s.line with errors := 0, state := .up, recovery := none } }
  let t := t.eachSign (fun t k => t.request k .refresh)
  t.tellAll t.busNotice

/-- LINE_RECOVERY (R94). -/
def execLineRecovery (s : State) : Host.Outcome State Fault Refusal :=
  .next (s.whenRunning (fun s =>
    match s.line.recovery with
    | none => s
    | some t => if t ≤ s.now then s.recoverLine else s))

end Sys2Proof.Machine
end

