-- ==== Sys2Proof/Machine/HazardFamily.lean ====
section
/-! DEFINITION. The hazard engine (chapter 6): the stages of a period (R123 to R133), detections (R136, R137),
HAZARD_PERIOD_EXPIRY, FLOOR_END, READ PATH, REPORT DETECTION, CLEAR PATH, SET PATH FLOOR and SEED PATH. -/

namespace Sys2Proof.Machine

/-! ### The stages of a period -/

/-- R121 step 1, R123: the four channels as a period reads them; a channel that is not usable is absent. -/
structure Readings where
  depth : Option Int
  speed : Option Int
  direction : Option Int
  air : Option Int
deriving DecidableEq, Repr

/-- R123: the value of a channel, when it is usable. -/
def State.reading (s : State) (c : Nat) : Option Int := (s.channel? c).bind (·.usable)

/-- R121 step 1. -/
def State.readings (s : State) (c : PathConfig) : Readings :=
  { depth := s.reading c.depthChannel, speed := s.reading c.speedChannel, direction := s.reading c.directionChannel,
    air := s.reading c.airChannel }

/-- R124: the largest new snow of a period, in cm. -/
def maxNewSnow : Nat := 60

/-- R124: the new snow. -/
def newSnow (depth ref : Option Int) : Nat :=
  match depth, ref with
  | some d, some r => Nat.min maxNewSnow (d - r).toNat
  | _, _ => 0

/-- R124: the reference depth after the period. -/
def refAfter (depth ref : Option Int) : Option Int :=
  match depth with
  | some d => some d
  | none => ref

/-- R125: the angular distance. -/
def angularDistance (theta centre : Int) : Int :=
  let d : Int := (theta - centre).natAbs
  if 360 - d < d then 360 - d else d

/-- R125: the wind is in sector; absent when either wind channel is not usable. -/
def Readings.inSector (r : Readings) (c : PathConfig) : Option Bool :=
  match r.speed, r.direction with
  | some _, some theta => some (decide (angularDistance theta c.centre ≤ c.halfWidth))
  | _, _ => none

/-- R125: the wind factor of a speed in sector. -/
def speedFactor (v : Int) : Nat :=
  if v < 30 then 4 else if v < 70 then 6 else if v < 120 then 9 else if v < 200 then 12 else 8

/-- R125: the wind factor in quarters. -/
def Readings.windFactor (r : Readings) (c : PathConfig) : Nat :=
  match r.inSector c, r.speed with
  | some true, some v => speedFactor v
  | some false, _ => 4
  | _, _ => 6

/-- R126: the snow term. -/
def snowTerm (snow factor sensitivity : Nat) : Nat := snow * 10 * factor * sensitivity / 400

/-- R127: the hourly drift rate. -/
def driftRate (v : Int) : Nat := if v < 70 then 0 else if v < 120 then 20 else if v < 200 then 50 else 30

/-- R127: the drift term. -/
def Readings.drift (r : Readings) (c : PathConfig) (period : Nat) : Nat :=
  match r.inSector c, r.speed, r.depth with
  | some true, some v, some d => if d < 20 then 0 else driftRate v * period * c.sensitivity / 360000
  | _, _, _ => 0

/-- R128: the settlement rate; the substitute is 10. -/
def settleRate : Option Int → Nat
  | none => 10
  | some t => if t < -100 then 4 else if t < -20 then 10 else if t < 10 then 20 else 35

/-- R128: the settlement. -/
def settlement (loading rate period : Nat) : Nat := loading * rate * period / 3600000

/-- R119: the largest loading. -/
def maxLoading : Nat := 9999

/-- R129: the new loading. -/
def newLoading (loading settle snow drift : Nat) : Nat := Nat.min maxLoading (loading - settle + snow + drift)

/-- R130: the raw level by the thresholds. -/
def PathConfig.rawLevel (c : PathConfig) (loading : Nat) : Nat :=
  if loading < c.t1 * 10 then 1
  else if loading < c.t2 * 10 then 2
  else if loading < c.t3 * 10 then 3
  else if loading < c.t4 * 10 then 4
  else 5

/-- R130: the wet adjustment applies; a substituted temperature gives none. -/
def isWet (air : Option Int) (loading : Nat) : Bool := air.any (fun t => decide (10 ≤ t)) && decide (2000 ≤ loading)

/-- R130: the raw level after the wet adjustment. -/
def wetLevel (raw : Nat) (air : Option Int) (loading : Nat) : Nat :=
  if isWet air loading then Nat.min 5 (raw + 1) else raw

/-- R131: the threshold of a level. -/
def PathConfig.threshold (c : PathConfig) (level : Nat) : Nat :=
  if level ≤ 2 then c.t1 else if level = 3 then c.t2 else if level = 4 then c.t3 else c.t4

/-- R131: the loading lies clear below the level's threshold. -/
def PathConfig.clearBelow (c : PathConfig) (level loading : Nat) : Bool :=
  decide ((loading : Int) < 10 * ((c.threshold level : Int) - c.band))

/-- R131: the level and dwell after hysteresis. -/
def Path.hysteresis (p : Path) (raw loading : Nat) : Nat × Nat :=
  if p.level < raw then (raw, 0)
  else if raw < p.level ∧ p.cfg.clearBelow p.level loading ∧ p.cfg.minDwell ≤ p.dwell then (p.level - 1, 0)
  else (p.level, Nat.min 255 (p.dwell + 1))

/-- R132: a level lifted to the floor. -/
def Path.lifted (p : Path) (level : Nat) : Nat := Nat.max level ((p.floor.map (·.level)).getD 0)

/-- R133: the substitutes of a period. -/
def Readings.substitutes (r : Readings) : Substitutes :=
  { depth := r.depth.isNone, wind := r.speed.isNone || r.direction.isNone, temperature := r.air.isNone }

/-- R133: at least one substitute. -/
def Substitutes.any (x : Substitutes) : Bool := x.depth || x.wind || x.temperature

/-- R122: the figures of one period of a path. -/
def Path.figures (p : Path) (r : Readings) (period now : Nat) : Working :=
  let snow := newSnow r.depth p.refDepth
  let factor := r.windFactor p.cfg
  let term := snowTerm snow factor p.cfg.sensitivity
  let drift := r.drift p.cfg period
  let rate := settleRate r.air
  let settle := settlement p.loading rate period
  let loading := newLoading p.loading settle term drift
  let raw := p.cfg.rawLevel loading
  { time := now, depth := r.depth, newSnow := snow, inSector := r.inSector p.cfg, windFactor := factor,
    snowTerm := term, drift := drift, rate := rate, settle := settle, oldLoading := p.loading, newLoading := loading,
    rawBefore := raw, rawAfter := wetLevel raw r.air loading, levelBefore := p.level }

/-- R121 steps 2 and 3: the path record after a period. -/
def Path.period (p : Path) (r : Readings) (period now : Nat) : Path :=
  let w := p.figures r period now
  let h := p.hysteresis w.rawAfter w.newLoading
  { p with
    loading := w.newLoading, refDepth := refAfter r.depth p.refDepth, level := p.lifted h.1, dwell := h.2,
    degraded := r.substitutes.any, substitutes := r.substitutes, working := some w }

/-! ### Notices -/

/-- R144: PATH_LEVEL. -/
def State.pathNotice (s : State) (n : Nat) (p : Path) : Notice :=
  s.notice .pathLevel n (packed p.level p.latch.code) (value16 p.loading) (value16 (((p.floor.map (·.level)).getD 0 : Nat) : Int))

/-- R145: PATH_INPUT. -/
def State.inputNotice (s : State) (n : Nat) (p : Path) : Notice :=
  s.notice .pathInput n (packed 0 (markCode p.degraded + 2 * markCode p.unseeded)) (packed 0 p.substitutes.code)
    (value16 (p.refDepth.getD Config.absentFigure))

/-- R144: PATH_LEVEL, when the level or the latch is not what it was. -/
def State.tellPath (s : State) (n : Nat) (old : Path) : State :=
  match s.hazard.paths[n]? with
  | none => s
  | some p => if p.level = old.level ∧ p.latch = old.latch then s else s.tellAll (s.pathNotice n p)

/-- R145: PATH_INPUT, when a mark is not what it was. -/
def State.tellInput (s : State) (n : Nat) (old : Path) : State :=
  match s.hazard.paths[n]? with
  | none => s
  | some p =>
    if p.degraded = old.degraded ∧ p.unseeded = old.unseeded then s else s.tellAll (s.inputNotice n p)

/-! ### HAZARD_PERIOD_EXPIRY and FLOOR_END -/

/-- R121: one path carried through a period, and through everything it hands on. -/
def State.computePath (s : State) (n : Nat) : State :=
  match s.hazard.paths[n]? with
  | none => s
  | some p =>
    let t := s.updPath n (fun _ => p.period (s.readings p.cfg) s.hazard.period s.now)
    let t := if (p.period (s.readings p.cfg) s.hazard.period s.now).level = p.level then t else t.handOver n
    (t.tellPath n p).tellInput n p

/-- R121: every described path in ascending number. -/
def State.computePaths (s : State) : State := (List.range s.hazard.paths.length).foldl State.computePath s

/-- R120, R121: the period expires; the next expiry is one period on. In LOADING and NO_CORRIDOR it finds no path. A next
expiry past the highest value of the 32-bit clock, of which the manual does not speak, is kept as the whole sum, a moment
the clock never reaches (DESIGN CHOICE, notes/assumptions/44.md). -/
def State.expirePeriod (s : State) : State :=
  let t : State := { s with hazard := { s.hazard with nextExpiry := s.hazard.nextExpiry + s.hazard.period } }
  if s.described then t.computePaths else t

/-- HAZARD_PERIOD_EXPIRY (R121). -/
def execHazardPeriodExpiry (s : State) : Host.Outcome State Fault Refusal :=
  .next (if s.held.isNone ∧ s.hazard.nextExpiry ≤ s.now then s.expirePeriod else s)

/-- R132: the floor's end comes: the floor is absent and the claims are derived again. -/
def State.endFloor (s : State) (n : Nat) : State :=
  match (s.hazard.paths[n]?).bind (·.floor) with
  | none => s
  | some f => if f.endsAt ≤ s.now then (s.updPath n (fun p => { p with floor := none })).handOver n else s

/-- FLOOR_END (R132). -/
def execFloorEnd (n : Nat) (s : State) : Host.Outcome State Fault Refusal :=
  .next (s.whenRunning (fun s => s.endFloor n))

/-! ### READ PATH -/

/-- 10.3: the call of a path. -/
def Call.code (c : Call) : Nat := c.level.code + 128 * markCode c.urgent

/-- R122, 10.3: the last working, 22 bytes behind its presence byte. -/
def workingBytes : Option Working → List Byte
  | none => List.replicate 23 0#8
  | some w =>
    bytes1 1 ++ bytes4 w.time ++ opt2 w.depth ++ bytes1 w.newSnow ++ opt1 (w.inSector.map markCode) ++
      bytes1 w.windFactor ++ bytes2 w.snowTerm ++ bytes1 w.drift ++ bytes1 w.rate ++ bytes2 w.settle ++
      bytes2 w.oldLoading ++ bytes2 w.newLoading ++ bytes1 w.rawBefore ++ bytes1 w.rawAfter ++ bytes1 w.levelBefore

/-- R139, 10.3: the body of READ PATH. -/
def State.pathBody (s : State) (n : Nat) (p : Path) : List Byte :=
  let c := p.cfg
  bytes1 n ++ bytes1 c.depthChannel ++ bytes1 c.speedChannel ++ bytes1 c.directionChannel ++ bytes1 c.airChannel ++
    bytes2 c.centre ++ bytes1 c.halfWidth ++ bytes2 c.sensitivity ++ bytes2 c.t1 ++ bytes2 c.t2 ++ bytes2 c.t3 ++
    bytes2 c.t4 ++ bytes1 c.band ++ bytes1 c.minDwell ++ bytes1 c.adviseLevel ++ bytes1 c.closeLevel ++
    listField 2 c.segments ++ bytes1 c.residual ++ opt1 c.trip ++ bytes2 p.loading ++ opt2 p.refDepth ++
    bytes1 p.level ++ bytes1 p.dwell ++ bytes1 p.latch.code ++ bytes1 ((p.floor.map (·.level)).getD 0) ++
    opt4 (p.floor.map (·.endsAt)) ++ mark1 p.degraded ++ bytes1 p.substitutes.code ++ mark1 p.unseeded ++
    workingBytes p.working ++ bytes4 s.hazard.nextExpiry ++ opt1 (c.trip.map (fun l => markCode (s.asserted l))) ++
    (c.segments.map (fun _ => byteOf p.call.code) ++ List.replicate 2 0xFF#8).take 2 ++ bytes2 s.hazard.period

/-- R139. -/
def State.readPath (s : State) (body : List Byte) : Answer :=
  match s.hazard.paths[read1 body 0]? with
  | none => Answer.refuse .badArg s
  | some p => Answer.ok (s.pathBody (read1 body 0) p) s

/-- READ PATH (R139). -/
def execReadPath (m : Master) (s : State) : Host.Outcome State Fault Refusal :=
  .next (s.execute m .readPath anyBody (fun body s => s.readPath body))

/-! ### Detections -/

/-- R136: the loading left after a release. -/
def Path.reduced (p : Path) : Nat := p.loading * p.cfg.residual / 100

/-- R136: the path record after a detection. -/
def Path.detect (p : Path) (kind : DetectionKind) : Path :=
  match kind with
  | .release => { p with latch := .release, loading := p.reduced }
  | .deposit => { p with latch := .deposit }
  | .controlled => { p with loading := p.reduced }

/-- R136: a detection taken: a change of latch hands the path's calls over. -/
def State.takeDetection (s : State) (n : Nat) (kind : DetectionKind) : State :=
  match s.hazard.paths[n]? with
  | none => s
  | some p =>
    let t := s.updPath n (fun _ => p.detect kind)
    if (p.detect kind).latch = p.latch then t else t.handOver n

/-- R136, R144: a detection with its notice. -/
def State.detection (s : State) (n : Nat) (kind : DetectionKind) : State :=
  match s.hazard.paths[n]? with
  | none => s
  | some p => (s.takeDetection n kind).tellPath n p

/-- R114, R137: a taken change of a line delivered to the paths whose trip line it is, in ascending number; only an
assertion is a detection. -/
def State.deliverPaths (s : State) (line : Nat) (asserted : Bool) : State :=
  (List.range s.hazard.paths.length).foldl (fun s n =>
    match s.hazard.paths[n]? with
    | some p => if p.cfg.trip = some line ∧ asserted then s.detection n .release else s
    | none => s) s

/-! ### REPORT DETECTION -/

/-- R140: the response carries the latch and loading after the detection. -/
def State.detectionBody (s : State) (n : Nat) : List Byte :=
  match s.hazard.paths[n]? with
  | some p => bytes1 p.latch.code ++ bytes2 p.loading
  | none => []

/-- R140. -/
def State.reportDetection (s : State) (m : Master) (body : List Byte) : Answer :=
  if m ≠ .slope then Answer.refuse .noRight s
  else
    match s.hazard.paths[read1 body 0]?, detectionOfCode (read1 body 1) with
    | some _, some kind =>
      let t := s.detection (read1 body 0) kind
      Answer.ok (t.detectionBody (read1 body 0)) t
    | _, _ => Answer.refuse .badArg s

/-- REPORT DETECTION (R140). -/
def execReportDetection (m : Master) (s : State) : Host.Outcome State Fault Refusal :=
  .next (s.execute m .reportDetection anyBody (fun body s => s.reportDetection m body))

/-! ### CLEAR PATH -/

/-- R141: SLOPE, or CENTRE holding OVERRIDE on every segment the path affects. -/
def State.mayClear (s : State) (m : Master) (p : Path) : Bool :=
  m == .slope || (m == .centre && p.cfg.segments.all (fun k => s.hasRight k m overrideRight))

/-- R141: the latch cleared and the claims handed over. -/
def State.clearLatch (s : State) (n : Nat) (p : Path) : State :=
  if p.latch = .clear then s
  else ((s.updPath n (fun q => { q with latch := .clear })).handOver n).tellPath n p

/-- R141. -/
def State.clearPath (s : State) (m : Master) (body : List Byte) : Answer :=
  match s.hazard.paths[read1 body 0]? with
  | none => Answer.refuse .badArg s
  | some p =>
    if !s.mayClear m p then Answer.refuse .noRight s
    else if p.cfg.trip.any (fun l => s.asserted l) then Answer.refuse .wrongState s
    else Answer.ok [] (s.clearLatch (read1 body 0) p)

/-- CLEAR PATH (R141). -/
def execClearPath (m : Master) (s : State) : Host.Outcome State Fault Refusal :=
  .next (s.execute m .clearPath anyBody (fun body s => s.clearPath m body))

/-! ### SET PATH FLOOR -/

/-- The level of a path. -/
def State.pathLevel (s : State) (n : Nat) : Nat := ((s.hazard.paths[n]?).map (·.level)).getD 0

/-- R142: the path record after an accepted SET PATH FLOOR; a duration of 0 removes the floor. A floor's end past the
highest value of the 32-bit clock is kept as the whole sum (DESIGN CHOICE, notes/assumptions/44.md). -/
def Path.setFloor (p : Path) (level duration now : Nat) : Path :=
  if duration = 0 then { p with floor := none }
  else
    let q := { p with floor := some { level := level, endsAt := now + Nat.min duration Config.maxFloorDuration } }
    if p.level < level then { q with level := level, dwell := 0 } else q

/-- R142: in every accepted case the claims are handed over. -/
def State.placeFloor (s : State) (n level duration : Nat) (p : Path) : State :=
  ((s.updPath n (fun q => q.setFloor level duration s.now)).handOver n).tellPath n p

/-- R142. -/
def State.setPathFloor (s : State) (m : Master) (body : List Byte) : Answer :=
  let n := read1 body 0
  let level := read1 body 1
  if m ≠ .slope then Answer.refuse .noRight s
  else
    match s.hazard.paths[n]? with
    | none => Answer.refuse .badArg s
    | some p =>
      if level < 1 ∨ 5 < level then Answer.refuse .badArg s
      else
        let t := s.placeFloor n level (read4 body 2) p
        Answer.ok (bytes1 (t.pathLevel n)) t

/-- SET PATH FLOOR (R142). -/
def execSetPathFloor (m : Master) (s : State) : Host.Outcome State Fault Refusal :=
  .next (s.execute m .setPathFloor anyBody (fun body s => s.setPathFloor m body))

/-! ### SEED PATH -/

/-- R143: a loading clamped into 0 to 9999. -/
def clampLoading (i : Int) : Nat := Nat.min maxLoading i.toNat

/-- R143 steps 1 to 5. -/
def Path.seed (p : Path) (r : Readings) (loading : Nat) : Path :=
  { p with
    loading := loading, refDepth := r.depth,
    level := p.lifted (wetLevel (p.cfg.rawLevel loading) r.air loading), dwell := 0, unseeded := false }

/-- R143 step 6, with its notices. -/
def State.applySeed (s : State) (n loading : Nat) (p : Path) : State :=
  let t := (s.updPath n (fun q => q.seed (s.readings p.cfg) loading)).handOver n
  (t.tellPath n p).tellInput n p

/-- R143. -/
def State.seedPath (s : State) (m : Master) (body : List Byte) : Answer :=
  let n := read1 body 0
  if m ≠ .slope then Answer.refuse .noRight s
  else
    match s.hazard.paths[n]? with
    | none => Answer.refuse .badArg s
    | some p =>
      let t := s.applySeed n (clampLoading (readInt2 body 1)) p
      Answer.ok (bytes1 (t.pathLevel n)) t

/-- SEED PATH (R143). -/
def execSeedPath (m : Master) (s : State) : Host.Outcome State Fault Refusal :=
  .next (s.execute m .seedPath anyBody (fun body s => s.seedPath m body))

end Sys2Proof.Machine
end

