-- ==== Sys2Proof/Machine/PowerFamily.lean ====
section
/-! DEFINITION. The power controller (chapter 7): the end-of-round update (R147 to R153, R189) and READ POWER. -/

namespace Sys2Proof.Machine

/-! ### The end-of-round update -/

/-- R148: what an update reads of channels 28 to 31: V, I, Vs, and T when it is usable. -/
structure PowerReadings where
  voltage : Int
  current : Int
  source : Int
  temperature : Option Int
deriving DecidableEq, Repr

/-- R147, R148. -/
def State.powerReadings (s : State) : PowerReadings :=
  { voltage := (s.reading 28).getD 0, current := (s.reading 29).getD 0, source := (s.reading 31).getD 0,
    temperature := s.reading 30 }

/-- R152 step 2: the total of an update, in mA·s. -/
def Power.total (p : Power) (current : Int) (now : Nat) : Int := p.remainder + current * ((now : Int) - p.updated)

/-- R152: the account carried forward; the quotient is rounded down, toward minus infinity. -/
def Power.carry (p : Power) (current : Int) (now : Nat) : Power :=
  let a := (p.account : Int) + p.total current now / 3600
  if a < 0 then { p with account := 0, remainder := 0, updated := now }
  else if (p.params.capacity : Int) < a then { p with account := p.params.capacity, remainder := 0, updated := now }
  else { p with account := a.toNat, remainder := (p.total current now % 3600).toNat, updated := now }

/-- R148 steps 1 and 2: the stopping condition that holds. -/
def PowerParams.stops (q : PowerParams) (r : PowerReadings) : Option ChargeState :=
  if r.source < r.voltage + 500 then some .noSource
  else if r.temperature.any (fun t => decide (t < q.coldLockout) || decide ((q.hotLockout : Int) < t)) then some .lockout
  else none

/-- R150: the absorb voltage of the BULK test: that of the update before, or the parameter. -/
def Power.bulkExit (p : Power) : Int := (p.targets.map (·.absorb)).getD p.params.absorbVoltage

/-- R149: the ABSORB state has lasted the absorb limit. -/
def Power.absorbed (p : Power) (now : Nat) : Bool := p.absorbSince.any (fun t => decide (p.params.absorbLimit ≤ now - t))

/-- R148, R149: the charge state of one evaluation. -/
def Power.nextCharge (p : Power) (r : PowerReadings) (now : Nat) : ChargeState :=
  match p.params.stops r with
  | some state => state
  | none =>
    match p.charge with
    | .noSource | .lockout => if r.voltage < p.params.recoverThreshold then .recover else .bulk
    | .recover => if (p.params.recoverThreshold : Int) ≤ r.voltage then .bulk else .recover
    | .bulk => if p.bulkExit ≤ r.voltage then .absorb else .bulk
    | .absorb => if r.current < p.params.cutoffCurrent ∨ p.absorbed now then .float else .absorb
    | .float => if r.voltage < p.params.rebulkThreshold then .bulk else .float

/-- R148, R149, R153: the charge state taken, with its entry time and absorb since; entry to FLOAT sets the account full. -/
def Power.enterCharge (p : Power) (c : ChargeState) (now : Nat) : Power :=
  if c = p.charge then p
  else
    let q := { p with charge := c, entered := now, absorbSince := if c = .absorb then some now else none }
    if c = .float then { q with account := p.params.capacity, remainder := 0 } else q

/-- R153: the low-voltage recalibration. -/
def Power.recalibrate (p : Power) (r : PowerReadings) : Power :=
  if r.voltage < 22000 ∧ r.current < 0 ∧ p.params.capacity / 10 < p.account then
    { p with account := p.params.capacity / 10, remainder := 0 }
  else p

/-- R150: a battery temperature clamped into −200 to +450. -/
def clampTemperature (t : Int) : Int := max (-200) (min 450 t)

/-- R150: a target compensated; the division rounds toward zero. -/
def compensated (v25 : Nat) (coefficient tc : Int) : Int := v25 + (coefficient * (tc - 250)).tdiv 10

/-- R150: the compensated targets. -/
def PowerParams.compensate (q : PowerParams) (temperature : Option Int) : Targets :=
  let tc := (temperature.map clampTemperature).getD 250
  { absorb := compensated q.absorbVoltage q.coefficient tc, float := compensated q.floatVoltage q.coefficient tc,
    temperature := tc, substitute := temperature.isNone }

/-- R151: the set-point and charge-enable of the charge state. -/
def Power.present (p : Power) (t : Targets) : Power :=
  match p.charge with
  | .recover => { p with enable := true, target := t.absorb, limit := p.params.recoverCurrent }
  | .bulk | .absorb => { p with enable := true, target := t.absorb, limit := p.params.bulkCurrent }
  | .float => { p with enable := true, target := t.float, limit := p.params.bulkCurrent }
  | .noSource | .lockout => { p with enable := false }

/-- R150, R151, R189: step 4 of an update: the targets formed, the figures set, and the set-point word sent. -/
def Power.setPoint (p : Power) (r : PowerReadings) : Power :=
  let q := { p with targets := some (p.params.compensate r.temperature) }.present (p.params.compensate r.temperature)
  { q with word := some (setPointWord q.target q.limit) }

/-- R146: the parameters last taken come into force at an end of a round. -/
def Power.adopt (p : Power) : Power := { p with params := p.taken, fromGroup := p.takenFromGroup }

/-- R146, R147 steps 1 to 4. -/
def Power.update (p : Power) (r : PowerReadings) (now : Nat) : Power :=
  let p1 := p.adopt.carry r.current now
  let p2 := p1.enterCharge (p1.nextCharge r now) now
  (p2.recalibrate r).setPoint r

/-- R162: CHARGE_STATE. -/
def State.chargeNotice (s : State) (r : PowerReadings) : Notice :=
  s.notice .chargeState 0 (packed 0 s.power.charge.code) (value16 r.voltage) (value16 r.current)

/-- R147: the update at the end of a round, with its notices and the handing on of a mode change. -/
def State.powerUpdate (s : State) : State :=
  let r := s.powerReadings
  let t : State := { s with power := s.power.update r s.now }
  let t := if t.power.charge = s.power.charge then t else t.tellAll (t.chargeNotice r)
  t.evaluateMode false

/-! ### READ POWER -/

/-- 10.3, 10.5: the parameters in the layout of the power group's record, 25 bytes. -/
def PowerParams.bytes (q : PowerParams) : List Byte :=
  bytes2 (q.capacity / 1000 : Nat) ++ bytes2 q.recoverThreshold ++ bytes2 q.recoverCurrent ++ bytes2 q.bulkCurrent ++
    bytes2 q.absorbVoltage ++ bytes2 q.floatVoltage ++ [BitVec.ofInt 8 q.coefficient] ++ bytes2 q.cutoffCurrent ++
    bytes2 q.absorbLimit ++ bytes2 q.rebulkThreshold ++ bytes2 q.coldLockout ++ bytes2 q.hotLockout ++
    bytes1 q.economyPercent ++ bytes1 q.reservePercent

/-- R161, 10.3: the body of READ POWER. -/
def State.powerBody (s : State) : List Byte :=
  let p := s.power
  bytes1 p.charge.code ++ bytes4 p.entered ++ opt4 p.absorbSince ++ bytes4 p.account ++ bytes2 p.remainder ++
    bytes4 p.params.capacity ++ bytes4 p.updated ++ bytes4 p.reserve ++ bytes4 p.headroom ++ bytes1 p.mode.code ++
    bytes4 p.params.e1 ++ bytes4 p.params.e2 ++ bytes4 p.params.hysteresis ++
    opt2 (p.targets.map (·.absorb)) ++ opt2 (p.targets.map (·.float)) ++ opt2 (p.targets.map (·.temperature)) ++
    opt1 (p.targets.map (fun t => markCode t.substitute)) ++ bytes2 p.target ++ bytes2 p.limit ++
    mark1 s.chargeEnable ++ mark1 p.fromGroup ++ p.params.bytes

/-- READ POWER (R161). -/
def execReadPower (m : Master) (s : State) : Host.Outcome State Fault Refusal :=
  .next (s.execute m .readPower anyBody (fun _ s => Answer.ok s.powerBody s))

end Sys2Proof.Machine
end

