-- ==== Sys2Proof/Machine/ScanFamily.lean ====
section
/-! DEFINITION. The scan block (chapter 5): conversion (R107), readings and their quality (R110, R111), publication
(R112), the input lines (R113, R114), READ CHANNEL, SUBMIT OBSERVATION, SCAN_ROUND_START, CHANNEL_CONVERSION_DONE,
HOLD_AGE_EXPIRY, SILENCE_EXPIRY, INPUT_EDGE and DEBOUNCE_EXPIRY. -/

namespace Sys2Proof.Machine

/-! ### Conversion -/

/-- R107 step 1: the averaged raw value of the first `count` conversions. -/
def averageRaw (raws : List Raw) (count : Nat) : Nat := ((raws.take count).map BitVec.toNat).sum / count

/-- R107 step 2: a product divided by 4095, rounded half away from zero. -/
def scaleRound (p : Int) : Int := p.sign * ((2 * p.natAbs + 4095) / 8190 : Nat)

/-- R107 step 3, R117: 360 degrees are taken as 0. -/
def wrapDirection (kind : ChannelKind) (v : Int) : Int := if kind = .windDir ∧ v = 360 then 0 else v

/-- R107: the value of an averaged raw value. -/
def scaledValue (kind : ChannelKind) (span offset : Int) (raw : Nat) : Int :=
  wrapDirection kind (scaleRound (raw * span) + offset)

/-- R107: the value lies in the valid range, both ends included. -/
def ChannelDesc.inRange (d : ChannelDesc) (v : Int) : Bool := decide (d.lo ≤ v) && decide (v ≤ d.hi)

/-! ### Readings -/

/-- R110: the bad count of one more out-of-range reading. -/
def Channel.oneMoreBad (c : Channel) : Nat := Nat.min 255 (c.badCount + 1)

/-- R110: an out-of-range reading in NEVER or HELD: FAILED at the third. -/
def Channel.badReading (c : Channel) (stay : Channel) : Channel :=
  if 3 ≤ c.oneMoreBad then
    { c with quality := .failed, cause := some .badCount, badCount := c.oneMoreBad, heldSince := none }
  else stay

/-- R110: a reading by the quality it finds. -/
def Channel.take (c : Channel) (v : Int) (good : Bool) (now : Nat) : Channel :=
  let c := { c with lastReading := some now }
  if good then { c with quality := .good, value := some v, badCount := 0, heldSince := none, cause := none }
  else
    match c.quality with
    | .never => c.badReading { c with badCount := c.oneMoreBad }
    | .good => { c with quality := .held, badCount := 1, heldSince := some now }
    | .held => c.badReading { c with badCount := c.oneMoreBad }
    | .failed => { c with badCount := c.oneMoreBad }

/-- R111: a timer takes the channel to FAILED; the value and bad count are kept. -/
def Channel.failBy (c : Channel) (cause : FailCause) : Channel :=
  { c with quality := .failed, cause := some cause, heldSince := none }

/-! ### Publication -/

/-- R118: CHANNEL_STATE. -/
def State.channelNotice (s : State) (c : Nat) (x : Channel) : Notice :=
  s.notice .channelState c (packed x.quality.code (failCauseCode x.cause)) (value16 (x.value.getD Config.absentFigure))
    (packed 0 x.badCount)

/-- R112: a result published: the record, the weather slots, and CHANNEL_STATE at a change to or from FAILED. -/
def State.publish (s : State) (c : Nat) (x : Channel) (before : Quality) : State :=
  let t := (s.setChannel c x).formWeatherFrom c x
  if (before = .failed) = (x.quality = .failed) then t else t.tellAll (t.channelNotice c x)

/-! ### READ CHANNEL -/

/-- R111: the moment of a running hold-age timer. -/
def Channel.holdAgeDue (c : Channel) : Option Nat := c.heldSince.map (fun t => t + c.desc.holdLimit)
/-- R111: the moment of a standing silence timer. -/
def Channel.silenceDue (c : Channel) : Option Nat := c.silenceFrom.map (fun t => t + c.desc.holdLimit)

/-- 10.3: source, analog input, feeding master. -/
def Source.bytes : Source → List Byte
  | .wired input _ _ _ => bytes1 0 ++ opt1 input ++ opt1 none
  | .remote feeder => bytes1 1 ++ opt1 none ++ bytes1 (masterCode feeder)

/-- 10.3: span and offset. -/
def Source.scaleBytes : Source → List Byte
  | .wired _ span offset _ => bytes2 span ++ bytes2 offset
  | .remote _ => opt2 none ++ opt2 none

/-- 10.3: the averaging count. -/
def Source.averagingBytes : Source → List Byte
  | .wired _ _ _ n => bytes1 n
  | .remote _ => opt1 none

/-- R116, 10.3: the last submission's value, flag, clamped mark and time. -/
def submissionBytes (x : Option Submission) : List Byte :=
  opt2 (x.map (·.value)) ++ opt1 (x.map (fun y => markCode y.suspect)) ++ opt1 (x.map (fun y => markCode y.clamped)) ++
    opt4 (x.map (·.time))

/-- R116, 10.3: the body of READ CHANNEL. A figure that does not fit its signed 16 bits (the span and hi of 60,000, a value
of channel 31 above 32,767) is shown as its low 16 bits (DESIGN CHOICE, notes/assumptions/19.md). -/
def channelBody (c : Nat) (x : Channel) : List Byte :=
  bytes1 c ++ x.desc.source.bytes ++ bytes1 x.desc.kind.code ++ opt1 x.desc.station ++ x.desc.source.scaleBytes ++
    bytes2 x.desc.lo ++ bytes2 x.desc.hi ++ x.desc.source.averagingBytes ++ bytes2 x.desc.holdLimit ++
    opt2 x.value ++ bytes1 x.quality.code ++ bytes1 x.badCount ++ opt4 x.heldSince ++
    bytes1 (failCauseCode x.cause) ++ opt4 x.lastReading ++ opt2 (x.lastRaw.map Int.ofNat) ++
    submissionBytes x.submission ++ opt4 x.holdAgeDue ++ opt4 x.silenceDue

/-- R116. -/
def State.readChannel (s : State) (body : List Byte) : Answer :=
  match s.channel? (read1 body 0) with
  | none => Answer.refuse .badArg s
  | some x => Answer.ok (channelBody (read1 body 0) x) s

/-- READ CHANNEL (R116). -/
def execReadChannel (m : Master) (s : State) : Host.Outcome State Fault Refusal :=
  .next (s.execute m .readChannel anyBody (fun body s => s.readChannel body))

/-! ### SUBMIT OBSERVATION -/

/-- R117: a value clamped into the valid range. -/
def ChannelDesc.clamp (d : ChannelDesc) (v : Int) : Int := if v < d.lo then d.lo else if d.hi < v then d.hi else v

/-- R117: the submission recorded, the silence timer set, and the reading taken. -/
def Channel.submit (c : Channel) (v : Int) (suspect : Bool) (now : Nat) : Channel :=
  let v := wrapDirection c.desc.kind v
  let clamped := c.desc.clamp v != v
  ({ c with
    submission := some { value := c.desc.clamp v, suspect := suspect, clamped := clamped, time := now },
    silenceFrom := some now }).take (c.desc.clamp v) (!clamped && !suspect) now

/-- R117: an accepted submission published, with the quality and value after it. -/
def State.acceptSubmission (s : State) (c : Nat) (x : Channel) (v : Int) (suspect : Bool) : Answer :=
  let y := x.submit v suspect s.now
  Answer.ok (bytes1 y.quality.code ++ opt2 y.value) (s.publish c y x.quality)

/-- R117. -/
def State.submitObservation (s : State) (m : Master) (body : List Byte) : Answer :=
  let c := read1 body 0
  if 28 ≤ c ∨ 1 < read1 body 3 then Answer.refuse .badArg s
  else
    match s.channel? c with
    | none => Answer.refuse .badArg s
    | some x =>
      match x.desc.source with
      | .wired _ _ _ _ => Answer.refuse .badArg s
      | .remote feeder =>
        if m ≠ feeder then Answer.refuse .noRight s
        else s.acceptSubmission c x (readInt2 body 1) (read1 body 3 == 1)

/-- SUBMIT OBSERVATION (R117). -/
def execSubmitObservation (m : Master) (s : State) : Host.Outcome State Fault Refusal :=
  .next (s.execute m .submitObservation anyBody (fun body s => s.submitObservation m body))

/-! ### The scan round -/

/-- R108: the scan interval of a mode. -/
def scanInterval : Mode → Nat
  | .normal => 10 | .economy => 30 | .reserve => 60

/-- R109: channel c takes part in a round: LOCAL, and described or one of 28 to 31. -/
def State.converts (s : State) (c : Nat) : Bool :=
  match s.channel? c with
  | some x =>
    (match x.desc.source with
      | .wired _ _ _ _ => decide (28 ≤ c) || s.described
      | .remote _ => false)
  | none => false

/-- R109: the first channel of a round from number c on. -/
def State.nextConverted (s : State) (c : Nat) : Option Nat := (List.range' c (32 - c)).find? s.converts

/-- R108: a round starts at its fixed start. -/
def State.startRound (s : State) (start : Nat) : State :=
  { s with scan := { s.scan with converting := s.nextConverted 0, roundStart := start, nextRound := none } }

/-- SCAN_ROUND_START (R108). Rounds run in every part state and do not overlap. -/
def execScanRoundStart (s : State) : Host.Outcome State Fault Refusal :=
  .next (match s.scan.nextRound with
    | none => s
    | some t => if s.held.isNone ∧ s.scan.converting.isNone ∧ t ≤ s.now then s.startRound t else s)

/-- R41: admission retried for one gate. -/
def State.retryRaise (s : State) (g : Nat) : State :=
  match s.gates[g]? with
  | none => s
  | some x => if x.raiseHeld ∧ x.demand = .raise then s.gateEvent g (fun s => s.applyRaise g) else s

/-- R41: admission retried in ascending gate number. -/
def State.retryRaises (s : State) : State := (List.range s.gates.length).foldl State.retryRaise s

/-- R108: the start of the next round fixed from the mode now standing. -/
def State.fixRound (s : State) : State :=
  { s with scan := { s.scan with nextRound := some (s.scan.roundStart + scanInterval s.power.mode) } }

/-- R109, R147: the end of a round: the power controller, the schedule, and the gate sequencer's retries. -/
def State.endRound (s : State) : State :=
  let t := s.powerUpdate.fixRound
  if t.described then t.retryRaises else t

/-- R107, R110: the channel record after its conversions. -/
def Channel.convert (x : Channel) (raws : List Raw) (span offset : Int) (averaging now : Nat) : Channel :=
  let raw := averageRaw raws averaging
  let v := scaledValue x.desc.kind span offset raw
  ({ x with lastRaw := some raw }).take v (x.desc.inRange v) now

/-- R109: the channel in hand is left for the next; after channel 31 the round ends. -/
def State.advanceRound (s : State) (c : Nat) : State :=
  let t : State := { s with scan := { s.scan with converting := s.nextConverted (c + 1) } }
  if t.scan.converting.isNone then t.endRound else t

/-- R109: the result of channel c, when its conversions are complete, taken and published. -/
def State.conversionDone (s : State) (c : Nat) (raws : List Raw) : State :=
  match s.channel? c with
  | none => s
  | some x =>
    match x.desc.source with
    | .remote _ => s
    | .wired _ span offset averaging =>
      if raws.length < averaging then s
      else (s.publish c (x.convert raws span offset averaging s.now) x.quality).advanceRound c

/-- CHANNEL_CONVERSION_DONE (R109). -/
def execChannelConversionDone (raws : List Raw) (s : State) : Host.Outcome State Fault Refusal :=
  .next (match s.scan.converting with
    | none => s
    | some c => if s.held.isNone then s.conversionDone c raws else s)

/-! ### The channel timers -/

/-- R111, R115: the timers of channels 0 to 27 act while the corridor is described; those of 28 to 31 in every state. -/
def State.timesChannel (s : State) (c : Nat) : Bool := s.held.isNone && (decide (28 ≤ c) || s.described)

/-- R111: the hold-age timer of a HELD channel. -/
def State.expireHold (s : State) (c : Nat) : State :=
  match s.channel? c with
  | none => s
  | some x =>
    match x.holdAgeDue with
    | none => s
    | some t => if x.quality = .held ∧ t ≤ s.now then s.publish c (x.failBy .holdAge) x.quality else s

/-- HOLD_AGE_EXPIRY (R111). -/
def execHoldAgeExpiry (c : Nat) (s : State) : Host.Outcome State Fault Refusal :=
  .next (if s.timesChannel c then s.expireHold c else s)

/-- R111: the silence timer of a REMOTE channel; a channel already FAILED stays as it is. -/
def State.expireSilence (s : State) (c : Nat) : State :=
  match s.channel? c with
  | none => s
  | some x =>
    match x.silenceDue with
    | none => s
    | some t => if x.quality ≠ .failed ∧ t ≤ s.now then s.publish c (x.failBy .noSubmission) x.quality else s

/-- SILENCE_EXPIRY (R111). -/
def execSilenceExpiry (c : Nat) (s : State) : Host.Outcome State Fault Refusal :=
  .next (if s.timesChannel c then s.expireSilence c else s)

/-! ### Input lines -/

/-- An input line, changed in place. -/
def State.updLine (s : State) (l : Nat) (f : InputLine → InputLine) : State :=
  { s with scan := { s.scan with lines := s.scan.lines.modify l f } }

/-- R113: an edge of the present input starts or cancels the stability timer. -/
def InputLine.edge (x : InputLine) (asserted : Bool) : InputLine :=
  if x.present = asserted then x
  else { x with present := asserted, stability := if asserted = x.level then none else some Config.stabilityTime }

/-- INPUT_EDGE (R113). While a reset holds the part only the present input moves; RESET_END takes it as the level. -/
def execInputEdge (l : Nat) (asserted : Bool) (s : State) : Host.Outcome State Fault Refusal :=
  .next (if s.held.isSome then s.updLine l (fun x => { x with present := asserted })
    else s.updLine l (fun x => x.edge asserted))

/-- R113: the timer has ended: the level takes the present input. -/
def InputLine.settle (x : InputLine) : InputLine := { x with level := x.present, stability := none }

/-- R114: a taken change delivered to gates, then paths, in READY and DEGRADED. -/
def State.deliver (s : State) (l : Nat) (asserted : Bool) : State :=
  if s.described then (s.deliverGates l asserted).deliverPaths l asserted else s

/-- DEBOUNCE_EXPIRY (R113). -/
def execDebounceExpiry (l : Nat) (s : State) : Host.Outcome State Fault Refusal :=
  .next (match s.scan.lines[l]? with
    | none => s
    | some x =>
      if s.held.isNone ∧ x.stability = some 0 then (s.updLine l InputLine.settle).deliver l x.present else s)

end Sys2Proof.Machine
end

