-- ==== Sys2Proof/Machine/Loader.lean ====
section
/-! DEFINITION. The description loader's reading of the memory (R178), the header (R179), the records of the groups
(spec/10_formats.md 10.5), the checks across the corridor (R180), the range and order checks of the optional groups
(R181), and the load report. -/

namespace Sys2Proof.Machine

/-! ### Reading -/

/-- R178: a byte whose first three reads go unacknowledged is unreadable. -/
def MemCell.readable (c : MemCell) : Bool := decide (c.nacks < Config.readTries)

/-- R178: the bytes at a place, when every one of them can be read; no byte is acknowledged past the memory's end. -/
def readBytes (image : List MemCell) (pos n : Nat) : Option (List Byte) :=
  let cells := (image.drop pos).take n
  if cells.length = n ∧ cells.all MemCell.readable then some (cells.map (·.value)) else none

/-- What reading one group gives: its records, or a fault; and where the next group begins, when that is known. -/
inductive GroupRead where
  | records (bytes : List Byte) (next : Nat)
  | failed (fault : LoadOutcome) (next : Option Nat)
deriving DecidableEq, Repr

/-- R178, R187: the records and the check of a group whose length field is `length`. -/
def readRecords (image : List MemCell) (pos : Nat) (length : List Byte) (len : Nat) : GroupRead :=
  match readBytes image (pos + 2) (len + 2) with
  | none => .failed .readFault none
  | some bytes =>
    if bytes.drop len = crcBytes (length ++ bytes.take len) then .records (bytes.take len) (pos + len + 4)
    else .failed .checkFailed (some (pos + len + 4))

/-- R178: a group at a place whose length must equal `len`. -/
def readGroup (image : List MemCell) (pos len : Nat) : GroupRead :=
  match readBytes image pos 2 with
  | none => .failed .readFault none
  | some length => if read2 length 0 ≠ len then .failed .lengthFault none else readRecords image pos length len

/-! ### The header (R179) -/

/-- R179: the fields of the header. -/
structure Header where
  version : Nat
  segments : Nat
  gates : Nat
  signs : Nat
  channels : Nat
  paths : Nat
  pathsPresent : Bool
  authorityPresent : Bool
  priorityPresent : Bool
  powerPresent : Bool
deriving DecidableEq, Repr

/-- R179, 10.5: the header's record bytes; a presence code of 01 marks a group present. -/
def parseHeader (r : List Byte) : Header :=
  { version := read1 r 0, segments := read1 r 1, gates := read1 r 2, signs := read1 r 3, channels := read1 r 4,
    paths := read1 r 5, pathsPresent := read1 r 6 == 1, authorityPresent := read1 r 7 == 1,
    priorityPresent := read1 r 8 == 1, powerPresent := read1 r 9 == 1 }

/-- R179: the accepted values. A path count above 8 is refused also where the paths group is absent (DESIGN CHOICE,
notes/assumptions/43.md). -/
def Header.accepted (h : Header) : Bool :=
  h.version == 3 && decide (1 ≤ h.segments) && decide (h.segments ≤ 16) && decide (h.gates ≤ 8) &&
    decide (h.signs ≤ 16) && decide (h.channels ≤ 28) && decide (h.paths ≤ 8)

/-! ### The records (10.5) -/

/-- The records of a group, n of this size. -/
def recordsOf (size n : Nat) (bytes : List Byte) : List (List Byte) :=
  (List.range n).map (fun i => (bytes.drop (size * i)).take size)

/-- A list field: the entries its count gives, up to the largest number. -/
def listAt (r : List Byte) (i most : Nat) : List Nat :=
  ((r.drop (i + 1)).take (Nat.min (read1 r i) most)).map BitVec.toNat

/-- R1, 10.5. -/
def parseSegment (r : List Byte) : SegmentConfig :=
  { gates := listAt r 0 2, approach := listAt r 3 3, interval := read2 r 7 }

/-- R31, 10.5. -/
def parseGate (r : List Byte) : GateConfig :=
  { segment := read1 r 0, lowerLine := read1 r 1, raiseLine := read1 r 2, lampLine := read1 r 3, upLine := read1 r 4,
    downLine := read1 r 5, obstructionLine := read1 r 6, keyLine := read1 r 7, timeout := read2 r 8,
    lowerCost := read2 r 10, raiseCost := read2 r 12 }

/-- R81, 10.5. -/
def parseSign (r : List Byte) : SignConfig :=
  { kind := (signKindOfCode (read1 r 0)).getD .panel, address := read1 r 1, lookahead := listAt r 2 4,
    station := read1 r 7 }

/-- R105, 10.5: a source byte that is neither LOCAL nor REMOTE is a free choice (Config). -/
def isRemote (source : Nat) : Bool :=
  if source = 0 then false else if source = 1 then true else Config.unlistedSourceIsRemote source

/-- R105, 10.5. -/
def parseSource (r : List Byte) : Source :=
  if isRemote (read1 r 1) then .remote ((masterOfCode (read1 r 3)).getD .centre)
  else .wired (some (read1 r 2)) (readInt2 r 6) (readInt2 r 8) (read1 r 14)

/-- R105, 10.5: the channel number and the description. A station byte above 5 is no fault of R180 and is kept as the
station (DESIGN CHOICE, notes/assumptions/42.md). -/
def parseChannel (r : List Byte) : Nat × ChannelDesc :=
  (read1 r 0,
    { source := parseSource r, kind := (channelKindOfCode (read1 r 4)).getD .depth,
      station := some (read1 r 5), lo := readInt2 r 10, hi := readInt2 r 12, holdLimit := read2 r 15 })

/-- R119, 10.5: no trip line is FFh. -/
def parsePath (r : List Byte) : PathConfig :=
  { depthChannel := read1 r 0, speedChannel := read1 r 1, directionChannel := read1 r 2, airChannel := read1 r 3,
    centre := read2 r 4, halfWidth := read1 r 6, sensitivity := read2 r 7, t1 := read2 r 9, t2 := read2 r 11,
    t3 := read2 r 13, t4 := read2 r 15, band := read1 r 17, minDwell := read1 r 18, adviseLevel := read1 r 19,
    closeLevel := read1 r 20, segments := listAt r 21 2, residual := read1 r 24,
    trip := if read1 r 25 = 255 then none else some (read1 r 25) }

/-- R146, 10.5: the capacity is kept in mAh. -/
def parsePower (r : List Byte) : PowerParams :=
  { capacity := read2 r 0 * 1000, recoverThreshold := read2 r 2, recoverCurrent := read2 r 4, bulkCurrent := read2 r 6,
    absorbVoltage := read2 r 8, floatVoltage := read2 r 10, coefficient := readInt1 r 12, cutoffCurrent := read2 r 13,
    absorbLimit := read2 r 15, rebulkThreshold := read2 r 17, coldLockout := readInt2 r 19, hotLockout := read2 r 21,
    economyPercent := read1 r 23, reservePercent := read1 r 24 }

/-! ### The checks across the corridor (R180) -/

/-- No entry of the list stands in it twice. -/
def distinct : List Nat → Bool
  | [] => true
  | x :: rest => !rest.contains x && distinct rest

/-- A figure lies between two ends, both included. -/
def within (lo hi n : Nat) : Bool := decide (lo ≤ n) && decide (n ≤ hi)

/-- A list of numbers of described records, none of them twice. -/
def namesOf (count : Nat) (l : List Nat) : Bool := l.all (fun n => decide (n < count)) && distinct l

/-- R180: a segment record without fault. -/
def segmentOk (h : Header) (signs : List SignConfig) (k : Nat) (r : List Byte) : Bool :=
  let c := parseSegment r
  decide (read1 r 0 ≤ 2) && namesOf h.gates c.gates && decide (read1 r 3 ≤ 3) && namesOf h.signs c.approach &&
    c.approach.all (fun n => ((signs[n]?).map (fun x => x.lookahead.contains k)).getD false) &&
    decide (c.interval ≤ 1800)

/-- R180: the segments group; no gate stands in the gate lists of two segments. -/
def segmentsOk (h : Header) (signs : List SignConfig) (records : List (List Byte)) : Bool :=
  records.zipIdx.all (fun (r, k) => segmentOk h signs k r) && distinct (records.flatMap (fun r => (parseSegment r).gates))

/-- The output lines of a gate. -/
def GateConfig.outputs (c : GateConfig) : List Nat := [c.lowerLine, c.raiseLine, c.lampLine]
/-- The input lines of a gate. -/
def GateConfig.inputs (c : GateConfig) : List Nat := [c.upLine, c.downLine, c.obstructionLine, c.keyLine]

/-- R180: a gate record without fault. -/
def gateOk (segments : List SegmentConfig) (g : Nat) (c : GateConfig) : Bool :=
  ((segments[c.segment]?).map (fun x => x.gates.contains g)).getD false && c.outputs.all (fun l => decide (l ≤ 23)) &&
    c.inputs.all (fun l => decide (l ≤ 47)) && within 100 1200 c.timeout && within 1 5000 c.lowerCost &&
    within 1 5000 c.raiseCost

/-- R180: the gates group; no output line is named twice. -/
def gatesOk (segments : List SegmentConfig) (gates : List GateConfig) : Bool :=
  gates.zipIdx.all (fun (c, g) => gateOk segments g c) && distinct (gates.flatMap GateConfig.outputs)

/-- R180: a sign record without fault. -/
def signOk (h : Header) (r : List Byte) : Bool :=
  let c := parseSign r
  (signKindOfCode (read1 r 0)).isSome && within 1 31 c.address && decide (read1 r 2 ≤ 4) &&
    namesOf h.segments c.lookahead && (c.kind != .weather || decide (c.station ≤ 5))

/-- R180: the signs group; no line address is repeated. -/
def signsOk (h : Header) (records : List (List Byte)) : Bool :=
  records.all (signOk h) && distinct (records.map (fun r => (parseSign r).address))

/-- R180: the fields that the source of a channel calls for. -/
def sourceOk (r : List Byte) : Bool :=
  if isRemote (read1 r 1) then (masterOfCode (read1 r 3)).isSome
  else decide (read1 r 2 ≤ 15) && [1, 2, 4, 8].contains (read1 r 14)

/-- R180: a channel record without fault. -/
def channelOk (r : List Byte) : Bool :=
  let d := (parseChannel r).2
  decide (read1 r 0 ≤ 27) && sourceOk r && (channelKindOfCode (read1 r 4)).isSome && decide (d.lo ≤ d.hi) &&
    within 60 7200 d.holdLimit

/-- R180: the channels group; no channel number is named by two records. -/
def channelsOk (records : List (List Byte)) : Bool :=
  records.all channelOk && distinct (records.map (fun r => (parseChannel r).1))

/-- R180: a channel reference of a path: a described channel among 0 to 27 of the kind the field calls for. -/
def refersTo (channels : List (Nat × ChannelDesc)) (n : Nat) (kind : ChannelKind) : Bool :=
  channels.any (fun (c, d) => c == n && d.kind == kind)

/-- R180: the references of a path. -/
def pathRefsOk (h : Header) (channels : List (Nat × ChannelDesc)) (c : PathConfig) : Bool :=
  namesOf h.segments c.segments && refersTo channels c.depthChannel .depth &&
    refersTo channels c.speedChannel .windSpeed && refersTo channels c.directionChannel .windDir &&
    refersTo channels c.airChannel .airTemp

/-! ### The ranges of the optional groups (R181) -/

/-- R119, R181: a path record within its ranges and orders. -/
def pathRangeOk (r : List Byte) : Bool :=
  let c := parsePath r
  decide (c.centre ≤ 359) && within 10 90 c.halfWidth && within 25 400 c.sensitivity &&
    within 1 999 c.t1 && within 1 999 c.t2 && within 1 999 c.t3 && within 1 999 c.t4 &&
    decide (c.t1 < c.t2) && decide (c.t2 < c.t3) && decide (c.t3 < c.t4) && decide (c.band ≤ 200) &&
    within 1 12 c.minDwell && within 2 5 c.adviseLevel && within c.adviseLevel 5 c.closeLevel &&
    within 1 2 (read1 r 21) && decide (c.residual ≤ 100) && c.trip.all (fun l => decide (l ≤ 47))

/-- R120, R181: the hazard period in range. -/
def periodOk (p : Nat) : Bool := within 300 3600 p && p % 60 == 0

/-- R181: no rights entry names a right outside the five. -/
def authorityOk (r : List Byte) : Bool := r.all (fun b => decide (b.toNat < 32))

/-- R65, R181: no class above 3; the values of origins 3 and 4 are not used. -/
def priorityOk (r : List Byte) : Bool := r.zipIdx.all (fun (b, o) => o == 3 || o == 4 || decide (b.toNat ≤ 3))

/-- R65: the map a priority-map group gives. -/
def parsePriorityMap (r : List Byte) : List Nat :=
  r.zipIdx.map (fun (b, o) => if o = 3 ∨ o = 4 then 3 else b.toNat)

/-- R146, R181: the ranges and orders of the power parameters. -/
def PowerParams.rangeOk (q : PowerParams) : Bool :=
  within 10000 2000000 q.capacity && within 16000 26000 q.recoverThreshold && within 500 10000 q.recoverCurrent &&
    within 1000 30000 q.bulkCurrent && within 24000 31000 q.absorbVoltage && within 24000 31000 q.floatVoltage &&
    decide (q.floatVoltage < q.absorbVoltage) && decide (-60 ≤ q.coefficient) && decide (q.coefficient ≤ 0) &&
    within 100 10000 q.cutoffCurrent && within 600 28800 q.absorbLimit && within 20000 30000 q.rebulkThreshold &&
    decide (q.rebulkThreshold < q.floatVoltage) && decide (-400 ≤ q.coldLockout) && decide (q.coldLockout ≤ 0) &&
    within 300 800 q.hotLockout && within 20 80 q.economyPercent && within 5 40 q.reservePercent &&
    decide (q.reservePercent < q.economyPercent)

/-! ### The load -/

/-- What a load that ends in READY or DEGRADED hands to the blocks (R184). -/
structure Description where
  segments : List SegmentConfig
  gates : List GateConfig
  signs : List SignConfig
  channels : List (Nat × ChannelDesc)
  paths : List PathConfig
  period : Nat
  authority : Option (List (BitVec 5))
  priority : Option (List Nat)
  power : Option PowerParams
deriving DecidableEq, Repr

/-- The end of a load: the description, absent for NO_CORRIDOR, whether an optional group failed, and the report. -/
structure Load where
  description : Option Description
  degraded : Bool
  report : LoadReport
deriving DecidableEq, Repr

/-- R181: a load that ends in NO_CORRIDOR by a fault in the group of this order number. -/
def noCorridor (before : List LoadOutcome) (fault : LoadOutcome) : Load :=
  { description := none, degraded := false,
    report := { outcomes := before ++ fault :: List.replicate (8 - before.length) .notRead,
                firstFaulty := before.length + 1, fault := fault } }

/-- An optional group as read: its outcome, its records when they stand, and where the next group begins. -/
structure Optional where
  outcome : LoadOutcome
  bytes : Option (List Byte)
  next : Option Nat
deriving DecidableEq, Repr

/-- R178: an optional group; an absent one occupies no bytes, and one whose position is not known is not read. -/
def readOptional (image : List MemCell) (present : Bool) (len : Nat) (pos : Option Nat) : Optional :=
  if !present then { outcome := .absent, bytes := none, next := pos }
  else
    match pos with
    | none => { outcome := .notRead, bytes := none, next := none }
    | some p =>
      match readGroup image p len with
      | .records bytes next => { outcome := .taken, bytes := some bytes, next := some next }
      | .failed fault next => { outcome := fault, bytes := none, next := next }

/-- R181: an optional group whose values are tested. -/
def Optional.test (o : Optional) (ok : List Byte → Bool) : Optional :=
  match o.bytes with
  | some b => if ok b then o else { o with outcome := .rangeFault, bytes := none }
  | none => o

/-- R181: an optional group that is present and failed. -/
def Optional.failed (o : Optional) : Bool := o.outcome != .taken && o.outcome != .absent

/-- The records of the four required groups behind the header, as read. -/
structure Required where
  header : Header
  segments : List (List Byte)
  gates : List GateConfig
  signs : List (List Byte)
  channels : List (List Byte)
deriving DecidableEq, Repr

/-- The segments, signs and channels of the required groups. -/
def Required.segmentConfigs (q : Required) : List SegmentConfig := q.segments.map parseSegment
def Required.signConfigs (q : Required) : List SignConfig := q.signs.map parseSign
def Required.channelDescs (q : Required) : List (Nat × ChannelDesc) := q.channels.map parseChannel

/-- R180: the order number, less one, of the first required group found faulty. -/
def Required.faultyGroup (q : Required) : Option Nat :=
  if !segmentsOk q.header q.signConfigs q.segments then some 1
  else if !gatesOk q.segmentConfigs q.gates then some 2
  else if !signsOk q.header q.signs then some 3
  else if !channelsOk q.channels then some 4
  else none

/-- The path records of the paths group; the first two bytes are P. -/
def pathRecords (count : Nat) (bytes : List Byte) : List (List Byte) := recordsOf 26 count (bytes.drop 2)

/-- R180: the references of the paths group. -/
def Required.pathsReferOk (q : Required) (bytes : List Byte) : Bool :=
  (pathRecords q.header.paths bytes).all (fun r => pathRefsOk q.header q.channelDescs (parsePath r))

/-- R181: the ranges of the paths group. -/
def pathsRangeOk (count : Nat) (bytes : List Byte) : Bool :=
  periodOk (read2 bytes 0) && (pathRecords count bytes).all pathRangeOk

/-- R180: a load that ends in NO_CORRIDOR by a fault across the corridor, with the paths group as read. -/
def crossFault (group : Nat) (paths : LoadOutcome) : Load :=
  { description := none, degraded := false,
    report := { outcomes := (List.replicate 5 LoadOutcome.taken ++ paths :: List.replicate 3 .notRead).set group .referenceFault,
                firstFaulty := group + 1, fault := .referenceFault } }

/-- R181: the end of a load in READY or DEGRADED. -/
def Required.finish (q : Required) (paths authority priority power : Optional) : Load :=
  { description := some {
      segments := q.segmentConfigs, gates := q.gates, signs := q.signConfigs, channels := q.channelDescs,
      paths := (paths.bytes.map (fun b => (pathRecords q.header.paths b).map parsePath)).getD [],
      period := (paths.bytes.map (fun b => read2 b 0)).getD Config.defaultHazardPeriod,
      authority := authority.bytes.map (fun b => b.map (fun x => BitVec.ofNat 5 x.toNat)),
      priority := priority.bytes.map parsePriorityMap,
      power := power.bytes.map parsePower },
    degraded := paths.failed || authority.failed || priority.failed || power.failed,
    report := { outcomes := List.replicate 5 .taken ++
                  [paths.outcome, authority.outcome, priority.outcome, power.outcome],
                firstFaulty := 0, fault := .taken } }

/-- R178, R181: the groups behind the paths group. -/
def Required.readRest (q : Required) (image : List MemCell) (paths : Optional) : Load :=
  let authority := readOptional image q.header.authorityPresent 48 paths.next
  let priority := readOptional image q.header.priorityPresent 16 authority.next
  let power := readOptional image q.header.powerPresent 25 priority.next
  q.finish paths (authority.test authorityOk) (priority.test priorityOk)
    (power.test (fun b => (parsePower b).rangeOk))

/-- R180, R181: the checks across the corridor, the paths group's references among them, then its ranges. -/
def Required.check (q : Required) (image : List MemCell) (pos : Nat) : Load :=
  let paths := readOptional image q.header.pathsPresent (2 + 26 * q.header.paths) (some pos)
  match q.faultyGroup with
  | some g => crossFault g paths.outcome
  | none =>
    if paths.bytes.all q.pathsReferOk then
      q.readRest image (paths.test (pathsRangeOk q.header.paths))
    else crossFault 5 paths.outcome

/-- R178: the four required groups behind the header, one after another; a failed one ends the load. -/
def loadGroups (image : List MemCell) (h : Header) (pos : Nat) : Load :=
  match readGroup image pos (9 * h.segments) with
  | .failed fault _ => noCorridor [.taken] fault
  | .records segments pos =>
    match readGroup image pos (14 * h.gates) with
    | .failed fault _ => noCorridor [.taken, .taken] fault
    | .records gates pos =>
      match readGroup image pos (8 * h.signs) with
      | .failed fault _ => noCorridor [.taken, .taken, .taken] fault
      | .records signs pos =>
        match readGroup image pos (17 * h.channels) with
        | .failed fault _ => noCorridor [.taken, .taken, .taken, .taken] fault
        | .records channels pos =>
          ({ header := h, segments := recordsOf 9 h.segments segments,
             gates := (recordsOf 14 h.gates gates).map parseGate, signs := recordsOf 8 h.signs signs,
             channels := recordsOf 17 h.channels channels } : Required).check image pos

/-- R178, R179: the whole load of the description memory. -/
def loadImage (image : List MemCell) : Load :=
  match readGroup image 0 10 with
  | .failed fault _ => noCorridor [] fault
  | .records r pos =>
    if (parseHeader r).accepted then loadGroups image (parseHeader r) pos else noCorridor [] .referenceFault

end Sys2Proof.Machine
end

