-- ==== Sys2Proof/Machine/Startup.lean ====
section
/-! DEFINITION. Resets (R159, R183), the derivations at the end of a load (R184), a load that ends in NO_CORRIDOR, and
RELOAD (R185): POWER_ON, PIN_RESET, LOW_SUPPLY, RESET_END, DESCRIPTION_LOAD_END and RELOAD. -/

namespace Sys2Proof.Machine

/-! ### Resets -/

/-- R159, R183: the part held in a reset: every record at its reset value, no notice queued, no conversion under way. The
present inputs of the lines lie outside the part. -/
def State.holdReset (s : State) (cause : ResetCause) : State :=
  { State.reset with
    pending := s.pending, drawn := s.drawn, held := some cause,
    scan := { State.reset.scan with converting := none, lines := s.scan.lines },
    ports := resetPorts [],
    loader := { State.reset.loader with cause := cause } }

/-- POWER_ON (R183): a supply lost altogether gives the cause POWER_ON, whatever reset was in progress. -/
def execPowerOn (s : State) : Host.Outcome State Fault Refusal := .next (s.holdReset .powerOn)

/-- R183: the cause when the pin is asserted during a reset in progress. -/
def pinCause : Option ResetCause → ResetCause
  | some .lowSupply => .lowSupply
  | some .powerOn => if Config.pinOverPowerOn then .pin else .powerOn
  | some .pin => .pin
  | some .reload => .pin
  | none => .pin

/-- PIN_RESET (R183). -/
def execPinReset (s : State) : Host.Outcome State Fault Refusal := .next (s.holdReset (pinCause s.held))

/-- R159, R183: the cause when the supply falls below the monitor's threshold; it is LOW_SUPPLY where the part was
running, and the cause of a reset in progress stands (DESIGN CHOICE, notes/assumptions/5.md). -/
def lowSupplyCause : Option ResetCause → ResetCause
  | some .powerOn => .powerOn
  | some .pin => .pin
  | some .lowSupply => .lowSupply
  | some .reload => .lowSupply
  | none => .lowSupply

/-- LOW_SUPPLY (R159). -/
def execLowSupply (s : State) : Host.Outcome State Fault Refusal := .next (s.holdReset (lowSupplyCause s.held))

/-- R113: at the reset the debounced level is the present input. -/
def InputLine.resettle (x : InputLine) : InputLine := { present := x.present, level := x.present, stability := none }

/-- R183: the machine at the end of a reset of this cause: the clock from 0, LOADING, RESTARTED queued (R177), and the
first scan round begun (R108). -/
def State.restart (s : State) (cause : ResetCause) : State :=
  { State.reset with
    pending := s.pending, drawn := s.drawn,
    scan := { State.reset.scan with lines := s.scan.lines.map InputLine.resettle },
    ports := resetPorts [restartedNotice cause 0],
    loader := { State.reset.loader with cause := cause } }

/-- RESET_END (R183). -/
def execResetEnd (s : State) : Host.Outcome State Fault Refusal :=
  .next (match s.held with
    | none => s
    | some cause => s.restart cause)

/-! ### Step 1: maps, parameters, account, channels, signs -/

/-- R154: the account at the end of a load: half the capacity after a reset; after a RELOAD held to the capacity. -/
def Power.loadAccount (p : Power) (cause : ResetCause) : Power :=
  if cause = .reload then
    (if p.params.capacity < p.account then { p with account := p.params.capacity, remainder := 0 } else p)
  else { p with account := p.params.capacity / 2, remainder := 0 }

/-- R146: the parameters taken from the power group, or the defaults. The capacity is in force at once, the others from
the next end of a round (`Power.adopt`); notes/assumptions/39.md. -/
def Power.takeParams (p : Power) (q : Option PowerParams) : Power :=
  { p with
    params := { p.params with capacity := (q.getD defaultParams).capacity },
    taken := q.getD defaultParams, takenFromGroup := q.isSome }

/-- R115: a channel described before and after with the same source, kind and feeding master. -/
def ChannelDesc.keeps (old new : ChannelDesc) : Bool :=
  old.kind == new.kind &&
    (match old.source, new.source with
      | .wired _ _ _ _, .wired _ _ _ _ => true
      | .remote a, .remote b => a == b
      | _, _ => false)

/-- R115: a timer from this start has run out under the old hold limit or the new one. -/
def timerOut (start : Option Nat) (old new now : Nat) : Bool :=
  start.any (fun t => decide (t + old ≤ now) || decide (t + new ≤ now))

/-- R111, R115: the cause when both timers have run out: that of the earlier start. -/
def earlierCause (c now : Nat) (hold silence : Option Nat) : FailCause :=
  match hold, silence with
  | some a, some b =>
    if a < b then .holdAge else if b < a then .noSubmission
    else if Config.holdAgeFirst c now then .holdAge else .noSubmission
  | _, _ => .holdAge

/-- R115: the timers of a kept channel at the derivation. -/
def Channel.settleTimers (x : Channel) (c old now : Nat) : Channel :=
  let hold := x.quality == .held && timerOut x.heldSince old x.desc.holdLimit now
  let silence := x.quality != .failed && timerOut x.silenceFrom old x.desc.holdLimit now
  if hold && silence then x.failBy (earlierCause c now x.heldSince x.silenceFrom)
  else if hold then x.failBy .holdAge
  else if silence then x.failBy .noSubmission
  else x

/-- R111, R115: a record made afresh; a REMOTE channel's silence timer runs from the derivation. -/
def ChannelDesc.newRecord (d : ChannelDesc) (now : Nat) : Channel :=
  { Channel.fresh d with
    silenceFrom := match d.source with
      | .remote _ => some now
      | .wired _ _ _ _ => none }

/-- R115: a channel record kept or made. -/
def deriveChannel (old : Option Channel) (d : ChannelDesc) (c now : Nat) : Channel :=
  match old with
  | some x =>
    if x.desc.keeps d then ({ x with desc := d }).settleTimers c x.desc.holdLimit now else d.newRecord now
  | none => d.newRecord now

/-- R115: the record of channel c after a load: 28 to 31 run on, 0 to 27 are those described. -/
def State.channelAfter (s : State) (channels : List (Nat × ChannelDesc)) (c : Nat) : Option Channel :=
  if 28 ≤ c then s.channel? c
  else (channels.find? (fun e => e.1 == c)).map (fun e => deriveChannel (s.channel? c) e.2 c s.now)

/-- R115. -/
def State.deriveChannels (s : State) (channels : List (Nat × ChannelDesc)) : State :=
  { s with scan := { s.scan with channels := (List.range 32).map (s.channelAfter channels) } }

/-- R98: a sign record as built. -/
def SignConfig.newRecord (c : SignConfig) : Sign :=
  { cfg := c, state := .unknown, ack := none, lampFault := false, heaterFault := false, doorOpen := false,
    refused := false, disablePending := false, attempts := 0, lastAck := none, refreshDue := none, probeDue := none }

/-- R74, R98: the sign records and top-candidate records built, and a PROBE entered for each sign in ascending number. -/
def State.deriveSigns (s : State) (signs : List SignConfig) : State :=
  let t : State := { s with
    line := { resetLine with signs := signs.map SignConfig.newRecord },
    store := { s.store with tops := List.replicate signs.length Top.blank } }
  t.eachSign (fun t k => t.request k .probe)

/-- R120: the period of the description; a different one moves the next expiry to its first multiple after now. -/
def Hazard.takePeriod (h : Hazard) (period now : Nat) : Hazard :=
  if period = h.period then h else { h with period := period, nextExpiry := (now / period + 1) * period }

/-- R184 step 1. -/
def State.deriveMaps (s : State) (d : Description) : State :=
  let t : State := { s with
    segs := { s.segs with authority := d.authority.getD defaultAuthority },
    store := { s.store with priority := d.priority.getD defaultPriority },
    power := (s.power.takeParams d.power).loadAccount s.loader.cause,
    hazard := s.hazard.takePeriod d.period s.now }
  (t.deriveChannels d.channels).deriveSigns d.signs

/-! ### Step 2: gates -/

/-- R53: the state and fault reason of a gate from its key line and position. -/
def derivedGate (key : Bool) (position : Position) : GateState × Option FaultReason :=
  if key then (.manual, none)
  else
    match position with
    | .atUp => (.up, none)
    | .atDown => (.down, none)
    | .between | .conflict => (.fault, some .positionUnknown)

/-- R53: a gate record as derived; its lamp is off until its segment hands a setting. -/
def State.newGate (s : State) (c : GateConfig) : Gate :=
  { cfg := c, state := (derivedGate (s.asserted c.keyLine) (s.positionOf c)).1, sub := none, position := s.positionOf c,
    travel := 0, pause := none, reason := (derivedGate (s.asserted c.keyLine) (s.positionOf c)).2, raiseHeld := false,
    holdOff := none, demand := .noDemand, flashing := false, lampOn := false, lampLeft := 0 }

/-- R184 step 2, R159, R160: the gates, the closure reserve, and one evaluation of the mode without POWER_MODE. -/
def State.deriveGates (s : State) (gates : List GateConfig) : State :=
  let t : State := { s with gates := gates.map s.newGate }
  ({ t with power := { t.power with reserve := closureReserve t.gates } } : State).evaluateMode true

/-! ### Step 3: segments -/

/-- R20: a gate that makes its segment start in REOPENING. -/
def Gate.blocks (g : Gate) : Bool := g.state == .down || (g.state == .fault && g.reason == some .positionUnknown)

/-- R20: a segment record as built. -/
def State.newSegment (s : State) (c : SegmentConfig) : Segment :=
  let shut := (s.gatesOf c.gates).any Gate.blocks
  { cfg := c, state := if shut then .reopening else .opened, phase := none, since := s.now, level := .noLevel,
    urgent := false, deciding := none, secured := false, unwarned := false, swept := false,
    demand := if shut then .hold else .noDemand, remaining := 0, confirmDue := none }

/-- R20, R184 step 3: the demand and lamps of segment k handed over, and its slot formed. These demands move no arm. -/
def State.handSegment (s : State) (k : Nat) : State :=
  match s.segs.records[k]? with
  | none => s
  | some x =>
    ((s.recordDemand x.cfg.gates x.demand).handLamps x.cfg.gates x.wantedLamps).formSegmentSlot k

/-- R184 step 3. -/
def State.deriveSegments (s : State) (segments : List SegmentConfig) : State :=
  let t : State := { s with segs := { s.segs with records := segments.map s.newSegment, claims := [] } }
  (List.range segments.length).foldl State.handSegment t

/-! ### Step 4: paths -/

/-- R138: a path record as built. -/
def PathConfig.newRecord (c : PathConfig) : Path :=
  { cfg := c, loading := 0, refDepth := none, level := 1, dwell := 0, latch := .clear, floor := none, degraded := false,
    substitutes := { depth := false, wind := false, temperature := false }, unseeded := true, working := none }

/-- R138: a path whose trip line stands asserted takes it as a detection, without PATH_LEVEL. -/
def State.takeTripLine (s : State) (n : Nat) : State :=
  match s.hazard.paths[n]? with
  | none => s
  | some p => if p.cfg.trip.any (fun l => s.asserted l) then s.takeDetection n .release else s

/-- R184 step 4. -/
def State.derivePaths (s : State) (paths : List PathConfig) : State :=
  let t : State := { s with hazard := { s.hazard with paths := paths.map PathConfig.newRecord } }
  (List.range paths.length).foldl State.takeTripLine t

/-! ### Step 5 and the end of a load -/

/-- R184 step 5: the weather slots formed and every sign reselected. -/
def State.deriveWeather (s : State) : State := (s.eachSign State.formWeather).reselect

/-- R182, R184: a load that ends in READY or DEGRADED. -/
def State.endDescribed (s : State) (d : Description) (state : PartState) (report : LoadReport) : State :=
  let t := ((((s.deriveMaps d).deriveGates d.gates).deriveSegments d.segments).derivePaths d.paths).deriveWeather
  { t with loader := { t.loader with state := state, report := report } }

/-- R182, R184, R186: a load that ends in NO_CORRIDOR: no record that a description gives, the maps at their defaults. -/
def State.dropCorridor (s : State) (report : LoadReport) : State :=
  { s with
    segs := { records := [], claims := [], authority := defaultAuthority },
    gates := [],
    store := { s.store with priority := defaultPriority, tops := [] },
    line := resetLine,
    scan := { s.scan with channels := (List.range 32).map (s.channelAfter []) },
    hazard := { s.hazard with paths := [] },
    loader := { s.loader with state := .noCorridor, report := report } }

/-- R155, R160, R186: with no gate described the closure reserve becomes 0, and a change of it evaluates the mode; then the
default parameters are taken and the account is held to the default capacity. That this evaluation still finds the
capacity and the account of before is read from the order of R160's words (DEDUCED, notes/assumptions/37.md). -/
def State.endNoCorridor (s : State) (report : LoadReport) : State :=
  let t := (s.dropCorridor report).updateReserve
  { t with power := (t.power.takeParams none).loadAccount .reload }

/-- R182: the load ends. -/
def State.endLoad (s : State) (l : Load) : State :=
  match l.description with
  | none => s.endNoCorridor l.report
  | some d => s.endDescribed d (if l.degraded then .degraded else .ready) l.report

/-- DESCRIPTION_LOAD_END (R184). -/
def execDescriptionLoadEnd (image : List MemCell) (s : State) : Host.Outcome State Fault Refusal :=
  .next (if s.held.isNone ∧ s.loader.state = .loading then s.endLoad (loadImage image) else s)

/-! ### RELOAD -/

/-- R185: a gate is travelling or halted, or a segment is CLOSING. -/
def State.busy (s : State) : Bool :=
  s.gates.any (fun g => g.state == .lowering || g.state == .raising || g.state == .stopped) ||
    s.segs.records.any (fun x => x.state == .closing)

/-- R176, R185 step 2: a port's notice queue emptied, its overflow mark cleared, and RESTARTED queued. -/
def Port.reloaded (p : Port) (n : Notice) : Port :=
  { p with notices := [n], overflow := false,
           transfer := p.transfer.map (fun t => { t with overflowAgain := false }) }

/-- R176. -/
def Ports.reloaded (p : Ports) (n : Notice) : Ports :=
  { centre := p.centre.reloaded n, slope := p.slope.reloaded n, crew := p.crew.reloaded n }

/-- R74, R185 step 4: a slot becomes invalid, its generation running on. -/
def Slot.clear (x : Slot) : Slot := x.renew { x with content := none, posted := none }

/-- R109, R185: a round in progress converts no further channel below 28. -/
def Scan.cutShort (c : Scan) : Scan :=
  { c with converting := c.converting.map (fun n => Nat.max n 28) }

/-- R185: what an accepted RELOAD does. -/
def State.reloaded (s : State) : State :=
  { s with
    segs := { s.segs with records := [], claims := [] },
    gates := s.gates.map (fun g => g.setLamp false),
    store := { s.store with slots := s.store.slots.map Slot.clear, tops := [] },
    line := resetLine,
    scan := s.scan.cutShort,
    hazard := { s.hazard with paths := [] },
    ports := s.ports.reloaded (restartedNotice .reload s.now),
    loader := { state := .loading, cause := .reload, report := emptyReport } }

/-- R185. -/
def State.reload (s : State) (m : Master) : Answer :=
  if m ≠ .centre then Answer.refuse .noRight s
  else if s.loader.state = .loading then Answer.refuse .wrongState s
  else if s.described ∧ s.busy then Answer.refuse .busy s
  else Answer.ok [] s.reloaded

/-- RELOAD (R185). -/
def execReload (m : Master) (s : State) : Host.Outcome State Fault Refusal :=
  .next (s.execute m .reload anyBody (fun _ s => s.reload m))

end Sys2Proof.Machine
end

