-- ==== Sys2Proof/Machine/Time.lean ====
section
/-! DEFINITION. What the block does while no command waits (notes/assumptions/1.md): the commands that wait in its ports
and the transaction that may start are put into the queue; where there is none, one millisecond passes, and the events
that then fall due are put into the queue, in an order that is free (notes/assumptions/2.md). -/

namespace Sys2Proof.Machine

/-! ### One millisecond -/

/-- The corridor clock and the milliseconds of its second; what follows its highest value is free. -/
def Clocks.tick (c : Clocks) : Clocks :=
  if c.millis + 1 < 1000 then { c with millis := c.millis + 1 }
  else if c.seconds + 1 < Config.clockModulus then { c with millis := 0, seconds := c.seconds + 1 }
  else { c with millis := 0, seconds := Config.clockAfterHighest % Config.clockModulus }

/-- R42, R43, R48: one tenth of a second of a gate's timers. -/
def Gate.tenth (g : Gate) : Gate :=
  { g with
    travel := if g.travelling then g.travel - 1 else g.travel,
    pause := if g.state = .lowering ∧ g.sub = some .reversing then g.pause.map (· - 1) else g.pause,
    holdOff := if g.state = .stopped then g.holdOff.map (· - 1) else g.holdOff }

/-- R34: one millisecond of a flashing lamp. -/
def Gate.lampMilli (g : Gate) : Gate := if g.flashing then { g with lampLeft := g.lampLeft - 1 } else g

/-- R87: one millisecond of the exchange on the line. -/
def Exchange.milli : Exchange → Exchange
  | .idle left => if left ≤ 1 then .sending else .idle (left - 1)
  | .sending => .sending
  | .window left => .window (left - 1)

/-- R13: one second of a countdown. -/
def Segment.second (x : Segment) : Segment :=
  if x.state = .closing ∧ x.phase = some .prewarn then { x with remaining := x.remaining - 1 } else x

/-- R113: one millisecond of a running stability timer. -/
def InputLine.milli (x : InputLine) : InputLine := { x with stability := x.stability.map (· - 1) }

/-- One millisecond of the timers that run in every part state. -/
def State.tickAlways (s : State) : State :=
  { s with clocks := s.clocks.tick, scan := { s.scan with lines := s.scan.lines.map InputLine.milli } }

/-- One millisecond of the timers that run while the corridor is described; `s` stands at the new moment. -/
def State.tickDescribed (s : State) : State :=
  { s with
    gates := s.gates.map (fun g => if s.clocks.millis % 100 = 0 then g.lampMilli.tenth else g.lampMilli),
    segs := { s.segs with records :=
      if s.clocks.millis = 0 then s.segs.records.map Segment.second else s.segs.records },
    line := { s.line with inFlight := s.line.inFlight.map (fun x => { x with exchange := x.exchange.milli }) } }

/-- One millisecond. -/
def State.tick (s : State) : State :=
  if s.tickAlways.described then s.tickAlways.tickDescribed else s.tickAlways

/-! ### What is ready, and what falls due -/

/-- The row of a command. SET SIGN has two rows, by its enable byte. -/
def Command.row (c : Command) (m : Master) (body : List Byte) : Instr :=
  match c with
  | .status => .status m | .fetchNotice => .fetchNotice m | .setNoticeMask => .setNoticeMask m
  | .resetPort => .resetPort m | .readSegment => .readSegment m | .placeClaim => .placeClaim m
  | .releaseClaim => .releaseClaim m | .confirmSweep => .confirmSweep m | .setAuthority => .setAuthority m
  | .readGate => .readGate m | .resetGate => .resetGate m | .postMessage => .postMessage m
  | .withdrawMessage => .withdrawMessage m | .setPriorityMap => .setPriorityMap m | .setClock => .setClock m
  | .readSign => .readSign m
  | .setSign => if read1 body 1 = 1 then .setSignEnable m else .setSignDisable m
  | .readChannel => .readChannel m | .submitObservation => .submitObservation m | .readPath => .readPath m
  | .reportDetection => .reportDetection m | .clearPath => .clearPath m | .setPathFloor => .setPathFloor m
  | .seedPath => .seedPath m | .readPower => .readPower m | .reload => .reload m

/-- R165, R167: the oldest QUEUED command of a port, as its row. -/
def State.waiting (s : State) (m : Master) : List Instr :=
  match (s.port m).queued with
  | [] => []
  | r :: _ =>
    match commandOfCode r.code with
    | some c => [c.row m r.body]
    | none => [.unknownCommand m]

/-- R86: a transaction may start. -/
def State.mayTransact (s : State) : Bool :=
  s.described && s.line.idle && (s.headEntry s.line.entries).any (fun e => decide (e.sign < s.line.signs.length))

/-- What is ready without time passing: a waiting command of each port, and the next transaction. -/
def State.ready (s : State) : List Instr :=
  s.waiting .centre ++ s.waiting .slope ++ s.waiting .crew ++
    (if s.mayTransact then [.transactionStart] else [])

/-- One event, when its condition holds. -/
def event (condition : Bool) (e : Instr) : List Instr := if condition then [e] else []

/-- A moment that has come. -/
def State.reached (s : State) (t : Option Nat) : Bool := t.any (fun t => decide (t ≤ s.now))

/-- R4, R5: the claims whose start or end has come. -/
def State.dueClaims (s : State) : List Instr :=
  s.segs.claims.flatMap (fun c =>
    event (c.pending && s.reached c.start) (.claimStart c.segment c.holder) ++
      event ((holderPath c.holder).isNone && s.reached c.endsAt) (.claimExpiry c.segment c.holder))

/-- R12, R13: the phase timers of segment k, whose countdown stood at `before` a millisecond ago. -/
def State.dueSegment (s : State) (k : Nat) (x : Segment) (before : Nat) : List Instr :=
  event (x.state == .closing && x.phase == some .confirming && s.reached x.confirmDue) (.confirmingExpiry k) ++
    event (x.state == .closing && x.phase == some .prewarn && decide (minuteFigure x.remaining < minuteFigure before))
      (.prewarnMinuteChange k) ++
    event (x.state == .closing && x.phase == some .prewarn && x.remaining == 0) (.prewarnEnd k)

/-- R12, R13. -/
def State.dueSegments (s : State) (before : List Segment) : List Instr :=
  (s.segs.records.zip before).zipIdx.flatMap (fun ((x, y), k) => s.dueSegment k x y.remaining)

/-- R34, R43, R44, R48: the timers of gate g. R44 does not say when the travel of an arm expires that was halted with 0
remaining and then resumed: here it expires at the next millisecond (DESIGN CHOICE, notes/assumptions/40.md). -/
def dueGate (g : Nat) (x : Gate) : List Instr :=
  event (x.travelling && x.travel == 0) (.travelTimeout g) ++
    event (x.state == .lowering && x.sub == some .reversing && x.pause == some 0) (.reversalPauseEnd g) ++
    event (x.state == .stopped && x.holdOff == some 0) (.holdOffEnd g) ++
    event (x.flashing && x.lampLeft == 0) (.lampToggle g)

/-- R66: the posted slots whose end has come. -/
def State.dueSlots (s : State) : List Instr :=
  (List.range' 32 32).flatMap (fun n => event (s.reached ((s.postedIn n).bind (·.endsAt))) (.slotExpiry n))

/-- R87, R92, R94, R95: the timers of the sign line. -/
def State.dueLine (s : State) : List Instr :=
  event (s.awaiting.any (fun x => x.2 == 0)) .replyTimeout ++
    s.line.signs.zipIdx.flatMap (fun (x, k) =>
      event (s.reached x.refreshDue) (.refreshDue k) ++ event (s.reached x.probeDue) (.probeDue k)) ++
    event (s.reached s.line.recovery) .lineRecovery

/-- R111: the timers of the channels that act. -/
def State.dueChannels (s : State) : List Instr :=
  (List.range 32).flatMap (fun c =>
    match s.channel? c with
    | none => []
    | some x =>
      event (s.timesChannel c && x.quality == .held && s.reached x.holdAgeDue) (.holdAgeExpiry c) ++
        event (s.timesChannel c && x.quality != .failed && s.reached x.silenceDue) (.silenceExpiry c))

/-- R113: the stability timers that have ended. -/
def State.dueLines (s : State) : List Instr :=
  s.scan.lines.zipIdx.flatMap (fun (x, l) => event (x.stability == some 0) (.debounceExpiry l))

/-- R132: the floors whose end has come. -/
def State.dueFloors (s : State) : List Instr :=
  s.hazard.paths.zipIdx.flatMap (fun (p, n) => event (s.reached (p.floor.map (·.endsAt))) (.floorEnd n))

/-- The events that fall due in every part state. -/
def State.dueAlways (s : State) : List Instr :=
  s.dueChannels ++ event (s.scan.converting.isNone && s.reached s.scan.nextRound) .scanRoundStart ++ s.dueLines ++
    event (decide (s.hazard.nextExpiry ≤ s.now)) .hazardPeriodExpiry

/-- The events that fall due while the corridor is described; `before` is the segment records a millisecond ago. -/
def State.dueDescribed (s : State) (before : List Segment) : List Instr :=
  s.dueClaims ++ s.dueSegments before ++ s.gates.zipIdx.flatMap (fun (x, g) => dueGate g x) ++ s.dueSlots ++
    s.dueLine ++ s.dueFloors

/-- The events that have fallen due. -/
def State.due (s : State) (before : List Segment) : List Instr :=
  s.dueAlways ++ (if s.described then s.dueDescribed before else [])

/-! ### The order of events of one moment -/

/-- The events in an order that is free: each place is given to one of those that remain, by the next free value. -/
def arrange : Nat → Nat → List Instr → List Instr
  | 0, _, l => l
  | _ + 1, _, [] => []
  | _ + 1, _, [e] => [e]
  | n + 1, d, l =>
    (l[Config.eventOrder d % l.length]?).toList ++ arrange n (d + 1) (l.eraseIdx (Config.eventOrder d % l.length))

/-- The events put into the queue. -/
def State.enqueue (s : State) (events : List Instr) : State :=
  { s with pending := arrange events.length s.drawn events, drawn := s.drawn + events.length }

/-- The step on an empty queue. While a reset holds the part, nothing happens. -/
def State.idle (s : State) : State :=
  if s.held.isSome then s
  else if s.ready.isEmpty then s.tick.enqueue (s.tick.due s.segs.records)
  else s.enqueue s.ready

end Sys2Proof.Machine
end

