-- ==== Sys2Proof/Machine/Dispatch.lean ====
section
/-! DEFINITION. The meaning of each command: one arm per row of spec/opcode_table.json, one direct call each. -/

namespace Sys2Proof.Machine

/-- The effect of a command on everything but the queue. -/
def exec (i : Instr) (s : State) : Host.Outcome State Fault Refusal :=
  match i with
  | .powerOn => Sys2Proof.Machine.execPowerOn s
  | .pinReset => Sys2Proof.Machine.execPinReset s
  | .lowSupply => Sys2Proof.Machine.execLowSupply s
  | .resetEnd => Sys2Proof.Machine.execResetEnd s
  | .descriptionLoadEnd image => Sys2Proof.Machine.execDescriptionLoadEnd image s
  | .transferStart port => Sys2Proof.Machine.execTransferStart port s
  | .transferEnd port clocked => Sys2Proof.Machine.execTransferEnd port clocked s
  | .unknownCommand port => Sys2Proof.Machine.execUnknownCommand port s
  | .status port => Sys2Proof.Machine.execStatus port s
  | .fetchNotice port => Sys2Proof.Machine.execFetchNotice port s
  | .setNoticeMask port => Sys2Proof.Machine.execSetNoticeMask port s
  | .resetPort port => Sys2Proof.Machine.execResetPort port s
  | .readSegment port => Sys2Proof.Machine.execReadSegment port s
  | .placeClaim port => Sys2Proof.Machine.execPlaceClaim port s
  | .releaseClaim port => Sys2Proof.Machine.execReleaseClaim port s
  | .confirmSweep port => Sys2Proof.Machine.execConfirmSweep port s
  | .setAuthority port => Sys2Proof.Machine.execSetAuthority port s
  | .claimStart segment holder => Sys2Proof.Machine.execClaimStart segment holder s
  | .claimExpiry segment holder => Sys2Proof.Machine.execClaimExpiry segment holder s
  | .confirmingExpiry segment => Sys2Proof.Machine.execConfirmingExpiry segment s
  | .prewarnMinuteChange segment => Sys2Proof.Machine.execPrewarnMinuteChange segment s
  | .prewarnEnd segment => Sys2Proof.Machine.execPrewarnEnd segment s
  | .readGate port => Sys2Proof.Machine.execReadGate port s
  | .resetGate port => Sys2Proof.Machine.execResetGate port s
  | .inputEdge line asserted => Sys2Proof.Machine.execInputEdge line asserted s
  | .debounceExpiry line => Sys2Proof.Machine.execDebounceExpiry line s
  | .travelTimeout gate => Sys2Proof.Machine.execTravelTimeout gate s
  | .reversalPauseEnd gate => Sys2Proof.Machine.execReversalPauseEnd gate s
  | .holdOffEnd gate => Sys2Proof.Machine.execHoldOffEnd gate s
  | .lampToggle gate => Sys2Proof.Machine.execLampToggle gate s
  | .postMessage port => Sys2Proof.Machine.execPostMessage port s
  | .withdrawMessage port => Sys2Proof.Machine.execWithdrawMessage port s
  | .setPriorityMap port => Sys2Proof.Machine.execSetPriorityMap port s
  | .setClock port => Sys2Proof.Machine.execSetClock port s
  | .slotExpiry slot => Sys2Proof.Machine.execSlotExpiry slot s
  | .readSign port => Sys2Proof.Machine.execReadSign port s
  | .setSignDisable port => Sys2Proof.Machine.execSetSignDisable port s
  | .setSignEnable port => Sys2Proof.Machine.execSetSignEnable port s
  | .transactionStart => Sys2Proof.Machine.execTransactionStart s
  | .messageSent => Sys2Proof.Machine.execMessageSent s
  | .echoMismatch => Sys2Proof.Machine.execEchoMismatch s
  | .replyReceived bytes => Sys2Proof.Machine.execReplyReceived bytes s
  | .replyTimeout => Sys2Proof.Machine.execReplyTimeout s
  | .refreshDue sign => Sys2Proof.Machine.execRefreshDue sign s
  | .probeDue sign => Sys2Proof.Machine.execProbeDue sign s
  | .lineRecovery => Sys2Proof.Machine.execLineRecovery s
  | .readChannel port => Sys2Proof.Machine.execReadChannel port s
  | .submitObservation port => Sys2Proof.Machine.execSubmitObservation port s
  | .scanRoundStart => Sys2Proof.Machine.execScanRoundStart s
  | .channelConversionDone raws => Sys2Proof.Machine.execChannelConversionDone raws s
  | .holdAgeExpiry channel => Sys2Proof.Machine.execHoldAgeExpiry channel s
  | .silenceExpiry channel => Sys2Proof.Machine.execSilenceExpiry channel s
  | .readPower port => Sys2Proof.Machine.execReadPower port s
  | .hazardPeriodExpiry => Sys2Proof.Machine.execHazardPeriodExpiry s
  | .floorEnd path => Sys2Proof.Machine.execFloorEnd path s
  | .readPath port => Sys2Proof.Machine.execReadPath port s
  | .reportDetection port => Sys2Proof.Machine.execReportDetection port s
  | .clearPath port => Sys2Proof.Machine.execClearPath port s
  | .setPathFloor port => Sys2Proof.Machine.execSetPathFloor port s
  | .seedPath port => Sys2Proof.Machine.execSeedPath port s
  | .reload port => Sys2Proof.Machine.execReload port s

end Sys2Proof.Machine
end

