-- ==== Sys2Proof/Safety.lean ====
section
/-! DEFINITION. The terms in which statements speak: the parts of the state and what it is to leave them unchanged, a
command that waits and the answer to it, and the invariants of the block. -/

namespace Sys2Proof.Safety

open Sys2Proof.Machine

/-! ### Parts of the state -/

/-- The parts into which the statements divide the state; every field of State belongs to exactly one. -/
inductive Part where
  | waiting | reset | drawn | clock | display
  | records | claims | authority | gates
  | slots | priority | tops
  | signs | transmit | line
  | channels | inputs | round
  | paths | period
  | parameters | charge | account | reserve | mode
  | queued | done | notices | masks | overrun | overflow | transfers
  | loader
deriving DecidableEq, Repr

/-- A part is the same in two states. -/
def Part.same : Part → State → State → Prop
  | .waiting, s, t => t.pending = s.pending
  | .reset, s, t => t.held = s.held
  | .drawn, s, t => t.drawn = s.drawn
  | .clock, s, t => t.clocks.seconds = s.clocks.seconds ∧ t.clocks.millis = s.clocks.millis
  | .display, s, t => t.clocks.display = s.clocks.display
  | .records, s, t => t.segs.records = s.segs.records
  | .claims, s, t => t.segs.claims = s.segs.claims
  | .authority, s, t => t.segs.authority = s.segs.authority
  | .gates, s, t => t.gates = s.gates
  | .slots, s, t => t.store.slots = s.store.slots
  | .priority, s, t => t.store.priority = s.store.priority
  | .tops, s, t => t.store.tops = s.store.tops
  | .signs, s, t => t.line.signs = s.line.signs
  | .transmit, s, t =>
    t.line.entries = s.line.entries ∧ t.line.inFlight = s.line.inFlight ∧ t.line.made = s.line.made
  | .line, s, t =>
    t.line.state = s.line.state ∧ t.line.errors = s.line.errors ∧ t.line.recovery = s.line.recovery
  | .channels, s, t => t.scan.channels = s.scan.channels
  | .inputs, s, t => t.scan.lines = s.scan.lines
  | .round, s, t =>
    t.scan.converting = s.scan.converting ∧ t.scan.roundStart = s.scan.roundStart ∧
      t.scan.nextRound = s.scan.nextRound
  | .paths, s, t => t.hazard.paths = s.hazard.paths
  | .period, s, t => t.hazard.period = s.hazard.period ∧ t.hazard.nextExpiry = s.hazard.nextExpiry
  | .parameters, s, t =>
    t.power.params = s.power.params ∧ t.power.fromGroup = s.power.fromGroup ∧ t.power.taken = s.power.taken ∧
      t.power.takenFromGroup = s.power.takenFromGroup
  | .charge, s, t =>
    t.power.charge = s.power.charge ∧ t.power.entered = s.power.entered ∧
      t.power.absorbSince = s.power.absorbSince ∧ t.power.enable = s.power.enable ∧
      t.power.target = s.power.target ∧ t.power.limit = s.power.limit ∧ t.power.word = s.power.word ∧
      t.power.targets = s.power.targets
  | .account, s, t =>
    t.power.account = s.power.account ∧ t.power.remainder = s.power.remainder ∧ t.power.updated = s.power.updated
  | .reserve, s, t => t.power.reserve = s.power.reserve
  | .mode, s, t => t.power.mode = s.power.mode
  | .queued, s, t => ∀ m, (t.port m).queued = (s.port m).queued
  | .done, s, t => ∀ m, (t.port m).done = (s.port m).done
  | .notices, s, t => ∀ m, (t.port m).notices = (s.port m).notices
  | .masks, s, t => ∀ m, (t.port m).mask = (s.port m).mask
  | .overrun, s, t => ∀ m, (t.port m).overrun = (s.port m).overrun
  | .overflow, s, t => ∀ m, (t.port m).overflow = (s.port m).overflow
  | .transfers, s, t => ∀ m, (t.port m).transfer = (s.port m).transfer
  | .loader, s, t => t.loader = s.loader

/-- Every part but those listed is unchanged. -/
def Frame (changed : List Part) (s t : State) : Prop := ∀ p, p ∉ changed → p.same s t

/-- The parts a raised notice may change (R169): the queues, the overflow mark, and the note of it in a transfer. -/
def noticeParts : List Part := [.notices, .overflow, .transfers]

/-- The parts a command's answer changes: the request slots. -/
def answerParts : List Part := [.queued, .done]

/-- The parts the derivation at the end of a load writes (R184). -/
def derivedParts : List Part :=
  [.records, .claims, .authority, .gates, .slots, .priority, .tops, .signs, .transmit, .line, .channels, .paths, .period,
    .parameters, .account, .reserve, .mode, .loader]

/-- The parts a change of slot content may change (R59, R73, R83): slots, top-candidate records, the transmit list. -/
def contentParts : List Part := [.slots, .tops, .transmit]

/-- The parts a change of a gate or a segment may change through its reports (R35, R155 to R157): with the content of
slots, the segment and gate records, the reserve and mode, refresh due of the signs, and the notices. -/
def roadParts : List Part := [.records, .gates, .reserve, .mode, .signs] ++ contentParts ++ noticeParts

/-! ### Commands and answers -/

/-- R165, R167: the oldest QUEUED command of port m is r, of command c, with `rest` behind it; its body has a length the
command takes, the part is not held in reset, and its part state executes the command. -/
structure Waits (s : State) (m : Master) (c : Command) (r : Request) (rest : List Request) : Prop where
  running : s.held = none
  state : c.anyState = true ∨ s.described = true
  oldest : (s.port m).queued = r :: rest
  code : commandOfCode r.code = some c
  length : c.takesLength r.body = true

/-- R165: the slot of the command has become DONE with this response; the slots of the other ports are as they were. -/
structure Answered (s t : State) (m : Master) (rest : List Request) (x : Response) : Prop where
  queued : (t.port m).queued = rest
  done : (t.port m).done = (s.port m).done ++ [x]
  others : ∀ n, n ≠ m → (t.port n).queued = (s.port n).queued ∧ (t.port n).done = (s.port n).done

/-- The response OK to a request, with this body. -/
def okTo (r : Request) (body : List Byte) : Response := { tag := r.tag, code := .ok, body := body }

/-- The refusal of a request with this code; it has no body. -/
def refusalOf (r : Request) (code : RespCode) : Response := { tag := r.tag, code := code, body := [] }

/-- The command of port m has been answered with x, and nothing has changed but these parts and its slot. -/
def Finishes (s t : State) (m : Master) (rest : List Request) (x : Response) (changed : List Part) : Prop :=
  Answered s t m rest x ∧ Frame (changed ++ answerParts) s t

/-- R169: port m, whose mask admits the kind, holds the notice with these values and the present time; or its queue is full
with no notice of that kind and object, and the overflow mark is set. -/
def Told (s t : State) (m : Master) (kind : NoticeKind) (object : Nat) (first second third : Word16) : Prop :=
  (s.port m).admits kind = true →
    ((t.port m).overflow = true ∧ 16 ≤ (t.port m).notices.length ∧
        ∀ e ∈ (t.port m).notices, ¬ (e.kind = kind ∧ e.object = object)) ∨
      ({ kind := kind, object := object, first := first, second := second, third := third, time := s.now } : Notice) ∈
        (t.port m).notices

/-- The part runs and its corridor is described (R182). -/
def Running (s : State) : Prop := s.held = none ∧ s.described = true

/-- The effective level, urgency and deciding claim of segment k are those of its claims (R7). -/
def FollowsClaims (s : State) (k : Nat) (x : Segment) : Prop :=
  x.level = effectiveLevel (s.claimsOf k) ∧ x.urgent = urgentClaims (s.claimsOf k) ∧
    x.deciding = (decidingClaim (s.claimsOf k)).map (·.holder)

/-- The claims of a state, their links left out. -/
def unlinked (claims : List Claim) : List Claim := claims.map (fun c => { c with link := none })

/-! ### Recomputation of a segment (R8, R11 to R18) -/

/-- R12: the acknowledged content of this sign is warning content for segment k: of class 3, from the segment slot of k, or
from that of a segment earlier than k in the lookahead list which is CLOSING, CLOSED or REOPENING. -/
def Warns (s : State) (k : Nat) (x : Sign) : Prop :=
  ∃ a, x.ack = some a ∧ a.cls = 3 ∧ a.slot < 16 ∧
    (a.slot = k ∨ ∃ before after z, x.cfg.lookahead = before ++ k :: after ∧ k ∉ before ∧ a.slot ∈ before ∧
      s.segs.records[a.slot]? = some z ∧ (z.state = .closing ∨ z.state = .closed ∨ z.state = .reopening))

/-- R12: the test at entry to CONFIRMING, over the approach signs in ONLINE or DEGRADED. -/
def WarnedAtEntry (s : State) (k : Nat) (x : Segment) : Prop :=
  ∃ n ∈ x.cfg.approach, ∃ y, s.line.signs[n]? = some y ∧ (y.state = .online ∨ y.state = .degraded) ∧ Warns s k y

/-- R11, R13 to R16, R18: the segment, x before, has entered phase LOWERING with demand LOWER, and is CLOSED when no gate of
its list is LOWERING or STOPPED. -/
structure EntersLowering (t : State) (x y : Segment) : Prop where
  demand : y.demand = .lower
  remaining : y.remaining = 0
  state : (y.state = .closing ∧ y.phase = some .lowering) ∨ y.state = .closed
  closed : x.demand ≠ .lower →
    (y.state = .closed ↔ ∀ g ∈ x.cfg.gates, ∀ z, t.gates[g]? = some z → z.state ≠ .lowering ∧ z.state ≠ .stopped)

/-- The segment is OPEN or RESTRICTED. -/
def Open (x : Segment) : Prop := x.state = .opened ∨ x.state = .restricted

/-- The segment is CLOSING and waits or counts before its gates move. -/
def Warning (x : Segment) : Prop := x.state = .closing ∧ (x.phase = some .confirming ∨ x.phase = some .prewarn)

/-- The segment is OPEN or RESTRICTED by its level, with demand NONE (R11, R15, R19). -/
def OpenByLevel (y : Segment) : Prop :=
  y.state = (if y.level = .chains then .restricted else .opened) ∧ y.phase = none ∧ y.demand = .noDemand

/-- R11 to R18: what a recomputation of segment k makes of its record x, by the state and phase it stood in and the new level
and urgency, which y holds. -/
structure Recomputed (s t : State) (k : Nat) (x y : Segment) : Prop where
  cfg : y.cfg = x.cfg
  since : y.since = if y.state = x.state then x.since else s.now
  opens : Open x → y.level ≠ .close → OpenByLevel y
  closesAtOnce : Open x → y.level = .close → y.urgent = true → EntersLowering t x y ∧ y.unwarned = false
  confirming : Open x → y.level = .close → y.urgent = false → x.cfg.approach ≠ [] → ¬ WarnedAtEntry s k x →
    y.state = .closing ∧ y.phase = some .confirming ∧ y.remaining = x.cfg.interval ∧ y.confirmDue = some (s.now + 60) ∧
      y.unwarned = false ∧ y.demand = .noDemand
  prewarn : Open x → y.level = .close → y.urgent = false → x.cfg.approach = [] ∨ WarnedAtEntry s k x →
    y.unwarned = false ∧ (x.cfg.interval = 0 → EntersLowering t x y) ∧
      (x.cfg.interval ≠ 0 → y.state = .closing ∧ y.phase = some .prewarn ∧ y.remaining = x.cfg.interval ∧
        y.demand = .noDemand)
  turnsUrgent : Warning x → y.level = .close → y.urgent = true → EntersLowering t x y ∧ y.unwarned = x.unwarned
  goesOn : Warning x → y.level = .close → y.urgent = false →
    y.state = .closing ∧ y.phase = x.phase ∧ y.remaining = x.remaining ∧ y.unwarned = x.unwarned
  callsOff : Warning x → y.level ≠ .close → OpenByLevel y
  reopens : (x.state = .closing ∧ x.phase = some .lowering) ∨ x.state = .closed → y.level ≠ .close →
    y.state = .reopening ∧ y.phase = none ∧ y.swept = false ∧ y.demand = .hold
  lowersOn : x.state = .closing → x.phase = some .lowering → x.demand = .lower → y.level = .close →
    y.state = .closing ∧ y.phase = some .lowering
  staysClosed : x.state = .closed → x.demand = .lower → y.level = .close → y.state = .closed ∧ y.secured = x.secured
  closesAgain : x.state = .reopening → y.level = .close → EntersLowering t x y ∧ y.swept = false
  reopensOn : x.state = .reopening → x.demand = (if x.swept then .raise else .hold) → y.level ≠ .close →
    y.state = .reopening ∧ y.swept = x.swept

/-- Segment k, where it is described, follows its claims after a recomputation, by the rule of its state. -/
def SegmentFollows (s t : State) (k : Nat) : Prop :=
  ∀ x, s.segs.records[k]? = some x →
    ∃ y, t.segs.records[k]? = some y ∧ FollowsClaims t k y ∧ Recomputed s t k x y

/-! ### The stages of a hazard period (R123 to R133) -/

/-- R125, R127: the wind of a period: the sector test, the wind factor in quarters, and the drift. -/
structure WindStages (c : PathConfig) (q : Readings) (period : Nat) (w : Working) : Prop where
  sector : ∀ v θ : Int, q.speed = some v → q.direction = some θ →
    w.inSector = some (decide (min |θ - c.centre| (360 - |θ - c.centre|) ≤ (c.halfWidth : Int)))
  noSector : q.speed = none ∨ q.direction = none → w.inSector = none
  factor : ∀ v : Int, q.speed = some v → w.inSector = some true →
    w.windFactor = if v < 30 then 4 else if v < 70 then 6 else if v < 120 then 9 else if v < 200 then 12 else 8
  outside : w.inSector = some false → w.windFactor = 4
  noFactor : w.inSector = none → w.windFactor = 6
  drift : ∀ v d : Int, q.speed = some v → q.depth = some d → w.inSector = some true → 70 ≤ v → 20 ≤ d →
    w.drift = (if v < 120 then 20 else if v < 200 then 50 else 30) * period * c.sensitivity / 360000
  noDrift : w.inSector ≠ some true ∨ (∀ v, q.speed = some v → v < 70) ∨ (∀ d, q.depth = some d → d < 20) → w.drift = 0
  most : period ≤ 3600 → c.sensitivity ≤ 400 → w.drift ≤ 200

/-- R124: the snow of a period and the reference depth after it. -/
structure SnowStage (p : Path) (q : Readings) (w : Working) (y : Path) : Prop where
  snow : ∀ d ref : Int, q.depth = some d → p.refDepth = some ref → (w.newSnow : Int) = min 60 (max 0 (d - ref))
  noSnow : q.depth = none ∨ p.refDepth = none → w.newSnow = 0
  ref : y.refDepth = if q.depth = none then p.refDepth else q.depth

/-- R130 to R132: the level and dwell of a period: the raw level by the thresholds and the wet adjustment, then hysteresis,
then the floor. -/
structure LevelStages (p : Path) (q : Readings) (w : Working) (y : Path) : Prop where
  raw : w.rawBefore =
    if y.loading < p.cfg.t1 * 10 then 1 else if y.loading < p.cfg.t2 * 10 then 2
    else if y.loading < p.cfg.t3 * 10 then 3 else if y.loading < p.cfg.t4 * 10 then 4 else 5
  wet : ∀ ta : Int, q.air = some ta → 10 ≤ ta → 2000 ≤ y.loading → w.rawAfter = min 5 (w.rawBefore + 1)
  dry : q.air = none ∨ (∃ ta, q.air = some ta ∧ ta < 10) ∨ y.loading < 2000 → w.rawAfter = w.rawBefore
  rise : p.level < w.rawAfter →
    y.level = max w.rawAfter ((p.floor.map (·.level)).getD 0) ∧ y.dwell = 0
  drop : ∀ threshold : Nat,
    (p.level = 2 ∧ threshold = p.cfg.t1) ∨ (p.level = 3 ∧ threshold = p.cfg.t2) ∨
      (p.level = 4 ∧ threshold = p.cfg.t3) ∨ (p.level = 5 ∧ threshold = p.cfg.t4) →
    w.rawAfter < p.level →
    ((y.loading : Int) < 10 * ((threshold : Int) - p.cfg.band) ∧ p.cfg.minDwell ≤ p.dwell →
      y.level = max (p.level - 1) ((p.floor.map (·.level)).getD 0) ∧ y.dwell = 0) ∧
    (¬ ((y.loading : Int) < 10 * ((threshold : Int) - p.cfg.band) ∧ p.cfg.minDwell ≤ p.dwell) →
      y.level = max p.level ((p.floor.map (·.level)).getD 0) ∧ y.dwell = min 255 (p.dwell + 1))
  hold : w.rawAfter = p.level →
    y.level = max p.level ((p.floor.map (·.level)).getD 0) ∧ y.dwell = min 255 (p.dwell + 1)

/-- R133: the substitutes of a period and the input degraded mark. -/
structure SubstituteStage (q : Readings) (y : Path) : Prop where
  depth : y.substitutes.depth = true ↔ q.depth = none
  wind : y.substitutes.wind = true ↔ q.speed = none ∨ q.direction = none
  temperature : y.substitutes.temperature = true ↔ q.air = none
  degraded : y.degraded = true ↔ q.depth = none ∨ q.speed = none ∨ q.direction = none ∨ q.air = none

/-- R121 to R133: the path record y that a period with these readings makes of p, and the figures w it leaves. The loading is
that of LoadingFollowsSnowAndSettlement. -/
structure PeriodStages (p : Path) (q : Readings) (period : Nat) (w : Working) (y : Path) : Prop where
  working : y.working = some w
  loading : y.loading = w.newLoading
  snow : SnowStage p q w y
  wind : WindStages p.cfg q period w
  level : LevelStages p q w y
  substitutes : SubstituteStage q y
  kept : y.cfg = p.cfg ∧ y.latch = p.latch ∧ y.floor = p.floor ∧ y.unseeded = p.unseeded

/-! ### The derivation at the end of a load -/

/-- R53: the state and fault reason that a gate's key line and limits give it. -/
def Standing (s : State) (c : GateConfig) : GateState × Option FaultReason :=
  derivedGate (s.asserted c.keyLine) (positionOf (s.asserted c.upLine) (s.asserted c.downLine))

/-- R138: a path has a trip line, and it stands asserted. -/
def Tripped (s : State) (p : PathConfig) : Bool := p.trip.any s.asserted

/-- R138: a path whose trip line stands asserted affects segment k. -/
def Struck (s : State) (d : Description) (k : Nat) : Prop := ∃ p ∈ d.paths, Tripped s p = true ∧ k ∈ p.segments

/-! ### Time -/

/-- A moment held in the state that has come. -/
def HasCome (s : State) (moment : Option Nat) : Prop := ∃ n, moment = some n ∧ n ≤ s.now

/-- The events that fall due in t, a millisecond after s: R4, R5, R12, R13, R34, R43, R44, R48, R66, R87, R92, R94, R95,
R108, R111, R113, R120, R132. No other row of the table is an event of the part's own timers. -/
def FallsDue (s t : State) : Instr → Prop
  | .claimStart k h => t.described = true ∧ ∃ c ∈ t.segs.claims, c.segment = k ∧ c.holder = h ∧ c.pending = true ∧
      HasCome t c.start
  | .claimExpiry k h => t.described = true ∧ (∃ m, h = .master m) ∧ ∃ c ∈ t.segs.claims, c.segment = k ∧ c.holder = h ∧
      HasCome t c.endsAt
  | .confirmingExpiry k => t.described = true ∧ ∃ x, t.segs.records[k]? = some x ∧ x.state = .closing ∧
      x.phase = some .confirming ∧ HasCome t x.confirmDue
  | .prewarnMinuteChange k => t.described = true ∧ ∃ x y, s.segs.records[k]? = some x ∧ t.segs.records[k]? = some y ∧
      y.state = .closing ∧ y.phase = some .prewarn ∧ (y.remaining + 59) / 60 < (x.remaining + 59) / 60
  | .prewarnEnd k => t.described = true ∧ ∃ x, t.segs.records[k]? = some x ∧ x.state = .closing ∧
      x.phase = some .prewarn ∧ x.remaining = 0
  | .travelTimeout g => t.described = true ∧ ∃ x, t.gates[g]? = some x ∧ (x.lowerDrive = true ∨ x.raiseDrive = true) ∧
      x.travel = 0
  | .reversalPauseEnd g => t.described = true ∧ ∃ x, t.gates[g]? = some x ∧ x.state = .lowering ∧
      x.sub = some .reversing ∧ x.pause = some 0
  | .holdOffEnd g => t.described = true ∧ ∃ x, t.gates[g]? = some x ∧ x.state = .stopped ∧ x.holdOff = some 0
  | .lampToggle g => t.described = true ∧ ∃ x, t.gates[g]? = some x ∧ x.flashing = true ∧ x.lampLeft = 0
  | .slotExpiry n => t.described = true ∧ 32 ≤ n ∧ n ≤ 63 ∧ ∃ p, t.postedIn n = some p ∧ HasCome t p.endsAt
  | .replyTimeout => t.described = true ∧ ∃ w, t.line.inFlight = some w ∧ w.exchange = .window 0
  | .refreshDue k => t.described = true ∧ ∃ x, t.line.signs[k]? = some x ∧ HasCome t x.refreshDue
  | .probeDue k => t.described = true ∧ ∃ x, t.line.signs[k]? = some x ∧ HasCome t x.probeDue
  | .lineRecovery => t.described = true ∧ HasCome t t.line.recovery
  | .floorEnd n => t.described = true ∧ ∃ p f, t.hazard.paths[n]? = some p ∧ p.floor = some f ∧ f.endsAt ≤ t.now
  | .holdAgeExpiry c => c < 32 ∧ (t.described = true ∨ 28 ≤ c) ∧ ∃ x start, t.channel? c = some x ∧ x.quality = .held ∧
      x.heldSince = some start ∧ start + x.desc.holdLimit ≤ t.now
  | .silenceExpiry c => c < 32 ∧ (t.described = true ∨ 28 ≤ c) ∧ ∃ x start, t.channel? c = some x ∧
      x.quality ≠ .failed ∧ x.silenceFrom = some start ∧ start + x.desc.holdLimit ≤ t.now
  | .scanRoundStart => t.scan.converting = none ∧ HasCome t t.scan.nextRound
  | .debounceExpiry l => ∃ x, t.scan.lines[l]? = some x ∧ x.stability = some 0
  | .hazardPeriodExpiry => t.hazard.nextExpiry ≤ t.now
  | _ => False

/-- R86: the line is UP and idle, and the entry that stands first names a described sign. -/
def MayTransact (s : State) : Prop :=
  s.described = true ∧ s.line.state = .up ∧ s.line.inFlight = none ∧
    ∃ e x, s.headEntry s.line.entries = some e ∧ s.line.signs[e.sign]? = some x

/-- R165, R167, R86: what is ready without time passing: the row of each port's oldest QUEUED command, and the start of a
transaction. -/
def Ready (s : State) (c : Instr) : Prop :=
  (∃ m r rest, (s.port m).queued = r :: rest ∧
    c = (match commandOfCode r.code with
      | some d => d.row m r.body
      | none => .unknownCommand m)) ∨
  (c = .transactionStart ∧ MayTransact s)

/-! ### Invariants -/

/-- R165, R169: the request slots are at most 8, the notice entries at most 16, no two of one kind and object. -/
structure PortOk (p : Port) : Prop where
  slots : p.queued.length + p.done.length ≤ Config.requestSlots
  room : p.notices.length ≤ Config.noticeQueueSize
  keys : p.notices.Pairwise (fun a b => a.sameKey b = false)

/-- Every port is sound. -/
def PortsOk (s : State) : Prop := ∀ m, PortOk (s.port m)

/-- R119: the bounds of a path record, and the residual share of its description. -/
structure PathOk (p : Path) : Prop where
  least : 1 ≤ p.level
  most : p.level ≤ 5
  loading : p.loading ≤ 9999
  dwell : p.dwell ≤ 255
  residual : p.cfg.residual ≤ 100
  floor : ∀ f, p.floor = some f → 1 ≤ f.level ∧ f.level ≤ p.level

/-- Every path record is within its bounds. -/
def PathsOk (s : State) : Prop := ∀ p ∈ s.hazard.paths, PathOk p

/-- Segment k holds an active claim of path n with this level and urgency. -/
def HoldsCall (s : State) (k n : Nat) (level : Level) (urgent : Bool) : Prop :=
  ∃ c, s.claim? k (.hazard n) = some c ∧ c.level = level ∧ c.urgent = urgent ∧ c.pending = false

/-- R134: what path n, with record p, calls for on its segment k. -/
structure CallOk (s : State) (n : Nat) (p : Path) (k : Nat) : Prop where
  urgent : p.latch ≠ .clear ∨ p.level = 5 → HoldsCall s k n .close true
  close : p.latch = .clear → p.level ≠ 5 → p.cfg.closeLevel ≤ p.level → HoldsCall s k n .close false
  advise : p.latch = .clear → p.level ≠ 5 → p.level < p.cfg.closeLevel → p.cfg.adviseLevel ≤ p.level →
    HoldsCall s k n .advise false
  nothing : p.latch = .clear → p.level ≠ 5 → p.level < p.cfg.closeLevel → p.level < p.cfg.adviseLevel →
    s.claim? k (.hazard n) = none

/-- R134: every path holds on each affected segment the claim it calls for, and no other. -/
def CallsOk (s : State) : Prop :=
  ∀ (n : Nat) (p : Path), s.hazard.paths[n]? = some p → ∀ k ∈ p.cfg.segments, CallOk s n p k

/-- R146, R152: the account stays within 0 and the capacity in force, which is that of the parameters last taken, and the
remainder within 0 and 3599. -/
structure AccountOk (s : State) : Prop where
  capacity : s.power.params.capacity = s.power.taken.capacity
  account : s.power.account ≤ s.power.params.capacity
  remainder : s.power.remainder < 3600

/-- R2: no two in-use claims belong to one segment and one holder. -/
def ClaimsOk (s : State) : Prop := s.segs.claims.Pairwise (fun a b => ¬ (a.segment = b.segment ∧ a.holder = b.holder))

/-- R83, R85: the transmit list holds at most one entry per sign, and none for the sign whose transaction is in flight. -/
structure LineOk (l : SignLine) : Prop where
  entries : l.entries.Pairwise (fun a b => a.sign ≠ b.sign)
  flying : ∀ x, l.inFlight = some x → ∀ e ∈ l.entries, e.sign ≠ x.entry.sign

/-- R31, R42, R43, R48: which fields of a gate record are present in which state, and their bounds. -/
structure GateOk (x : Gate) : Prop where
  sub : x.sub.isSome = true ↔ x.state = .lowering
  pause : x.pause.isSome = true ↔ x.sub = some .reversing
  pauseMost : ∀ n, x.pause = some n → n ≤ Config.reversalPause
  holdOff : ∀ n, x.holdOff = some n → x.state = .stopped ∧ n ≤ Config.holdOff
  reason : x.reason.isSome = true ↔ x.state = .fault
  travel : x.travel ≤ x.cfg.timeout
  rest : x.state = .up ∨ x.state = .down ∨ x.state = .fault ∨ x.state = .manual → x.travel = 0

/-- Every gate record is sound. -/
def GatesOk (s : State) : Prop := ∀ x ∈ s.gates, GateOk x

/-- R1, R11 to R19: what a segment's state says of its phase, level, marks, countdown and demand. -/
structure SegmentOk (x : Segment) : Prop where
  phase : x.phase.isSome = true ↔ x.state = .closing
  opened : x.state = .opened → x.level = .noLevel ∨ x.level = .advise
  restricted : x.state = .restricted → x.level = .chains
  shut : x.state = .closing ∨ x.state = .closed → x.level = .close
  reopening : x.state = .reopening → x.level ≠ .close
  secured : x.secured = true → x.state = .closed
  swept : x.swept = true → x.state = .reopening
  confirming : x.confirmDue.isSome = true ↔ x.phase = some .confirming
  remaining : x.remaining ≤ x.cfg.interval
  counting : x.remaining ≠ 0 → x.phase = some .confirming ∨ x.phase = some .prewarn
  demand : x.demand = x.wantedDemand

/-- Every segment record is sound. -/
def SegmentsOk (s : State) : Prop := ∀ x ∈ s.segs.records, SegmentOk x

/-- R7, R8: every described segment follows its claims. -/
def LevelsOk (s : State) : Prop := ∀ k x, s.segs.records[k]? = some x → FollowsClaims s k x

/-- R39, with what it rests on: gates and segments name each other, each gate holds its segment's demand, the demand is
that of R19, and a gate is RAISING only behind a confirmed sweep. -/
structure RoadOk (s : State) : Prop where
  undescribed : s.described = false → s.segs.records = []
  home : s.described = true → ∀ (g : Nat) (x : Gate), s.gates[g]? = some x →
    ∃ y, s.segs.records[x.cfg.segment]? = some y ∧ g ∈ y.cfg.gates
  lists : ∀ (k : Nat) (y : Segment) (g : Nat) (x : Gate), s.segs.records[k]? = some y → g ∈ y.cfg.gates → s.gates[g]? = some x →
    x.cfg.segment = k ∧ x.demand = y.demand
  demand : ∀ y ∈ s.segs.records, y.demand = y.wantedDemand
  raising : ∀ x ∈ s.gates, x.state = .raising →
    ∃ y, s.segs.records[x.cfg.segment]? = some y ∧ y.state = .reopening ∧ y.swept = true

/-- R64: a valid slot has the class the priority map gives its origin; without a description no slot is valid and no sign
is described (R74, R98). -/
structure ClassesOk (s : State) : Prop where
  classes : ∀ x ∈ s.store.slots, ∀ c, x.content = some c → c.cls = s.classOf c.origin
  undescribed : s.described = false → s.line.signs = [] ∧ s.segs.records = [] ∧ ∀ x ∈ s.store.slots, x.content = none

end Sys2Proof.Safety
end

