-- ==== Sys2Proof/Certificates/Slice0/Obligations.lean ====
section
/-! DEFINITION. The statements for the provers. `Waits s m c r rest` says that command c of port m, request r, is the next
to be executed; `Finishes s t m rest x changed` that it is answered with x and that nothing but these parts and its request
slot has changed; `Frame changed s t` that nothing but these parts has changed (Sys2Proof/Safety.lean). -/

open Sys2Proof Sys2Proof.Machine Sys2Proof.Safety

/-! ### The machine -/

/-- A step on a queue takes the command at its front and is exec of it with the queue's rest (the form of the model,
notes/assumptions/7.md). -/
def Obligations.StepRunsTheFrontCommand : Prop :=
  ∀ (c : Instr) (rest : List Instr) (s : State),
    step { s with pending := c :: rest } = exec c { s with pending := rest }

/-- R4, R5, R12, R13, R34, R42, R43, R48, R86, R87, R113, R165: the step on an empty queue. While a reset holds the part
nothing happens. Where a command is QUEUED or a transaction may start, these and nothing else are put into the queue, each
once, and no time passes. Otherwise a millisecond passes: the corridor clock advances, the timers kept as countdowns fall
by one at each unit, and the events that fall due, and nothing else, are put into the queue. This step, and the phase of
its units, are the model's choice (notes/assumptions/1.md, 29.md), and so are the order of the events and the clock after
its highest value (2.md, 4.md), of which it says nothing. -/
def Obligations.TimePassesWhileNothingWaits : Prop :=
  ∀ (s : State), s.pending = [] →
    (s.held ≠ none → step s = .next s) ∧
    (s.held = none → (∃ c, Ready s c) →
      ∃ t, step s = .next t ∧ (∀ c, c ∈ t.pending ↔ Ready s c) ∧ t.pending.Nodup ∧ Frame [.waiting, .drawn] s t) ∧
    (s.held = none → (∀ c, ¬ Ready s c) →
      ∃ t, step s = .next t ∧ (∀ c, c ∈ t.pending ↔ FallsDue s t c) ∧
        (s.clocks.millis < 999 → t.clocks.millis = s.clocks.millis + 1 ∧ t.now = s.now) ∧
        (999 ≤ s.clocks.millis → t.clocks.millis = 0 ∧ (s.now + 1 < 4294967296 → t.now = s.now + 1)) ∧
        t.scan.lines = s.scan.lines.map (fun x => { x with stability := x.stability.map (· - 1) }) ∧
        (s.described = false → Frame [.waiting, .drawn, .clock, .inputs] s t) ∧
        (s.described = true →
          t.gates = s.gates.map (fun x => { x with
            lampLeft := if x.flashing then x.lampLeft - 1 else x.lampLeft,
            travel := if t.clocks.millis % 100 = 0 ∧ (x.lowerDrive = true ∨ x.raiseDrive = true) then x.travel - 1
              else x.travel,
            pause := if t.clocks.millis % 100 = 0 ∧ x.state = .lowering ∧ x.sub = some .reversing then x.pause.map (· - 1)
              else x.pause,
            holdOff := if t.clocks.millis % 100 = 0 ∧ x.state = .stopped then x.holdOff.map (· - 1) else x.holdOff }) ∧
          t.segs.records = s.segs.records.map (fun x => { x with
            remaining := if t.clocks.millis = 0 ∧ x.state = .closing ∧ x.phase = some .prewarn then x.remaining - 1
              else x.remaining }) ∧
          t.line.inFlight = s.line.inFlight.map (fun w => { w with
            exchange := (match w.exchange with
              | .idle n => if n ≤ 1 then .sending else .idle (n - 1)
              | .sending => .sending
              | .window n => .window (n - 1)) }) ∧
          t.line.entries = s.line.entries ∧ t.line.made = s.line.made ∧
          Frame [.waiting, .drawn, .clock, .inputs, .records, .gates, .transmit] s t))

/-- R9, R58, R64, R98, R115, R120, R154, R159, R175, R183: what the end of a POWER_ON reset leaves, which is the state the
model takes as its reset state (notes/assumptions/6.md). -/
def Obligations.ResetLeavesTheStartingValues : Prop :=
  State.reset.held = none ∧ State.reset.now = 0 ∧ State.reset.clocks.display = none ∧
  State.reset.loader.state = .loading ∧ State.reset.loader.cause = .powerOn ∧
  (∀ m, (State.reset.port m).queued = [] ∧ (State.reset.port m).done = [] ∧
    (State.reset.port m).notices = [restartedNotice .powerOn 0] ∧ (∀ k : NoticeKind, (State.reset.port m).admits k = true) ∧
    (State.reset.port m).overrun = false ∧ (State.reset.port m).overflow = false) ∧
  State.reset.segs.records = [] ∧ State.reset.segs.claims = [] ∧
  (∀ k < 16, ∀ right < 5,
    State.reset.hasRight k .centre right = decide (right ≠ 4) ∧
    State.reset.hasRight k .slope right = decide (right = 0 ∨ right = 2) ∧
    State.reset.hasRight k .crew right = decide (right ≠ 3)) ∧
  (∀ x ∈ State.reset.store.slots, x.content = none ∧ x.generation = 0 ∧ x.posted = none) ∧
  State.reset.store.priority = [1, 2, 2, 3, 3, 1, 0, 0, 0, 1, 1, 2, 2, 3, 3, 2] ∧
  State.reset.line.state = .up ∧ State.reset.line.errors = 0 ∧ State.reset.line.entries = [] ∧
  (∀ c < 32, ∀ x, State.reset.channel? c = some x → x.quality = .never ∧ x.value = none ∧ x.badCount = 0) ∧
  State.reset.hazard.period = 600 ∧ State.reset.hazard.nextExpiry = 600 ∧ State.reset.power.account = 100000 ∧
  State.reset.power.remainder = 0 ∧ State.reset.power.mode = .normal ∧ State.reset.power.charge = .noSource ∧
  State.reset.chargeEnable = false ∧ ∀ l, State.reset.output l = false

/-- The state after a reset meets every invariant that the next ten statements and the last one say each step keeps. -/
def Obligations.ResetMeetsEveryBound : Prop :=
  PortsOk State.reset ∧ PathsOk State.reset ∧ AccountOk State.reset ∧ ClaimsOk State.reset ∧ LineOk State.reset.line ∧
    GatesOk State.reset ∧ SegmentsOk State.reset ∧ LevelsOk State.reset ∧ RoadOk State.reset ∧ ClassesOk State.reset ∧
    CallsOk State.reset

/-! ### What every step keeps -/

/-- R165, R169: no step gives a port more than 8 request slots in use or 16 notices, or two notices of one kind and object. -/
def Obligations.PortsStayWithinTheirSlots : Prop := ∀ s t, PortsOk s → step s = .next t → PortsOk t

/-- R119: no step takes a path's level out of 1 to 5 or below its floor, or its loading above 9999 tenths. -/
def Obligations.PathsStayWithinTheirBounds : Prop := ∀ s t, PathsOk s → step s = .next t → PathsOk t

/-- R146, R152: no step takes the energy account above the capacity in force, which is that of the parameters last taken,
or its remainder out of 0 to 3599. -/
def Obligations.AccountStaysWithinTheCapacity : Prop := ∀ s t, AccountOk s → step s = .next t → AccountOk t

/-- R2: no step makes two claims of one segment and one holder. -/
def Obligations.ClaimsStayOnePerHolder : Prop := ∀ s t, ClaimsOk s → step s = .next t → ClaimsOk t

/-- R83, R85: no step gives a sign two entries, or an entry beside its transaction in flight. -/
def Obligations.TransmitListStaysOnePerSign : Prop := ∀ s t, LineOk s.line → step s = .next t → LineOk t.line

/-- R31: every step leaves each gate's sub-phase, pause, hold-off and fault reason present exactly as its state says, and
its travel within the timeout and 0 at rest. -/
def Obligations.GateRecordsStayConsistent : Prop := ∀ s t, GatesOk s → step s = .next t → GatesOk t

/-- R1, R11 to R19: every step leaves each segment's phase, level, marks, countdown and demand as its state says. -/
def Obligations.SegmentRecordsStayConsistent : Prop := ∀ s t, SegmentsOk s → step s = .next t → SegmentsOk t

/-- R7, R8: after every step each segment's level, urgency and deciding claim are those of its claims as they stand. -/
def Obligations.LevelsFollowTheClaims : Prop := ∀ s t, LevelsOk s → step s = .next t → LevelsOk t

/-- R39: after every step a gate is RAISING only while its segment is REOPENING with sweep confirmed. -/
def Obligations.ArmsRiseOnlyBehindASweep : Prop := ∀ s t, RoadOk s → step s = .next t → RoadOk t

/-- R64: after every step each valid slot has the class that the priority map gives its origin. -/
def Obligations.SlotClassesFollowTheMap : Prop := ∀ s t, ClassesOk s → step s = .next t → ClassesOk t

/-! ### Resets, loads and RELOAD -/

/-- R159, R175, R183: POWER_ON, PIN_RESET and LOW_SUPPLY hold every record at its reset value, with no notice queued and
every output off. The cause of a supply lost altogether is POWER_ON; that of a pin asserted during a LOW_SUPPLY reset is
LOW_SUPPLY. That a supply found low while a reset holds the part leaves the cause of that reset is the model's choice
(notes/assumptions/5.md). The present inputs and the queue lie outside the records. The load report before a load, the queue
and the free values drawn are the model's (notes/assumptions/7.md, 12.md, 33.md). -/
def Obligations.ResetsHoldEveryRecord : Prop :=
  ∀ (s : State) (c : Instr) (cause : ResetCause),
    (c = .powerOn ∧ cause = .powerOn) ∨ (c = .pinReset ∧ s.held = none ∧ cause = .pin) ∨
      (c = .pinReset ∧ s.held = some .lowSupply ∧ cause = .lowSupply) ∨
      (c = .lowSupply ∧ s.held = none ∧ cause = .lowSupply) ∨
      (c = .lowSupply ∧ s.held = some cause ∧ (cause = .powerOn ∨ cause = .pin ∨ cause = .lowSupply)) →
    ∃ t, exec c s = .next t ∧ t.held = some cause ∧ t.loader = { State.reset.loader with cause := cause } ∧
      (∀ m, (t.port m).notices = [] ∧ t.attention m = false) ∧ (∀ l, t.output l = false) ∧ t.chargeEnable = false ∧
      t.scan.converting = none ∧ t.pending = s.pending ∧ t.drawn = s.drawn ∧ t.scan.lines = s.scan.lines ∧
      Frame [.reset, .loader, .notices, .waiting, .drawn, .inputs, .round] State.reset t

/-- R113, R177, R183: at the end of a reset the clock starts from 0 in LOADING with the cause of the reset, RESTARTED is
queued at each port, each input line takes its present input as its level, and every other record is at its reset value,
the load report before a load and the queue being the model's (notes/assumptions/7.md, 12.md). -/
def Obligations.ResetEndBeginsLoading : Prop :=
  ∀ (s : State) (cause : ResetCause), s.held = some cause →
    ∃ t, exec .resetEnd s = .next t ∧ t.held = none ∧ t.loader = { State.reset.loader with cause := cause } ∧
      (∀ m, (t.port m).notices = [restartedNotice cause 0] ∧ t.attention m = true) ∧
      t.scan.lines = s.scan.lines.map (fun x => { x with level := x.present, stability := none }) ∧
      t.pending = s.pending ∧ t.drawn = s.drawn ∧
      Frame [.reset, .loader, .notices, .waiting, .drawn, .inputs] State.reset t

/-- R178, R182, R186: a load that gives no description ends in NO_CORRIDOR, with no segment, claim, gate, sign, path or
channel below 28, the maps at their defaults, the default power parameters taken, their capacity in force at once, the
account held to it and every output off; and so ends a load whose header holds a byte of which three reads fail. That the hazard period stays and what
the report holds after a load cut short are the model's choice (notes/assumptions/12.md, 23.md), and how the other
parameters stand until the next end of a round is its reading of R146 (notes/assumptions/39.md). -/
def Obligations.FaultyDescriptionEndsInNoCorridor : Prop :=
  (∀ (s : State) (image : List MemCell), s.held = none → s.loader.state = .loading →
    (loadImage image).description = none →
    ∃ t, exec (.descriptionLoadEnd image) s = .next t ∧
      t.loader = { s.loader with state := .noCorridor, report := (loadImage image).report } ∧
      t.segs.records = [] ∧ t.segs.claims = [] ∧ t.segs.authority = defaultAuthority ∧ t.gates = [] ∧
      t.line.signs = [] ∧ t.line.entries = [] ∧ t.line.inFlight = none ∧ t.hazard.paths = [] ∧
      t.store.priority = defaultPriority ∧ (∀ c < 28, t.channel? c = none) ∧
      (∀ c < 32, 28 ≤ c → t.channel? c = s.channel? c) ∧ t.power.taken = defaultParams ∧ t.power.takenFromGroup = false ∧
      t.power.params = { s.power.params with capacity := 200000 } ∧ t.power.fromGroup = s.power.fromGroup ∧
      t.power.reserve = 0 ∧
      t.power.account = Nat.min s.power.account 200000 ∧ (∀ l, t.output l = false) ∧
      Frame [.records, .claims, .authority, .gates, .priority, .tops, .signs, .transmit, .line, .channels, .paths,
        .parameters, .account, .reserve, .mode, .notices, .overflow, .transfers, .loader] s t) ∧
  ∀ (image : List MemCell) (i : Nat) (c : MemCell), i < 14 → image[i]? = some c → 3 ≤ c.nacks →
    (loadImage image).description = none ∧ (loadImage image).report.firstFaulty = 1

/-- R20, R53, R98, R138, R146, R154, R182, R184: a load that gives a description ends in READY or DEGRADED with every block's
records derived from it and from the input lines. A path whose trip line stands asserted is latched RELEASE and holds a CLOSE
urgent claim on each segment it affects; such a segment is CLOSING in phase LOWERING, or CLOSED when no gate of it is left to
lower, its UP gates lowering or STOPPED by the obstruction, and SEGMENT_STATE is raised. Only SEGMENT_STATE and GATE_STATE
are raised, and with no such path no notice. Of the power parameters taken the capacity is in force at once, the others from
the next end of a round (the model's reading of R146, notes/assumptions/39.md). -/
def Obligations.DescriptionDerivesTheCorridor : Prop :=
  ∀ (s : State) (image : List MemCell) (d : Description), s.held = none → s.loader.state = .loading →
    (loadImage image).description = some d →
    ∃ t, exec (.descriptionLoadEnd image) s = .next t ∧
      t.loader = { s.loader with
        state := if (loadImage image).degraded then .degraded else .ready, report := (loadImage image).report } ∧
      t.segs.authority = d.authority.getD defaultAuthority ∧ t.store.priority = d.priority.getD defaultPriority ∧
      t.power.taken = d.power.getD defaultParams ∧ t.power.takenFromGroup = d.power.isSome ∧
      t.power.params = { s.power.params with capacity := (d.power.getD defaultParams).capacity } ∧
      t.power.fromGroup = s.power.fromGroup ∧
      (s.loader.cause ≠ .reload → t.power.account = t.power.params.capacity / 2 ∧ t.power.remainder = 0) ∧
      (s.loader.cause = .reload → t.power.account = Nat.min s.power.account t.power.params.capacity) ∧
      t.power.reserve = closureReserve t.gates ∧
      t.hazard.paths = d.paths.map (fun p => { p.newRecord with latch := if Tripped s p then .release else .clear }) ∧
      t.hazard.period = d.period ∧
      (∀ c, c ∈ t.segs.claims ↔ ∃ n p, d.paths[n]? = some p ∧ Tripped s p = true ∧ c.segment ∈ p.segments ∧
        c = { segment := c.segment, holder := .hazard n, level := .close, urgent := true, reason := 2, since := s.now,
              start := none, endsAt := none, link := none, pending := false }) ∧
      t.gates.length = d.gates.length ∧
      (∀ (g : Nat) (c : GateConfig), d.gates[g]? = some c → ∃ x, t.gates[g]? = some x ∧ x.cfg = c ∧ x.raiseHeld = false ∧
        x.holdOff = none ∧
        ((∀ (k : Nat) (y : SegmentConfig), d.segments[k]? = some y → g ∈ y.gates → ¬ Struck s d k) →
          (x.state, x.reason) = Standing s c ∧ x.travel = 0 ∧ x.sub = none) ∧
        (∀ (k : Nat) (y : SegmentConfig), d.segments[k]? = some y → g ∈ y.gates → Struck s d k →
          x.demand = .lower ∧ x.flashing = true ∧
          ((Standing s c).1 ≠ .up → (x.state, x.reason) = Standing s c ∧ x.travel = 0 ∧ x.sub = none) ∧
          ((Standing s c).1 = .up → x.travel = c.timeout ∧ x.reason = none ∧
            (s.asserted c.obstructionLine = true → x.state = .stopped ∧ x.sub = none) ∧
            (s.asserted c.obstructionLine = false → x.state = .lowering ∧ x.sub = some .driving)))) ∧
      t.segs.records.length = d.segments.length ∧
      (∀ (k : Nat) (c : SegmentConfig), d.segments[k]? = some c → ∃ x, t.segs.records[k]? = some x ∧ x.cfg = c ∧
        x.since = s.now ∧ FollowsClaims t k x ∧
        (¬ Struck s d k → x.level = .noLevel ∧
          ((x.state = .reopening ∧ x.demand = .hold) ∨ (x.state = .opened ∧ x.demand = .noDemand)) ∧
          (x.state = .reopening ↔ ∃ g ∈ c.gates, ∃ y, d.gates[g]? = some y ∧
            ((Standing s y).1 = .down ∨ Standing s y = (.fault, some .positionUnknown)))) ∧
        (Struck s d k → x.level = .close ∧ x.urgent = true ∧ x.unwarned = false ∧ x.demand = .lower ∧
          ((x.state = .closing ∧ x.phase = some .lowering) ∨ x.state = .closed) ∧
          (x.state = .closed ↔ t.loweringDone c.gates = true) ∧
          ∀ m, (s.port m).admits .segmentState = true →
            ((t.port m).overflow = true ∧ 16 ≤ (t.port m).notices.length) ∨
              ∃ n ∈ (t.port m).notices, n.kind = .segmentState ∧ n.object = k)) ∧
      t.line.signs.map (·.cfg) = d.signs ∧ (∀ x ∈ t.line.signs, x.state = .unknown ∧ x.ack = none) ∧
      (∀ k < d.signs.length, ∃ e ∈ t.line.entries, e.sign = k) ∧
      (∀ m, ∀ n ∈ (t.port m).notices, n ∈ (s.port m).notices ∨ n.kind = .segmentState ∨ n.kind = .gateState) ∧
      ((∀ p ∈ d.paths, Tripped s p = false) → Frame derivedParts s t) ∧ Frame (derivedParts ++ noticeParts) s t

/-- R176, R185: RELOAD from CENTRE. In LOADING it is refused WRONG_STATE; with a gate travelling or halted or a segment
CLOSING it is refused BUSY; otherwise it empties every notice queue but for RESTARTED, clears claims, segments, paths,
slots, signs and the sign line, turns the lamps off, and keeps the rest. The load report at the start of the load is the
model's choice (notes/assumptions/24.md). -/
def Obligations.ReloadClearsTheCorridor : Prop :=
  ∀ (s : State) (r : Request) (rest : List Request), Waits s .centre .reload r rest →
    (s.loader.state = .loading →
      ∃ t, exec (.reload .centre) s = .next t ∧ Finishes s t .centre rest (refusalOf r .wrongState) []) ∧
    (s.described = true → s.busy = true →
      ∃ t, exec (.reload .centre) s = .next t ∧ Finishes s t .centre rest (refusalOf r .busy) []) ∧
    (s.loader.state ≠ .loading → (s.described = true → s.busy = false) →
      ∃ t, exec (.reload .centre) s = .next t ∧
        t.loader = { state := .loading, cause := .reload, report := emptyReport } ∧
        (∀ m, (t.port m).notices = [restartedNotice .reload s.now] ∧ (t.port m).overflow = false) ∧
        t.segs.records = [] ∧ t.segs.claims = [] ∧ t.hazard.paths = [] ∧ t.store.tops = [] ∧
        (∀ (n : Nat) (x : Slot), s.store.slots[n]? = some x →
          t.store.slots[n]? = some {
            content := none, generation := if x.content = none then x.generation else (x.generation + 1) % 256,
            posted := none }) ∧
        t.line.signs = [] ∧ t.line.entries = [] ∧ t.line.inFlight = none ∧ t.line.state = .up ∧ t.line.errors = 0 ∧
        t.line.recovery = none ∧ (∀ x ∈ t.gates, x.flashing = false) ∧
        t.gates.map (fun x => { x with flashing := false, lampOn := false, lampLeft := 0 }) =
          s.gates.map (fun x => { x with flashing := false, lampOn := false, lampLeft := 0 }) ∧
        t.scan.converting = s.scan.converting.map (fun c => Nat.max c 28) ∧
        t.scan.roundStart = s.scan.roundStart ∧ t.scan.nextRound = s.scan.nextRound ∧
        Finishes s t .centre rest (okTo r []) [.records, .claims, .gates, .slots, .tops, .signs, .transmit, .line,
          .round, .paths, .notices, .overflow, .transfers, .loader])

/-! ### The ports -/

/-- R166, 10.1: a request frame with its check, whatever padding follows it, is read back as the request it carries. -/
def Obligations.RequestFramesReadBack : Prop :=
  ∀ (r : Request) (padding : List Byte), r.body.length ≤ 24 → parseIncoming (requestFrame r ++ padding) = .request r

/-- R164, R168: a transfer sends the oldest DONE response, or the EMPTY status frame, with a header formed at its start;
nothing else changes. -/
def Obligations.TransferStartSendsTheOldestResponse : Prop :=
  ∀ (s : State) (m : Master), s.held = none → (s.port m).transfer = none →
    ∃ t x, exec (.transferStart m) s = .next t ∧ (t.port m).transfer = some x ∧
      (∀ a rest, (s.port m).done = a :: rest → x.response = true ∧
        x.frame = responseFrame a (8 - ((s.port m).queued.length + (s.port m).done.length)) (s.port m).notices.length
          (s.port m).overrun (s.port m).overflow s.loader.state) ∧
      ((s.port m).done = [] → x.response = false ∧
        x.frame = responseFrame { tag := 0#8, code := .empty, body := [] } (8 - (s.port m).queued.length)
          (s.port m).notices.length (s.port m).overrun (s.port m).overflow s.loader.state) ∧
      (∀ n, n ≠ m → t.port n = s.port n) ∧ Frame [.transfers] s t

/-- R164, R166, R168: at the end of a transfer a response that went out whole empties its slot; then a null frame adds
nothing, any other frame at a full port sets the overrun mark, a bad frame is answered BAD_FRAME, and a request is QUEUED.
A frame that went out whole clears each mark its header carried, the overrun mark unless the incoming frame sets it again,
the overflow mark unless it was set again during the transfer; a frame cut short clears neither. That a transfer sends as
many bytes as it takes in is the model's reading (notes/assumptions/22.md). -/
def Obligations.TransferEndTakesTheFrame : Prop :=
  ∀ (s : State) (m : Master) (x : Transfer) (bytes : List Byte) (done : List Response), s.held = none →
    (s.port m).transfer = some x →
    done = (if x.response = true ∧ x.frame.length ≤ bytes.length then (s.port m).done.tail else (s.port m).done) →
    ∃ t, exec (.transferEnd m bytes) s = .next t ∧ (t.port m).transfer = none ∧
      (bytes.head? = some 0#8 → (t.port m).queued = (s.port m).queued ∧ (t.port m).done = done) ∧
      (bytes.head? ≠ some 0#8 → 8 ≤ (s.port m).queued.length + done.length →
        (t.port m).queued = (s.port m).queued ∧ (t.port m).done = done ∧ (t.port m).overrun = true) ∧
      (∀ tag, parseIncoming bytes = .bad tag → (s.port m).queued.length + done.length < 8 →
        (t.port m).queued = (s.port m).queued ∧
          (t.port m).done = done ++ [{ tag := tag, code := .badFrame, body := [] }]) ∧
      (∀ r, parseIncoming bytes = .request r → (s.port m).queued.length + done.length < 8 →
        (t.port m).queued = (s.port m).queued ++ [r] ∧ (t.port m).done = done) ∧
      ((t.port m).overrun = true ↔
        (bytes.head? ≠ some 0#8 ∧ 8 ≤ (s.port m).queued.length + done.length) ∨
          ((s.port m).overrun = true ∧ ¬ (x.overrun = true ∧ x.frame.length ≤ bytes.length))) ∧
      (t.port m).overflow =
        (if x.overflow = true ∧ x.frame.length ≤ bytes.length then x.overflowAgain else (s.port m).overflow) ∧
      (∀ n, n ≠ m → t.port n = s.port n) ∧ Frame [.queued, .done, .overrun, .overflow, .transfers] s t

/-- R167: the port block's own checks. A code the part does not know is answered UNKNOWN_COMMAND; without a description
every command but the five is answered NOT_READY; a body length the command does not take is answered BAD_ARG. -/
def Obligations.PortBlockRefusesFirst : Prop :=
  (∀ (s : State) (m : Master) (r : Request) (rest : List Request), s.held = none → (s.port m).queued = r :: rest →
    commandOfCode r.code = none →
    ∃ t, exec (.unknownCommand m) s = .next t ∧ Finishes s t m rest (refusalOf r .unknownCommand) []) ∧
  (∀ (s : State) (m : Master) (c : Command) (r : Request) (rest : List Request), s.held = none →
    (s.port m).queued = r :: rest → commandOfCode r.code = some c → s.described = false →
    c ∉ [Command.status, .fetchNotice, .setNoticeMask, .resetPort, .reload] →
    ∃ t, exec (c.row m r.body) s = .next t ∧ Finishes s t m rest (refusalOf r .notReady) []) ∧
  (∀ (s : State) (m : Master) (c : Command) (r : Request) (rest : List Request), s.held = none →
    (s.port m).queued = r :: rest → commandOfCode r.code = some c → s.described = true → c.takesLength r.body = false →
    ∃ t, exec (c.row m r.body) s = .next t ∧ Finishes s t m rest (refusalOf r .badArg) [])

/-- R171, 10.3: STATUS answers 30 bytes: the part state, cause, mode and clock, and for each port its EMPTY, QUEUED and
DONE slots and its notices as they stand once the STATUS itself is DONE. -/
def Obligations.StatusCountsThePorts : Prop :=
  ∀ (s : State) (m : Master) (r : Request) (rest : List Request), Waits s m .status r rest →
    s.loader.report.outcomes.length = 9 →
    ∃ t body, exec (.status m) s = .next t ∧ Finishes s t m rest (okTo r body) [] ∧ body.length = 30 ∧
      body.take 7 = [byteOf s.loader.state.code, byteOf s.loader.cause.code, byteOf s.power.mode.code] ++ bytes4 s.now ∧
      (∀ (i : Nat) (n : Master), [Master.centre, .slope, .crew][i]? = some n →
        (body.drop (7 + 4 * i)).take 4 = [byteOf (t.port n).free, byteOf (t.port n).queued.length,
          byteOf (t.port n).done.length, byteOf (t.port n).notices.length]) ∧
      body.drop 19 = s.loader.report.outcomes.map (fun o => byteOf o.code) ++
        [byteOf s.loader.report.firstFaulty, byteOf s.loader.report.fault.code]

/-- R172: FETCH NOTICE removes and returns the oldest notice with the number left, or says that there is none. -/
def Obligations.FetchNoticeTakesTheOldest : Prop :=
  ∀ (s : State) (m : Master) (r : Request) (rest : List Request), Waits s m .fetchNotice r rest →
    ((s.port m).notices = [] →
      ∃ t, exec (.fetchNotice m) s = .next t ∧
        Finishes s t m rest (okTo r (List.replicate 13 0#8 ++ [byteOf (markCode (s.port m).overflow), 0#8])) []) ∧
    (∀ n more, (s.port m).notices = n :: more →
      ∃ t, exec (.fetchNotice m) s = .next t ∧ (t.port m).notices = more ∧
        (∀ k, k ≠ m → (t.port k).notices = (s.port k).notices) ∧
        Finishes s t m rest
          (okTo r ([1#8] ++ noticeBytes n (s.port m).overflow ++ [byteOf more.length])) [.notices])

/-- R173, R174: SET NOTICE MASK replaces the sender's mask, a kind outside the 14 being refused; RESET PORT cuts off the
commands behind it with NOT_READY, empties the queue, admits all kinds and keeps the overrun mark; no other port changes. -/
def Obligations.PortsTakeAMaskAndAReset : Prop :=
  (∀ (s : State) (m : Master) (r : Request) (rest : List Request), Waits s m .setNoticeMask r rest →
    (read2 r.body 0 < 16384 →
      ∃ t, exec (.setNoticeMask m) s = .next t ∧ (t.port m).mask = BitVec.ofNat 16 (read2 r.body 0) ∧
        (∀ k, k ≠ m → t.port k = s.port k) ∧ Finishes s t m rest (okTo r []) [.masks]) ∧
    (16384 ≤ read2 r.body 0 →
      ∃ t, exec (.setNoticeMask m) s = .next t ∧ Finishes s t m rest (refusalOf r .badArg) [])) ∧
  (∀ (s : State) (m : Master) (r : Request) (rest : List Request), Waits s m .resetPort r rest →
    ∃ t, exec (.resetPort m) s = .next t ∧ (t.port m).queued = [] ∧
      (t.port m).done = (s.port m).done ++ rest.map (fun q => refusalOf q .notReady) ++ [okTo r []] ∧
      (t.port m).notices = [] ∧ t.attention m = false ∧ (∀ k : NoticeKind, (t.port m).admits k = true) ∧
      (t.port m).overflow = false ∧ (t.port m).overrun = (s.port m).overrun ∧ (∀ k, k ≠ m → t.port k = s.port k) ∧
      Frame [.queued, .done, .notices, .masks, .overflow, .transfers] s t)

/-- R169: how a port takes a notice raised for it: masked out, updated in place, dropped at a full queue, or queued at the
tail; the other ports are as they were. -/
def Obligations.NoticesUpdateJoinOrDrop : Prop :=
  ∀ (s : State) (m : Master) (n : Notice),
    ((s.port m).admits n.kind = false → (s.tell m n).port m = s.port m) ∧
    ((s.port m).admits n.kind = true → (∃ e ∈ (s.port m).notices, e.kind = n.kind ∧ e.object = n.object) →
      ((s.tell m n).port m).notices =
        (s.port m).notices.map (fun e => if e.kind = n.kind ∧ e.object = n.object then n else e) ∧
      ((s.tell m n).port m).overflow = (s.port m).overflow) ∧
    ((s.port m).admits n.kind = true → (∀ e ∈ (s.port m).notices, ¬ (e.kind = n.kind ∧ e.object = n.object)) →
      ((s.port m).notices.length < 16 → ((s.tell m n).port m).notices = (s.port m).notices ++ [n] ∧
        ((s.tell m n).port m).overflow = (s.port m).overflow) ∧
      (16 ≤ (s.port m).notices.length → ((s.tell m n).port m).notices = (s.port m).notices ∧
        ((s.tell m n).port m).overflow = true)) ∧
    (∀ k, k ≠ m → (s.tell m n).port k = s.port k)

/-- R170: the attention line of a port is asserted exactly while its queue holds an entry and no reset holds the part; it
is released in a reset and asserted when RESTARTED is queued after it. -/
def Obligations.AttentionFollowsTheQueue : Prop :=
  (∀ (s : State) (m : Master), s.held = none → (s.attention m = true ↔ (s.port m).notices ≠ [])) ∧
  (∀ (s : State) (m : Master) (cause : ResetCause), s.held = some cause →
    s.attention m = false ∧ ∃ t, exec .resetEnd s = .next t ∧ t.attention m = true) ∧
  (∀ (s : State) (m : Master) (n : Notice), s.held = none → (s.port m).notices = [] → (s.port m).admits n.kind = true →
    s.attention m = false ∧ (s.tell m n).attention m = true) ∧
  (∀ (s : State) (m : Master) (r : Request) (rest : List Request) (n : Notice), Waits s m .fetchNotice r rest →
    (s.port m).notices = [n] → ∃ t, exec (.fetchNotice m) s = .next t ∧ t.attention m = false) ∧
  (∀ (s : State) (m : Master) (r : Request) (rest : List Request), Waits s m .resetPort r rest →
    ∃ t, exec (.resetPort m) s = .next t ∧ t.attention m = false) ∧
  (∀ (s : State) (m : Master) (r : Request) (rest : List Request), Waits s .centre .reload r rest →
    s.loader.state ≠ .loading → (s.described = true → s.busy = false) →
    ∃ t, exec (.reload .centre) s = .next t ∧ t.attention m = true)

/-! ### Reading records -/

/-- R21, R54, R99, R116, R139, R161, 10.3: a read answers the body of its layout, of the length the layout gives, formed
from the record as it stands, and changes nothing. What the bodies hold for fields the layouts leave open is the model's
choice (notes/assumptions/19.md). -/
def Obligations.ReadsAnswerTheRecord : Prop :=
  (∀ (s : State) (m : Master) (r : Request) (rest : List Request) (x : Segment), Waits s m .readSegment r rest →
    s.segs.records[read1 r.body 0]? = some x →
    ∃ t, exec (.readSegment m) s = .next t ∧
      Finishes s t m rest (okTo r (s.segmentBody (read1 r.body 0) x)) [] ∧
      (s.segmentBody (read1 r.body 0) x).length = 26 + 19 * (s.claimsOf (read1 r.body 0)).length) ∧
  (∀ (s : State) (m : Master) (r : Request) (rest : List Request) (x : Gate), Waits s m .readGate r rest →
    s.gates[read1 r.body 0]? = some x →
    ∃ t, exec (.readGate m) s = .next t ∧ Finishes s t m rest (okTo r (s.gateBody (read1 r.body 0) x)) [] ∧
      (s.gateBody (read1 r.body 0) x).length = 28) ∧
  (∀ (s : State) (m : Master) (r : Request) (rest : List Request) (x : Sign), Waits s m .readSign r rest →
    s.line.signs[read1 r.body 0]? = some x →
    ∃ t, exec (.readSign m) s = .next t ∧ Finishes s t m rest (okTo r (s.signBody (read1 r.body 0) x)) [] ∧
      (s.signBody (read1 r.body 0) x).length = 50) ∧
  (∀ (s : State) (m : Master) (r : Request) (rest : List Request) (x : Channel), Waits s m .readChannel r rest →
    s.channel? (read1 r.body 0) = some x →
    ∃ t, exec (.readChannel m) s = .next t ∧ Finishes s t m rest (okTo r (channelBody (read1 r.body 0) x)) [] ∧
      (channelBody (read1 r.body 0) x).length = 48) ∧
  (∀ (s : State) (m : Master) (r : Request) (rest : List Request) (x : Path), Waits s m .readPath r rest →
    s.hazard.paths[read1 r.body 0]? = some x →
    ∃ t, exec (.readPath m) s = .next t ∧ Finishes s t m rest (okTo r (s.pathBody (read1 r.body 0) x)) [] ∧
      (s.pathBody (read1 r.body 0) x).length = 74) ∧
  (∀ (s : State) (m : Master) (r : Request) (rest : List Request), Waits s m .readPower r rest →
    ∃ t, exec (.readPower m) s = .next t ∧ Finishes s t m rest (okTo r s.powerBody) [] ∧ s.powerBody.length = 82)

/-- R1, R31, R81, R116, R119: a read that names a record that is not described is refused BAD_ARG. -/
def Obligations.ReadsRefuseWhatIsNotDescribed : Prop :=
  ∀ (s : State) (m : Master) (c : Command) (r : Request) (rest : List Request), Waits s m c r rest →
    (c = .readSegment ∧ s.segs.records[read1 r.body 0]? = none) ∨ (c = .readGate ∧ s.gates[read1 r.body 0]? = none) ∨
      (c = .readSign ∧ s.line.signs[read1 r.body 0]? = none) ∨
      (c = .readChannel ∧ s.channel? (read1 r.body 0) = none) ∨
      (c = .readPath ∧ s.hazard.paths[read1 r.body 0]? = none) →
    ∃ t, exec (c.row m r.body) s = .next t ∧ Finishes s t m rest (refusalOf r .badArg) []

/-! ### Segments and claims -/

/-- R3, R5, R6, R22 to R24: an accepted PLACE CLAIM places the sender's claim at the tail, or changes the claim it holds:
at the tail with since now when its counted level rises, in its place otherwise. The linked slot records the segment, and
the segment follows its claims, its state and phase moving by R11 to R18 (`Recomputed`). -/
def Obligations.PlaceClaimPlacesOrChanges : Prop :=
  ∀ (s : State) (m : Master) (r : Request) (rest : List Request) (a : PlaceArgs), Waits s m .placeClaim r rest →
    parsePlace r.body = some a → s.segs.records[a.segment]? ≠ none →
    s.hasRight a.segment m (levelRight a.level) = true →
    (∀ n, a.link = some n → s.linkAllowed m a.segment n = true) →
    ∃ t, exec (.placeClaim m) s = .next t ∧
      (s.claim? a.segment (.master m) = none → t.segs.claims = s.segs.claims ++ [a.claim m s.now s.now]) ∧
      (∀ c, s.claim? a.segment (.master m) = some c →
        (c.counted.code < (a.claim m s.now s.now).counted.code →
          t.segs.claims = s.segs.claims.filter (fun d => !d.isOf a.segment (.master m)) ++ [a.claim m s.now s.now]) ∧
        ((a.claim m s.now s.now).counted.code ≤ c.counted.code →
          t.segs.claims =
            s.segs.claims.map (fun d => if d.isOf a.segment (.master m) then a.claim m s.now c.since else d))) ∧
      (∀ n, a.link = some n → ((t.store.slots[n]?).bind (·.posted)).map (·.link) = some (some a.segment)) ∧
      SegmentFollows s t a.segment ∧
      Finishes s t m rest (okTo r []) (.claims :: roadParts)

/-- R6, R25, R29: an accepted RELEASE CLAIM removes the claim of the named master and nothing else of the claims but
links, ends its linked slot, and raises CLAIM_ENDED with cause OVERRIDDEN at the holder's port and CENTRE's when the holder
is not the sender. The segment follows its claims, its state and phase moving by R11 to R18 (`Recomputed`). -/
def Obligations.ReleaseClaimRemovesTheClaim : Prop :=
  ∀ (s : State) (m h : Master) (r : Request) (rest : List Request) (k : Nat) (c : Claim),
    Waits s m .releaseClaim r rest → k = read1 r.body 0 → s.segs.records[k]? ≠ none →
    masterOfCode (read1 r.body 1) = some h → (m = h ∨ s.hasRight k m overrideRight = true) →
    s.claim? k (.master h) = some c →
    ∃ t, exec (.releaseClaim m) s = .next t ∧ t.claim? k (.master h) = none ∧
      unlinked t.segs.claims = unlinked (s.segs.claims.filter (fun d => !d.isOf k (.master h))) ∧
      (∀ n p, c.link = some n → s.postedIn n = some p → t.postedIn n = none) ∧
      SegmentFollows s t k ∧
      (m ≠ h → ∀ n, n = h ∨ n = .centre →
        Told s t n .claimEnded k (packed 0 (masterCode h)) (packed 0 c.reason) (packed 0 1)) ∧
      Finishes s t m rest (okTo r []) (.claims :: roadParts)

/-- R18, R26, R38, R57, R158: CONFIRM SWEEP on a REOPENING segment confirms its sweep with demand RAISE. The reopening
completes at once, by its level, exactly when every gate of the list is UP or in MANUAL at AT_UP. Otherwise the first gate
of the list, when it is DOWN, is raised if the mode is NORMAL or ECONOMY and the account less its raise and lower costs
covers the reserve, and else stays DOWN with GATE_HELD, no list naming a gate twice (R180). A sweep already confirmed changes
nothing. -/
def Obligations.ConfirmSweepRaisesOrCompletes : Prop :=
  ∀ (s : State) (m : Master) (r : Request) (rest : List Request) (k : Nat) (x : Segment),
    Waits s m .confirmSweep r rest → k = read1 r.body 0 → s.segs.records[k]? = some x →
    s.hasRight k m sweepRight = true → x.state = .reopening →
    (x.swept = true → ∃ t, exec (.confirmSweep m) s = .next t ∧ Finishes s t m rest (okTo r []) []) ∧
    (x.swept = false → ∃ t y, exec (.confirmSweep m) s = .next t ∧ t.segs.records[k]? = some y ∧ y.level = x.level ∧
      ((y.state = .reopening ∧ y.swept = true ∧ y.demand = .raise) ∨
        (y.state = (if x.level = .chains then .restricted else .opened) ∧ y.swept = false ∧ y.demand = .noDemand)) ∧
      (x.demand = .hold →
        (y.state ≠ .reopening ↔ ∀ g ∈ x.cfg.gates, ∀ z, s.gates[g]? = some z →
          z.state = .up ∨ (z.state = .manual ∧ z.position = .atUp))) ∧
      (∀ (g : Nat) (more : List Nat) (z : Gate), x.demand = .hold → x.cfg.gates = g :: more → g ∉ more → s.gates[g]? = some z →
        z.state = .down → ∃ w, t.gates[g]? = some w ∧
          ((s.power.mode = .normal ∨ s.power.mode = .economy) ∧
              s.power.reserve + z.cfg.raiseCost + z.cfg.lowerCost ≤ s.power.account →
            w.state = .raising ∧ w.travel = z.cfg.timeout ∧ w.raiseHeld = false) ∧
          (¬ ((s.power.mode = .normal ∨ s.power.mode = .economy) ∧
              s.power.reserve + z.cfg.raiseCost + z.cfg.lowerCost ≤ s.power.account) →
            w.state = .down ∧ (z.raiseHeld = false → ∀ n, Told s t n .gateHeld g (value16 z.cfg.segment)
              (packed 0 s.power.mode.code) (value16 ((z.cfg.raiseCost + z.cfg.lowerCost : Nat) : Int))))) ∧
      Finishes s t m rest (okTo r []) roadParts)

/-- R27: SET AUTHORITY from CENTRE replaces the rights of one segment and master; every other entry stays. -/
def Obligations.SetAuthorityReplacesOneEntry : Prop :=
  ∀ (s : State) (r : Request) (rest : List Request) (k : Nat) (x : Master), Waits s .centre .setAuthority r rest →
    k = read1 r.body 0 → s.segs.records[k]? ≠ none → masterOfCode (read1 r.body 1) = some x → read1 r.body 2 < 32 →
    3 * k + masterCode x < s.segs.authority.length →
    ∃ t, exec (.setAuthority .centre) s = .next t ∧
      (∀ right < 5, t.hasRight k x right = (byteAt r.body 2).getLsbD right) ∧
      (∀ (j : Nat) (y : Master) (right : Nat), ¬ (j = k ∧ y = x) → t.hasRight j y right = s.hasRight j y right) ∧
      Finishes s t .centre rest (okTo r []) [.authority]

/-- R9, R22, R25 to R27, R55, R77 to R79, R100, R117, R140 to R143, R185: a sender without the right a command calls for is
refused NO_RIGHT, and nothing changes. -/
def Obligations.SendersWithoutRightAreRefused : Prop :=
  ∀ (s : State) (m : Master) (c : Command) (r : Request) (rest : List Request), Waits s m c r rest →
    (m ≠ .centre ∧ c ∈ [Command.setAuthority, .setPriorityMap, .setClock, .setSign, .reload]) ∨
      (m ≠ .slope ∧ c ∈ [Command.reportDetection, .setPathFloor, .seedPath]) ∨ (m ≠ .crew ∧ c = .resetGate) ∨
      (c = .placeClaim ∧ ∃ a, parsePlace r.body = some a ∧ s.segs.records[a.segment]? ≠ none ∧
        s.hasRight a.segment m (levelRight a.level) = false) ∨
      (c = .releaseClaim ∧ s.segs.records[read1 r.body 0]? ≠ none ∧
        (read1 r.body 1 = 3 ∨ ∃ h, masterOfCode (read1 r.body 1) = some h ∧ h ≠ m ∧
          s.hasRight (read1 r.body 0) m overrideRight = false)) ∨
      (c = .confirmSweep ∧ s.segs.records[read1 r.body 0]? ≠ none ∧ s.hasRight (read1 r.body 0) m sweepRight = false) ∨
      (c = .withdrawMessage ∧ 32 ≤ read1 r.body 0 ∧ read1 r.body 0 ≤ 63 ∧
        ∃ p, s.postedIn (read1 r.body 0) = some p ∧ m ≠ p.owner ∧ m ≠ .centre) ∨
      (c = .submitObservation ∧ read1 r.body 0 < 28 ∧ read1 r.body 3 ≤ 1 ∧
        ∃ x feeder, s.channel? (read1 r.body 0) = some x ∧ x.desc.source = .remote feeder ∧ m ≠ feeder) ∨
      (c = .clearPath ∧ ∃ p, s.hazard.paths[read1 r.body 0]? = some p ∧ (m = .crew ∨
        (m = .centre ∧ ∃ k ∈ p.cfg.segments, s.hasRight k m overrideRight = false))) →
    ∃ t, exec (c.row m r.body) s = .next t ∧ Finishes s t m rest (refusalOf r .noRight) []

/-- R4 to R6, R29: the start of a pending claim makes it active, with since its start, at the tail. The end of a master's
claim removes it, ends its linked slot, and raises CLAIM_ENDED with cause EXPIRED at the holder's port and CENTRE's. Either
way its segment follows its claims, its state and phase moving by R11 to R18 (`Recomputed`). -/
def Obligations.ClaimTimersStartAndEndClaims : Prop :=
  (∀ (s : State) (k : Nat) (h : Holder) (c : Claim) (start : Nat), Running s → s.claim? k h = some c →
    c.start = some start → c.pending = true → start ≤ s.now →
    ∃ t, exec (.claimStart k h) s = .next t ∧
      t.segs.claims = s.segs.claims.filter (fun d => !d.isOf k h) ++ [{ c with pending := false, since := start }] ∧
      SegmentFollows s t k ∧
      Frame (.claims :: roadParts) s t) ∧
  (∀ (s : State) (k : Nat) (h : Master) (c : Claim) (last : Nat), Running s → s.claim? k (.master h) = some c →
    c.endsAt = some last → last ≤ s.now →
    ∃ t, exec (.claimExpiry k (.master h)) s = .next t ∧ t.claim? k (.master h) = none ∧
      unlinked t.segs.claims = unlinked (s.segs.claims.filter (fun d => !d.isOf k (.master h))) ∧
      (∀ n p, c.link = some n → s.postedIn n = some p → t.postedIn n = none) ∧
      SegmentFollows s t k ∧
      (∀ n, n = h ∨ n = .centre →
        Told s t n .claimEnded k (packed 0 (masterCode h)) (packed 0 c.reason) (packed 0 0)) ∧
      Frame (.claims :: roadParts) s t)

/-- R12, R13, R16, R30, R59, R61: the 60 s of CONFIRMING end in PREWARN, unwarned, with UNWARNED raised, or straight in
LOWERING when the interval is 0; a countdown at 0 ends in LOWERING with demand LOWER. LOWERING may have ended in CLOSED by
then. A new minute of PREWARN forms the slot of the segment alone: it shows the minutes remaining, rounded up, with the
deciding claim's reason, and its generation steps when that changes it. -/
def Obligations.ClosingPhasesRunOut : Prop :=
  (∀ (s : State) (k : Nat) (x : Segment) (due : Nat), Running s → s.segs.records[k]? = some x → x.state = .closing →
    x.phase = some .confirming → x.confirmDue = some due → due ≤ s.now →
    ∃ t y, exec (.confirmingExpiry k) s = .next t ∧ t.segs.records[k]? = some y ∧ y.unwarned = true ∧
      (x.remaining ≠ 0 → y.state = .closing ∧ y.phase = some .prewarn ∧ y.remaining = x.remaining) ∧
      (x.remaining = 0 → (y.state = .closing ∧ y.phase = some .lowering) ∨ y.state = .closed) ∧
      (∀ m, Told s t m .unwarned k (value16 x.cfg.approach.length) (value16 x.cfg.interval) 0#16) ∧
      Frame roadParts s t) ∧
  (∀ (s : State) (k : Nat) (x : Segment), Running s → s.segs.records[k]? = some x → x.state = .closing →
    x.phase = some .prewarn → x.remaining = 0 →
    ∃ t y, exec (.prewarnEnd k) s = .next t ∧ t.segs.records[k]? = some y ∧ y.demand = .lower ∧ y.remaining = 0 ∧
      ((y.state = .closing ∧ y.phase = some .lowering) ∨ y.state = .closed) ∧ Frame roadParts s t) ∧
  (∀ (s : State) (k : Nat) (x : Segment) (old : Slot), Running s → s.segs.records[k]? = some x → x.state = .closing →
    x.phase = some .prewarn → s.store.slots[k]? = some old →
    ∃ t y, exec (.prewarnMinuteChange k) s = .next t ∧ t.store.slots[k]? = some y ∧
      y.content = some { origin := 3, cls := s.classOf 3, catalogue := 4, params := [(((x.remaining + 59) / 60 : Nat) : Int),
        (((decidingClaim (s.claimsOf k)).map (·.reason)).getD 0 : Nat)] } ∧
      y.posted = old.posted ∧
      y.generation = (if y.content = old.content then old.generation else (old.generation + 1) % 256) ∧
      (∀ n, n ≠ k → t.store.slots[n]? = s.store.slots[n]?) ∧ Frame contentParts s t)

/-! ### Gates -/

/-- R35, R37, R38, R40, R55: RESET GATE from CREW takes a gate in FAULT at a limit to rest there, clears its reason and
applies its recorded demand; away from the limits it is refused WRONG_STATE. -/
def Obligations.ResetGateRestsAtTheLimit : Prop :=
  ∀ (s : State) (r : Request) (rest : List Request) (g : Nat) (x : Gate), Waits s .crew .resetGate r rest →
    g = read1 r.body 0 → s.gates[g]? = some x → x.state = .fault →
    (x.position = .atUp → ∃ t y, exec (.resetGate .crew) s = .next t ∧ t.gates[g]? = some y ∧ y.reason = none ∧
      (x.demand ≠ .lower → y.state = .up ∧ y.travel = 0) ∧
      (x.demand = .lower → (∀ z, s.segs.records[x.cfg.segment]? = some z → z.state ≠ .reopening) →
        y.travel = x.cfg.timeout ∧
        (s.asserted x.cfg.obstructionLine = true → y.state = .stopped ∧ y.holdOff = none) ∧
        (s.asserted x.cfg.obstructionLine = false → y.state = .lowering ∧ y.sub = some .driving)) ∧
      Finishes s t .crew rest (okTo r []) roadParts) ∧
    (x.position = .atDown → ∃ t y, exec (.resetGate .crew) s = .next t ∧ t.gates[g]? = some y ∧ y.reason = none ∧
      (x.demand ≠ .raise → y.state = .down ∧ y.travel = 0) ∧
      (x.demand = .raise → (y.state = .raising ∧ y.travel = x.cfg.timeout) ∨ (y.state = .down ∧ y.raiseHeld = true)) ∧
      Finishes s t .crew rest (okTo r []) roadParts) ∧
    (x.position = .between ∨ x.position = .conflict → ∃ t, exec (.resetGate .crew) s = .next t ∧
      Finishes s t .crew rest (refusalOf r .wrongState) [])

/-- R34, R43, R44, R48: the timers of a gate. Travel run out under drive gives FAULT TRAVEL_TIMEOUT; a pause run out ends at
DOWN, DRIVING or STOPPED; a hold-off run out resumes the lowering with the travel it was frozen at; half a flash run out
turns the lamp over. -/
def Obligations.GateTimersRunOut : Prop :=
  (∀ (s : State) (g : Nat) (x : Gate), Running s → s.gates[g]? = some x → x.lowerDrive = true ∨ x.raiseDrive = true →
    x.travel = 0 →
    ∃ t y, exec (.travelTimeout g) s = .next t ∧ t.gates[g]? = some y ∧ y.state = .fault ∧
      y.reason = some .travelTimeout ∧ y.travel = 0 ∧ y.lowerDrive = false ∧ y.raiseDrive = false ∧
      Frame roadParts s t) ∧
  (∀ (s : State) (g : Nat) (x : Gate), Running s → s.gates[g]? = some x → x.state = .lowering →
    x.sub = some .reversing → x.pause = some 0 →
    ∃ t y, exec (.reversalPauseEnd g) s = .next t ∧ t.gates[g]? = some y ∧
      (x.position = .atDown → x.demand ≠ .raise → y.state = .down ∧ y.travel = 0) ∧
      (x.position ≠ .atDown → y.travel = x.cfg.timeout ∧ y.pause = none ∧
        (s.asserted x.cfg.obstructionLine = true → y.state = .stopped ∧ y.holdOff = none) ∧
        (s.asserted x.cfg.obstructionLine = false → y.state = .lowering ∧ y.sub = some .driving)) ∧
      Frame roadParts s t) ∧
  (∀ (s : State) (g : Nat) (x : Gate), Running s → s.gates[g]? = some x → x.state = .stopped → x.holdOff = some 0 →
    ∃ t y, exec (.holdOffEnd g) s = .next t ∧ t.gates[g]? = some y ∧ y.state = .lowering ∧ y.sub = some .driving ∧
      y.travel = x.travel ∧ y.holdOff = none ∧ Frame roadParts s t) ∧
  (∀ (s : State) (g : Nat) (x : Gate), Running s → s.gates[g]? = some x → x.flashing = true → x.lampLeft = 0 →
    ∃ t, exec (.lampToggle g) s = .next t ∧
      t.gates = s.gates.set g { x with lampOn := !x.lampOn, lampLeft := 500 } ∧ Frame [.gates] s t)

/-- R113, R114: an edge of the present input starts the 40 ms of the line or cancels them; their end takes the present
input as the level; where no gate or path names the line, or no corridor is described, nothing else happens. -/
def Obligations.InputLinesAreDebounced : Prop :=
  (∀ (s : State) (l : Nat) (b : Bool) (x : InputLine), s.held = none → s.scan.lines[l]? = some x →
    ∃ t, exec (.inputEdge l b) s = .next t ∧ (x.present = b → t.scan.lines = s.scan.lines) ∧
      (x.present ≠ b → t.scan.lines = s.scan.lines.set l
        { present := b, level := x.level, stability := if b = x.level then none else some 40 }) ∧ Frame [.inputs] s t) ∧
  (∀ (s : State) (l : Nat) (x : InputLine), s.held = none → s.scan.lines[l]? = some x → x.stability = some 0 →
    s.described = false ∨ ((∀ y ∈ s.gates, l ∉ y.cfg.inputs) ∧ ∀ p ∈ s.hazard.paths, p.cfg.trip ≠ some l) →
    ∃ t, exec (.debounceExpiry l) s = .next t ∧
      t.scan.lines = s.scan.lines.set l { present := x.present, level := x.present, stability := none } ∧
      Frame [.inputs] s t)

/-- R32, R45 to R48, R50, R51: a taken change of a line that a gate names in one role. A limit change sets the position,
and by the state of the gate it ends the travel, gives FAULT, or is held as position only; the obstruction stops a lowering
arm with its travel frozen, and starts or cancels the hold-off of a stopped one; the key takes the gate to MANUAL, and its
release takes the state from the position. At rest the recorded demand is applied. -/
def Obligations.TakenLinesMoveTheGate : Prop :=
  ∀ (s : State) (l g : Nat) (z : InputLine) (x : Gate) (up down : Bool), Running s → s.scan.lines[l]? = some z →
    z.stability = some 0 → s.gates[g]? = some x → (∀ p ∈ s.hazard.paths, p.cfg.trip ≠ some l) →
    x.cfg.inputs.count l = 1 →
    up = (if x.cfg.upLine = l then z.present else s.asserted x.cfg.upLine) →
    down = (if x.cfg.downLine = l then z.present else s.asserted x.cfg.downLine) →
    ∃ t y, exec (.debounceExpiry l) s = .next t ∧ t.gates[g]? = some y ∧
      t.scan.lines = s.scan.lines.set l { present := z.present, level := z.present, stability := none } ∧
      (x.cfg.upLine = l ∨ x.cfg.downLine = l → y.position = positionOf up down ∧
        (x.state = .manual → y.state = .manual) ∧
        (x.state ≠ .manual → up = true → down = true → y.state = .fault ∧ y.reason = some .limitConflict) ∧
        (x.state ≠ .manual → x.state ≠ .fault → up = true → down = true →
          y.travel = 0 ∧ y.pause = none ∧ y.holdOff = none)) ∧
      (x.cfg.upLine = l → z.present = true → down = false →
        (x.state = .raising → x.demand ≠ .lower → y.state = .up ∧ y.travel = 0) ∧
        (x.state = .lowering → y.state = .fault ∧ y.reason = some .limitConflict) ∧
        (x.state = .up ∨ x.state = .down ∨ x.state = .stopped ∨ x.state = .fault →
          y.state = x.state ∧ y.reason = x.reason ∧ y.travel = x.travel ∧ y.holdOff = x.holdOff)) ∧
      (x.cfg.upLine = l → z.present = false →
        (x.state = .up → y.state = .fault ∧ y.reason = some .leftPosition) ∧
        (x.state ≠ .up → x.state ≠ .manual → y.state = x.state ∧ y.sub = x.sub ∧ y.reason = x.reason ∧
          y.travel = x.travel ∧ y.pause = x.pause ∧ y.holdOff = x.holdOff)) ∧
      (x.cfg.downLine = l → z.present = true → up = false →
        (x.state = .lowering ∨ x.state = .stopped → x.demand ≠ .raise → y.state = .down ∧ y.travel = 0 ∧
          y.pause = none ∧ y.holdOff = none) ∧
        (x.state = .raising → y.state = .fault ∧ y.reason = some .limitConflict) ∧
        (x.state = .up ∨ x.state = .down ∨ x.state = .fault →
          y.state = x.state ∧ y.reason = x.reason ∧ y.travel = x.travel)) ∧
      (x.cfg.downLine = l → z.present = false →
        (x.state = .down → y.state = .fault ∧ y.reason = some .leftPosition) ∧
        (x.state ≠ .down → x.state ≠ .manual → y.state = x.state ∧ y.sub = x.sub ∧ y.reason = x.reason ∧
          y.travel = x.travel ∧ y.pause = x.pause ∧ y.holdOff = x.holdOff)) ∧
      (x.cfg.obstructionLine = l →
        (x.lowerDrive = true → z.present = true → y.state = .stopped ∧ y.travel = x.travel ∧ y.holdOff = none) ∧
        (x.state = .stopped → y.state = .stopped ∧ y.travel = x.travel ∧
          y.holdOff = (if z.present then none else some 50)) ∧
        ((x.lowerDrive = false ∨ z.present = false) → x.state ≠ .stopped → y.state = x.state ∧ y.sub = x.sub ∧
          y.travel = x.travel ∧ y.pause = x.pause ∧ y.holdOff = x.holdOff)) ∧
      (x.cfg.keyLine = l → z.present = true → x.state ≠ .manual → y.state = .manual ∧ y.travel = 0 ∧ y.reason = none ∧
        y.raiseHeld = false ∧ y.lowerDrive = false ∧ y.raiseDrive = false) ∧
      (x.cfg.keyLine = l → z.present = true ∧ x.state = .manual ∨ z.present = false ∧ x.state ≠ .manual →
        y.state = x.state ∧ y.sub = x.sub ∧ y.travel = x.travel ∧ y.pause = x.pause ∧ y.holdOff = x.holdOff) ∧
      (x.cfg.keyLine = l → z.present = false → x.state = .manual →
        (x.position = .between ∨ x.position = .conflict → y.state = .fault ∧ y.reason = some .positionUnknown) ∧
        (x.position = .atUp → x.demand ≠ .lower → y.state = .up ∧ y.travel = 0) ∧
        (x.position = .atUp → x.demand = .lower → (∀ h w, s.gates[h]? = some w → h ≠ g → l ∉ w.cfg.inputs) →
          (∀ k, s.segs.records[x.cfg.segment]? = some k → k.state ≠ .reopening) → y.travel = x.cfg.timeout ∧
          (s.asserted x.cfg.obstructionLine = true → y.state = .stopped) ∧
          (s.asserted x.cfg.obstructionLine = false → y.state = .lowering ∧ y.sub = some .driving)) ∧
        (x.position = .atDown → x.demand ≠ .raise → y.state = .down ∧ y.travel = 0) ∧
        (x.position = .atDown → x.demand = .raise → (∀ h w, s.gates[h]? = some w → h ≠ g → l ∉ w.cfg.inputs) →
          (y.state = .raising ∧ y.travel = x.cfg.timeout) ∨ (y.state = .down ∧ y.raiseHeld = true))) ∧
      Frame (.inputs :: roadParts) s t

/-! ### Messages -/

/-- R66, R75, R76: POST MESSAGE takes the lowest-numbered invalid slot of the sender's range, which becomes valid with the
fields of the command and steps its generation, and answers the slot and the generation; a full range is refused POOL_FULL. -/
def Obligations.PostMessageTakesTheLowestSlot : Prop :=
  ∀ (s : State) (m : Master) (r : Request) (rest : List Request) (a : PostArgs), Waits s m .postMessage r rest →
    a = parsePost r.body → s.postOk a = true →
    ((∀ j, (postedRange m).1 ≤ j → j < (postedRange m).1 + (postedRange m).2 →
        ∃ x, s.store.slots[j]? = some x ∧ x.content ≠ none) →
      ∃ t, exec (.postMessage m) s = .next t ∧ Finishes s t m rest (refusalOf r .poolFull) []) ∧
    (∀ (n : Nat) (old : Slot), (postedRange m).1 ≤ n → n < (postedRange m).1 + (postedRange m).2 →
      s.store.slots[n]? = some old → old.content = none →
      (∀ j, (postedRange m).1 ≤ j → j < n → ∃ x, s.store.slots[j]? = some x ∧ x.content ≠ none) →
      ∃ t, exec (.postMessage m) s = .next t ∧
        t.store.slots[n]? = some {
          content := some {
            origin := if m = .crew then 15 else 7 + a.urgency,
            cls := s.classOf (if m = .crew then 15 else 7 + a.urgency), catalogue := a.catalogue, params := a.params },
          generation := (old.generation + 1) % 256,
          posted := some {
            owner := m, targets := a.targets, urgency := a.urgency,
            endsAt := a.duration.map (fun d => s.now + Nat.min d 604800), link := none } } ∧
        (∀ j, j ≠ n → t.store.slots[j]? = s.store.slots[j]?) ∧
        Finishes s t m rest (okTo r [byteOf n, byteOf ((old.generation + 1) % 256)]) contentParts)

/-- R6, R66, R67, R77, R80: a posted slot ends, by WITHDRAW MESSAGE from its owner or CENTRE or by its end: it becomes
invalid with a step of its generation, the claim it was linked to loses the link, and SLOT_ENDED goes to the owner unless
the owner withdrew it. -/
def Obligations.PostedSlotsEnd : Prop :=
  ∀ (s : State) (n : Nat) (x : Slot) (c : Content) (p : Posted), s.store.slots[n]? = some x → x.content = some c →
    x.posted = some p →
    (∀ (m : Master) (r : Request) (rest : List Request), Waits s m .withdrawMessage r rest → n = read1 r.body 0 →
      32 ≤ n → n ≤ 63 → m = p.owner ∨ m = .centre →
      ∃ t, exec (.withdrawMessage m) s = .next t ∧
        t.store.slots[n]? = some { content := none, generation := (x.generation + 1) % 256, posted := none } ∧
        t.segs.claims = s.segs.claims.map (fun d =>
          if p.link = some d.segment ∧ d.holder = .master p.owner then { d with link := none } else d) ∧
        (m ≠ p.owner → Told s t p.owner .slotEnded n (packed 0 2) (packed 0 c.catalogue)
          (value16 ((p.link.map Int.ofNat).getD 32767))) ∧
        (m = p.owner → ∀ k, (t.port k).notices = (s.port k).notices) ∧
        Finishes s t m rest (okTo r []) (.claims :: contentParts ++ noticeParts)) ∧
    (∀ last, Running s → p.endsAt = some last → last ≤ s.now →
      ∃ t, exec (.slotExpiry n) s = .next t ∧
        t.store.slots[n]? = some { content := none, generation := (x.generation + 1) % 256, posted := none } ∧
        t.segs.claims = s.segs.claims.map (fun d =>
          if p.link = some d.segment ∧ d.holder = .master p.owner then { d with link := none } else d) ∧
        Told s t p.owner .slotEnded n (packed 0 0) (packed 0 c.catalogue)
          (value16 ((p.link.map Int.ofNat).getD 32767)) ∧
        Frame (.claims :: contentParts ++ noticeParts) s t)

/-- R65, R78: SET PRIORITY MAP from CENTRE writes each entry in order but for origins 3 and 4; every valid slot takes the
class of its origin, stepping its generation when that changes it. -/
def Obligations.PriorityMapReclassesTheSlots : Prop :=
  ∀ (s : State) (r : Request) (rest : List Request), Waits s .centre .setPriorityMap r rest →
    (∀ e ∈ parsePriority r.body, e.2 ≤ 3) →
    ∃ t, exec (.setPriorityMap .centre) s = .next t ∧ t.store.priority.length = s.store.priority.length ∧
      t.store.priority[3]? = s.store.priority[3]? ∧ t.store.priority[4]? = s.store.priority[4]? ∧
      (∀ o, (∀ e ∈ parsePriority r.body, e.1 ≠ o) → t.store.priority[o]? = s.store.priority[o]?) ∧
      (∀ before o c after, parsePriority r.body = before ++ (o, c) :: after → (∀ e ∈ after, e.1 ≠ o) → o ≠ 3 → o ≠ 4 →
        o < s.store.priority.length → t.store.priority[o]? = some c) ∧
      (∀ (n : Nat) (x : Slot), s.store.slots[n]? = some x → ∃ y, t.store.slots[n]? = some y ∧ y.posted = x.posted ∧
        y.content = x.content.map (fun c => { c with cls := t.classOf c.origin }) ∧
        y.generation = (if y.content = x.content then x.generation else (x.generation + 1) % 256)) ∧
      Finishes s t .centre rest (okTo r []) (.priority :: contentParts)

/-- R68, R79: SET CLOCK from CENTRE sets the display clock, which then runs with the corridor clock modulo 1440, and forms
anew every segment slot that shows CLOSURE SCHEDULED; a minute above 1439 is refused. -/
def Obligations.SetClockSetsTheDisplay : Prop :=
  ∀ (s : State) (r : Request) (rest : List Request) (minute : Nat), Waits s .centre .setClock r rest →
    minute = read2 r.body 0 →
    (1440 ≤ minute → ∃ t, exec (.setClock .centre) s = .next t ∧ Finishes s t .centre rest (refusalOf r .badArg) []) ∧
    (minute < 1440 → ∃ t, exec (.setClock .centre) s = .next t ∧
      (∀ later, s.now ≤ later →
        ({ t.clocks with seconds := later } : Clocks).minute = some ((minute + (later - s.now) / 60) % 1440)) ∧
      (∀ (k : Nat) (x : Segment) (y : Slot) (c : Content), s.segs.records[k]? = some x → s.store.slots[k]? = some y →
        y.content = some c → c.catalogue = 6 → ∃ z, t.store.slots[k]? = some z ∧ z.content = t.segmentContent k x) ∧
      Finishes s t .centre rest (okTo r []) (.display :: contentParts))

/-! ### Signs -/

/-- R100 to R102: SET SIGN from CENTRE. A disable sets disable pending and asks for a final BLANK, held while a transaction
is in flight; an enable takes a DISABLED sign to UNKNOWN and asks for a PROBE, which a sign without an entry gets as a new
entry; an enable of a sign with disable pending is refused; what the sign already is changes nothing. That the attempts are
set to 0 only with no transaction in flight, and which row refuses an enable byte above 1, is the model's choice
(notes/assumptions/16.md, 17.md). -/
def Obligations.SetSignDisablesAndEnables : Prop :=
  ∀ (s : State) (r : Request) (rest : List Request) (k : Nat) (x : Sign), Waits s .centre .setSign r rest →
    k = read1 r.body 0 → s.line.signs[k]? = some x →
    (read1 r.body 1 = 0 → x.disablePending = false → x.state ≠ .disabled →
      ∃ t y, exec (.setSignDisable .centre) s = .next t ∧ t.line.signs[k]? = some y ∧ y.disablePending = true ∧
        y.state = x.state ∧ y.refreshDue = none ∧ y.probeDue = none ∧
        (s.inFlightFor k = false → y.attempts = 0 ∧ ∃ e ∈ t.line.entries, e.sign = k ∧ e.reason = .blank) ∧
        (s.inFlightFor k = true → ∃ w, t.line.inFlight = some w ∧ w.held = some .blank) ∧
        Finishes s t .centre rest (okTo r []) [.signs, .transmit]) ∧
    (read1 r.body 1 = 1 → x.disablePending = false → x.state = .disabled →
      ∃ t y, exec (.setSignEnable .centre) s = .next t ∧ t.line.signs[k]? = some y ∧ y.state = .unknown ∧
        y.lampFault = false ∧ y.heaterFault = false ∧ y.doorOpen = false ∧ y.refused = false ∧ y.attempts = 0 ∧
        y.lastAck = none ∧ y.refreshDue = none ∧ y.probeDue = none ∧ y.ack = x.ack ∧ (∀ m, (s.port m).admits .signState = true →
          ((t.port m).overflow = true ∧ 16 ≤ (t.port m).notices.length) ∨
            ∃ n ∈ (t.port m).notices, n.kind = .signState ∧ n.object = k) ∧
        (s.inFlightFor k = false → (∃ e ∈ t.line.entries, e.sign = k) ∧
          ((∀ e ∈ s.line.entries, e.sign ≠ k) → ∃ e, t.line.entries = s.line.entries ++ [e] ∧ e.sign = k ∧
            e.reason = .probe ∧ e.time = s.now)) ∧
        Finishes s t .centre rest (okTo r []) ([.signs, .transmit] ++ noticeParts)) ∧
    (read1 r.body 1 = 1 → x.disablePending = true →
      ∃ t, exec (.setSignEnable .centre) s = .next t ∧ Finishes s t .centre rest (refusalOf r .wrongState) []) ∧
    (read1 r.body 1 = 0 → x.disablePending = true ∨ x.state = .disabled →
      ∃ t, exec (.setSignDisable .centre) s = .next t ∧ Finishes s t .centre rest (okTo r []) []) ∧
    (read1 r.body 1 = 1 → x.disablePending = false → x.state ≠ .disabled →
      ∃ t, exec (.setSignEnable .centre) s = .next t ∧ Finishes s t .centre rest (okTo r []) []) ∧
    (1 < read1 r.body 1 →
      ∃ t, exec (.setSignDisable .centre) s = .next t ∧ Finishes s t .centre rest (refusalOf r .badArg) [])

/-- R84 to R87, R188: with the line UP and no transaction in flight, the entry that stands first by class, request time and
order leaves the list and its transaction opens with the exchange its reason and the sign's top record call for; the bytes
of its message sum to 0. When the last byte has gone out, the reply window of 30 ms opens. -/
def Obligations.TransactionsOpenAndSend : Prop :=
  (∀ (s : State) (e : Entry) (x : Sign), Running s → s.line.state = .up → s.line.inFlight = none →
    s.headEntry s.line.entries = some e → s.line.signs[e.sign]? = some x →
    ∃ t w, exec .transactionStart s = .next t ∧ t.line.inFlight = some w ∧ w.entry = e ∧ w.held = none ∧
      e ∈ s.line.entries ∧ (∀ d ∈ s.line.entries, s.entryBefore d e = false) ∧
      t.line.entries = s.line.entries.filter (fun d => d.sign != e.sign) ∧
      (e.reason = .probe → w.op = .probe) ∧ (e.reason = .blank → w.op = .blank ∧ w.noted = none) ∧
      (e.reason = .change ∨ e.reason = .refresh → w.noted = s.notedContent e.sign ∧
        w.op = (match w.noted with
          | none => .blank
          | some a => .show a.cls a.catalogue a.params)) ∧
      w.message.take 2 = [0xC5#8, byteOf x.cfg.address] ∧ sumBytes w.message = 0#8 ∧ Frame [.transmit] s t) ∧
  (∀ (s : State) (w : InFlight), Running s → s.line.inFlight = some w → w.exchange = .sending →
    ∃ t, exec .messageSent s = .next t ∧ t.line.inFlight = some { w with exchange := .window 30 } ∧
      t.line.entries = s.line.entries ∧ Frame [.transmit] s t)

/-- R12, R82, R88, R89, R95, R101: an ACK within the window writes the acknowledged content, the health marks, the state they
give and the last ACK, sets refresh due from it by the mode, ends the transaction and lowers the error count; the ACK of a
PROBE enters CHANGE and is not reported; any other takes each CONFIRMING segment for which the sign now warns to PREWARN,
or with no interval on to LOWERING, with unwarned no; the final BLANK of a disable ends in DISABLED. That the ACK of a later
fallback clears content refused is the model's choice (notes/assumptions/46.md). -/
def Obligations.AckWritesTheSignRecord : Prop :=
  ∀ (s : State) (bytes : List Byte) (w : InFlight) (left : Nat) (x : Sign) (lamp heater door : Bool), Running s →
    s.line.inFlight = some w → w.exchange = .window left → s.line.signs[w.entry.sign]? = some x →
    5 ≤ bytes.length → parseReply x.cfg.address bytes = .ack lamp heater door →
    ∃ t y, exec (.replyReceived bytes) s = .next t ∧ t.line.signs[w.entry.sign]? = some y ∧
      t.line.inFlight = none ∧ t.line.errors = s.line.errors - 1 ∧ t.line.state = s.line.state ∧
      y.ack = w.acknowledged x.ack ∧ y.lampFault = lamp ∧ y.heaterFault = heater ∧ y.doorOpen = door ∧
      y.refused = (w.stage == .final) ∧ y.attempts = 0 ∧ y.lastAck = some s.now ∧ y.probeDue = none ∧
      (w.finalBlank = false → y.disablePending = x.disablePending ∧
        y.state = (if lamp || heater || door || (w.stage == .final) then .degraded else .online)) ∧
      (w.finalBlank = true → y.state = .disabled ∧ y.disablePending = false) ∧ y.cfg = x.cfg ∧
      (w.finalBlank = true ∨ x.disablePending = true → y.refreshDue = none) ∧
      (w.finalBlank = false → x.disablePending = false → y.refreshDue =
        (if t.power.mode = .normal then some (s.now + 60)
          else if t.power.mode = .reserve ∧ x.cfg.kind = .weather then none else some (s.now + 120))) ∧
      (w.op = .probe → t.segs.records = s.segs.records) ∧
      (w.op ≠ .probe → RoadOk s → ∀ (k : Nat) (z : Segment), s.segs.records[k]? = some z →
        ∃ z', t.segs.records[k]? = some z' ∧
          (z.state = .closing ∧ z.phase = some .confirming ∧ w.entry.sign ∈ z.cfg.approach ∧ Warns s k y →
            z'.unwarned = false ∧ (z.remaining = 0 → EntersLowering t z z') ∧
            (z.remaining ≠ 0 → z'.state = .closing ∧ z'.phase = some .prewarn ∧ z'.remaining = z.remaining)) ∧
          (¬ (z.state = .closing ∧ z.phase = some .confirming ∧ w.entry.sign ∈ z.cfg.approach ∧ Warns s k y) → z' = z)) ∧
      (w.op = .probe → w.finalBlank = false → x.disablePending = false →
        ∃ e ∈ t.line.entries, e.sign = w.entry.sign ∧ e.reason = .change) ∧
      Frame (.line :: roadParts) s t

/-- R85, R89 to R91, R93: a reply window that runs out, a bad reply, a NAK BUSY and a NAK of the content of a BLANK or PROBE
count a failed attempt: the first two return the entry, the third makes the sign UNREACHABLE, to be probed in 60 s; a NAK lowers the error count. A NAK of the
content of a SHOW continues the transaction with the fallback of its class, and then with a final BLANK. An echo mismatch
returns the entry, counts no attempt, and raises the error count by 8, the line going DOWN for 10 s at 128. -/
def Obligations.FailedExchangesReturnTheEntry : Prop :=
  (∀ (s : State) (w : InFlight) (x : Sign) (c : Instr) (left errors : Nat), Running s → s.line.inFlight = some w →
    w.exchange = .window left → w.finalBlank = false → s.line.signs[w.entry.sign]? = some x → x.disablePending = false →
    (c = .replyTimeout ∧ left = 0 ∧ errors = s.line.errors) ∨
      (∃ bytes, c = .replyReceived bytes ∧ 5 ≤ bytes.length ∧
        ((parseReply x.cfg.address bytes = .bad ∧ errors = s.line.errors) ∨
          (parseReply x.cfg.address bytes = .nakBusy ∧ errors = s.line.errors - 1) ∨
          (parseReply x.cfg.address bytes = .nakContent ∧ (w.op = .blank ∨ w.op = .probe) ∧
            errors = s.line.errors - 1))) →
    (x.attempts < 2 → ∃ t, exec c s = .next t ∧ t.line.inFlight = none ∧ t.line.errors = errors ∧
      t.line.state = s.line.state ∧ t.line.recovery = s.line.recovery ∧
      t.line.signs = s.line.signs.set w.entry.sign { x with attempts := x.attempts + 1 } ∧
      t.line.entries = s.line.entries ++ [{ w.entry with reason := mergeHeld w.entry.reason w.held }] ∧
      Frame [.signs, .transmit, .line] s t) ∧
    (2 ≤ x.attempts → ∃ t, exec c s = .next t ∧ t.line.inFlight = none ∧ t.line.errors = errors ∧
      t.line.state = s.line.state ∧ t.line.recovery = s.line.recovery ∧
      t.line.signs = s.line.signs.set w.entry.sign
        { x with state := .unreachable, attempts := 0, refreshDue := none, probeDue := some (s.now + 60) } ∧
      t.line.entries = s.line.entries ∧ Frame ([.signs, .transmit, .line] ++ noticeParts) s t)) ∧
  (∀ (s : State) (w : InFlight) (x : Sign) (bytes : List Byte) (left cls catalogue : Nat) (params : List Int), Running s →
    s.line.inFlight = some w → w.exchange = .window left → s.line.signs[w.entry.sign]? = some x → 5 ≤ bytes.length →
    parseReply x.cfg.address bytes = .nakContent → w.op = .show cls catalogue params →
    ∃ t v, exec (.replyReceived bytes) s = .next t ∧ t.line.inFlight = some v ∧
      v = { w with
        stage := if w.stage = .first then .fallback else .final, op := v.op,
        message := messageBytes x.cfg.address v.op, exchange := .idle 2 } ∧
      v.op = (if w.stage = .first then
          (match cls with
            | 3 => .show 3 5 []
            | 2 => .show 2 3 []
            | 1 => .show 1 1 []
            | _ => .blank)
        else .blank) ∧
      t.line.entries = s.line.entries ∧ t.line.made = s.line.made ∧ Frame [.transmit] s t) ∧
  (∀ (s : State) (w : InFlight) (x : Sign), Running s → s.line.inFlight = some w → w.exchange = .sending →
    s.line.signs[w.entry.sign]? = some x → x.disablePending = false →
    ∃ t, exec .echoMismatch s = .next t ∧ t.line.inFlight = none ∧ t.line.signs = s.line.signs ∧
      t.line.entries = s.line.entries ++ [{ w.entry with reason := mergeHeld w.entry.reason w.held }] ∧
      t.line.errors = Nat.min 255 (s.line.errors + 8) ∧
      (s.line.errors + 8 < 128 → t.line.state = s.line.state ∧ t.line.recovery = s.line.recovery ∧
        Frame [.transmit, .line] s t) ∧
      (128 ≤ s.line.errors + 8 → t.line.state = .down ∧ t.line.recovery = some (s.now + 10) ∧
        Frame ([.transmit, .line] ++ noticeParts) s t))

/-- R92, R94, R95: a refresh due, a probe due and the recovery of the line enter their requests: the refresh due becomes
absent, the next probe is 60 s on, and the line is UP with count 0 and an entry for every sign that takes requests. -/
def Obligations.SignTimersEnterRequests : Prop :=
  (∀ (s : State) (k : Nat) (x : Sign) (due : Nat), Running s → s.line.signs[k]? = some x → x.refreshDue = some due →
    due ≤ s.now → x.takesRequests = true → s.inFlightFor k = false →
    ∃ t, exec (.refreshDue k) s = .next t ∧ t.line.signs = s.line.signs.set k { x with refreshDue := none } ∧
      (∃ e ∈ t.line.entries, e.sign = k) ∧
      ((∀ e ∈ s.line.entries, e.sign ≠ k) → ∃ e, t.line.entries = s.line.entries ++ [e] ∧ e.sign = k ∧
        e.reason = .refresh ∧ e.time = s.now) ∧ Frame [.signs, .transmit] s t) ∧
  (∀ (s : State) (k : Nat) (x : Sign) (due : Nat), Running s → s.line.signs[k]? = some x → x.probeDue = some due →
    due ≤ s.now → x.takesRequests = true → s.inFlightFor k = false →
    ∃ t, exec (.probeDue k) s = .next t ∧ t.line.signs = s.line.signs.set k { x with probeDue := some (due + 60) } ∧
      (∃ e ∈ t.line.entries, e.sign = k) ∧
      ((∀ e ∈ s.line.entries, e.sign ≠ k) → ∃ e, t.line.entries = s.line.entries ++ [e] ∧ e.sign = k ∧
        e.reason = .probe ∧ e.time = s.now) ∧ Frame [.signs, .transmit] s t) ∧
  (∀ (s : State) (due : Nat), Running s → s.line.recovery = some due → due ≤ s.now →
    ∃ t, exec .lineRecovery s = .next t ∧ t.line.state = .up ∧ t.line.errors = 0 ∧ t.line.recovery = none ∧
      (∀ (k : Nat) (x : Sign), s.line.signs[k]? = some x → x.takesRequests = true → s.inFlightFor k = false →
        ∃ e ∈ t.line.entries, e.sign = k) ∧
      Frame ([.transmit, .line] ++ noticeParts) s t)

/-! ### Channels -/

/-- R110, R111, R112, R117: SUBMIT OBSERVATION from the feeding master records the clamped value and its flag, sets the
silence timer and takes the reading: a value within the range and not suspect makes the channel GOOD; any other makes a
GOOD channel HELD and a third in a run FAILED. The answer carries the quality and value. -/
def Obligations.SubmissionsAreTaken : Prop :=
  ∀ (s : State) (m : Master) (r : Request) (rest : List Request) (c : Nat) (x : Channel) (v w : Int),
    Waits s m .submitObservation r rest → c = read1 r.body 0 → c < 28 → s.channel? c = some x →
    x.desc.source = .remote m → read1 r.body 3 ≤ 1 → x.desc.lo ≤ x.desc.hi →
    v = (if x.desc.kind = .windDir ∧ readInt2 r.body 1 = 360 then 0 else readInt2 r.body 1) →
    w = max x.desc.lo (min x.desc.hi v) →
    ∃ t y, exec (.submitObservation m) s = .next t ∧ t.channel? c = some y ∧ y.desc = x.desc ∧
      y.submission = some { value := w, suspect := read1 r.body 3 == 1, clamped := decide (w ≠ v), time := s.now } ∧
      y.silenceFrom = some s.now ∧ y.lastReading = some s.now ∧
      (w = v → read1 r.body 3 = 0 → y.quality = .good ∧ y.value = some v ∧ y.badCount = 0) ∧
      (w ≠ v ∨ read1 r.body 3 = 1 → y.value = x.value ∧
        (x.quality = .good → y.quality = .held ∧ y.badCount = 1 ∧ y.heldSince = some s.now) ∧
        (x.quality = .held ∨ x.quality = .never →
          (x.badCount < 2 → y.quality = x.quality ∧ y.badCount = x.badCount + 1) ∧
          (2 ≤ x.badCount → y.quality = .failed ∧ y.cause = some .badCount)) ∧
        (x.quality = .failed → y.quality = .failed)) ∧
      (∀ d, d ≠ c → t.channel? d = s.channel? d) ∧
      Finishes s t m rest (okTo r (bytes1 y.quality.code ++ opt2 y.value)) (.channels :: contentParts ++ noticeParts)

/-- R107 to R110: a round starts at its fixed start with the first channel that takes part; the result of the channel in
hand, its conversions averaged, scaled and compared with its range, is taken, and the next channel that takes part follows. -/
def Obligations.ScanRoundsConvertInOrder : Prop :=
  (∀ (s : State) (start : Nat), s.held = none → s.scan.converting = none → s.scan.nextRound = some start →
    start ≤ s.now →
    ∃ t, exec .scanRoundStart s = .next t ∧ t.scan.roundStart = start ∧ t.scan.nextRound = none ∧
      (∀ c, t.scan.converting = some c → s.converts c = true ∧ ∀ j < c, s.converts j = false) ∧
      (t.scan.converting = none → ∀ j < 32, s.converts j = false) ∧ Frame [.round] s t) ∧
  (∀ (s : State) (raws : List Raw) (c n : Nat) (x : Channel) (input : Option Nat) (span offset v : Int) (count raw : Nat),
    s.held = none → s.scan.converting = some c → s.channel? c = some x →
    x.desc.source = .wired input span offset count → count ≤ raws.length →
    c < n → n < 32 → s.converts n = true → (∀ j, c < j → j < n → s.converts j = false) →
    raw = ((raws.take count).map BitVec.toNat).sum / count → v = scaledValue x.desc.kind span offset raw →
    ∃ t y, exec (.channelConversionDone raws) s = .next t ∧ t.channel? c = some y ∧ t.scan.converting = some n ∧
      y.lastRaw = some raw ∧ y.lastReading = some s.now ∧
      (x.desc.lo ≤ v ∧ v ≤ x.desc.hi → y.quality = .good ∧ y.value = some v ∧ y.badCount = 0) ∧
      (¬ (x.desc.lo ≤ v ∧ v ≤ x.desc.hi) → y.quality ≠ .good ∧ y.value = x.value) ∧
      (∀ d, d ≠ c → t.channel? d = s.channel? d) ∧ Frame ([.channels, .round] ++ contentParts ++ noticeParts) s t)

/-- R146, R148 to R153, R189: an update of the power controller. The parameters last taken come into force; the account is
carried forward, its quotient rounded down; the charge state makes at most one move; entry to FLOAT sets the account full,
and a sagging battery lowers it to a tenth; the targets are compensated with the quotient cut toward zero; the set-point
and charge-enable follow the charge state, and the set-point word is sent. A and R are the account and remainder as carried,
B and Q as an entry to FLOAT leaves them. That the parameters come into force whole at this moment, but for the capacity,
is the model's reading of R146 (notes/assumptions/39.md). -/
def Obligations.ChargeFollowsTheReadings : Prop :=
  ∀ (p : Power) (r : PowerReadings) (now A R B Q : Nat) (a tc : Int) (u : Power) (q : PowerParams),
    u = p.update r now → q = p.taken → a = p.account + (p.remainder + r.current * ((now : Int) - p.updated)) / 3600 →
    (A, R) = (if a < 0 then (0, 0) else if (q.capacity : Int) < a then (q.capacity, 0)
      else (a.toNat, ((p.remainder + r.current * ((now : Int) - p.updated)) % 3600).toNat)) →
    (B, Q) = (if u.charge = .float ∧ p.charge ≠ .float then (q.capacity, 0) else (A, R)) →
    tc = (match r.temperature with
      | none => 250
      | some t => max (-200) (min 450 t)) →
    u.params = q ∧ u.fromGroup = p.takenFromGroup ∧ u.updated = now ∧
      (u.account, u.remainder) =
        (if r.voltage < 22000 ∧ r.current < 0 ∧ q.capacity / 10 < B then (q.capacity / 10, 0) else (B, Q)) ∧
      (r.source < r.voltage + 500 → u.charge = .noSource) ∧
      (r.voltage + 500 ≤ r.source →
        (∀ t, r.temperature = some t → t < q.coldLockout ∨ (q.hotLockout : Int) < t → u.charge = .lockout) ∧
        ((∀ t, r.temperature = some t → q.coldLockout ≤ t ∧ t ≤ q.hotLockout) →
          (p.charge = .noSource ∨ p.charge = .lockout →
            u.charge = if r.voltage < q.recoverThreshold then .recover else .bulk) ∧
          (p.charge = .recover → u.charge = if (q.recoverThreshold : Int) ≤ r.voltage then .bulk else .recover) ∧
          (p.charge = .bulk → (p.targets = none →
              u.charge = if (q.absorbVoltage : Int) ≤ r.voltage then .absorb else .bulk) ∧
            (∀ x, p.targets = some x → u.charge = if x.absorb ≤ r.voltage then .absorb else .bulk)) ∧
          (p.charge = .absorb → (r.current < q.cutoffCurrent → u.charge = .float) ∧
            (∀ since, p.absorbSince = some since → 0 < q.absorbLimit →
              ((q.absorbLimit : Int) ≤ (now : Int) - since → u.charge = .float) ∧
              ((q.cutoffCurrent : Int) ≤ r.current → (now : Int) - since < q.absorbLimit → u.charge = .absorb))) ∧
          (p.charge = .float → u.charge = if r.voltage < q.rebulkThreshold then .bulk else .float))) ∧
      (u.charge = p.charge → u.entered = p.entered ∧ u.absorbSince = p.absorbSince) ∧
      (u.charge ≠ p.charge → u.entered = now ∧ u.absorbSince = (if u.charge = .absorb then some now else none)) ∧
      u.targets = some {
        absorb := q.absorbVoltage + (q.coefficient * (tc - 250)).tdiv 10,
        float := q.floatVoltage + (q.coefficient * (tc - 250)).tdiv 10,
        temperature := tc, substitute := r.temperature.isNone } ∧
      (u.charge = .noSource ∨ u.charge = .lockout → u.enable = false ∧ u.target = p.target ∧ u.limit = p.limit) ∧
      (u.charge = .recover ∨ u.charge = .bulk ∨ u.charge = .absorb → u.enable = true ∧
        u.target = q.absorbVoltage + (q.coefficient * (tc - 250)).tdiv 10 ∧
        u.limit = (if u.charge = .recover then q.recoverCurrent else q.bulkCurrent)) ∧
      (u.charge = .float → u.enable = true ∧
        u.target = q.floatVoltage + (q.coefficient * (tc - 250)).tdiv 10 ∧ u.limit = q.bulkCurrent) ∧
      (∃ check, u.word = some (bytes2 u.target ++ bytes2 u.limit ++ [check]) ∧
        sumBytes (bytes2 u.target ++ bytes2 u.limit ++ [check]) = 0#8) ∧
      u.taken = p.taken ∧ u.takenFromGroup = p.takenFromGroup ∧ u.reserve = p.reserve ∧ u.mode = p.mode

/-- R41, R108, R109, R147, R156, R158: the result of the last channel of a round ends it: the power controller makes its
update from the results as they then stand, the mode moves at most one step by its rule, the next round is fixed from that
mode, and the gates held are asked again: the lowest-numbered one, when it is DOWN, is raised if the mode is NORMAL or
ECONOMY and the account less its raise and lower costs covers the reserve, and else stays DOWN. What the update does is
stated in ChargeFollowsTheReadings. That it is made at the corridor time of the last result is the model's reading
(DEDUCED, notes/assumptions/25.md). -/
def Obligations.RoundEndUpdatesThePower : Prop :=
  ∀ (s : State) (raws : List Raw) (c : Nat) (x : Channel) (input : Option Nat) (span offset : Int) (count : Nat)
    (u : State) (p : Power), s.held = none → s.scan.converting = some c → s.channel? c = some x →
    x.desc.source = .wired input span offset count → count ≤ raws.length →
    (∀ j, c < j → j < 32 → s.converts j = false) →
    u = s.publish c (x.convert raws span offset count s.now) x.quality → p = s.power.update u.powerReadings s.now →
    ∃ t, exec (.channelConversionDone raws) s = .next t ∧ t.scan.converting = none ∧
      t.channel? c = some (x.convert raws span offset count s.now) ∧
      u.powerReadings = {
        voltage := (t.reading 28).getD 0, current := (t.reading 29).getD 0, source := (t.reading 31).getD 0,
        temperature := t.reading 30 } ∧
      { t.power with reserve := s.power.reserve, mode := s.power.mode } = p ∧
      t.scan.nextRound = some (s.scan.roundStart + (match p.nextMode with
        | .normal => 10
        | .economy => 30
        | .reserve => 60)) ∧
      (∀ h : Int, h = (p.account : Int) - p.reserve →
        (p.mode = .normal →
          p.nextMode = if h < (p.params.capacity * p.params.economyPercent / 100 : Nat) then .economy else .normal) ∧
        (p.mode = .economy →
          p.nextMode = if h < (p.params.capacity * p.params.reservePercent / 100 : Nat) then .reserve
            else if (p.params.capacity * p.params.economyPercent / 100 + p.params.capacity * 5 / 100 : Nat) ≤ h then .normal
            else .economy) ∧
        (p.mode = .reserve →
          p.nextMode = if (p.params.capacity * p.params.reservePercent / 100 + p.params.capacity * 5 / 100 : Nat) ≤ h
            then .economy else .reserve)) ∧
      (s.described = false → t.power.mode = p.nextMode) ∧
      (s.described = true → ∀ (g : Nat) (y : Gate), s.gates[g]? = some y → y.state = .down → y.raiseHeld = true →
        y.demand = .raise → (∀ j < g, ∀ z, s.gates[j]? = some z → ¬ (z.raiseHeld = true ∧ z.demand = .raise)) →
        ∃ z, t.gates[g]? = some z ∧
          ((p.nextMode = .normal ∨ p.nextMode = .economy) ∧
              p.reserve + y.cfg.raiseCost + y.cfg.lowerCost ≤ p.account →
            z.state = .raising ∧ z.travel = y.cfg.timeout) ∧
          (¬ ((p.nextMode = .normal ∨ p.nextMode = .economy) ∧
              p.reserve + y.cfg.raiseCost + y.cfg.lowerCost ≤ p.account) → z.state = .down)) ∧
      (∀ d, d ≠ c → t.channel? d = s.channel? d) ∧
      Frame ([.channels, .round, .parameters, .charge, .account] ++ roadParts) s t

/-- R111: the hold-age timer takes a HELD channel to FAILED, cause HOLD_AGE, and the silence timer a channel that is not
FAILED to FAILED, cause NO_SUBMISSION; the value and bad count are kept. -/
def Obligations.ChannelTimersFailTheChannel : Prop :=
  ∀ (s : State) (c : Nat) (x : Channel) (start : Nat), s.held = none → s.described = true ∨ 28 ≤ c →
    s.channel? c = some x → start + x.desc.holdLimit ≤ s.now →
    (x.heldSince = some start → x.quality = .held →
      ∃ t, exec (.holdAgeExpiry c) s = .next t ∧
        t.channel? c = some { x with quality := .failed, cause := some .holdAge, heldSince := none } ∧
        (∀ m, Told s t m .channelState c (packed 3 2) (value16 (x.value.getD 32767)) (packed 0 x.badCount)) ∧
        (∀ d, d ≠ c → t.channel? d = s.channel? d) ∧ Frame (.channels :: contentParts ++ noticeParts) s t) ∧
    (x.silenceFrom = some start → x.quality ≠ .failed →
      ∃ t, exec (.silenceExpiry c) s = .next t ∧
        t.channel? c = some { x with quality := .failed, cause := some .noSubmission, heldSince := none } ∧
        (∀ m, Told s t m .channelState c (packed 3 3) (value16 (x.value.getD 32767)) (packed 0 x.badCount)) ∧
        (∀ d, d ≠ c → t.channel? d = s.channel? d) ∧ Frame (.channels :: contentParts ++ noticeParts) s t)

/-! ### Hazard -/

/-- R126, R128, R129: the snow term, the settlement and the new loading of a period, with the bounds the rules give, as the
figures of a path's period record them. -/
def Obligations.LoadingFollowsSnowAndSettlement : Prop :=
  (∀ (p : Path) (q : Readings) (period now : Nat),
    (p.figures q period now).snowTerm =
      (p.figures q period now).newSnow * 10 * (p.figures q period now).windFactor * p.cfg.sensitivity / 400 ∧
    (p.figures q period now).rate = (match q.air with
      | none => 10
      | some t => if t < -100 then 4 else if t < -20 then 10 else if t < 10 then 20 else 35) ∧
    (p.figures q period now).settle = p.loading * (p.figures q period now).rate * period / 3600000 ∧
    (p.period q period now).loading = (p.figures q period now).newLoading ∧
    ((p.period q period now).substitutes.temperature = true ↔ q.air = none) ∧
    (period ≤ 3600 →
      (p.figures q period now).rate * period ≤ 126000 ∧
      1000 * (p.figures q period now).settle ≤ 35 * p.loading ∧ (p.figures q period now).settle ≤ p.loading ∧
      (p.figures q period now).newLoading + (p.figures q period now).settle =
        Nat.min (9999 + (p.figures q period now).settle)
          (p.loading + (p.figures q period now).snowTerm + (p.figures q period now).drift)) ∧
    (p.loading * ((p.figures q period now).rate * period) < 3600000 → (p.figures q period now).settle = 0)) ∧
  (∀ snow, snowTerm snow 4 100 = snow * 10) ∧
  (∀ snow factor sensitivity, snow ≤ 60 → factor ≤ 12 → sensitivity ≤ 400 → snowTerm snow factor sensitivity ≤ 7200) ∧
  snowTerm 60 12 400 = 7200

/-- R63: displayed temperatures are tenths rounded half away from zero; displayed winds are whole km/h, 0 below 0. -/
def Obligations.DisplayedFiguresAreRounded : Prop :=
  (∀ v : Int, 0 ≤ v → displayTemperature v = (v + 5) / 10 ∧ displayTemperature (-v) = -displayTemperature v) ∧
  (∀ v : Int, 0 ≤ v → displayWind v = (v * 36 + 50) / 100) ∧ (∀ v : Int, v < 0 → displayWind v = 0) ∧
  displayTemperature 25 = 3 ∧ displayTemperature 24 = 2 ∧ displayTemperature (-25) = -3 ∧
  displayTemperature (-24) = -2 ∧ displayTemperature (-65) = -7 ∧ displayTemperature 4 = 0 ∧
  displayWind 94 = 34 ∧ displayWind 125 = 45 ∧ displayWind 13 = 5 ∧
  (∀ v : Int, -32768 ≤ v → v ≤ 32767 →
    -32768 ≤ displayTemperature v ∧ displayTemperature v ≤ 32767 ∧ 0 ≤ displayWind v ∧ displayWind v ≤ 32767)

/-- R120 to R125, R127, R130 to R135: an expiry of the hazard period carries every path through its stages with its channels
as they stand, sets the next expiry one period on, and hands each path whose level changed over to its segments; without a
description it computes nothing. The stages of every path are those of the rules, in their figures (`PeriodStages`). -/
def Obligations.HazardPeriodComputesEveryPath : Prop :=
  (∀ (p : Path) (q : Readings) (period now : Nat),
    PeriodStages p q period (p.figures q period now) (p.period q period now)) ∧
  (∀ (s : State), s.held = none → s.hazard.nextExpiry ≤ s.now →
    ∃ t, exec .hazardPeriodExpiry s = .next t ∧ t.hazard.period = s.hazard.period ∧
      t.hazard.nextExpiry = s.hazard.nextExpiry + s.hazard.period ∧
      (s.described = false → Frame [.period] s t) ∧
      (s.described = true → t.hazard.paths.length = s.hazard.paths.length ∧
        (∀ (n : Nat) (p : Path), s.hazard.paths[n]? = some p →
          t.hazard.paths[n]? = some (p.period (s.readings p.cfg) s.hazard.period s.now)) ∧
        (∀ (n : Nat) (p q : Path) (k : Nat), s.hazard.paths[n]? = some p → t.hazard.paths[n]? = some q →
          q.level ≠ p.level → k ∈ p.cfg.segments →
          (q.call.level = .noLevel → t.claim? k (.hazard n) = none) ∧
          (q.call.level ≠ .noLevel → ∃ c, t.claim? k (.hazard n) = some c ∧ c.level = q.call.level ∧
            c.urgent = q.call.urgent)) ∧
        Frame (.paths :: .period :: .claims :: roadParts) s t))

/-- R132, R142, R143: SET PATH FLOOR and SEED PATH from SLOPE write the path record as their rules give it and answer the
level after; the end of a floor makes it absent and leaves the level. -/
def Obligations.FloorsAndSeedsWriteThePath : Prop :=
  (∀ (s : State) (r : Request) (rest : List Request) (n level duration : Nat) (p : Path),
    Waits s .slope .setPathFloor r rest → n = read1 r.body 0 → s.hazard.paths[n]? = some p → level = read1 r.body 1 →
    1 ≤ level → level ≤ 5 → duration = read4 r.body 2 →
    ∃ t q, exec (.setPathFloor .slope) s = .next t ∧ t.hazard.paths = s.hazard.paths.set n q ∧
      (duration = 0 → q = { p with floor := none }) ∧
      (1 ≤ duration → q = { p with
        floor := some { level := level, endsAt := s.now + Nat.min duration 172800 },
        level := Nat.max p.level level, dwell := if p.level < level then 0 else p.dwell }) ∧
      Finishes s t .slope rest (okTo r [byteOf q.level]) (.paths :: .claims :: roadParts)) ∧
  (∀ (s : State) (r : Request) (rest : List Request) (n : Nat) (p : Path) (loading : Int),
    Waits s .slope .seedPath r rest → n = read1 r.body 0 → s.hazard.paths[n]? = some p → loading = readInt2 r.body 1 →
    ∃ t q, exec (.seedPath .slope) s = .next t ∧ t.hazard.paths = s.hazard.paths.set n q ∧
      (q.loading : Int) = max 0 (min 9999 loading) ∧ q.refDepth = s.reading p.cfg.depthChannel ∧ q.dwell = 0 ∧
      q.unseeded = false ∧ q.latch = p.latch ∧ q.floor = p.floor ∧ q.working = p.working ∧
      q.level = Nat.max (wetLevel (p.cfg.rawLevel q.loading) (s.reading p.cfg.airChannel) q.loading)
        ((p.floor.map (·.level)).getD 0) ∧
      Finishes s t .slope rest (okTo r [byteOf q.level]) (.paths :: .claims :: roadParts)) ∧
  (∀ (s : State) (n : Nat) (p : Path) (f : Floor), Running s → s.hazard.paths[n]? = some p → p.floor = some f →
    f.endsAt ≤ s.now →
    ∃ t, exec (.floorEnd n) s = .next t ∧ t.hazard.paths = s.hazard.paths.set n { p with floor := none } ∧
      Frame (.paths :: .claims :: roadParts) s t)

/-- R134 to R137, R140, R141: REPORT DETECTION from SLOPE and a trip line taken as asserted latch the path and reduce its
loading by its residual; CLEAR PATH clears the latch, but is refused while the trip line stands asserted. Every step keeps
that each path holds on each affected segment the claim it calls for: CLOSE urgent while it is latched or at level 5, CLOSE
from its close level, ADVISE from its advise level, and else none. -/
def Obligations.DetectionsLatchUntilCleared : Prop :=
  (∀ (s : State) (r : Request) (rest : List Request) (n : Nat) (p : Path) (kind : DetectionKind),
    Waits s .slope .reportDetection r rest → n = read1 r.body 0 → s.hazard.paths[n]? = some p →
    detectionOfCode (read1 r.body 1) = some kind →
    ∃ t q, exec (.reportDetection .slope) s = .next t ∧ t.hazard.paths = s.hazard.paths.set n q ∧
      q = { p with
        latch := (match kind with
          | .release => .release
          | .deposit => .deposit
          | .controlled => p.latch),
        loading := if kind = .deposit then p.loading else p.loading * p.cfg.residual / 100 } ∧
      (q.latch ≠ p.latch → ∀ k ∈ p.cfg.segments, ∃ c, t.claim? k (.hazard n) = some c ∧ c.level = .close ∧
        c.urgent = true) ∧
      Finishes s t .slope rest (okTo r ([byteOf q.latch.code] ++ bytes2 q.loading)) (.paths :: .claims :: roadParts)) ∧
  (∀ (s : State) (l n : Nat) (z : InputLine) (p : Path), Running s → s.scan.lines[l]? = some z →
    z.stability = some 0 → z.present = true → s.hazard.paths[n]? = some p → p.cfg.trip = some l →
    ∃ t, exec (.debounceExpiry l) s = .next t ∧
      t.hazard.paths[n]? = some { p with latch := .release, loading := p.loading * p.cfg.residual / 100 } ∧
      (p.latch ≠ .release → ∀ k ∈ p.cfg.segments, ∃ c, t.claim? k (.hazard n) = some c ∧ c.level = .close ∧
        c.urgent = true) ∧
      Frame (.inputs :: .paths :: .claims :: roadParts) s t) ∧
  (∀ (s : State) (m : Master) (r : Request) (rest : List Request) (n : Nat) (p : Path), Waits s m .clearPath r rest →
    n = read1 r.body 0 → s.hazard.paths[n]? = some p →
    m = .slope ∨ (m = .centre ∧ ∀ k ∈ p.cfg.segments, s.hasRight k m overrideRight = true) →
    (∀ l, p.cfg.trip = some l → s.asserted l = true →
      ∃ t, exec (.clearPath m) s = .next t ∧ Finishes s t m rest (refusalOf r .wrongState) []) ∧
    ((∀ l, p.cfg.trip = some l → s.asserted l = false) →
      ∃ t, exec (.clearPath m) s = .next t ∧ t.hazard.paths = s.hazard.paths.set n { p with latch := .clear } ∧
        Finishes s t m rest (okTo r []) (.paths :: .claims :: roadParts))) ∧
  (∀ s t, CallsOk s → step s = .next t → CallsOk t)
end

