-- ==== Sys2Proof/Laws/State.lean ====
section
/-! SUPPORT. One lemma per field and update of the state, true by rfl; the ports read after they are written; lists
changed in place. -/

namespace Sys2Proof.Laws

open Sys2Proof.Machine

/-! ### Ports -/

@[simp] theorem Ports_get_set (p : Ports) (m : Master) (x : Port) : (p.set m x).get m = x := by cases m <;> rfl

theorem Ports_get_set_ne (p : Ports) {m n : Master} (h : n ≠ m) (x : Port) : (p.set m x).get n = p.get n := by
  cases m <;> cases n <;> first | rfl | exact absurd rfl h

@[simp] theorem port_setPort (s : State) (m : Master) (x : Port) : (s.setPort m x).port m = x := Ports_get_set _ _ _

theorem port_setPort_ne (s : State) {m n : Master} (h : n ≠ m) (x : Port) : (s.setPort m x).port n = s.port n :=
  Ports_get_set_ne _ h _

@[simp] theorem setPort_pending (s : State) (m : Master) (x : Port) : (s.setPort m x).pending = s.pending := rfl
@[simp] theorem setPort_held (s : State) (m : Master) (x : Port) : (s.setPort m x).held = s.held := rfl
@[simp] theorem setPort_drawn (s : State) (m : Master) (x : Port) : (s.setPort m x).drawn = s.drawn := rfl
@[simp] theorem setPort_clocks (s : State) (m : Master) (x : Port) : (s.setPort m x).clocks = s.clocks := rfl
@[simp] theorem setPort_segs (s : State) (m : Master) (x : Port) : (s.setPort m x).segs = s.segs := rfl
@[simp] theorem setPort_gates (s : State) (m : Master) (x : Port) : (s.setPort m x).gates = s.gates := rfl
@[simp] theorem setPort_store (s : State) (m : Master) (x : Port) : (s.setPort m x).store = s.store := rfl
@[simp] theorem setPort_line (s : State) (m : Master) (x : Port) : (s.setPort m x).line = s.line := rfl
@[simp] theorem setPort_scan (s : State) (m : Master) (x : Port) : (s.setPort m x).scan = s.scan := rfl
@[simp] theorem setPort_hazard (s : State) (m : Master) (x : Port) : (s.setPort m x).hazard = s.hazard := rfl
@[simp] theorem setPort_power (s : State) (m : Master) (x : Port) : (s.setPort m x).power = s.power := rfl
@[simp] theorem setPort_loader (s : State) (m : Master) (x : Port) : (s.setPort m x).loader = s.loader := rfl

@[simp] theorem tell_pending (s : State) (m : Master) (n : Notice) : (s.tell m n).pending = s.pending := rfl
@[simp] theorem tell_held (s : State) (m : Master) (n : Notice) : (s.tell m n).held = s.held := rfl
@[simp] theorem tell_drawn (s : State) (m : Master) (n : Notice) : (s.tell m n).drawn = s.drawn := rfl
@[simp] theorem tell_clocks (s : State) (m : Master) (n : Notice) : (s.tell m n).clocks = s.clocks := rfl
@[simp] theorem tell_segs (s : State) (m : Master) (n : Notice) : (s.tell m n).segs = s.segs := rfl
@[simp] theorem tell_gates (s : State) (m : Master) (n : Notice) : (s.tell m n).gates = s.gates := rfl
@[simp] theorem tell_store (s : State) (m : Master) (n : Notice) : (s.tell m n).store = s.store := rfl
@[simp] theorem tell_line (s : State) (m : Master) (n : Notice) : (s.tell m n).line = s.line := rfl
@[simp] theorem tell_scan (s : State) (m : Master) (n : Notice) : (s.tell m n).scan = s.scan := rfl
@[simp] theorem tell_hazard (s : State) (m : Master) (n : Notice) : (s.tell m n).hazard = s.hazard := rfl
@[simp] theorem tell_power (s : State) (m : Master) (n : Notice) : (s.tell m n).power = s.power := rfl
@[simp] theorem tell_loader (s : State) (m : Master) (n : Notice) : (s.tell m n).loader = s.loader := rfl

@[simp] theorem tellAll_pending (s : State) (n : Notice) : (s.tellAll n).pending = s.pending := rfl
@[simp] theorem tellAll_held (s : State) (n : Notice) : (s.tellAll n).held = s.held := rfl
@[simp] theorem tellAll_drawn (s : State) (n : Notice) : (s.tellAll n).drawn = s.drawn := rfl
@[simp] theorem tellAll_clocks (s : State) (n : Notice) : (s.tellAll n).clocks = s.clocks := rfl
@[simp] theorem tellAll_segs (s : State) (n : Notice) : (s.tellAll n).segs = s.segs := rfl
@[simp] theorem tellAll_gates (s : State) (n : Notice) : (s.tellAll n).gates = s.gates := rfl
@[simp] theorem tellAll_store (s : State) (n : Notice) : (s.tellAll n).store = s.store := rfl
@[simp] theorem tellAll_line (s : State) (n : Notice) : (s.tellAll n).line = s.line := rfl
@[simp] theorem tellAll_scan (s : State) (n : Notice) : (s.tellAll n).scan = s.scan := rfl
@[simp] theorem tellAll_hazard (s : State) (n : Notice) : (s.tellAll n).hazard = s.hazard := rfl
@[simp] theorem tellAll_power (s : State) (n : Notice) : (s.tellAll n).power = s.power := rfl
@[simp] theorem tellAll_loader (s : State) (n : Notice) : (s.tellAll n).loader = s.loader := rfl

/-! ### Records changed in place -/

@[simp] theorem updSegment_records (s : State) (k : Nat) (f : Segment → Segment) :
    (s.updSegment k f).segs.records = s.segs.records.modify k f := rfl
@[simp] theorem updSegment_claims (s : State) (k : Nat) (f : Segment → Segment) :
    (s.updSegment k f).segs.claims = s.segs.claims := rfl
@[simp] theorem updSegment_authority (s : State) (k : Nat) (f : Segment → Segment) :
    (s.updSegment k f).segs.authority = s.segs.authority := rfl
@[simp] theorem updSegment_gates (s : State) (k : Nat) (f : Segment → Segment) : (s.updSegment k f).gates = s.gates := rfl
@[simp] theorem updSegment_store (s : State) (k : Nat) (f : Segment → Segment) : (s.updSegment k f).store = s.store := rfl
@[simp] theorem updSegment_line (s : State) (k : Nat) (f : Segment → Segment) : (s.updSegment k f).line = s.line := rfl
@[simp] theorem updSegment_power (s : State) (k : Nat) (f : Segment → Segment) : (s.updSegment k f).power = s.power := rfl
@[simp] theorem updSegment_ports (s : State) (k : Nat) (f : Segment → Segment) : (s.updSegment k f).ports = s.ports := rfl
@[simp] theorem updSegment_hazard (s : State) (k : Nat) (f : Segment → Segment) :
    (s.updSegment k f).hazard = s.hazard := rfl

@[simp] theorem setClaims_claims (s : State) (c : List Claim) : (s.setClaims c).segs.claims = c := rfl
@[simp] theorem setClaims_records (s : State) (c : List Claim) : (s.setClaims c).segs.records = s.segs.records := rfl
@[simp] theorem setClaims_authority (s : State) (c : List Claim) : (s.setClaims c).segs.authority = s.segs.authority := rfl
@[simp] theorem setClaims_gates (s : State) (c : List Claim) : (s.setClaims c).gates = s.gates := rfl
@[simp] theorem setClaims_store (s : State) (c : List Claim) : (s.setClaims c).store = s.store := rfl
@[simp] theorem setClaims_line (s : State) (c : List Claim) : (s.setClaims c).line = s.line := rfl
@[simp] theorem setClaims_hazard (s : State) (c : List Claim) : (s.setClaims c).hazard = s.hazard := rfl
@[simp] theorem setClaims_ports (s : State) (c : List Claim) : (s.setClaims c).ports = s.ports := rfl

@[simp] theorem updGate_gates (s : State) (g : Nat) (f : Gate → Gate) : (s.updGate g f).gates = s.gates.modify g f := rfl
@[simp] theorem updGate_segs (s : State) (g : Nat) (f : Gate → Gate) : (s.updGate g f).segs = s.segs := rfl
@[simp] theorem updGate_store (s : State) (g : Nat) (f : Gate → Gate) : (s.updGate g f).store = s.store := rfl
@[simp] theorem updGate_line (s : State) (g : Nat) (f : Gate → Gate) : (s.updGate g f).line = s.line := rfl
@[simp] theorem updGate_power (s : State) (g : Nat) (f : Gate → Gate) : (s.updGate g f).power = s.power := rfl
@[simp] theorem updGate_ports (s : State) (g : Nat) (f : Gate → Gate) : (s.updGate g f).ports = s.ports := rfl
@[simp] theorem updGate_scan (s : State) (g : Nat) (f : Gate → Gate) : (s.updGate g f).scan = s.scan := rfl
@[simp] theorem updGate_hazard (s : State) (g : Nat) (f : Gate → Gate) : (s.updGate g f).hazard = s.hazard := rfl

@[simp] theorem updSign_signs (s : State) (k : Nat) (f : Sign → Sign) :
    (s.updSign k f).line.signs = s.line.signs.modify k f := rfl
@[simp] theorem updSign_entries (s : State) (k : Nat) (f : Sign → Sign) :
    (s.updSign k f).line.entries = s.line.entries := rfl
@[simp] theorem updSign_inFlight (s : State) (k : Nat) (f : Sign → Sign) :
    (s.updSign k f).line.inFlight = s.line.inFlight := rfl
@[simp] theorem updSign_state (s : State) (k : Nat) (f : Sign → Sign) : (s.updSign k f).line.state = s.line.state := rfl
@[simp] theorem updSign_errors (s : State) (k : Nat) (f : Sign → Sign) :
    (s.updSign k f).line.errors = s.line.errors := rfl
@[simp] theorem updSign_segs (s : State) (k : Nat) (f : Sign → Sign) : (s.updSign k f).segs = s.segs := rfl
@[simp] theorem updSign_store (s : State) (k : Nat) (f : Sign → Sign) : (s.updSign k f).store = s.store := rfl
@[simp] theorem updSign_ports (s : State) (k : Nat) (f : Sign → Sign) : (s.updSign k f).ports = s.ports := rfl
@[simp] theorem updSign_power (s : State) (k : Nat) (f : Sign → Sign) : (s.updSign k f).power = s.power := rfl
@[simp] theorem updSign_clocks (s : State) (k : Nat) (f : Sign → Sign) : (s.updSign k f).clocks = s.clocks := rfl

@[simp] theorem setInFlight_inFlight (s : State) (x : Option InFlight) : (s.setInFlight x).line.inFlight = x := rfl
@[simp] theorem setInFlight_entries (s : State) (x : Option InFlight) :
    (s.setInFlight x).line.entries = s.line.entries := rfl
@[simp] theorem setInFlight_signs (s : State) (x : Option InFlight) : (s.setInFlight x).line.signs = s.line.signs := rfl
@[simp] theorem setInFlight_ports (s : State) (x : Option InFlight) : (s.setInFlight x).ports = s.ports := rfl
@[simp] theorem setInFlight_store (s : State) (x : Option InFlight) : (s.setInFlight x).store = s.store := rfl
@[simp] theorem setInFlight_segs (s : State) (x : Option InFlight) : (s.setInFlight x).segs = s.segs := rfl

@[simp] theorem updPath_paths (s : State) (n : Nat) (f : Path → Path) :
    (s.updPath n f).hazard.paths = s.hazard.paths.modify n f := rfl
@[simp] theorem updPath_period (s : State) (n : Nat) (f : Path → Path) :
    (s.updPath n f).hazard.period = s.hazard.period := rfl
@[simp] theorem updPath_segs (s : State) (n : Nat) (f : Path → Path) : (s.updPath n f).segs = s.segs := rfl
@[simp] theorem updPath_scan (s : State) (n : Nat) (f : Path → Path) : (s.updPath n f).scan = s.scan := rfl
@[simp] theorem updPath_ports (s : State) (n : Nat) (f : Path → Path) : (s.updPath n f).ports = s.ports := rfl
@[simp] theorem updPath_clocks (s : State) (n : Nat) (f : Path → Path) : (s.updPath n f).clocks = s.clocks := rfl

@[simp] theorem setChannel_channels (s : State) (c : Nat) (x : Channel) :
    (s.setChannel c x).scan.channels = s.scan.channels.set c (some x) := rfl
@[simp] theorem setChannel_lines (s : State) (c : Nat) (x : Channel) : (s.setChannel c x).scan.lines = s.scan.lines := rfl
@[simp] theorem setChannel_converting (s : State) (c : Nat) (x : Channel) :
    (s.setChannel c x).scan.converting = s.scan.converting := rfl
@[simp] theorem setChannel_ports (s : State) (c : Nat) (x : Channel) : (s.setChannel c x).ports = s.ports := rfl
@[simp] theorem setChannel_line (s : State) (c : Nat) (x : Channel) : (s.setChannel c x).line = s.line := rfl
@[simp] theorem setChannel_store (s : State) (c : Nat) (x : Channel) : (s.setChannel c x).store = s.store := rfl

@[simp] theorem updLine_lines (s : State) (l : Nat) (f : InputLine → InputLine) :
    (s.updLine l f).scan.lines = s.scan.lines.modify l f := rfl
@[simp] theorem updLine_gates (s : State) (l : Nat) (f : InputLine → InputLine) : (s.updLine l f).gates = s.gates := rfl
@[simp] theorem updLine_hazard (s : State) (l : Nat) (f : InputLine → InputLine) :
    (s.updLine l f).hazard = s.hazard := rfl
@[simp] theorem updLine_loader (s : State) (l : Nat) (f : InputLine → InputLine) :
    (s.updLine l f).loader = s.loader := rfl

/-! ### The power controller -/

@[simp] theorem adopt_params (p : Power) : p.adopt.params = p.taken := rfl
@[simp] theorem adopt_fromGroup (p : Power) : p.adopt.fromGroup = p.takenFromGroup := rfl
@[simp] theorem adopt_taken (p : Power) : p.adopt.taken = p.taken := rfl
@[simp] theorem adopt_takenFromGroup (p : Power) : p.adopt.takenFromGroup = p.takenFromGroup := rfl
@[simp] theorem adopt_charge (p : Power) : p.adopt.charge = p.charge := rfl
@[simp] theorem adopt_account (p : Power) : p.adopt.account = p.account := rfl
@[simp] theorem adopt_remainder (p : Power) : p.adopt.remainder = p.remainder := rfl
@[simp] theorem adopt_updated (p : Power) : p.adopt.updated = p.updated := rfl
@[simp] theorem adopt_reserve (p : Power) : p.adopt.reserve = p.reserve := rfl
@[simp] theorem adopt_mode (p : Power) : p.adopt.mode = p.mode := rfl
@[simp] theorem adopt_targets (p : Power) : p.adopt.targets = p.targets := rfl
@[simp] theorem takeParams_capacity (p : Power) (q : Option PowerParams) :
    (p.takeParams q).params.capacity = (q.getD defaultParams).capacity := rfl
@[simp] theorem takeParams_taken (p : Power) (q : Option PowerParams) : (p.takeParams q).taken = q.getD defaultParams := rfl

/-! ### Lists changed in place -/

/-- A projection that a change in place keeps is kept along the whole list. -/
theorem map_modify_of_keeps {α β : Type} (p : α → β) (f : α → α) (h : ∀ x, p (f x) = p x) (l : List α) (n : Nat) :
    (l.modify n f).map p = l.map p := by
  induction l generalizing n with
  | nil => cases n <;> rfl
  | cons a l ih => cases n <;> simp [h, ih]

/-- A fold keeps what each of its steps keeps. -/
theorem foldl_keeps {α σ : Type} (R : σ → σ → Prop) (refl : ∀ s, R s s) (trans : ∀ {a b c}, R a b → R b c → R a c)
    (f : σ → α → σ) (h : ∀ s a, R s (f s a)) (l : List α) (s : σ) : R s (l.foldl f s) := by
  induction l generalizing s with
  | nil => exact refl s
  | cons a l ih => exact trans (h s a) (ih (f s a))

end Sys2Proof.Laws
end

