-- ==== Sys2Proof/Laws/Moves.lean ====
section
/-! SUPPORT. What the shared operations can do, said once: Moves s t lists all that the reports, notices, slot content,
requests for signs and mode changes between blocks may change, and what they keep. One lemma per shared operation. -/

namespace Sys2Proof.Laws

open Sys2Proof.Machine Sys2Proof.Safety

/-- What the operations between the blocks may change: the claims and the parts of Safety.roadParts; the invariants of
the ports, of the claims and of the transmit list are kept; configured fields, the transaction in flight (but for the
request it holds) and the sign records (but for refresh due) stay. -/
structure Moves (s t : State) : Prop where
  frame : Frame (.claims :: roadParts) s t
  ports : PortsOk s → PortsOk t
  claims : ClaimsOk s → ClaimsOk t
  line : LineOk s.line → LineOk t.line
  signs : t.line.signs.map (fun x => { x with refreshDue := none }) =
    s.line.signs.map (fun x => { x with refreshDue := none })
  records : t.segs.records.map (·.cfg) = s.segs.records.map (·.cfg)
  gates : t.gates.map (·.cfg) = s.gates.map (·.cfg)
  flight : t.line.inFlight.map (fun x => { x with held := none }) =
    s.line.inFlight.map (fun x => { x with held := none })
  tops : t.store.tops.length = s.store.tops.length
  slots : t.store.slots.length = s.store.slots.length

namespace Moves

theorem frame_refl (l : List Part) (s : State) : Frame l s s := by
  intro p _
  cases p <;> simp [Part.same]

theorem frame_trans {l : List Part} {s t u : State} (h : Frame l s t) (k : Frame l t u) : Frame l s u := by
  intro p hp
  have a := h p hp
  have b := k p hp
  cases p <;> simp only [Part.same] at a b ⊢ <;> first | exact b.trans a | exact fun m => (b m).trans (a m) | skip
  all_goals
    obtain ⟨⟩ := a
    simp_all

theorem frame_mono {l k : List Part} {s t : State} (sub : ∀ p ∈ l, p ∈ k) (h : Frame l s t) : Frame k s t :=
  fun p hp => h p (fun hl => hp (sub p hl))

theorem refl (s : State) : Moves s s :=
  ⟨frame_refl _ s, id, id, id, rfl, rfl, rfl, rfl, rfl, rfl⟩

theorem trans {s t u : State} (h : Moves s t) (k : Moves t u) : Moves s u :=
  ⟨frame_trans h.frame k.frame, k.ports ∘ h.ports, k.claims ∘ h.claims, k.line ∘ h.line, k.signs.trans h.signs,
   k.records.trans h.records, k.gates.trans h.gates, k.flight.trans h.flight, k.tops.trans h.tops,
   k.slots.trans h.slots⟩

/-- A fold of moves is a move. -/
theorem fold {α : Type} (f : State → α → State) (h : ∀ s a, Moves s (f s a)) (l : List α) (s : State) :
    Moves s (l.foldl f s) := foldl_keeps Moves refl trans f h l s

/-! ### What a move keeps, field by field -/

theorem pending {s t : State} (h : Moves s t) : t.pending = s.pending := h.frame .waiting (by decide)
theorem held {s t : State} (h : Moves s t) : t.held = s.held := h.frame .reset (by decide)
theorem drawn {s t : State} (h : Moves s t) : t.drawn = s.drawn := h.frame .drawn (by decide)
theorem seconds {s t : State} (h : Moves s t) : t.clocks.seconds = s.clocks.seconds := (h.frame .clock (by decide)).1
theorem millis {s t : State} (h : Moves s t) : t.clocks.millis = s.clocks.millis := (h.frame .clock (by decide)).2
theorem now {s t : State} (h : Moves s t) : t.now = s.now := h.seconds
theorem authority {s t : State} (h : Moves s t) : t.segs.authority = s.segs.authority := h.frame .authority (by decide)
theorem priority {s t : State} (h : Moves s t) : t.store.priority = s.store.priority := h.frame .priority (by decide)
theorem paths {s t : State} (h : Moves s t) : t.hazard.paths = s.hazard.paths := h.frame .paths (by decide)
theorem period {s t : State} (h : Moves s t) : t.hazard.period = s.hazard.period := (h.frame .period (by decide)).1
theorem nextExpiry {s t : State} (h : Moves s t) : t.hazard.nextExpiry = s.hazard.nextExpiry :=
  (h.frame .period (by decide)).2
theorem channels {s t : State} (h : Moves s t) : t.scan.channels = s.scan.channels := h.frame .channels (by decide)
theorem inputs {s t : State} (h : Moves s t) : t.scan.lines = s.scan.lines := h.frame .inputs (by decide)
theorem params {s t : State} (h : Moves s t) : t.power.params = s.power.params := (h.frame .parameters (by decide)).1
theorem account {s t : State} (h : Moves s t) : t.power.account = s.power.account := (h.frame .account (by decide)).1
theorem remainder {s t : State} (h : Moves s t) : t.power.remainder = s.power.remainder :=
  (h.frame .account (by decide)).2.1
theorem loader {s t : State} (h : Moves s t) : t.loader = s.loader := h.frame .loader (by decide)
theorem described {s t : State} (h : Moves s t) : t.described = s.described := by
  simp [State.described, h.loader]
theorem queued {s t : State} (h : Moves s t) (m : Master) : (t.port m).queued = (s.port m).queued :=
  h.frame .queued (by decide) m
theorem done {s t : State} (h : Moves s t) (m : Master) : (t.port m).done = (s.port m).done := h.frame .done (by decide) m
theorem mask {s t : State} (h : Moves s t) (m : Master) : (t.port m).mask = (s.port m).mask := h.frame .masks (by decide) m

end Moves

/-! ### Notices (R169) -/

theorem sameKey_iff (a b : Notice) : a.sameKey b = true ↔ a.kind = b.kind ∧ a.object = b.object := by
  simp [Notice.sameKey]

theorem take_ok (p : Port) (n : Notice) (h : PortOk p) : PortOk (p.take n) := by
  unfold Port.take
  split
  · exact h
  · split
    · refine ⟨h.slots, by simpa using h.room, ?_⟩
      have key : ∀ e : Notice, ((fun e : Notice => if e.sameKey n then n else e) e).kind = e.kind ∧
          ((fun e : Notice => if e.sameKey n then n else e) e).object = e.object := by
        intro e
        dsimp only
        split
        · rename_i he; exact ⟨((sameKey_iff e n).1 he).1.symm, ((sameKey_iff e n).1 he).2.symm⟩
        · exact ⟨rfl, rfl⟩
      revert key
      generalize (fun e : Notice => if e.sameKey n then n else e) = f
      intro key
      rw [List.pairwise_map]
      refine h.keys.imp (fun {a b} hab => ?_)
      simpa only [Notice.sameKey, (key a).1, (key a).2, (key b).1, (key b).2] using hab
    · split
      · exact ⟨h.slots, h.room, h.keys⟩
      · rename_i hany hroom
        refine ⟨h.slots, by simp only [List.length_append, List.length_singleton]; omega, ?_⟩
        simp only [List.pairwise_append]
        refine ⟨h.keys, List.pairwise_singleton _ _, fun a ha b hb => ?_⟩
        rw [List.mem_singleton] at hb
        subst hb
        simp only [List.any_eq_true, not_exists, not_and] at hany
        exact Bool.eq_false_iff.2 (hany a ha)

@[simp] theorem take_queued (p : Port) (n : Notice) : (p.take n).queued = p.queued := by
  unfold Port.take Port.setOverflow; repeat' split
  all_goals rfl
@[simp] theorem take_done (p : Port) (n : Notice) : (p.take n).done = p.done := by
  unfold Port.take Port.setOverflow; repeat' split
  all_goals rfl
@[simp] theorem take_mask (p : Port) (n : Notice) : (p.take n).mask = p.mask := by
  unfold Port.take Port.setOverflow; repeat' split
  all_goals rfl
@[simp] theorem take_overrun (p : Port) (n : Notice) : (p.take n).overrun = p.overrun := by
  unfold Port.take Port.setOverflow; repeat' split
  all_goals rfl

theorem port_tell (s : State) (m : Master) (n : Notice) : (s.tell m n).port m = (s.port m).take n := by
  cases m <;> rfl

theorem port_tell_ne (s : State) {m k : Master} (h : k ≠ m) (n : Notice) : (s.tell m n).port k = s.port k := by
  cases m <;> cases k <;> first | rfl | exact absurd rfl h

theorem moves_tell (s : State) (m : Master) (n : Notice) : Moves s (s.tell m n) := by
  refine ⟨?_, ?_, id, id, rfl, rfl, rfl, rfl, rfl, rfl⟩
  · intro p hp
    cases p <;> simp only [Part.same, tell_pending, tell_held, tell_drawn, tell_clocks, tell_segs, tell_gates,
      tell_store, tell_line, tell_scan, tell_hazard, tell_power, tell_loader, and_self] <;>
      first
        | exact absurd (by decide) hp
        | (intro k
           by_cases e : k = m
           · subst e; simp [port_tell]
           · rw [port_tell_ne s e])
  · intro h k
    by_cases e : k = m
    · subst e; rw [port_tell]; exact take_ok _ _ (h _)
    · rw [port_tell_ne s e]; exact h k

theorem moves_tellAll (s : State) (n : Notice) : Moves s (s.tellAll n) :=
  ((moves_tell s .centre n).trans (moves_tell _ .slope n)).trans (moves_tell _ .crew n)

/-! ### The transmit list (R83, R85) -/

theorem lineOk_hold {l : SignLine} (h : LineOk l) (r : EntryReason) :
    LineOk { l with inFlight := l.inFlight.map (fun x => { x with held := some (mergeHeld r x.held) }) } := by
  refine ⟨h.entries, fun x hx e he => ?_⟩
  simp only [Option.map_eq_some_iff] at hx
  obtain ⟨y, hy, rfl⟩ := hx
  exact h.flying y hy e he

theorem lineOk_map {l : SignLine} (h : LineOk l) (f : Entry → Entry) (keep : ∀ e, (f e).sign = e.sign) :
    LineOk { l with entries := l.entries.map f } := by
  refine ⟨?_, fun x hx e he => ?_⟩
  · rw [List.pairwise_map]
    exact h.entries.imp (fun {a b} hab => by rw [keep, keep]; exact hab)
  · obtain ⟨y, hy, rfl⟩ := List.mem_map.1 he
    rw [keep]; exact h.flying x hx y hy

theorem lineOk_append {l : SignLine} (h : LineOk l) (e : Entry) (made : Nat)
    (new : ∀ a ∈ l.entries, a.sign ≠ e.sign) (idle : ∀ x, l.inFlight = some x → x.entry.sign ≠ e.sign) :
    LineOk { l with entries := l.entries ++ [e], made := made } := by
  refine ⟨?_, fun x hx a ha => ?_⟩
  · simp only [List.pairwise_append]
    refine ⟨h.entries, List.pairwise_singleton _ _, fun a ha b hb => ?_⟩
    rw [List.mem_singleton] at hb; subst hb; exact new a ha
  · rcases List.mem_append.1 ha with ha | ha
    · exact h.flying x hx a ha
    · rw [List.mem_singleton] at ha; subst ha; exact (idle x hx).symm

theorem inFlightFor_eq_false {s : State} {k : Nat} (h : s.inFlightFor k = false) (x : InFlight)
    (hx : s.line.inFlight = some x) : x.entry.sign ≠ k := by
  simpa [State.inFlightFor, hx] using h

theorem no_entry {s : State} {k : Nat} (h : ¬ s.line.entries.any (fun e => e.sign == k) = true) :
    ∀ a ∈ s.line.entries, a.sign ≠ k := by
  intro a ha e
  exact h (List.any_eq_true.2 ⟨a, ha, by simpa using e⟩)

theorem moves_enter (s : State) (k : Nat) (r : EntryReason) : Moves s (s.enter k r) := by
  unfold State.enter
  split
  · refine ⟨?_, id, id, fun h => lineOk_hold h r, rfl, rfl, rfl, ?_, rfl, rfl⟩
    · intro p hp
      cases p <;> first | exact absurd (by decide) hp | (intro _; rfl) | simp [Part.same, State.setInFlight]
    · show Option.map _ (Option.map _ _) = _
      cases s.line.inFlight <;> rfl
  · rename_i hf
    split
    · refine ⟨?_, id, id, fun h => lineOk_map h _ ?_, rfl, rfl, rfl, rfl, rfl, rfl⟩
      · intro p hp
        cases p <;> first | exact absurd (by decide) hp | (intro _; rfl) | simp [Part.same]
      · intro e; split <;> rfl
    · rename_i he
      refine ⟨?_, id, id, fun h => lineOk_append h _ _ (no_entry he)
        (fun x hx => inFlightFor_eq_false (Bool.eq_false_iff.2 hf) x hx), rfl, rfl, rfl, rfl, rfl, rfl⟩
      intro p hp
      cases p <;> first | exact absurd (by decide) hp | (intro _; rfl) | simp [Part.same, State.newEntry]

theorem moves_request (s : State) (k : Nat) (r : EntryReason) : Moves s (s.request k r) := by
  unfold State.request
  split
  · exact Moves.refl s
  · split
    · exact moves_enter s k r
    · exact Moves.refl s

/-! ### Slots and the selector (R59, R73) -/

theorem moves_store (s : State) (x : SlotStore) (hp : x.priority = s.store.priority)
    (ht : x.tops.length = s.store.tops.length) (hs : x.slots.length = s.store.slots.length) :
    Moves s { s with store := x } := by
  refine ⟨?_, id, id, id, rfl, rfl, rfl, rfl, ht, hs⟩
  intro p hq
  cases p <;> first | exact absurd (by decide) hq | (intro _; rfl) | exact hp | simp [Part.same]

theorem moves_reselectSign (s : State) (k : Nat) : Moves s (s.reselectSign k) := by
  unfold State.reselectSign
  split
  · dsimp only
    split
    · exact Moves.refl s
    · refine Moves.trans ?_ (moves_request _ _ _)
      exact moves_store s { s.store with tops := _ } rfl (by simp) rfl
  · exact Moves.refl s

theorem moves_reselect (s : State) : Moves s s.reselect := Moves.fold _ moves_reselectSign _ s

theorem moves_writeSlot (s : State) (n : Nat) (f : Slot → Slot) : Moves s (s.writeSlot n f) := by
  unfold State.writeSlot
  split
  · exact Moves.refl s
  · have h := fun y => moves_store s { s.store with slots := s.store.slots.set n y } rfl rfl (by simp)
    dsimp only
    split
    · exact h _
    · exact (h _).trans (moves_reselect _)

theorem moves_formSlot (s : State) (n : Nat) (c : Option Content) : Moves s (s.formSlot n c) := moves_writeSlot s n _

theorem moves_formWeather (s : State) (k : Nat) : Moves s (s.formWeather k) := by
  unfold State.formWeather
  split
  · split
    · exact moves_formSlot _ _ _
    · exact Moves.refl s
  · exact Moves.refl s

theorem moves_formWeatherFrom (s : State) (c : Nat) (y : Channel) : Moves s (s.formWeatherFrom c y) := by
  refine Moves.fold _ (fun s k => ?_) _ s
  split
  · split
    · exact moves_formWeather s k
    · exact Moves.refl s
  · exact Moves.refl s

/-! ### The mode (R155 to R157) -/

theorem moves_refreshDue (s : State) (k : Nat) (t : Option Nat) :
    Moves s (s.updSign k (fun y => { y with refreshDue := t })) := by
  refine ⟨?_, id, id, fun h => ⟨h.entries, h.flying⟩, ?_, rfl, rfl, rfl, rfl, rfl⟩
  · intro p hp
    cases p <;> first | exact absurd (by decide) hp | (intro _; rfl) | simp [Part.same, State.updSign]
  · apply map_modify_of_keeps
    intro x; rfl

theorem moves_resetRefresh (s : State) (k : Nat) : Moves s (s.resetRefresh k) := by
  unfold State.resetRefresh
  split
  · exact Moves.refl s
  · split
    · exact moves_refreshDue _ _ _
    · split
      · exact (moves_refreshDue _ _ _).trans (moves_request _ _ _)
      · exact moves_refreshDue _ _ _

theorem moves_blankWeather (s : State) (k : Nat) : Moves s (s.blankWeather k) := by
  unfold State.blankWeather
  split
  · exact Moves.refl s
  · split
    · exact (moves_refreshDue _ _ _).trans (moves_request _ _ _)
    · exact Moves.refl s

theorem moves_handMode (s : State) (old : Mode) : Moves s (s.handMode old) := by
  unfold State.handMode
  have each : ∀ s : State, Moves s (s.eachSign State.resetRefresh) := fun s => Moves.fold _ moves_resetRefresh _ s
  have blank : ∀ s : State, Moves s (s.eachSign State.blankWeather) := fun s => Moves.fold _ moves_blankWeather _ s
  simp only
  split <;> split
  · exact ((moves_reselect s).trans (each _)).trans (blank _)
  · exact (moves_reselect s).trans (each _)
  · exact (each s).trans (blank _)
  · exact each s

theorem moves_power (s : State) (x : Power) (h : x = { s.power with reserve := x.reserve, mode := x.mode }) :
    Moves s { s with power := x } := by
  refine ⟨?_, id, id, id, rfl, rfl, rfl, rfl, rfl, rfl⟩
  intro p hp
  cases p <;> first | exact absurd (by decide) hp | (intro _; rfl) | (rw [h]; simp [Part.same])

theorem moves_evaluateMode (s : State) (silent : Bool) : Moves s (s.evaluateMode silent) := by
  unfold State.evaluateMode
  simp only
  split
  · exact Moves.refl s
  · have h := moves_power s { s.power with mode := s.power.nextMode } rfl
    split
    · exact h.trans (moves_handMode _ _)
    · exact (h.trans (moves_tellAll _ _)).trans (moves_handMode _ _)

theorem moves_updateReserve (s : State) : Moves s s.updateReserve := by
  unfold State.updateReserve
  simp only
  split
  · exact Moves.refl s
  · exact (moves_power s { s.power with reserve := closureReserve s.gates } rfl).trans (moves_evaluateMode _ _)

/-! ### Segments and gates -/

theorem moves_updSegment (s : State) (k : Nat) (f : Segment → Segment) (keep : ∀ x, (f x).cfg = x.cfg := by intro x; rfl) :
    Moves s (s.updSegment k f) := by
  refine ⟨?_, id, id, id, rfl, map_modify_of_keeps _ _ keep _ _, rfl, rfl, rfl, rfl⟩
  intro p hp
  cases p <;> first | exact absurd (by decide) hp | (intro _; rfl) | simp [Part.same, State.updSegment]

theorem moves_updGate (s : State) (g : Nat) (f : Gate → Gate) (keep : ∀ x, (f x).cfg = x.cfg := by intro x; rfl) :
    Moves s (s.updGate g f) := by
  refine ⟨?_, id, id, id, rfl, rfl, map_modify_of_keeps _ _ keep _ _, rfl, rfl, rfl⟩
  intro p hp
  cases p <;> first | exact absurd (by decide) hp | (intro _; rfl) | simp [Part.same, State.updGate]

@[simp] theorem setLamp_cfg (x : Gate) (b : Bool) : (x.setLamp b).cfg = x.cfg := by unfold Gate.setLamp; split <;> rfl

theorem moves_handLamps (s : State) (l : List Nat) (b : Bool) : Moves s (s.handLamps l b) :=
  Moves.fold _ (fun s g => moves_updGate s g _ (fun x => setLamp_cfg x b)) l s

theorem moves_recordDemand (s : State) (l : List Nat) (d : Demand) : Moves s (s.recordDemand l d) :=
  Moves.fold _ (fun s g => moves_updGate s g _) l s

theorem moves_formSegmentSlot (s : State) (k : Nat) : Moves s (s.formSegmentSlot k) := by
  unfold State.formSegmentSlot
  split
  · exact Moves.refl s
  · exact moves_formSlot _ _ _

theorem moves_testGates (s : State) (k : Nat) : Moves s (s.testGates k) := by
  unfold State.testGates
  split
  · exact Moves.refl s
  · split
    · split
      · exact (moves_updSegment s k _).trans (moves_formSegmentSlot _ _)
      · exact Moves.refl s
    · exact moves_updSegment s k _
    · split
      · exact (((moves_updSegment s k _).trans (moves_handLamps _ _ _)).trans
          (moves_recordDemand _ _ _)).trans (moves_formSegmentSlot _ _)
      · exact Moves.refl s
    · exact Moves.refl s

theorem moves_gateReport (s : State) (g : Nat) : Moves s (s.gateReport g) := by
  unfold State.gateReport
  split
  · exact Moves.refl s
  · exact ((moves_testGates _ _).trans (moves_updateReserve _)).trans (moves_tellAll _ _)

theorem moves_changeGate (s : State) (g : Nat) (f : Gate → Gate) (keep : ∀ x, (f x).cfg = x.cfg := by intro x; rfl) :
    Moves s (s.changeGate g f) := (moves_updGate s g f keep).trans (moves_gateReport _ _)

theorem moves_applyLower (s : State) (g : Nat) : Moves s (s.applyLower g) := by
  unfold State.applyLower
  split
  · exact Moves.refl s
  · split
    · split
      · exact moves_changeGate _ _ _
      · exact moves_changeGate _ _ _
    · exact moves_changeGate _ _ _
    all_goals exact Moves.refl s

theorem moves_applyRaise (s : State) (g : Nat) : Moves s (s.applyRaise g) := by
  unfold State.applyRaise
  split
  · exact Moves.refl s
  · split
    · split
      · exact moves_changeGate _ _ _
      · split
        · exact Moves.refl s
        · exact (moves_updGate s g _).trans (moves_tellAll _ _)
    all_goals exact Moves.refl s

theorem moves_applyRecorded (s : State) (g : Nat) : Moves s (s.applyRecorded g) := by
  unfold State.applyRecorded
  split
  · exact Moves.refl s
  · split
    · exact moves_applyLower s g
    · exact moves_applyRaise s g
    all_goals exact Moves.refl s

theorem moves_arrive (s : State) (g : Nat) (state : GateState) : Moves s (s.arrive g state) :=
  (moves_changeGate s g _).trans (moves_applyRecorded _ _)

theorem moves_handDemand (s : State) (k : Nat) (l : List Nat) (d : Demand) : Moves s (s.handDemand k l d) :=
  ((moves_recordDemand s l d).trans (Moves.fold _ moves_applyRecorded l _)).trans (moves_testGates _ _)

theorem moves_followUp (s : State) (k : Nat) : Moves s (s.followUp k) := by
  unfold State.followUp
  split
  · exact Moves.refl s
  · simp only
    split
    · exact (moves_handLamps _ _ _).trans (moves_formSegmentSlot _ _)
    · exact (((moves_handLamps _ _ _).trans (moves_updSegment _ k _)).trans
        (moves_handDemand _ _ _ _)).trans (moves_formSegmentSlot _ _)

theorem moves_withSegmentNotice (s : State) (k : Nat) (f : State → State) (h : Moves s (f s)) :
    Moves s (s.withSegmentNotice k f) := by
  unfold State.withSegmentNotice
  simp only
  split
  · split
    · exact h
    · exact h.trans (moves_tellAll _ _)
  · exact h

@[simp] theorem toPrewarn_cfg (x : Segment) : x.toPrewarn.cfg = x.cfg := by unfold Segment.toPrewarn; split <;> rfl
@[simp] theorem toOpen_cfg (x : Segment) (n : Nat) : (x.toOpen n).cfg = x.cfg := by unfold Segment.toOpen; split <;> rfl
@[simp] theorem toClosing_cfg (x : Segment) (n : Nat) (b : Bool) : (x.toClosing n b).cfg = x.cfg := by
  unfold Segment.toClosing; simp only; split
  · exact toPrewarn_cfg _
  · rfl
@[simp] theorem step_cfg (x : Segment) (n : Nat) (b : Bool) : (x.step n b).cfg = x.cfg := by
  unfold Segment.step
  repeat' split
  all_goals first | rfl | simp
@[simp] theorem derive_cfg (x : Segment) (c : List Claim) : (x.derive c).cfg = x.cfg := rfl

theorem moves_stepSegment (s : State) (k : Nat) : Moves s (s.stepSegment k) := by
  unfold State.stepSegment
  split
  · exact Moves.refl s
  · exact moves_updSegment s k _ (fun x => by simp)

theorem moves_recompute (s : State) (k : Nat) : Moves s (s.recompute k) :=
  moves_withSegmentNotice s k _ ((moves_stepSegment s k).trans (moves_followUp _ k))

/-! ### Claims (R2, R3, R6, R10) -/

theorem moves_setClaims (s : State) (c : List Claim) (h : ClaimsOk s → ClaimsOk (s.setClaims c)) :
    Moves s (s.setClaims c) := by
  refine ⟨?_, id, h, id, rfl, rfl, rfl, rfl, rfl, rfl⟩
  intro p hp
  cases p <;> first | exact absurd (by decide) hp | (intro _; rfl) | simp [Part.same, State.setClaims]

theorem isOf_iff (c : Claim) (k : Nat) (h : Holder) : c.isOf k h = true ↔ c.segment = k ∧ c.holder = h := by
  simp [Claim.isOf]

theorem moves_dropClaim (s : State) (k : Nat) (h : Holder) : Moves s (s.dropClaim k h) :=
  moves_setClaims s _ (fun ok => ok.filter _)

theorem claims_map_ok {l : List Claim} (f : Claim → Claim)
    (keep : ∀ c ∈ l, (f c).segment = c.segment ∧ (f c).holder = c.holder)
    (ok : l.Pairwise (fun a b => ¬ (a.segment = b.segment ∧ a.holder = b.holder))) :
    (l.map f).Pairwise (fun a b => ¬ (a.segment = b.segment ∧ a.holder = b.holder)) := by
  rw [List.pairwise_map]
  refine ok.imp_of_mem (fun {a b} ha hb hab => ?_)
  rw [(keep a ha).1, (keep a ha).2, (keep b hb).1, (keep b hb).2]
  exact hab

theorem moves_replaceClaim (s : State) (k : Nat) (h : Holder) (x : Claim) (hx : x.segment = k ∧ x.holder = h) :
    Moves s (s.replaceClaim k h x) := by
  refine moves_setClaims s _ (claims_map_ok _ (fun c _ => ?_))
  split
  · rename_i e
    exact ⟨hx.1.trans ((isOf_iff c k h).1 e).1.symm, hx.2.trans ((isOf_iff c k h).1 e).2.symm⟩
  · exact ⟨rfl, rfl⟩

theorem moves_tailClaim (s : State) (k : Nat) (h : Holder) (x : Claim) (hx : x.segment = k ∧ x.holder = h) :
    Moves s (s.tailClaim k h x) := by
  refine moves_setClaims s _ (fun ok => ?_)
  simp only [ClaimsOk, setClaims_claims, List.pairwise_append]
  refine ⟨List.Pairwise.filter _ ok, List.pairwise_singleton _ _, fun a ha b hb => ?_⟩
  rw [List.mem_singleton] at hb
  subst hb
  rintro ⟨e, d⟩
  have := (List.mem_filter.1 ha).2
  simp [Claim.isOf, e, d, hx.1, hx.2] at this

theorem moves_unlinkClaim (s : State) (k : Nat) (m : Master) : Moves s (s.unlinkClaim k m) := by
  refine moves_setClaims s _ (claims_map_ok _ (fun c _ => ?_))
  split <;> exact ⟨rfl, rfl⟩

theorem claim?_isOf {s : State} {k : Nat} {h : Holder} {c : Claim} (e : s.claim? k h = some c) :
    c.segment = k ∧ c.holder = h := by
  unfold State.claim? at e
  exact (isOf_iff c k h).1 (List.find?_some (p := fun c : Claim => c.isOf k h) e)

theorem moves_matchClaim (s : State) (k path : Nat) (call : Call) : Moves s (s.matchClaim k path call) := by
  unfold State.matchClaim
  split
  · split
    · exact Moves.refl s
    · refine Moves.trans ?_ (moves_recompute _ _)
      exact moves_tailClaim _ _ _ _ ⟨rfl, rfl⟩
  · rename_i c hc
    have e := claim?_isOf hc
    split
    · exact (moves_dropClaim s k _).trans (moves_recompute _ _)
    · split
      · refine Moves.trans ?_ (moves_recompute _ _)
        exact moves_tailClaim _ _ _ _ e
      · split
        · exact Moves.refl s
        · refine Moves.trans ?_ (moves_recompute _ _)
          exact moves_replaceClaim _ _ _ _ e

theorem moves_handCall (s : State) (k path : Nat) (call : Call) : Moves s (s.handCall k path call) := by
  unfold State.handCall
  simp only
  split
  · exact (moves_matchClaim s k path call).trans (moves_formSegmentSlot _ _)
  · exact moves_matchClaim s k path call

theorem moves_handOver (s : State) (n : Nat) : Moves s (s.handOver n) := by
  unfold State.handOver
  split
  · exact Moves.refl s
  · exact Moves.fold _ (fun s k => moves_handCall s k n _) _ s

/-! ### Posted slots (R67) -/

theorem moves_endPosted (s : State) (n : Nat) (cause : SlotEndCause) (tell : Bool) :
    Moves s (s.endPosted n cause tell) := by
  unfold State.endPosted
  split
  · exact Moves.refl s
  · split
    · rename_i p _ _
      simp only
      have a : Moves s (match p.link with | some k => s.unlinkClaim k p.owner | none => s) := by
        split
        · exact moves_unlinkClaim _ _ _
        · exact Moves.refl s
      split
      · exact (a.trans (moves_writeSlot _ _ _)).trans (moves_tell _ _ _)
      · exact a.trans (moves_writeSlot _ _ _)
    · exact Moves.refl s

theorem moves_withdrawLinked (s : State) (c : Claim) : Moves s (s.withdrawLinked c) := by
  unfold State.withdrawLinked
  split
  · exact Moves.refl s
  · exact moves_endPosted _ _ _ _

theorem moves_linkSlot (s : State) (n : Nat) (link : Option Nat) : Moves s (s.linkSlot n link) :=
  moves_store s _ rfl rfl (by simp)

theorem moves_tellClaimEnded (s : State) (k : Nat) (m : Master) (reason cause : Nat) :
    Moves s (s.tellClaimEnded k m reason cause) := by
  unfold State.tellClaimEnded
  simp only
  split
  · exact moves_tell _ _ _
  · exact (moves_tell _ _ _).trans (moves_tell _ _ _)

end Sys2Proof.Laws
end

