-- ==== Sys2Proof/Laws/Execution.lean ====
section
/-! SUPPORT. The execution of a waiting command (R167), said once: what State.execute answers, and how a change of the
owning block becomes the answer that Safety.Finishes speaks of. -/

namespace Sys2Proof.Laws

open Sys2Proof.Machine Sys2Proof.Safety

/-- A waiting command of this row is handed to its owning block, with its slot gone from the QUEUED slots, and finished with
the answer. -/
theorem execute_of_waits {s : State} {m : Master} {c : Command} {r : Request} {rest : List Request}
    (w : Waits s m c r rest) (applies : List Byte → Bool) (h : applies r.body = true)
    (owner : List Byte → State → Answer) :
    s.execute m c applies owner =
      (owner r.body (s.takeQueued m rest)).state.finish m ((owner r.body (s.takeQueued m rest)).response r.tag) := by
  have d : (!c.anyState && !(s.takeQueued m rest).described) = false := by
    obtain a | a := w.state
    · simp [a]
    · have : (s.takeQueued m rest).described = true := a
      simp [this]
  simp [State.execute, w.running, w.oldest, w.code, h, State.answer, d, w.length]

/-- A command without a described corridor, and not one of the five, is answered NOT_READY. -/
theorem execute_notReady {s : State} {m : Master} {c : Command} {r : Request} {rest : List Request}
    (run : s.held = none) (q : (s.port m).queued = r :: rest) (code : commandOfCode r.code = some c)
    (any : c.anyState = false) (d : s.described = false) (applies : List Byte → Bool) (h : applies r.body = true)
    (owner : List Byte → State → Answer) :
    s.execute m c applies owner = (s.takeQueued m rest).finish m (refusalOf r .notReady) := by
  have d' : (s.takeQueued m rest).described = false := d
  simp [State.execute, run, q, code, h, State.answer, any, d', Answer.refuse, Answer.response, refusalOf]

/-- A body length the command does not take is answered BAD_ARG. -/
theorem execute_badLength {s : State} {m : Master} {c : Command} {r : Request} {rest : List Request}
    (run : s.held = none) (q : (s.port m).queued = r :: rest) (code : commandOfCode r.code = some c)
    (d : s.described = true) (len : c.takesLength r.body = false) (applies : List Byte → Bool)
    (h : applies r.body = true) (owner : List Byte → State → Answer) :
    s.execute m c applies owner = (s.takeQueued m rest).finish m (refusalOf r .badArg) := by
  have d' : (s.takeQueued m rest).described = true := d
  simp [State.execute, run, q, code, h, State.answer, len, d', Answer.refuse, Answer.response, refusalOf]

/-- Taking a command out of the QUEUED slots changes the request slots alone. -/
theorem takeQueued_frame (s : State) (m : Master) (rest : List Request) : Frame [.queued] s (s.takeQueued m rest) := by
  intro p hp
  cases p <;> first
    | exact absurd (by decide) hp
    | (cases m <;> simp only [Part.same, State.takeQueued] <;> first | (intro k; cases k <;> rfl) | simp [State.setPort])

/-- A slot that becomes DONE changes the request slots alone. -/
theorem finish_frame (s : State) (m : Master) (x : Response) : Frame [.done] s (s.finish m x) := by
  intro p hp
  cases p <;> first
    | exact absurd (by decide) hp
    | (cases m <;> simp only [Part.same, State.finish] <;> first | (intro k; cases k <;> rfl) | simp [State.setPort])

/-- The owning block changed nothing but the parts listed, and no request slot: the command is finished with this answer. -/
theorem finishes_of {s t : State} {m : Master} {rest : List Request} {changed : List Part} (x : Response)
    (h : Frame changed (s.takeQueued m rest) t)
    (q : ∀ k, (t.port k).queued = ((s.takeQueued m rest).port k).queued)
    (d : ∀ k, (t.port k).done = ((s.takeQueued m rest).port k).done) :
    Finishes s (t.finish m x) m rest x changed := by
  refine ⟨⟨?_, ?_, ?_⟩, ?_⟩
  · have := q m
    simpa [State.finish, State.takeQueued] using this
  · have := d m
    simp [State.finish, State.takeQueued] at this ⊢
    rw [this]
  · intro n hn
    have a := q n
    have b := d n
    simp only [State.finish, State.takeQueued, port_setPort_ne _ hn] at a b ⊢
    exact ⟨a, b⟩
  · exact Moves.frame_trans (Moves.frame_mono (by simp [answerParts]) (takeQueued_frame s m rest))
      (Moves.frame_trans (Moves.frame_mono (fun p hp => List.mem_append_left _ hp) h)
        (Moves.frame_mono (by simp [answerParts]) (finish_frame t m x)))

/-- A refused command changes nothing but its slot. -/
theorem finishes_refusal (s : State) (m : Master) (rest : List Request) (x : Response) :
    Finishes s ((s.takeQueued m rest).finish m x) m rest x [] :=
  finishes_of x (Moves.frame_refl _ _) (fun _ => rfl) (fun _ => rfl)

/-- A move of the shared operations, made by the owning block, finishes the command. -/
theorem finishes_of_moves {s t : State} {m : Master} {rest : List Request} (x : Response)
    (h : Moves (s.takeQueued m rest) t) : Finishes s (t.finish m x) m rest x (.claims :: roadParts) :=
  finishes_of x h.frame h.queued h.done

end Sys2Proof.Laws
end

