-- ==== Sys2Proof/Laws/Round.lean ====
section
/-! SUPPORT. What the stages of an update of the power controller keep (R147), and what is put into the queue while no
command waits (notes/assumptions/1.md, 2.md). -/

namespace Sys2Proof.Laws

open Sys2Proof.Machine

/-! ### The update at the end of a round -/

/-- Each stage of an update keeps what it does not compute: the parameters as adopted, the reserve and the mode. -/
theorem carry_keeps (p : Power) (i : Int) (now : Nat) :
    p.carry i now = { p with
      account := (p.carry i now).account, remainder := (p.carry i now).remainder, updated := now } := by
  simp only [Power.carry]
  split
  · rfl
  · split <;> rfl

theorem enterCharge_keeps (p : Power) (c : ChargeState) (now : Nat) :
    p.enterCharge c now = { p with
      charge := c, entered := (p.enterCharge c now).entered, absorbSince := (p.enterCharge c now).absorbSince,
      account := (p.enterCharge c now).account, remainder := (p.enterCharge c now).remainder } := by
  simp only [Power.enterCharge]
  split
  · next h => subst h; rfl
  · split <;> rfl

theorem recalibrate_keeps (p : Power) (r : PowerReadings) :
    p.recalibrate r = { p with account := (p.recalibrate r).account, remainder := (p.recalibrate r).remainder } := by
  simp only [Power.recalibrate]
  split <;> rfl

theorem setPoint_keeps (p : Power) (r : PowerReadings) :
    p.setPoint r = { p with
      enable := (p.setPoint r).enable, target := (p.setPoint r).target, limit := (p.setPoint r).limit,
      word := (p.setPoint r).word, targets := some (p.params.compensate r.temperature) } := by
  simp only [Power.setPoint, Power.present]
  cases p.charge <;> rfl

/-- R146, R147: what an update leaves of the parameters, the reserve and the mode, and the charge state it takes. -/
theorem update_keeps (p : Power) (r : PowerReadings) (now : Nat) :
    (p.update r now).params = p.taken ∧ (p.update r now).fromGroup = p.takenFromGroup ∧
      (p.update r now).taken = p.taken ∧ (p.update r now).takenFromGroup = p.takenFromGroup ∧
      (p.update r now).reserve = p.reserve ∧ (p.update r now).mode = p.mode ∧ (p.update r now).updated = now ∧
      (p.update r now).charge = (p.adopt.carry r.current now).nextCharge r now := by
  simp only [Power.update]
  rw [setPoint_keeps, recalibrate_keeps, enterCharge_keeps, carry_keeps]
  exact ⟨rfl, rfl, rfl, rfl, rfl, rfl, rfl, rfl⟩

/-! ### The events put into the queue -/

/-- The events of one moment are put into the queue in some order, each as often as it fell due. -/
theorem arrange_perm (n d : Nat) (l : List Instr) (h : l.length ≤ n) : (arrange n d l).Perm l := by
  induction n generalizing d l with
  | zero => simp [arrange]
  | succ n ih =>
    match l with
    | [] => simp [arrange]
    | [e] => simp [arrange]
    | a :: b :: l =>
      have k : Config.eventOrder d % (a :: b :: l).length < (a :: b :: l).length := Nat.mod_lt _ (by simp)
      have e : ((a :: b :: l).eraseIdx (Config.eventOrder d % (a :: b :: l).length)).length ≤ n := by
        rw [List.length_eraseIdx_of_lt k]; simpa using h
      simp only [arrange, List.getElem?_eq_getElem k, Option.toList]
      exact ((ih _ _ e).cons _).trans (List.getElem_cons_eraseIdx_perm k)

theorem enqueue_pending (s : State) (events : List Instr) : (s.enqueue events).pending.Perm events :=
  arrange_perm _ _ _ (Nat.le_refl _)

theorem mem_enqueue {s : State} {events : List Instr} {c : Instr} : c ∈ (s.enqueue events).pending ↔ c ∈ events :=
  (enqueue_pending s events).mem_iff

end Sys2Proof.Laws
end

