-- ==== Sys2Proof/WellFormed.lean ====
section
/-! DEFINITION. The checks an operand must pass to name something that can exist at all (spec/00_scope.md, "Numbers
and names"). What a corridor describes is the machine's matter, not a check here. -/

namespace Sys2Proof

/-- The three masters may hold a claim on any segment; a HAZARD claim belongs to one of the paths 0 to 7 (R2). -/
def Holder.wellFormed : Holder → Bool
  | .master _ => true
  | .hazard path => decide (path < 8)

/-- The operand ranges of spec/00_scope.md; a complete reply has five bytes (R188); a channel result is formed from at
most 8 conversions and at least one (R105, R107). -/
def Instr.wellFormed : Instr → Bool
  | .claimStart segment holder | .claimExpiry segment holder => decide (segment < 16) && holder.wellFormed
  | .confirmingExpiry segment | .prewarnMinuteChange segment | .prewarnEnd segment => decide (segment < 16)
  | .inputEdge line _ | .debounceExpiry line => decide (line < 48)
  | .travelTimeout gate | .reversalPauseEnd gate | .holdOffEnd gate | .lampToggle gate => decide (gate < 8)
  | .slotExpiry slot => decide (32 ≤ slot) && decide (slot < 64)
  | .replyReceived bytes => decide (5 ≤ bytes.length)
  | .refreshDue sign | .probeDue sign => decide (sign < 16)
  | .channelConversionDone raws => decide (1 ≤ raws.length) && decide (raws.length ≤ 8)
  | .holdAgeExpiry channel | .silenceExpiry channel => decide (channel < 32)
  | .floorEnd path => decide (path < 8)
  | .powerOn | .pinReset | .lowSupply | .resetEnd | .descriptionLoadEnd _ => true
  | .transferStart _ | .transferEnd _ _ | .unknownCommand _ => true
  | .status _ | .fetchNotice _ | .setNoticeMask _ | .resetPort _ => true
  | .readSegment _ | .placeClaim _ | .releaseClaim _ | .confirmSweep _ | .setAuthority _ => true
  | .readGate _ | .resetGate _ => true
  | .postMessage _ | .withdrawMessage _ | .setPriorityMap _ | .setClock _ => true
  | .readSign _ | .setSignDisable _ | .setSignEnable _ => true
  | .transactionStart | .messageSent | .echoMismatch | .replyTimeout | .lineRecovery => true
  | .readChannel _ | .submitObservation _ | .scanRoundStart => true
  | .readPower _ | .hazardPeriodExpiry => true
  | .readPath _ | .reportDetection _ | .clearPath _ | .setPathFloor _ | .seedPath _ => true
  | .reload _ => true

end Sys2Proof
end

