-- ==== Sys2Proof/Tests/Slice0.lean ====
section
/-! SUPPORT. Tests of the model, with expected results from spec/: the operand checks, the worked cases of the manual,
one effect per family of commands, and, for each statement with hypotheses, a small state that meets them. -/

namespace Sys2Proof.Tests

open Sys2Proof.Machine Sys2Proof.Safety

/-! ### Operands (Sys2Proof/WellFormed.lean) -/

theorem test_wellFormed_accepts : [Instr.claimStart 15 (.hazard 7), .prewarnEnd 15, .inputEdge 47 true, .lampToggle 7,
    .slotExpiry 32, .slotExpiry 63, .replyReceived [1, 2, 3, 4, 5], .probeDue 15, .channelConversionDone [1#12],
    .silenceExpiry 31, .floorEnd 7, .powerOn].all Instr.wellFormed = true := by decide
theorem test_wellFormed_segment : Instr.wellFormed (.claimStart 16 (.master .crew)) = false := by decide
theorem test_wellFormed_holder : Instr.wellFormed (.claimExpiry 0 (.hazard 8)) = false := by decide
theorem test_wellFormed_phase : Instr.wellFormed (.confirmingExpiry 16) = false := by decide
theorem test_wellFormed_line : Instr.wellFormed (.debounceExpiry 48) = false := by decide
theorem test_wellFormed_gate : Instr.wellFormed (.travelTimeout 8) = false := by decide
theorem test_wellFormed_slot_low : Instr.wellFormed (.slotExpiry 31) = false := by decide
theorem test_wellFormed_slot_high : Instr.wellFormed (.slotExpiry 64) = false := by decide
theorem test_wellFormed_reply : Instr.wellFormed (.replyReceived [1, 2, 3, 4]) = false := by decide
theorem test_wellFormed_sign : Instr.wellFormed (.refreshDue 16) = false := by decide
theorem test_wellFormed_no_raw : Instr.wellFormed (.channelConversionDone []) = false := by decide
theorem test_wellFormed_raws : Instr.wellFormed (.channelConversionDone (List.replicate 9 0#12)) = false := by decide
theorem test_wellFormed_channel : Instr.wellFormed (.holdAgeExpiry 32) = false := by decide
theorem test_wellFormed_path : Instr.wellFormed (.floorEnd 8) = false := by decide

/-- No row of the table gives bits. -/
theorem test_no_word_spells_a_command : decodeTableWord 32 0xA6010000 = none := by decide

/-! ### Figures of the manual -/

/-- R187: over the nine bytes of "123456789" the check is 29B1h. -/
theorem test_crc : crc [0x31, 0x32, 0x33, 0x34, 0x35, 0x36, 0x37, 0x38, 0x39] = 0x29B1#16 := by decide +kernel
/-- R188: the two's complement of the sum: PROBE to address 9 is C5h, 09h, 03h, 0, 0, 0, and D1h + 2Fh is 100h. -/
theorem test_sign_check : messageBytes 9 .probe = [0xC5, 9, 3, 0, 0, 0, 0x2F] := by decide
/-- R189: the set-point word of 28,800 mV and 20,000 mA; 70h + 80h + 4Eh + 20h is 15Eh, and its complement A2h. -/
theorem test_set_point : setPointWord 28800 20000 = [0x70, 0x80, 0x4E, 0x20, 0xA2] := by decide
/-- 5.9: 4088 against a span of 400 is 399 rounded, 1960 is 191. -/
theorem test_scaling : scaledValue .depth 400 0 4088 = 399 ∧ scaledValue .depth 400 0 1960 = 191 := by decide

def lee : PathConfig :=
  { depthChannel := 3, speedChannel := 5, directionChannel := 14, airChannel := 4, centre := 40, halfWidth := 45,
    sensitivity := 120, t1 := 100, t2 := 250, t3 := 450, t4 := 700, band := 30, minDwell := 2, adviseLevel := 3,
    closeLevel := 4, segments := [0, 1], residual := 25, trip := none }
def gully : Path :=
  { cfg := lee, loading := 2410, refDepth := some 182, level := 2, dwell := 4, latch := .clear, floor := none,
    degraded := false, substitutes := { depth := false, wind := false, temperature := false }, unseeded := false,
    working := none }

/-- 6.9. -/
theorem test_worked_period :
    ((gully.period { depth := some 189, speed := some 94, direction := some 70, air := some (-65) } 600 24000).loading,
      (gully.period { depth := some 189, speed := some 94, direction := some 70, air := some (-65) } 600 24000).level) =
    (2599, 3) := by decide
/-- 6.10: a heavy night. -/
theorem test_worked_heavy_night :
    (({ gully with
        cfg := { lee with sensitivity := 400, centre := 200, halfWidth := 60 }
        loading := 4000, refDepth := some 150, level := 3, dwell := 7 } : Path).figures
      { depth := some 240, speed := some 154, direction := some 215, air := some (-120) } 600 0).newLoading = 9999 := by decide
/-- 6.10: instruments down. -/
theorem test_worked_blind :
    (({ gully with loading := 3000, level := 4, dwell := 1, refDepth := some 210 } : Path).period
      { depth := none, speed := none, direction := some 9, air := none } 600 0).loading = 2995 := by decide
/-- 6.11: the third period of the descent. -/
theorem test_worked_descent :
    (({ gully with cfg := { lee with sensitivity := 100 }, loading := 2143, level := 4, dwell := 2 } : Path).period
      { depth := some 182, speed := some 10, direction := some 200, air := some 30 } 3600 0).level = 3 := by decide

/-- 7.4: from A = 40,512 and rem = 1,200, −1,750 mA over 30 s. -/
theorem test_worked_remainder :
    (({ resetPower with
        params := { defaultParams with capacity := 100000 }
        account := 40512, remainder := 1200, updated := 41000 } : Power).carry (-1750) 41030).account = 40497 := by decide
/-- 7.4: the full end. -/
theorem test_worked_full :
    (({ resetPower with
        params := { defaultParams with capacity := 100000 }
        account := 99990, remainder := 3000, updated := 0 } : Power).carry 5000 10).remainder = 0 := by decide

/-! ### A small corridor: segment 0 without gates, segment 1 with two, a panel, a weather sign, one path -/

def gateOf (out inp : Nat) : Gate :=
  { cfg := { segment := 1, lowerLine := out, raiseLine := out + 1, lampLine := out + 2, upLine := inp, downLine := inp + 1,
             obstructionLine := inp + 2, keyLine := inp + 3, timeout := 400, lowerCost := 3000, raiseCost := 4000 },
    state := .up, sub := none, position := .atUp, travel := 0, pause := none, reason := none, raiseHeld := false,
    holdOff := none, demand := .noDemand, flashing := false, lampOn := false, lampLeft := 0 }
def segmentOf (gates approach : List Nat) : Segment :=
  { cfg := { gates := gates, approach := approach, interval := 120 }, state := .opened, phase := none, since := 0,
    level := .noLevel, urgent := false, deciding := none, secured := false, unwarned := false, swept := false,
    demand := .noDemand, remaining := 0, confirmDue := none }
def signOf (kind : SignKind) (address : Nat) (lookahead : List Nat) : Sign :=
  { cfg := { kind := kind, address := address, lookahead := lookahead, station := 1 }, state := .online, ack := none,
    lampFault := false, heaterFault := false, doorOpen := false, refused := false, disablePending := false, attempts := 0,
    lastAck := none, refreshDue := none, probeDue := none }
def vane : Channel :=
  Channel.fresh { source := .remote .slope, kind := .windDir, station := some 3, lo := 0, hi := 359, holdLimit := 1800 }
def stake : Channel :=
  Channel.fresh { source := .wired (some 3) 400 0 4, kind := .depth, station := some 1, lo := 0, hi := 350, holdLimit := 600 }

/-- The two up limits stand asserted. -/
def roadLines : List InputLine :=
  (List.range 48).map (fun l => { present := l == 3 || l == 7, level := l == 3 || l == 7, stability := none })

/-- The corridor at corridor time 100. -/
def road : State :=
  { State.reset with
    clocks := { seconds := 100, millis := 0, display := none }
    segs := { State.reset.segs with records := [segmentOf [] [], segmentOf [0, 1] [0]] }
    gates := [gateOf 0 3, gateOf 3 7]
    store := { State.reset.store with tops := [Top.blank, Top.blank] }
    line := { resetLine with signs := [signOf .panel 9 [0, 1], signOf .weather 11 []] }
    scan := { State.reset.scan with
      channels := (resetChannels.set 3 (some stake)).set 14 (some vane)
      lines := roadLines
      converting := none }
    hazard := { State.reset.hazard with paths := [gully] }
    loader := { State.reset.loader with state := .ready } }

def reqOf (c : Command) (body : List Nat) : Request := { tag := 7, code := c.code, body := body.map byteOf }

/-- One command waits in the port of m. -/
def asks (s : State) (m : Master) (c : Command) (body : List Nat) : State :=
  s.setPort m { s.port m with queued := [reqOf c body] }

theorem code_known (c : Command) : commandOfCode c.code = some c := by cases c <;> rfl

theorem asks_waits (s : State) (m : Master) (c : Command) (body : List Nat) (running : s.held = none)
    (state : c.anyState = true ∨ s.described = true) (length : c.takesLength (reqOf c body).body = true) :
    Waits (asks s m c body) m c (reqOf c body) [] :=
  ⟨running, state, by cases m <;> rfl, code_known c, length⟩

/-- In the corridor. -/
theorem road_waits (m : Master) (c : Command) (body : List Nat) (length : c.takesLength (reqOf c body).body = true) :
    Waits (asks road m c body) m c (reqOf c body) [] := asks_waits road m c body rfl (.inr rfl) length

theorem road_running : Running road := ⟨rfl, rfl⟩

/-- The state a command gives. -/
def after (i : Instr) (s : State) : State :=
  match exec i s with
  | .next t => t
  | _ => s

/-! ### One effect per command -/

/-- R183: a supply rising from off. -/
theorem test_powerOn : (after .powerOn road).held = some .powerOn := by decide +kernel
/-- R183. -/
theorem test_pinReset : (after .pinReset road).held = some .pin := by decide +kernel
/-- R159: the outputs go off in the reset. -/
theorem test_lowSupply : (after .lowSupply road).chargeEnable = false := by decide +kernel
/-- R183: the supply is found low while the part is not running. -/
theorem test_lowSupply_held : (after .lowSupply (after .pinReset road)).held = some .pin := by decide +kernel
/-- R146: the capacity acts at once, the economy threshold from the next end of a round. -/
theorem test_takeParams :
    let p := resetPower.takeParams (some { defaultParams with capacity := 100000, economyPercent := 60 })
    (p.params.e1, p.adopt.params.e1) = (40000, 60000) := by decide
/-- R177: RESTARTED at each port, its first value the cause PIN, code 1. -/
theorem test_resetEnd : ((after .resetEnd (after .pinReset road)).port .crew).notices.map (fun n => (n.kind, n.first)) =
    [(.restarted, 1#16)] := by decide +kernel
/-- R179: a memory whose header cannot be read. -/
theorem test_descriptionLoadEnd : (after (.descriptionLoadEnd []) State.reset).loader.state = .noCorridor := by decide +kernel
/-- R164: with nothing DONE the EMPTY status frame goes out: lead 5Ah, tag 0, code 0Fh, 8 free slots. -/
theorem test_transferStart : (((after (.transferStart .slope) road).port .slope).transfer.map (fun t => t.frame.take 4)) =
    some [0x5A, 0, 0x0F, 8] := by decide +kernel
/-- R166: the bytes of STATUS with tag 7 become a QUEUED slot. -/
theorem test_transferEnd : ((after (.transferEnd .slope (requestFrame (reqOf .status [])))
    (after (.transferStart .slope) road)).port .slope).queued = [reqOf .status []] := by decide +kernel
/-- R167: code 7Eh. -/
theorem test_unknownCommand : ((after (.unknownCommand .crew) (road.setPort .crew { resetPort [] with
    queued := [{ tag := 7, code := 0x7E, body := [] }] })).port .crew).done.map (·.code) = [.unknownCommand] := by decide +kernel

/-- The newest response of a port: its code and body. -/
def answered (s : State) (m : Master) : Option (RespCode × List Nat) :=
  ((s.port m).done.getLast?).map (fun x => (x.code, x.body.map BitVec.toNat))

/-- 10.3: the part state READY, cause POWER_ON, mode NORMAL, time 100; own port with 7 free slots and 1 DONE. -/
theorem test_status : (answered (after (.status .crew) (asks road .crew .status [])) .crew).map (fun x => (x.1, x.2.take 7)) =
    some (.ok, [1, 0, 0, 0, 0, 0, 100]) := by decide +kernel
/-- R172: RESTARTED, kind 0, taken; none left. -/
theorem test_fetchNotice : answered (after (.fetchNotice .crew) (asks road .crew .fetchNotice [])) .crew =
    some (.ok, [1, 0, 0, 0, 0, 0, 0, 0, 0, 0, 0, 0, 0, 0, 0]) := by decide +kernel
/-- R173: kind 14 is not one of the 14. -/
theorem test_setNoticeMask : answered (after (.setNoticeMask .crew) (asks road .crew .setNoticeMask [0x40, 0])) .crew =
    some (.badArg, []) := by decide +kernel
/-- R174: the queue is emptied. -/
theorem test_resetPort : ((after (.resetPort .crew) (asks road .crew .resetPort [])).port .crew).notices = [] := by decide +kernel
/-- R21: segment 2 is not described. -/
theorem test_readSegment : answered (after (.readSegment .crew) (asks road .crew .readSegment [2])) .crew =
    some (.badArg, []) := by decide +kernel

def phaseOf (s : State) (k : Nat) : Option (SegState × Option Phase) := (s.segs.records[k]?).map (fun x => (x.state, x.phase))
def closeNow : List Nat := [1, 3, 0, 5, 0, 0, 0, 0, 0, 0, 0, 0, 255]
def closeUrgent : List Nat := [1, 3, 1, 5, 0, 0, 0, 0, 0, 0, 0, 0, 255]

/-- R11, R12: CLOSE on an OPEN segment with an approach sign that does not yet warn begins with CONFIRMING. -/
theorem test_placeClaim : phaseOf (after (.placeClaim .centre) (asks road .centre .placeClaim closeNow)) 1 =
    some (.closing, some .confirming) := by decide +kernel
/-- R14, R37: CLOSE urgent goes straight to LOWERING, and both gates lower. -/
theorem test_placeClaim_urgent : (after (.placeClaim .centre) (asks road .centre .placeClaim closeUrgent)).gates.map
    (fun x => (x.state, x.travel)) = [(.lowering, 400), (.lowering, 400)] := by decide +kernel

/-- The corridor with CENTRE's CLOSE just placed. -/
def closing : State := after (.placeClaim .centre) (asks road .centre .placeClaim closeNow)
/-- R15: the release of the only claim in CONFIRMING opens the segment again. -/
theorem test_releaseClaim : phaseOf (after (.releaseClaim .centre) (asks closing .centre .releaseClaim [1, 0])) 1 =
    some (.opened, none) := by decide +kernel
/-- R26: a sweep of a segment that is not REOPENING. -/
theorem test_confirmSweep : answered (after (.confirmSweep .crew) (asks road .crew .confirmSweep [1])) .crew =
    some (.wrongState, []) := by decide +kernel
/-- R27: SLOPE may not. -/
theorem test_setAuthority : answered (after (.setAuthority .slope) (asks road .slope .setAuthority [1, 0, 0])) .slope =
    some (.noRight, []) := by decide +kernel

/-- A claim of SLOPE, CLOSE, that starts and ends at 100, pending. -/
def waitingClaim : Claim :=
  { segment := 1, holder := .master .slope, level := .close, urgent := false, reason := 2, since := 40, start := some 100,
    endsAt := some 100, link := none, pending := true }
def waitingRoad : State := { road with segs := { road.segs with claims := [waitingClaim] } }
/-- R4: the start of the claim closes the segment. -/
theorem test_claimStart : phaseOf (after (.claimStart 1 (.master .slope)) waitingRoad) 1 = some (.closing, some .confirming) := by
  decide +kernel
/-- R5: its end leaves no claim. -/
theorem test_claimExpiry : (after (.claimExpiry 1 (.master .slope)) waitingRoad).segs.claims = [] := by decide +kernel

/-- Segment 1 with these fields. -/
def segmentIn (x : Segment) : State := road.updSegment 1 (fun _ => x)
def unconfirmed : Segment :=
  { segmentOf [0, 1] [0] with
    state := .closing, phase := some .confirming, level := .close, remaining := 120, confirmDue := some 100 }
def countedDown : Segment := { unconfirmed with phase := some .prewarn, remaining := 0, confirmDue := none }
/-- R12: unwarned. -/
theorem test_confirmingExpiry : phaseOf (after (.confirmingExpiry 1) (segmentIn unconfirmed)) 1 =
    some (.closing, some .prewarn) := by decide +kernel
/-- R13, R61: 61 s left show 2 minutes in catalogue message 4. -/
theorem test_prewarnMinuteChange :
    (((after (.prewarnMinuteChange 1) (segmentIn { countedDown with remaining := 61 })).store.slots[1]?).bind
      (·.content)).map (fun c => (c.catalogue, c.params)) = some (4, [2, 0]) := by decide +kernel
/-- R13. -/
theorem test_prewarnEnd : (after (.prewarnEnd 1) (segmentIn countedDown)).gates.map (·.state) = [.lowering, .lowering] := by
  decide +kernel

/-- Gate 0 with these fields. -/
def gateIn (x : Gate) : State := road.updGate 0 (fun _ => x)
def driven : Gate := { gateOf 0 3 with state := .lowering, sub := some .driving, position := .between, demand := .lower }
/-- R54. -/
theorem test_readGate : (answered (after (.readGate .crew) (asks road .crew .readGate [1])) .crew).map (fun x => x.2.length) =
    some 28 := by decide +kernel
/-- R55: not in FAULT. -/
theorem test_resetGate : answered (after (.resetGate .crew) (asks road .crew .resetGate [0])) .crew =
    some (.wrongState, []) := by decide +kernel
/-- R113: 40 ms. -/
theorem test_inputEdge : ((after (.inputEdge 5 true) road).scan.lines[5]?).map (·.stability) = some (some 40) := by decide +kernel

/-- Line l stands at the end of its stability time with this present input. -/
def settled (s : State) (l : Nat) (b : Bool) : State :=
  { s with scan := { s.scan with lines := s.scan.lines.set l { present := b, level := !b, stability := some 0 } } }
/-- R46: an arm at rest leaves its up limit. -/
theorem test_debounceExpiry : (after (.debounceExpiry 3) (settled road 3 false)).gates.map (·.reason) =
    [some .leftPosition, none] := by decide +kernel
/-- R48: an obstruction stops the arm with 250 tenths left. -/
theorem test_debounceExpiry_obstruction : (after (.debounceExpiry 5) (settled (gateIn { driven with travel := 250 }) 5 true)).gates.map
    (fun x => (x.state, x.travel)) = [(.stopped, 250), (.up, 0)] := by decide +kernel
/-- R44. -/
theorem test_travelTimeout : (after (.travelTimeout 0) (gateIn driven)).gates.map (·.reason) = [some .travelTimeout, none] := by
  decide +kernel
/-- R43: the pause ends in driving, with the whole travel. -/
theorem test_reversalPauseEnd : (after (.reversalPauseEnd 0) (gateIn { driven with sub := some .reversing, pause := some 0 })).gates.map
    (fun x => (x.sub, x.travel)) = [(some .driving, 400), (none, 0)] := by decide +kernel
/-- R48: the frozen travel resumes. -/
theorem test_holdOffEnd : (after (.holdOffEnd 0) (gateIn { driven with
    state := .stopped, sub := none, holdOff := some 0, travel := 9 })).gates.map (fun x => (x.sub, x.travel)) =
    [(some .driving, 9), (none, 0)] := by decide +kernel
/-- R34. -/
theorem test_lampToggle : (after (.lampToggle 0) (gateIn { gateOf 0 3 with flashing := true, lampOn := true })).output 2 = false := by
  decide +kernel

def postBody : List Nat := [0, 1, 40, 1, 2, 0, 0, 0, 10, 0, 7]
/-- R76: the first of CREW's slots, 56, generation 1. -/
theorem test_postMessage : answered (after (.postMessage .crew) (asks road .crew .postMessage postBody)) .crew =
    some (.ok, [56, 1]) := by decide +kernel
/-- SLOPE's message for the panel, linked to its claim, at its end. -/
def posted : Slot :=
  { content := some { origin := 9, cls := 1, catalogue := 40, params := [7] }, generation := 255,
    posted := some { owner := .slope, targets := 1, urgency := 2, endsAt := some 100, link := some 1 } }
def postedRoad : State :=
  { waitingRoad with
    segs := { road.segs with claims := [{ waitingClaim with link := some 48 }] }
    store := { road.store with slots := road.store.slots.set 48 posted } }
/-- R77: CREW is neither owner nor CENTRE. -/
theorem test_withdrawMessage : answered (after (.withdrawMessage .crew) (asks postedRoad .crew .withdrawMessage [48])) .crew =
    some (.noRight, []) := by decide +kernel
/-- R66, R59: the generation wraps. -/
theorem test_slotExpiry : ((after (.slotExpiry 48) postedRoad).store.slots[48]?).map (fun x => (x.content, x.generation)) =
    some (none, 0) := by decide +kernel
/-- R65: origins 3 and 4 keep their class. -/
theorem test_setPriorityMap : (after (.setPriorityMap .centre) (asks road .centre .setPriorityMap [0x30, 0x03])).store.priority.take 4 =
    [3, 2, 2, 3] := by decide +kernel
/-- R79. -/
theorem test_setClock : answered (after (.setClock .centre) (asks road .centre .setClock [5, 160])) .centre =
    some (.badArg, []) := by decide +kernel

def signIn (x : Sign) : State := { road with line := { road.line with signs := [x, signOf .weather 11 []] } }
/-- R99. -/
theorem test_readSign : (answered (after (.readSign .crew) (asks road .crew .readSign [1])) .crew).map (fun x => x.2.length) =
    some 50 := by decide +kernel
/-- R100, R101. -/
theorem test_setSignDisable : (after (.setSignDisable .centre) (asks road .centre .setSign [0, 0])).line.entries.map (·.reason) =
    [.blank] := by decide +kernel
/-- R102. -/
theorem test_setSignEnable : (after (.setSignEnable .centre) (asks (signIn { signOf .panel 9 [0] with state := .disabled })
    .centre .setSign [0, 1])).line.entries.map (·.reason) = [.probe] := by decide +kernel

def entryOf (r : EntryReason) : Entry := { sign := 0, reason := r, time := 60, order := 0 }
def listing (r : EntryReason) : State := { road with line := { road.line with entries := [entryOf r] } }
def flying (e : Exchange) : InFlight :=
  { entry := entryOf .refresh, held := none, finalBlank := false, noted := none, stage := .first, op := .blank,
    message := messageBytes 9 .blank, exchange := e }
def inAir (e : Exchange) : State := { road with line := { road.line with inFlight := some (flying e) } }
/-- R86. -/
theorem test_transactionStart : (after .transactionStart (listing .probe)).line.inFlight.map (·.op) = some .probe := by
  decide +kernel
/-- R87. -/
theorem test_messageSent : (after .messageSent (inAir .sending)).line.inFlight.map (·.exchange) = some (.window 30) := by
  decide +kernel
/-- R93: 8 per mismatch. -/
theorem test_echoMismatch : (after .echoMismatch (inAir .sending)).line.errors = 8 := by decide +kernel
/-- R88, R82: an ACK with the door open. -/
theorem test_replyReceived : (after (.replyReceived (withSumCheck [0xC5, 9, 6, 4])) (inAir (.window 5))).line.signs.map (·.state) =
    [.degraded, .online] := by decide +kernel
/-- R90. -/
theorem test_replyTimeout : (after .replyTimeout (inAir (.window 0))).line.signs.map (·.attempts) = [1, 0] := by decide +kernel
/-- R95. -/
theorem test_refreshDue : (after (.refreshDue 0) (signIn { signOf .panel 9 [0] with refreshDue := some 100 })).line.entries.map
    (·.reason) = [.refresh] := by decide +kernel
/-- R92. -/
theorem test_probeDue : (after (.probeDue 0) (signIn { signOf .panel 9 [0] with
    state := .unreachable, probeDue := some 100 })).line.signs.map (·.probeDue) = [some 160, none] := by decide +kernel
/-- R94. -/
theorem test_lineRecovery : (after .lineRecovery { road with line := { road.line with
    state := .down, errors := 130, recovery := some 100 } }).line.state = .up := by decide +kernel

/-- R116. -/
theorem test_readChannel : (answered (after (.readChannel .crew) (asks road .crew .readChannel [14])) .crew).map
    (fun x => x.2.length) = some 48 := by decide +kernel
/-- 5.10: 360 from SLOPE is taken as 0: OK, GOOD and 0. -/
theorem test_submitObservation : answered (after (.submitObservation .slope)
    (asks road .slope .submitObservation [14, 1, 104, 0])) .slope = some (.ok, [1, 0, 0]) := by decide +kernel
/-- 5.10: CREW does not feed it. -/
theorem test_submitObservation_feeder : answered (after (.submitObservation .crew)
    (asks road .crew .submitObservation [14, 0, 90, 0])) .crew = some (.noRight, []) := by decide +kernel

/-- The stake is in hand in a round. -/
def scanning (c : Nat) : State := { road with scan := { road.scan with converting := some c } }
/-- R108, R109: the first channel that converts is 3. -/
theorem test_scanRoundStart : (after .scanRoundStart { road with scan := { road.scan with
    nextRound := some 100 } }).scan.converting = some 3 := by decide +kernel
/-- 5.9: raw 1960 is 191, GOOD. -/
theorem test_channelConversionDone : ((after (.channelConversionDone [1960, 1960, 1960, 1960]) (scanning 3)).channel? 3).map
    (fun x => (x.quality, x.value)) = some (.good, some 191) := by decide +kernel
/-- A channel that has stood HELD and unfed since 0. -/
def stale (c : Channel) : Channel :=
  { c with desc := { c.desc with holdLimit := 100 }, quality := .held, value := some 5, heldSince := some 0, silenceFrom := some 0 }
/-- R111. -/
theorem test_holdAgeExpiry : ((after (.holdAgeExpiry 14) (road.setChannel 14 (stale vane))).channel? 14).map (·.cause) =
    some (some .holdAge) := by decide +kernel
/-- R111. -/
theorem test_silenceExpiry : ((after (.silenceExpiry 14) (road.setChannel 14 (stale vane))).channel? 14).map (·.cause) =
    some (some .noSubmission) := by decide +kernel
/-- R161. -/
theorem test_readPower : (answered (after (.readPower .crew) (asks road .crew .readPower [])) .crew).map (fun x => x.2.length) =
    some 82 := by decide +kernel

def pathIn (p : Path) : State := { road with hazard := { road.hazard with paths := [p] } }
/-- R121: a period of 600 s later the next is at 1200. -/
theorem test_hazardPeriodExpiry : (after .hazardPeriodExpiry { road with
    clocks := { road.clocks with seconds := 600 } }).hazard.nextExpiry = 1200 := by decide +kernel
/-- R132: the level is left. -/
theorem test_floorEnd : (after (.floorEnd 0) (pathIn { gully with
    level := 4, floor := some { level := 4, endsAt := 100 } })).hazard.paths.map (fun p => (p.level, p.floor)) = [(4, none)] := by
  decide +kernel
/-- R139. -/
theorem test_readPath : (answered (after (.readPath .crew) (asks road .crew .readPath [0])) .crew).map (fun x => x.2.length) =
    some 74 := by decide +kernel
/-- R136, R137: a RELEASE at loading 2599 and 25 % leaves 649 (6.12). -/
theorem test_reportDetection : answered (after (.reportDetection .slope)
    (asks (pathIn { gully with loading := 2599 }) .slope .reportDetection [0, 1])) .slope = some (.ok, [1, 2, 137]) := by decide +kernel
/-- R141. -/
theorem test_clearPath : (after (.clearPath .slope) (asks (pathIn { gully with latch := .release }) .slope .clearPath [0])).hazard.paths.map
    (·.latch) = [.clear] := by decide +kernel
/-- R142: a floor of 4 lifts the level, and its segments close. -/
theorem test_setPathFloor : phaseOf (after (.setPathFloor .slope) (asks road .slope .setPathFloor [0, 4, 0, 0, 1, 0])) 1 =
    some (.closing, some .confirming) := by decide +kernel
/-- R143. -/
theorem test_seedPath : (after (.seedPath .slope) (asks road .slope .seedPath [0, 39, 16])).hazard.paths.map (·.loading) =
    [9999] := by decide +kernel
/-- R185. -/
theorem test_reload : (after (.reload .centre) (asks road .centre .reload [])).loader.state = .loading := by decide +kernel

/-! ### The hypotheses of the statements can be met -/

/-- A step from a state in which a command waits, for the statements of what every step keeps. -/
theorem steps (c : Instr) (s : State) : ∃ t, step { s with pending := [c] } = .next t := by cases c <;> exact ⟨_, rfl⟩

/-- The corridor with a command in its queue. -/
def busyRoad : State := { asks closing .centre .releaseClaim [1, 0] with pending := [.releaseClaim .centre] }

theorem port_ok (p : Port) (slots : p.queued.length + p.done.length ≤ 8) (room : p.notices.length ≤ 16)
    (keys : p.notices.Pairwise (fun a b => a.sameKey b = false)) : PortOk p := ⟨slots, room, keys⟩

theorem witness_PortsStayWithinTheirSlots : PortsOk busyRoad ∧ ∃ t, step busyRoad = .next t :=
  ⟨fun m => by cases m <;> exact port_ok _ (by decide +kernel) (by decide +kernel) (by decide +kernel), _, rfl⟩
theorem witness_PathsStayWithinTheirBounds : PathsOk busyRoad ∧ ∃ t, step busyRoad = .next t := by
  refine ⟨fun p hp => ?_, _, rfl⟩
  have e : p = gully := by
    have h : busyRoad.hazard.paths = [gully] := by decide +kernel
    rw [h] at hp
    exact List.mem_singleton.1 hp
  subst e
  exact ⟨by decide, by decide, by decide, by decide, by decide, fun f hf => by cases hf⟩
theorem witness_AccountStaysWithinTheCapacity : AccountOk busyRoad ∧ ∃ t, step busyRoad = .next t :=
  ⟨⟨by decide +kernel, by decide +kernel, by decide +kernel⟩, _, rfl⟩
theorem witness_ClaimsStayOnePerHolder : ClaimsOk busyRoad ∧ ∃ t, step busyRoad = .next t :=
  ⟨by unfold ClaimsOk; decide +kernel, _, rfl⟩

/-- A transaction of sign 0 is in flight while sign 1 waits. -/
def fullLine : State :=
  { inAir (.window 0) with
    pending := [.replyTimeout]
    line := { (inAir (.window 0)).line with entries := [{ entryOf .change with sign := 1 }] } }
theorem witness_TransmitListStaysOnePerSign : LineOk fullLine.line ∧ ∃ t, step fullLine = .next t := by
  refine ⟨⟨by decide +kernel, fun x hx => ?_⟩, _, rfl⟩
  have e : x = flying (.window 0) := (Option.some.inj hx).symm
  subst e
  decide +kernel

/-- A gate lowers with its segment, whose travel has run out. -/
def lowering : State :=
  let s := after (.placeClaim .centre) (asks road .centre .placeClaim closeUrgent)
  { s with pending := [.travelTimeout 0] }
theorem witness_GateRecordsStayConsistent : GatesOk lowering ∧ ∃ t, step lowering = .next t := by
  refine ⟨fun x hx => ?_, _, rfl⟩
  have h : lowering.gates = [
      { gateOf 0 3 with state := .lowering, sub := some .driving, travel := 400, demand := .lower, flashing := true,
                        lampOn := true, lampLeft := 500 },
      { gateOf 3 7 with state := .lowering, sub := some .driving, travel := 400, demand := .lower, flashing := true,
                        lampOn := true, lampLeft := 500 }] := by decide +kernel
  rw [h] at hx
  simp only [List.mem_cons, List.not_mem_nil, or_false] at hx
  obtain rfl | rfl := hx <;> refine ⟨?_, ?_, ?_, ?_, ?_, ?_, ?_⟩ <;> simp [gateOf]
/-- The segment records of the corridor when it lowers. -/
theorem lowering_records : lowering.segs.records = [segmentOf [] [],
    { segmentOf [0, 1] [0] with
      state := .closing, phase := some .lowering, since := 100, level := .close, urgent := true,
      deciding := some (.master .centre), demand := .lower }] := by decide +kernel
theorem witness_SegmentRecordsStayConsistent : SegmentsOk lowering ∧ ∃ t, step lowering = .next t := by
  refine ⟨fun x hx => ?_, _, rfl⟩
  rw [lowering_records] at hx
  simp only [List.mem_cons, List.not_mem_nil, or_false] at hx
  obtain rfl | rfl := hx <;> refine ⟨?_, ?_, ?_, ?_, ?_, ?_, ?_, ?_, ?_, ?_, ?_⟩ <;>
    simp [segmentOf, Segment.wantedDemand]
theorem witness_LevelsFollowTheClaims : LevelsOk lowering ∧ ∃ t, step lowering = .next t := by
  refine ⟨fun k x h => ?_, _, rfl⟩
  have claims : lowering.segs.claims = [
      { segment := 1, holder := .master .centre, level := .close, urgent := true, reason := 5, since := 100, start := none,
        endsAt := none, link := none, pending := false }] := by decide +kernel
  rw [lowering_records] at h
  rcases k with _ | _ | k
  · obtain rfl := Option.some.inj h
    simp only [FollowsClaims, State.claimsOf, claims]
    decide
  · obtain rfl := Option.some.inj h
    simp only [FollowsClaims, State.claimsOf, claims]
    decide
  · simp at h

/-- A swept segment whose two gates rise. -/
def rising : State :=
  { road with
    pending := [.travelTimeout 0]
    segs := { road.segs with records := [segmentOf [] [],
      { segmentOf [0, 1] [] with state := .reopening, swept := true, demand := .raise }] }
    gates := [{ gateOf 0 3 with state := .raising, demand := .raise }, { gateOf 3 7 with state := .raising, demand := .raise }] }
theorem witness_ArmsRiseOnlyBehindASweep : RoadOk rising ∧ (∃ x ∈ rising.gates, x.state = .raising) ∧
    ∃ t, step rising = .next t := by
  refine ⟨⟨fun h => (by cases h), fun _ g x h => ?_, fun k y g x hk hg hx => ?_, by decide +kernel, fun x h _ => ?_⟩,
    by decide +kernel, _, rfl⟩
  · rcases g with _ | _ | g
    · obtain rfl := Option.some.inj h
      exact ⟨_, rfl, by decide⟩
    · obtain rfl := Option.some.inj h
      exact ⟨_, rfl, by decide⟩
    · simp [rising] at h
  · rcases k with _ | _ | k
    · obtain rfl := Option.some.inj hk
      simp [segmentOf] at hg
    · obtain rfl := Option.some.inj hk
      simp only [segmentOf, List.mem_cons, List.not_mem_nil, or_false] at hg
      obtain rfl | rfl := hg <;> obtain rfl := Option.some.inj hx <;> exact ⟨rfl, rfl⟩
    · simp [rising] at hk
  · simp only [rising, List.mem_cons, List.not_mem_nil, or_false] at h
    obtain rfl | rfl := h <;> exact ⟨_, rfl, rfl, rfl⟩
theorem witness_SlotClassesFollowTheMap : ClassesOk { postedRoad with pending := [.slotExpiry 48] } ∧
    ∃ t, step { postedRoad with pending := [.slotExpiry 48] } = .next t := by
  refine ⟨⟨by decide +kernel, fun h => by cases h⟩, _, rfl⟩

/-- Held in a reset; with a command QUEUED; with nothing ready, and no corridor or one; at the last millisecond of a second. -/
theorem witness_TimePassesWhileNothingWaits :
    ((after .pinReset road).pending = [] ∧ (after .pinReset road).held ≠ none) ∧
    ((asks road .crew .status []).pending = [] ∧ Ready (asks road .crew .status []) (.status .crew)) ∧
    (∀ n, ({ road with clocks := { road.clocks with millis := n } } : State).pending = [] ∧
      ∀ c, ¬ Ready { road with clocks := { road.clocks with millis := n } } c) ∧
    (State.reset.held = none ∧ State.reset.described = false ∧ ∀ c, ¬ Ready State.reset c) := by
  refine ⟨by decide +kernel, ⟨rfl, .inl ⟨.crew, reqOf .status [], [], rfl, rfl⟩⟩, fun n => ⟨rfl, ?_⟩, rfl, rfl, ?_⟩ <;>
  · rintro c (⟨m, r, rest, h, -⟩ | ⟨-, -, -, -, e, x, h, -⟩)
    · cases m <;> cases h
    · cases h
theorem witness_ResetsHoldEveryRecord : road.held = none ∧ (after .lowSupply road).held = some .lowSupply ∧
    (after .pinReset road).held = some .pin ∧ (after .powerOn road).held = some .powerOn := by decide +kernel
theorem witness_ResetEndBeginsLoading : (after .pinReset road).held = some .pin := by decide +kernel
/-- Three reads of the last header byte fail. -/
def deadHeader : List MemCell := List.replicate 13 { nacks := 2, value := 0 } ++ [{ nacks := 3, value := 0 }]
theorem witness_FaultyDescriptionEndsInNoCorridor : State.reset.held = none ∧ State.reset.loader.state = .loading ∧
    (loadImage []).description = none ∧ deadHeader[13]? = some { nacks := 3, value := 0 } := by decide +kernel

/-- A group of the description memory: its length, its records, its check (10.5). -/
def groupCells (records : List Nat) : List MemCell :=
  let l := bytes2 records.length ++ records.map byteOf
  (l ++ crcBytes l).map (fun b => { nacks := 0, value := b })
/-- One segment, one gate, one picto, no channel, no optional group. -/
def smallImage : List MemCell :=
  groupCells [3, 1, 1, 1, 0, 0, 0, 0, 0, 0] ++ groupCells [1, 0, 255, 0, 255, 255, 255, 0, 60] ++
    groupCells [0, 0, 1, 2, 0, 1, 2, 3, 1, 144, 11, 184, 15, 160] ++ groupCells [2, 9, 1, 0, 255, 255, 255, 255] ++ groupCells []
/-- Two segments, the first with the gate, four channels, and a path with trip line 47 that affects the first segment. -/
def tripImage : List MemCell :=
  let channel n kind := [n, 0, n, 255, kind, 1, 1, 144, 0, 0, 0, 0, 1, 94, 4, 2, 88]
  groupCells [3, 2, 1, 1, 4, 1, 1, 0, 0, 0] ++
    groupCells [1, 0, 255, 0, 255, 255, 255, 0, 60, 0, 255, 255, 0, 255, 255, 255, 0, 60] ++
    groupCells [0, 0, 1, 2, 0, 1, 2, 3, 1, 144, 11, 184, 15, 160] ++ groupCells [2, 9, 1, 0, 255, 255, 255, 255] ++
    groupCells (channel 3 0 ++ channel 4 1 ++ channel 5 3 ++ channel 6 4) ++
    groupCells [2, 88, 3, 5, 6, 4, 0, 40, 45, 0, 120, 0, 100, 0, 250, 1, 194, 2, 188, 30, 2, 3, 4, 1, 0, 255, 25, 47]
/-- The part in LOADING with the upper limit of gate 0 and the trip line asserted. -/
def tornLine : State :=
  let asserted : InputLine := { present := true, level := true, stability := none }
  { State.reset with scan := { State.reset.scan with lines := (State.reset.scan.lines.set 0 asserted).set 47 asserted } }
/-- A description without paths, and one with a path whose trip line stands asserted, on one segment of two. -/
theorem witness_DescriptionDerivesTheCorridor :
    (State.reset.held = none ∧ State.reset.loader.state = .loading ∧
      ((loadImage smallImage).description.map (fun d => (d.segments.length, d.gates.length, d.paths))) = some (1, 1, [])) ∧
    tornLine.held = none ∧ tornLine.loader.state = .loading ∧
    ∃ d, (loadImage tripImage).description = some d ∧ Struck tornLine d 0 ∧ ¬ Struck tornLine d 1 ∧
      d.segments.map (·.gates) = [[0], []] ∧ d.gates.map (Standing tornLine) = [(.up, none)] := by
  have h : ∃ d, (loadImage tripImage).description = some d ∧
      (d.paths.map (fun p => (Tripped tornLine p, p.segments))) = [(true, [0])] ∧
      d.segments.map (·.gates) = [[0], []] ∧ d.gates.map (Standing tornLine) = [(.up, none)] :=
    ⟨((loadImage tripImage).description).get (by decide +kernel), by simp, by decide +kernel, by decide +kernel, by decide +kernel⟩
  obtain ⟨d, hd, hp, hs, hg⟩ := h
  obtain ⟨p, hp, e⟩ := List.map_eq_singleton_iff.1 hp
  simp only [Prod.mk.injEq] at e
  refine ⟨by decide +kernel, rfl, rfl, d, hd, ?_, ?_, hs, hg⟩ <;> simp [Struck, hp, e]
/-- That load latches the path, sends the segment to phase LOWERING and its gate down (R138, R186). -/
theorem test_load_with_torn_line :
    ((after (.descriptionLoadEnd tripImage) tornLine).segs.records.map (fun x => (x.state, x.phase))) =
      [(.closing, some .lowering), (.opened, none)] ∧
    (after (.descriptionLoadEnd tripImage) tornLine).gates.map (·.state) = [.lowering] ∧
    (after (.descriptionLoadEnd tripImage) tornLine).hazard.paths.map (·.latch) = [.release] := by decide +kernel
theorem witness_ReloadClearsTheCorridor :
    (Waits (asks State.reset .centre .reload []) .centre .reload (reqOf .reload []) [] ∧
      (asks State.reset .centre .reload []).loader.state = .loading) ∧
    (Waits (asks lowering .centre .reload []) .centre .reload (reqOf .reload []) [] ∧
      (asks lowering .centre .reload []).described = true ∧ (asks lowering .centre .reload []).busy = true) ∧
    Waits (asks road .centre .reload []) .centre .reload (reqOf .reload []) [] ∧
      (asks road .centre .reload []).loader.state ≠ .loading ∧ (asks road .centre .reload []).busy = false :=
  ⟨⟨asks_waits _ _ _ _ rfl (.inl rfl) rfl, by decide +kernel⟩,
    ⟨asks_waits _ _ _ _ (by decide +kernel) (.inl rfl) rfl, by decide +kernel, by decide +kernel⟩,
    road_waits _ _ _ rfl, by decide +kernel, by decide +kernel⟩

theorem witness_RequestFramesReadBack : ({ tag := 7, code := 0x30, body := List.replicate 24 0xFF } : Request).body.length ≤ 24 := by
  decide
/-- The port of SLOPE with these slots and this transfer. -/
def portWith (queued : List Request) (done : List Response) (t : Option Transfer) : State :=
  road.setPort .slope { road.port .slope with queued := queued, done := done, transfer := t }
def outgoing (r : Response) : Transfer :=
  { frame := responseFrame r 7 1 false false .ready, response := true, overrun := false, overflow := false, overflowAgain := false }
def okay : Response := { tag := 7, code := .ok, body := [] }
theorem witness_TransferStartSendsTheOldestResponse : (portWith [] [] none).held = none ∧
    ((portWith [] [] none).port .slope).transfer = none ∧ ((portWith [] [] none).port .slope).done = [] ∧
    ((portWith [] [okay] none).port .slope).transfer = none ∧ ((portWith [] [okay] none).port .slope).done = [okay] := by
  decide +kernel
/-- Every clause: a null frame, a full port, a bad frame, and a request, each with a response that goes out whole; marks in a
header that goes out whole with 9 bytes and not with 8. -/
theorem witness_TransferEndTakesTheFrame :
    ((portWith [] [okay] (some (outgoing okay))).port .slope).transfer = some (outgoing okay) ∧
    (outgoing okay).response = true ∧ (outgoing okay).frame.length = 9 ∧
    8 ≤ ((portWith (List.replicate 8 (reqOf .status [])) [okay] (some (outgoing okay))).port .slope).queued.length ∧
    parseIncoming (List.replicate 9 1#8) = .bad 1#8 ∧
    parseIncoming (requestFrame (reqOf .status [])) = .request (reqOf .status []) ∧
    ((portWith [] [okay] (some { outgoing okay with overrun := true, overflow := true })).port .slope).transfer =
      some { outgoing okay with overrun := true, overflow := true } ∧
    (outgoing okay).frame.length ≤ (List.replicate 9 0#8).length ∧
    ¬ (outgoing okay).frame.length ≤ (List.replicate 8 0#8).length := by decide +kernel

theorem witness_PortBlockRefusesFirst :
    commandOfCode 0x7E#8 = none ∧ commandOfCode 0x10#8 = some .readSegment ∧ State.reset.described = false ∧
    road.described = true ∧ Command.readSegment.takesLength [] = false ∧
    ((asks road .crew .readSegment []).port .crew).queued = [reqOf .readSegment []] := by decide +kernel
theorem witness_StatusCountsThePorts : Waits (asks road .crew .status []) .crew .status (reqOf .status []) [] ∧
    (asks road .crew .status []).loader.report.outcomes.length = 9 := ⟨road_waits _ _ _ rfl, by decide +kernel⟩
theorem witness_FetchNoticeTakesTheOldest : Waits (asks road .crew .fetchNotice []) .crew .fetchNotice (reqOf .fetchNotice []) [] ∧
    ((asks road .crew .fetchNotice []).port .crew).notices = [restartedNotice .powerOn 0] ∧
    Waits (asks (road.setPort .crew (resetPort [])) .crew .fetchNotice []) .crew .fetchNotice (reqOf .fetchNotice []) [] ∧
    ((asks (road.setPort .crew (resetPort [])) .crew .fetchNotice []).port .crew).notices = [] :=
  ⟨road_waits _ _ _ rfl, by decide +kernel, asks_waits _ _ _ _ rfl (.inl rfl) rfl, by decide +kernel⟩
/-- Both sides of the boundary of the 14 kinds. -/
theorem witness_PortsTakeAMaskAndAReset :
    Waits (asks road .crew .setNoticeMask [63, 255]) .crew .setNoticeMask (reqOf .setNoticeMask [63, 255]) [] ∧
    read2 (reqOf .setNoticeMask [63, 255]).body 0 = 16383 ∧
    Waits (asks road .crew .setNoticeMask [64, 0]) .crew .setNoticeMask (reqOf .setNoticeMask [64, 0]) [] ∧
    read2 (reqOf .setNoticeMask [64, 0]).body 0 = 16384 ∧
    Waits (asks road .crew .resetPort []) .crew .resetPort (reqOf .resetPort []) [] :=
  ⟨road_waits _ _ _ rfl, by decide, road_waits _ _ _ rfl, by decide, road_waits _ _ _ rfl⟩
/-- A kind the mask leaves out, an entry of the same kind and object, and none. -/
theorem witness_NoticesUpdateJoinOrDrop :
    ((road.setPort .crew { resetPort [] with mask := 0#16 }).port .crew).admits .restarted = false ∧
    (road.port .crew).admits .restarted = true ∧
    (∃ e ∈ (road.port .crew).notices, e.kind = (restartedNotice .pin 5).kind ∧ e.object = (restartedNotice .pin 5).object) ∧
    (∀ e ∈ (road.port .crew).notices, ¬ (e.kind = .busState ∧ e.object = 0)) ∧ (road.port .crew).notices.length < 16 ∧
    16 ≤ ((road.setPort .crew (resetPort (List.replicate 16 (restartedNotice .pin 5)))).port .crew).notices.length := by
  decide +kernel
theorem witness_AttentionFollowsTheQueue : road.held = none ∧ (asks road .centre .reload []).busy = false ∧ (after .pinReset road).held = some .pin ∧
    ((road.setPort .crew (resetPort [])).port .crew).notices = [] ∧
    ((road.setPort .crew (resetPort [])).port .crew).admits .busState = true ∧
    Waits (asks road .crew .fetchNotice []) .crew .fetchNotice (reqOf .fetchNotice []) [] ∧
    ((asks road .crew .fetchNotice []).port .crew).notices = [restartedNotice .powerOn 0] ∧
    Waits (asks road .crew .resetPort []) .crew .resetPort (reqOf .resetPort []) [] :=
  ⟨rfl, by decide +kernel, by decide +kernel, by decide +kernel, by decide +kernel, road_waits _ _ _ rfl, by decide +kernel, road_waits _ _ _ rfl⟩

theorem witness_ReadsAnswerTheRecord :
    (Waits (asks road .crew .readSegment [1]) .crew .readSegment (reqOf .readSegment [1]) [] ∧
      (asks road .crew .readSegment [1]).segs.records[1]? = some (segmentOf [0, 1] [0])) ∧
    (Waits (asks road .crew .readGate [1]) .crew .readGate (reqOf .readGate [1]) [] ∧
      (asks road .crew .readGate [1]).gates[1]? = some (gateOf 3 7)) ∧
    (Waits (asks road .crew .readSign [1]) .crew .readSign (reqOf .readSign [1]) [] ∧
      (asks road .crew .readSign [1]).line.signs[1]? = some (signOf .weather 11 [])) ∧
    (Waits (asks road .crew .readChannel [14]) .crew .readChannel (reqOf .readChannel [14]) [] ∧
      (asks road .crew .readChannel [14]).channel? 14 = some vane) ∧
    (Waits (asks road .crew .readPath [0]) .crew .readPath (reqOf .readPath [0]) [] ∧
      (asks road .crew .readPath [0]).hazard.paths[0]? = some gully) ∧
    Waits (asks road .crew .readPower []) .crew .readPower (reqOf .readPower []) [] :=
  ⟨⟨road_waits _ _ _ rfl, by decide +kernel⟩, ⟨road_waits _ _ _ rfl, by decide +kernel⟩,
    ⟨road_waits _ _ _ rfl, by decide +kernel⟩, ⟨road_waits _ _ _ rfl, by decide +kernel⟩,
    ⟨road_waits _ _ _ rfl, by decide +kernel⟩, road_waits _ _ _ rfl⟩
theorem witness_ReadsRefuseWhatIsNotDescribed :
    Waits (asks road .crew .readSegment [2]) .crew .readSegment (reqOf .readSegment [2]) [] ∧
    (asks road .crew .readSegment [2]).segs.records[read1 (reqOf .readSegment [2]).body 0]? = none ∧
    Waits (asks road .crew .readGate [2]) .crew .readGate (reqOf .readGate [2]) [] ∧
    (asks road .crew .readGate [2]).gates[read1 (reqOf .readGate [2]).body 0]? = none ∧
    Waits (asks road .crew .readSign [2]) .crew .readSign (reqOf .readSign [2]) [] ∧
    (asks road .crew .readSign [2]).line.signs[read1 (reqOf .readSign [2]).body 0]? = none ∧
    Waits (asks road .crew .readChannel [32]) .crew .readChannel (reqOf .readChannel [32]) [] ∧
    (asks road .crew .readChannel [32]).channel? (read1 (reqOf .readChannel [32]).body 0) = none ∧
    Waits (asks road .crew .readPath [1]) .crew .readPath (reqOf .readPath [1]) [] ∧
    (asks road .crew .readPath [1]).hazard.paths[read1 (reqOf .readPath [1]).body 0]? = none :=
  ⟨road_waits _ _ _ rfl, by decide +kernel, road_waits _ _ _ rfl, by decide +kernel, road_waits _ _ _ rfl,
    by decide +kernel, road_waits _ _ _ rfl, by decide +kernel, road_waits _ _ _ rfl, by decide +kernel⟩

/-- A place claim that links a slot of CENTRE's own. -/
def linkBody : List Nat := [1, 3, 0, 5, 0, 0, 0, 0, 0, 0, 0, 9, 32]
def ownSlot : Slot :=
  { posted with
    posted := some { owner := .centre, targets := 1, urgency := 2, endsAt := none, link := none } }
def linkRoad : State := { road with store := { road.store with slots := road.store.slots.set 32 ownSlot } }
/-- With a link to a slot of the sender's own; with a claim it raises; and with one it lowers or keeps. -/
theorem witness_PlaceClaimPlacesOrChanges :
    Waits (asks linkRoad .centre .placeClaim linkBody) .centre .placeClaim (reqOf .placeClaim linkBody) [] ∧
    parsePlace (reqOf .placeClaim linkBody).body = some
      { segment := 1, level := .close, urgent := false, reason := 5, delay := none, duration := some 9, link := some 32 } ∧
    (asks linkRoad .centre .placeClaim linkBody).segs.records[1]? ≠ none ∧
    (asks linkRoad .centre .placeClaim linkBody).hasRight 1 .centre (levelRight .close) = true ∧
    (asks linkRoad .centre .placeClaim linkBody).linkAllowed .centre 1 32 = true ∧
    ((asks closing .centre .placeClaim linkBody).claim? 1 (.master .centre)).map (fun c => c.counted) = some .close ∧
    ((asks { waitingRoad with segs := { road.segs with claims := [{ waitingClaim with holder := .master .centre }] } }
      .centre .placeClaim closeNow).claim? 1 (.master .centre)).map (fun c => c.counted) = some .advise :=
  ⟨asks_waits _ _ _ _ rfl (.inr rfl) rfl, by decide +kernel, by decide +kernel, by decide +kernel, by decide +kernel,
    by decide +kernel, by decide +kernel⟩
/-- Segment 1 CLOSING in phase LOWERING. -/
def shutting : Segment := { unconfirmed with phase := some .lowering, remaining := 0, confirmDue := none, demand := .lower }
/-- R11, R14, R15, R17, R18, each state and phase under a claim of each kind: what `Recomputed` supposes, and where it leads. -/
theorem test_recomputation_moves :
    (([(segmentOf [0, 1] [0], [1, 1, 0]), (segmentOf [0, 1] [0], [1, 2, 0]), (segmentOf [0, 1] [0], [1, 3, 0]),
        (segmentOf [0, 1] [0], [1, 3, 1]), (segmentOf [0, 1] [], [1, 3, 0]), (unconfirmed, [1, 3, 1]), (unconfirmed, [1, 3, 0]),
        (unconfirmed, [1, 2, 0]), (shutting, [1, 1, 0]), (shutting, [1, 3, 0]), ({ shutting with state := .closed, phase := none }, [1, 3, 0]),
        ({ shutting with state := .closed, phase := none }, [1, 1, 0]),
        ({ segmentOf [0, 1] [0] with state := .reopening, demand := .hold }, [1, 3, 0]),
        ({ segmentOf [0, 1] [0] with state := .reopening, demand := .hold }, [1, 1, 0])] : List (Segment × List Nat)).map
      (fun (x, body) => phaseOf (after (.placeClaim .centre)
        (asks (segmentIn x) .centre .placeClaim (body ++ [5, 0, 0, 0, 0, 0, 0, 0, 0, 255]))) 1)) =
    [some (.opened, none), some (.restricted, none), some (.closing, some .confirming), some (.closing, some .lowering),
      some (.closing, some .prewarn), some (.closing, some .lowering), some (.closing, some .confirming),
      some (.restricted, none), some (.reopening, none), some (.closing, some .lowering), some (.closed, none),
      some (.reopening, none), some (.closing, some .lowering), some (.reopening, none)] := by decide +kernel
/-- R12: a sign that shows the content of the segment's own slot, and one that shows that of an earlier segment. -/
theorem witness_WarnedAtEntry :
    WarnedAtEntry (signIn { signOf .panel 9 [0, 1] with ack := some { slot := 1, generation := 0, cls := 3, catalogue := 4, params := [] } })
      1 (segmentOf [0, 1] [0]) ∧
    Warns { road with segs := { road.segs with records := [shutting, segmentOf [0, 1] [0]] } } 1
      { signOf .panel 9 [0, 1] with ack := some { slot := 0, generation := 0, cls := 3, catalogue := 5, params := [] } } ∧
    ¬ WarnedAtEntry road 1 (segmentOf [0, 1] [0]) := by
  refine ⟨⟨0, by decide, _, rfl, .inl rfl, _, rfl, rfl, by decide, .inl rfl⟩,
    ⟨_, rfl, rfl, by decide, .inr ⟨[0], [], _, rfl, by decide, by decide, rfl, .inl rfl⟩⟩, ?_⟩
  rintro ⟨n, hn, y, hy, -, a, ha, -⟩
  obtain rfl : n = 0 := by simpa [segmentOf] using hn
  obtain rfl := Option.some.inj hy
  cases ha
/-- The holder releases, and CENTRE overrides. -/
theorem witness_ReleaseClaimRemovesTheClaim :
    (∀ m, m = Master.slope ∨ m = .centre →
      Waits (asks postedRoad m .releaseClaim [1, 1]) m .releaseClaim (reqOf .releaseClaim [1, 1]) [] ∧
      (asks postedRoad m .releaseClaim [1, 1]).segs.records[1]? ≠ none ∧
      (asks postedRoad m .releaseClaim [1, 1]).claim? 1 (.master .slope) = some { waitingClaim with link := some 48 }) ∧
    masterOfCode 1 = some .slope ∧ (asks postedRoad .centre .releaseClaim [1, 1]).hasRight 1 .centre overrideRight = true ∧
    (postedRoad.postedIn 48).isSome = true := by
  refine ⟨fun m hm => ?_, by decide +kernel, by decide +kernel, by decide +kernel⟩
  obtain rfl | rfl := hm <;> exact ⟨asks_waits _ _ _ _ rfl (.inr rfl) rfl, by decide +kernel, by decide +kernel⟩

def reopening : Segment := { segmentOf [0, 1] [0] with state := .reopening, demand := .hold }
/-- The first gate of segment 1 is DOWN, with this account. -/
def lowered (account : Nat) : State :=
  { (segmentIn reopening).updGate 0 (fun x => { x with state := .down, position := .atDown }) with
    power := { resetPower with account := account } }
/-- Not swept with every gate UP or with none, swept, and with a gate DOWN that is admitted or refused by 1 mAh. -/
theorem witness_ConfirmSweepRaisesOrCompletes :
    (∀ x, x = reopening ∨ x = { reopening with swept := true } ∨ x = { reopening with cfg := (segmentOf [] []).cfg } →
      Waits (asks (segmentIn x) .crew .confirmSweep [1]) .crew .confirmSweep (reqOf .confirmSweep [1]) [] ∧
      (asks (segmentIn x) .crew .confirmSweep [1]).segs.records[1]? = some x ∧ x.state = .reopening) ∧
    (asks (segmentIn reopening) .crew .confirmSweep [1]).hasRight 1 .crew sweepRight = true ∧
    (∀ a, Waits (asks (lowered a) .crew .confirmSweep [1]) .crew .confirmSweep (reqOf .confirmSweep [1]) [] ∧
      (asks (lowered a) .crew .confirmSweep [1]).hasRight 1 .crew sweepRight = true ∧
      (asks (lowered a) .crew .confirmSweep [1]).segs.records[1]? = some reopening ∧
      reopening.cfg.gates = [0, 1] ∧ 0 ∉ [1] ∧
      ∃ z, (asks (lowered a) .crew .confirmSweep [1]).gates[0]? = some z ∧ z.state = .down ∧ z.raiseHeld = false ∧
        z.cfg.raiseCost + z.cfg.lowerCost = 7000) ∧
    (lowered 7000).power.reserve + 7000 ≤ (lowered 7000).power.account ∧
    ¬ (lowered 6999).power.reserve + 7000 ≤ (lowered 6999).power.account := by
  refine ⟨fun x hx => ⟨asks_waits _ _ _ _ rfl (.inr rfl) rfl, rfl, ?_⟩, by decide +kernel,
    fun a => ⟨asks_waits _ _ _ _ rfl (.inr rfl) rfl, rfl, rfl, rfl, by decide, _, rfl, rfl, rfl, rfl⟩, by decide +kernel,
    by decide +kernel⟩
  obtain rfl | rfl | rfl := hx <;> rfl
theorem witness_SetAuthorityReplacesOneEntry :
    Waits (asks road .centre .setAuthority [1, 2, 31]) .centre .setAuthority (reqOf .setAuthority [1, 2, 31]) [] ∧
    (asks road .centre .setAuthority [1, 2, 31]).segs.records[1]? ≠ none ∧
    masterOfCode (read1 (reqOf .setAuthority [1, 2, 31]).body 1) = some .crew ∧
    read1 (reqOf .setAuthority [1, 2, 31]).body 2 < 32 ∧
    3 * 1 + masterCode .crew < (asks road .centre .setAuthority [1, 2, 31]).segs.authority.length :=
  ⟨road_waits _ _ _ rfl, by decide +kernel, by decide +kernel, by decide +kernel, by decide +kernel⟩
/-- One sender of each clause: CENTRE's commands, SLOPE's, CREW's, a level, an override, a HAZARD claim, a sweep, a message
of another owner, a channel another feeds, and a path. -/
theorem witness_SendersWithoutRightAreRefused :
    Waits (asks road .crew .setClock [0, 0]) .crew .setClock (reqOf .setClock [0, 0]) [] ∧
    Waits (asks road .crew .seedPath [0, 0, 0]) .crew .seedPath (reqOf .seedPath [0, 0, 0]) [] ∧
    Waits (asks road .slope .resetGate [0]) .slope .resetGate (reqOf .resetGate [0]) [] ∧
    (Waits (asks road .slope .placeClaim [1, 2, 0, 5, 0, 0, 0, 0, 0, 0, 0, 0, 255]) .slope .placeClaim
        (reqOf .placeClaim [1, 2, 0, 5, 0, 0, 0, 0, 0, 0, 0, 0, 255]) [] ∧
      (parsePlace (reqOf .placeClaim [1, 2, 0, 5, 0, 0, 0, 0, 0, 0, 0, 0, 255]).body).map (·.level) = some .chains ∧
      (asks road .slope .placeClaim closeNow).hasRight 1 .slope (levelRight .chains) = false) ∧
    (Waits (asks road .slope .releaseClaim [1, 2]) .slope .releaseClaim (reqOf .releaseClaim [1, 2]) [] ∧
      masterOfCode 2 = some .crew ∧ (asks road .slope .releaseClaim [1, 2]).hasRight 1 .slope overrideRight = false) ∧
    read1 (reqOf .releaseClaim [1, 3]).body 1 = 3 ∧
    (Waits (asks road .slope .confirmSweep [1]) .slope .confirmSweep (reqOf .confirmSweep [1]) [] ∧
      (asks road .slope .confirmSweep [1]).hasRight 1 .slope sweepRight = false) ∧
    (Waits (asks postedRoad .crew .withdrawMessage [48]) .crew .withdrawMessage (reqOf .withdrawMessage [48]) [] ∧
      ((asks postedRoad .crew .withdrawMessage [48]).postedIn 48).map (·.owner) = some .slope) ∧
    (Waits (asks road .crew .submitObservation [14, 0, 3, 1]) .crew .submitObservation
        (reqOf .submitObservation [14, 0, 3, 1]) [] ∧ (asks road .crew .submitObservation [14, 0, 3, 1]).channel? 14 = some vane ∧
      vane.desc.source = .remote .slope) ∧
    (Waits (asks road .crew .clearPath [0]) .crew .clearPath (reqOf .clearPath [0]) [] ∧
      (asks road .crew .clearPath [0]).hazard.paths[0]? = some gully) :=
  ⟨road_waits _ _ _ rfl, road_waits _ _ _ rfl, road_waits _ _ _ rfl,
    ⟨road_waits _ _ _ rfl, by decide +kernel, by decide +kernel⟩, ⟨road_waits _ _ _ rfl, by decide +kernel, by decide +kernel⟩,
    by decide +kernel, ⟨road_waits _ _ _ rfl, by decide +kernel⟩,
    ⟨asks_waits _ _ _ _ rfl (.inr rfl) rfl, by decide +kernel⟩, ⟨road_waits _ _ _ rfl, by decide +kernel⟩,
    ⟨road_waits _ _ _ rfl, by decide +kernel⟩⟩
theorem witness_ClaimTimersStartAndEndClaims : (Running waitingRoad ∧
    waitingRoad.claim? 1 (.master .slope) = some waitingClaim ∧ waitingClaim.start = some 100 ∧ waitingClaim.pending = true ∧
    100 ≤ waitingRoad.now ∧ waitingRoad.segs.records[1]? ≠ none) ∧
    Running postedRoad ∧ postedRoad.claim? 1 (.master .slope) = some { waitingClaim with link := some 48 } ∧
    waitingClaim.endsAt = some 100 ∧ 100 ≤ postedRoad.now ∧ (postedRoad.postedIn 48).isSome = true :=
  ⟨⟨⟨rfl, rfl⟩, by decide +kernel⟩, ⟨rfl, rfl⟩, by decide +kernel⟩
/-- CONFIRMING with a countdown, CONFIRMING with none, PREWARN at 0, which is a new minute too. -/
theorem witness_ClosingPhasesRunOut :
    (∀ x, x = unconfirmed ∨ x = { unconfirmed with remaining := 0 } →
      Running (segmentIn x) ∧ (segmentIn x).segs.records[1]? = some x ∧ x.state = .closing ∧ x.phase = some .confirming ∧
        x.confirmDue = some 100 ∧ 100 ≤ (segmentIn x).now) ∧
    Running (segmentIn countedDown) ∧ (segmentIn countedDown).segs.records[1]? = some countedDown ∧
      countedDown.state = .closing ∧ countedDown.phase = some .prewarn ∧ countedDown.remaining = 0 ∧
      (segmentIn countedDown).store.slots[1]? = some resetSlot := by
  refine ⟨fun x hx => ?_, ⟨rfl, rfl⟩, rfl, rfl, rfl, rfl, rfl⟩
  obtain rfl | rfl := hx <;> exact ⟨⟨rfl, rfl⟩, rfl, rfl, rfl, rfl, by decide +kernel⟩

/-- At the upper limit with each demand and obstruction, at the lower limit with each demand, and away from both. -/
theorem witness_ResetGateRestsAtTheLimit :
    (∀ x, x = { gateOf 0 3 with state := .fault, reason := some .leftPosition } ∨
        x = { gateOf 0 3 with state := .fault, demand := .lower } ∨
        x = { gateOf 0 3 with state := .fault, position := .atDown } ∨
        x = { gateOf 0 3 with state := .fault, position := .atDown, demand := .raise } ∨
        x = { gateOf 0 3 with state := .fault, position := .between } ∨
        x = { gateOf 0 3 with state := .fault, position := .conflict } →
      Waits (asks (gateIn x) .crew .resetGate [0]) .crew .resetGate (reqOf .resetGate [0]) [] ∧
      (asks (gateIn x) .crew .resetGate [0]).gates[0]? = some x ∧ x.state = .fault) ∧
    (∀ z, (asks (gateIn { gateOf 0 3 with state := .fault, demand := .lower }) .crew .resetGate [0]).segs.records[1]? = some z →
      z.state ≠ .reopening) ∧
    (gateIn (gateOf 0 3)).asserted 5 = false ∧ (after (.debounceExpiry 5) (settled road 5 true)).asserted 5 = true := by
  refine ⟨fun x hx => ⟨asks_waits _ _ _ _ rfl (.inr rfl) rfl, rfl, ?_⟩, fun z hz => ?_, by decide +kernel, by decide +kernel⟩
  · obtain rfl | rfl | rfl | rfl | rfl | rfl := hx <;> rfl
  · obtain rfl := Option.some.inj hz
    decide
/-- Both drives, a pause at DOWN and away from it, a hold-off, a lamp. -/
theorem witness_GateTimersRunOut :
    (∀ x, Running (gateIn x) ∧ (gateIn x).gates[0]? = some x) ∧
    (driven.lowerDrive = true ∧ driven.travel = 0) ∧ ({ gateOf 0 3 with state := .raising } : Gate).raiseDrive = true ∧
    (∀ p, p = Position.atDown ∨ p = .between →
      ({ driven with sub := some .reversing, pause := some 0, position := p } : Gate).state = .lowering ∧
      ({ driven with sub := some .reversing, pause := some 0, position := p } : Gate).demand ≠ .raise) ∧
    ({ driven with state := .stopped, holdOff := some 0 } : Gate).holdOff = some 0 ∧
    ({ driven with flashing := true } : Gate).lampLeft = 0 :=
  ⟨fun _ => ⟨⟨rfl, rfl⟩, rfl⟩, by decide, by decide, fun _ _ => ⟨rfl, fun h => (by cases h)⟩, rfl, rfl⟩
/-- An edge of a released line each way; a line no gate names, and every line without a description. -/
theorem witness_InputLinesAreDebounced : road.held = none ∧
    road.scan.lines[47]? = some { present := false, level := false, stability := none } ∧
    (settled road 47 true).scan.lines[47]? = some { present := true, level := false, stability := some 0 } ∧
    (∀ y ∈ (settled road 47 true).gates, 47 ∉ y.cfg.inputs) ∧
    (∀ p ∈ (settled road 47 true).hazard.paths, p.cfg.trip ≠ some 47) ∧
    (settled State.reset 3 true).described = false ∧
    (settled State.reset 3 true).scan.lines[3]? = some { present := true, level := false, stability := some 0 } := by
  decide +kernel
/-- A line of gate 0 at the end of its stability time. -/
theorem line_settled (x : Gate) (l : Nat) (b : Bool) (hl : l < 48) (inputs : x.cfg.inputs.count l = 1) :
    Running (settled (gateIn x) l b) ∧ (∃ z, (settled (gateIn x) l b).scan.lines[l]? = some z ∧ z.stability = some 0 ∧
      z.present = b) ∧ (settled (gateIn x) l b).gates[0]? = some x ∧
      (∀ p ∈ (settled (gateIn x) l b).hazard.paths, p.cfg.trip ≠ some l) ∧ x.cfg.inputs.count l = 1 := by
  refine ⟨⟨rfl, rfl⟩, ⟨{ present := b, level := !b, stability := some 0 }, ?_, rfl, rfl⟩, rfl, ?_, inputs⟩
  · simp only [settled]
    have e : (gateIn x).scan.lines.length = 48 := by
      have : (gateIn x).scan.lines = roadLines := rfl
      rw [this]
      decide +kernel
    rw [List.getElem?_set_self (by omega)]
  · intro p hp
    have h : p = gully := List.mem_singleton.1 hp
    subst h
    simp [gully, lee]
/-- Each limit, the obstruction and the key taken at either level, whatever the gate's state and demand; for the demand
applied at a key release, no other gate names the line and the segment is OPEN. -/
theorem witness_TakenLinesMoveTheGate :
    (∀ state sub position demand b l, 3 ≤ l → l < 7 →
      let x : Gate := { gateOf 0 3 with state := state, sub := sub, position := position, demand := demand }
      Running (settled (gateIn x) l b) ∧ (∃ z, (settled (gateIn x) l b).scan.lines[l]? = some z ∧ z.stability = some 0 ∧
        z.present = b) ∧ (settled (gateIn x) l b).gates[0]? = some x ∧
        (∀ p ∈ (settled (gateIn x) l b).hazard.paths, p.cfg.trip ≠ some l) ∧ x.cfg.inputs.count l = 1) ∧
    (gateOf 0 3).cfg.upLine = 3 ∧ (gateOf 0 3).cfg.downLine = 4 ∧ (gateOf 0 3).cfg.obstructionLine = 5 ∧
    (gateOf 0 3).cfg.keyLine = 6 ∧ driven.lowerDrive = true ∧
    (∀ x h w, (settled (gateIn x) 6 false).gates[h]? = some w → h ≠ 0 → 6 ∉ w.cfg.inputs) ∧
    (∀ x k, (settled (gateIn x) 6 false).segs.records[1]? = some k → k.state ≠ .reopening) := by
  refine ⟨fun state sub position demand b l hl hl' => line_settled _ l b (by omega) ?_, rfl, rfl, rfl, rfl, by decide,
    fun x h w e n => ?_, fun x k e => ?_⟩
  · change ([3, 4, 5, 6] : List Nat).count l = 1
    obtain rfl | rfl | rfl | rfl : l = 3 ∨ l = 4 ∨ l = 5 ∨ l = 6 := by omega
    all_goals decide
  · rcases h with _ | _ | h
    · exact absurd rfl n
    · obtain rfl := Option.some.inj e
      decide
    · cases e
  · obtain rfl := Option.some.inj e
    decide

/-- A range that is full, and one whose first slot is invalid. -/
def fullPool : State := { road with store := { road.store with slots := List.replicate 64 ownSlot } }
theorem witness_PostMessageTakesTheLowestSlot :
    Waits (asks road .crew .postMessage postBody) .crew .postMessage (reqOf .postMessage postBody) [] ∧
    (asks road .crew .postMessage postBody).postOk (parsePost (reqOf .postMessage postBody).body) = true ∧
    (asks road .crew .postMessage postBody).store.slots[56]? = some resetSlot ∧ postedRange .crew = (56, 8) ∧
    Waits (asks fullPool .crew .postMessage postBody) .crew .postMessage (reqOf .postMessage postBody) [] ∧
    (asks fullPool .crew .postMessage postBody).postOk (parsePost (reqOf .postMessage postBody).body) = true ∧
    ∀ j, 56 ≤ j → j < 64 → ∃ x, (asks fullPool .crew .postMessage postBody).store.slots[j]? = some x ∧ x.content ≠ none := by
  refine ⟨road_waits _ _ _ rfl, by decide +kernel, by decide +kernel, rfl, asks_waits _ _ _ _ rfl (.inr rfl) rfl,
    by decide +kernel, fun j _ hj => ⟨ownSlot, ?_, by decide⟩⟩
  have h : (asks fullPool .crew .postMessage postBody).store.slots = List.replicate 64 ownSlot := rfl
  rw [h, List.getElem?_replicate]
  simp [hj]
theorem witness_PostedSlotsEnd : postedRoad.store.slots[48]? = some posted ∧ posted.content ≠ none ∧ posted.posted ≠ none ∧
    (∀ m, m = Master.slope ∨ m = .centre → Waits (asks postedRoad m .withdrawMessage [48]) m .withdrawMessage
      (reqOf .withdrawMessage [48]) [] ∧ (asks postedRoad m .withdrawMessage [48]).store.slots[48]? = some posted) ∧
    Running postedRoad ∧ 100 ≤ postedRoad.now := by
  refine ⟨by decide +kernel, by decide, by decide, fun m _ => ⟨asks_waits _ _ _ _ rfl (.inr rfl) rfl, rfl⟩, ⟨rfl, rfl⟩, by decide⟩
/-- A body that names origin 15 twice, and origin 3. -/
theorem witness_PriorityMapReclassesTheSlots :
    Waits (asks road .centre .setPriorityMap [0xF0, 0x30, 0xF1]) .centre .setPriorityMap (reqOf .setPriorityMap [0xF0, 0x30, 0xF1]) [] ∧
    (∀ e ∈ parsePriority (reqOf .setPriorityMap [0xF0, 0x30, 0xF1]).body, e.2 ≤ 3) ∧
    parsePriority (reqOf .setPriorityMap [0xF0, 0x30, 0xF1]).body = [(15, 0), (3, 0)] ++ (15, 1) :: [] ∧
    15 < (asks road .centre .setPriorityMap [0xF0, 0x30, 0xF1]).store.priority.length :=
  ⟨road_waits _ _ _ rfl, by decide +kernel, by decide +kernel, by decide +kernel⟩
/-- 1439 and 1440, and a segment slot that shows CLOSURE SCHEDULED. -/
theorem witness_SetClockSetsTheDisplay :
    Waits (asks road .centre .setClock [5, 159]) .centre .setClock (reqOf .setClock [5, 159]) [] ∧
    read2 (reqOf .setClock [5, 159]).body 0 = 1439 ∧
    Waits (asks road .centre .setClock [5, 160]) .centre .setClock (reqOf .setClock [5, 160]) [] ∧
    read2 (reqOf .setClock [5, 160]).body 0 = 1440 ∧
    (((asks (waitingRoad.recompute 1) .centre .setClock [5, 159]).store.slots[1]?).bind (·.content)).map (·.catalogue) = some 6 :=
  ⟨road_waits _ _ _ rfl, by decide, road_waits _ _ _ rfl, by decide, by decide +kernel⟩

/-- A disable with and without a transaction in flight, an enable, and an enable with disable pending, of a sign without an
entry; a sign that is already so, and an enable byte of 2. -/
theorem witness_SetSignDisablesAndEnables :
    (Waits (asks road .centre .setSign [0, 0]) .centre .setSign (reqOf .setSign [0, 0]) [] ∧
      (asks road .centre .setSign [0, 0]).line.signs[0]? = some (signOf .panel 9 [0, 1]) ∧
      (asks road .centre .setSign [0, 0]).inFlightFor 0 = false) ∧
    (Waits (asks (inAir (.window 5)) .centre .setSign [0, 0]) .centre .setSign (reqOf .setSign [0, 0]) [] ∧
      (asks (inAir (.window 5)) .centre .setSign [0, 0]).inFlightFor 0 = true) ∧
    (∀ x, x = { signOf .panel 9 [0] with state := .disabled } ∨ x = { signOf .panel 9 [0] with disablePending := true } →
      Waits (asks (signIn x) .centre .setSign [0, 1]) .centre .setSign (reqOf .setSign [0, 1]) [] ∧
      (asks (signIn x) .centre .setSign [0, 1]).line.signs[0]? = some x ∧
      Waits (asks (signIn x) .centre .setSign [0, 0]) .centre .setSign (reqOf .setSign [0, 0]) [] ∧
      (asks (signIn x) .centre .setSign [0, 0]).line.signs[0]? = some x ∧
      (∀ e ∈ (asks (signIn x) .centre .setSign [0, 1]).line.entries, e.sign ≠ 0) ∧
      (asks (signIn x) .centre .setSign [0, 1]).inFlightFor 0 = false) ∧
    Waits (asks road .centre .setSign [0, 1]) .centre .setSign (reqOf .setSign [0, 1]) [] ∧
    (signOf .panel 9 [0, 1]).disablePending = false ∧ (signOf .panel 9 [0, 1]).state ≠ .disabled ∧
    Waits (asks road .centre .setSign [0, 2]) .centre .setSign (reqOf .setSign [0, 2]) [] :=
  ⟨⟨road_waits _ _ _ rfl, by decide +kernel, by decide +kernel⟩,
    ⟨asks_waits _ _ _ _ rfl (.inr rfl) rfl, by decide +kernel⟩,
    fun _ _ => ⟨asks_waits _ _ _ _ rfl (.inr rfl) rfl, rfl, asks_waits _ _ _ _ rfl (.inr rfl) rfl, rfl,
      fun _ h => (List.not_mem_nil h).elim, rfl⟩,
    road_waits _ _ _ rfl, by decide +kernel, by decide +kernel, road_waits _ _ _ rfl⟩
theorem witness_TransactionsOpenAndSend :
    (∀ r, Running (listing r) ∧ (listing r).line.state = .up ∧ (listing r).line.inFlight = none ∧
      (listing r).headEntry (listing r).line.entries = some (entryOf r) ∧
      (listing r).line.signs[(entryOf r).sign]? = some (signOf .panel 9 [0, 1])) ∧
    Running (inAir .sending) ∧ (inAir .sending).line.inFlight = some (flying .sending) :=
  ⟨fun r => by cases r <;> exact ⟨⟨rfl, rfl⟩, rfl, rfl, rfl, rfl⟩, ⟨rfl, rfl⟩, rfl⟩
/-- An ACK with the door open, of an ordinary exchange, of a PROBE, and of the final BLANK. -/
theorem witness_AckWritesTheSignRecord :
    (∀ w, w = flying (.window 5) ∨ w = { flying (.window 5) with op := .probe } ∨ w = { flying (.window 5) with finalBlank := true } →
      Running (road.setInFlight (some w)) ∧ (road.setInFlight (some w)).line.inFlight = some w ∧ w.exchange = .window 5 ∧
      (road.setInFlight (some w)).line.signs[w.entry.sign]? = some (signOf .panel 9 [0, 1])) ∧
    5 ≤ (withSumCheck [0xC5, 9, 6, 4]).length ∧ parseReply 9 (withSumCheck [0xC5, 9, 6, 4]) = .ack false false true := by
  refine ⟨fun w hw => ?_, by decide, by decide⟩
  obtain rfl | rfl | rfl := hw <;> exact ⟨⟨rfl, rfl⟩, rfl, rfl, rfl⟩
/-- Segment 1 waits in CONFIRMING, and sign 0 answers a SHOW of its content. -/
def confirmingRoad : State :=
  (segmentIn unconfirmed).setInFlight (some { flying (.window 5) with
    op := .show 3 4 [2, 5], noted := some { slot := 1, generation := 0, cls := 3, catalogue := 4, params := [2, 5] } })
theorem witness_AckWritesTheSignRecord_confirming : RoadOk confirmingRoad ∧
    confirmingRoad.segs.records[1]? = some unconfirmed ∧ 0 ∈ unconfirmed.cfg.approach ∧
    Warns confirmingRoad 1 { signOf .panel 9 [0, 1] with
      ack := some { slot := 1, generation := 0, cls := 3, catalogue := 4, params := [2, 5] } } := by
  refine ⟨⟨fun h => (by cases h), fun _ g x h => ?_, fun k y g x hk hg hx => ?_, by decide +kernel, by decide +kernel⟩,
    rfl, by decide, _, rfl, rfl, by decide, .inl rfl⟩
  · rcases g with _ | _ | g
    · obtain rfl := Option.some.inj h
      exact ⟨_, rfl, by decide⟩
    · obtain rfl := Option.some.inj h
      exact ⟨_, rfl, by decide⟩
    · cases h
  · rcases k with _ | _ | k
    · obtain rfl := Option.some.inj hk
      simp [segmentOf] at hg
    · obtain rfl := Option.some.inj hk
      simp only [unconfirmed, segmentOf, List.mem_cons, List.not_mem_nil, or_false] at hg
      obtain rfl | rfl := hg <;> obtain rfl := Option.some.inj hx <;> exact ⟨rfl, rfl⟩
    · cases hk
/-- R12: that ACK takes the segment to PREWARN; R95: the next refresh is 60 s on. -/
theorem test_ack_confirms :
    phaseOf (after (.replyReceived (withSumCheck [0xC5, 9, 6, 0])) confirmingRoad) 1 = some (.closing, some .prewarn) ∧
    (after (.replyReceived (withSumCheck [0xC5, 9, 6, 0])) confirmingRoad).line.signs.map (·.refreshDue) =
      [some 160, none] := by decide +kernel
/-- One, two and three failed attempts; error counts of 119 and 120 before a mismatch. -/
theorem witness_FailedExchangesReturnTheEntry :
    (∀ n, Running ((signIn { signOf .panel 9 [0] with attempts := n }).setInFlight (some (flying (.window 0)))) ∧
      ((signIn { signOf .panel 9 [0] with attempts := n }).setInFlight (some (flying (.window 0)))).line.signs[0]? =
        some { signOf .panel 9 [0] with attempts := n }) ∧
    (flying (.window 0)).exchange = .window 0 ∧ (flying (.window 0)).finalBlank = false ∧
    parseReply 9 [1, 2, 3, 4, 5] = .bad ∧ parseReply 9 (withSumCheck [0xC5, 9, 0x15, 3]) = .nakBusy ∧
    parseReply 9 (withSumCheck [0xC5, 9, 0x15, 1]) = .nakContent ∧ (flying (.window 0)).op = .blank ∧
    ({ flying (.window 5) with op := .show 3 4 [] } : InFlight).op = .show 3 4 [] ∧
    (inAir .sending).line.inFlight = some (flying .sending) ∧ (inAir .sending).line.signs[0]? = some (signOf .panel 9 [0, 1]) ∧
    ({ (inAir .sending) with line := { (inAir .sending).line with errors := 119 } } : State).line.errors + 8 < 128 ∧
    128 ≤ ({ (inAir .sending) with line := { (inAir .sending).line with errors := 120 } } : State).line.errors + 8 :=
  ⟨fun _ => ⟨⟨rfl, rfl⟩, rfl⟩, rfl, rfl, by decide, by decide, by decide, rfl, rfl, rfl, rfl, by decide, by decide⟩
theorem witness_SignTimersEnterRequests :
    Running (signIn { signOf .panel 9 [0] with refreshDue := some 100, probeDue := some 100 }) ∧
    (signIn { signOf .panel 9 [0] with refreshDue := some 100, probeDue := some 100 }).line.signs[0]? =
      some { signOf .panel 9 [0] with refreshDue := some 100, probeDue := some 100 } ∧
    (signOf .panel 9 [0]).takesRequests = true ∧
    (signIn { signOf .panel 9 [0] with refreshDue := some 100, probeDue := some 100 }).inFlightFor 0 = false ∧
    (signIn { signOf .panel 9 [0] with refreshDue := some 100, probeDue := some 100 }).line.entries = [] ∧
    ({ road with line := { road.line with recovery := some 100 } } : State).line.recovery = some 100 ∧ 100 ≤ road.now :=
  ⟨⟨rfl, rfl⟩, rfl, rfl, rfl, rfl, rfl, by decide⟩

/-- In range, clamped, and marked SUSPECT, at each end of the range. -/
theorem witness_SubmissionsAreTaken :
    (∀ b, b = [14, 1, 103, 0] ∨ b = [14, 1, 104, 0] ∨ b = [14, 1, 105, 0] ∨ b = [14, 255, 255, 0] ∨ b = [14, 0, 0, 1] →
      Waits (asks road .slope .submitObservation b) .slope .submitObservation (reqOf .submitObservation b) [] ∧
      read1 (reqOf .submitObservation b).body 0 = 14 ∧ read1 (reqOf .submitObservation b).body 3 ≤ 1) ∧
    (asks road .slope .submitObservation [14, 1, 104, 0]).channel? 14 = some vane ∧ vane.desc.source = .remote .slope ∧
    vane.desc.lo ≤ vane.desc.hi := by
  refine ⟨fun b hb => ?_, by decide +kernel, rfl, by decide⟩
  obtain rfl | rfl | rfl | rfl | rfl := hb <;> exact ⟨road_waits _ _ _ rfl, by decide, by decide⟩
theorem witness_ScanRoundsConvertInOrder :
    ({ road with scan := { road.scan with nextRound := some 100 } } : State).scan.converting = none ∧ 100 ≤ road.now ∧
    (scanning 3).scan.converting = some 3 ∧ (scanning 3).channel? 3 = some stake ∧
    stake.desc.source = .wired (some 3) 400 0 4 ∧ (scanning 3).converts 28 = true ∧
    (∀ j, 3 < j → j < 28 → (scanning 3).converts j = false) ∧
    (stake.desc.lo ≤ scaledValue .depth 400 0 1960 ∧ scaledValue .depth 400 0 1960 ≤ stake.desc.hi) ∧
    ¬ scaledValue .depth 400 0 4095 ≤ stake.desc.hi := by
  refine ⟨by decide +kernel, by decide, rfl, by decide +kernel, rfl, by decide +kernel, ?_, by decide, by decide⟩
  have h : ∀ j < 28, 3 < j → (scanning 3).converts j = false := by decide +kernel
  exact fun j a b => h j b a
/-- An ABSORB state whose current has tapered to the cut-off: the account, 100,002 as carried, is the capacity, 100,000, and
stays so at the entry to FLOAT; the battery is at 25.7 °C. -/
theorem witness_ChargeFollowsTheReadings :
    let p := { resetPower with charge := .absorb, absorbSince := some 0, account := 99999, remainder := 3599,
                               taken := { defaultParams with capacity := 100000 } }
    let r : PowerReadings := { voltage := 28775, current := 1999, source := 30000, temperature := some 257 }
    ∃ (a : Int) (u : Power), u = p.update r 4 ∧
      a = p.account + (p.remainder + r.current * (((4 : Nat) : Int) - p.updated)) / 3600 ∧ a = 100002 ∧
      (100000, 0) = (if a < 0 then (0, 0) else if ((100000 : Nat) : Int) < a then (100000, 0)
        else (a.toNat, ((p.remainder + r.current * (((4 : Nat) : Int) - p.updated)) % 3600).toNat)) ∧
      (100000, 0) = (if u.charge = .float ∧ p.charge ≠ .float then (100000, 0) else (100000, 0)) ∧
      (257 : Int) = (match r.temperature with
        | none => 250
        | some t => max (-200) (min 450 t)) ∧ u.charge = .float :=
  ⟨_, _, rfl, rfl, by decide, by decide, by decide, by decide, by decide⟩
/-- Gate 0 is DOWN and held under demand RAISE, with this reserve. -/
def heldBack (reserve : Nat) : State :=
  { (scanning 31).updGate 0 (fun x => { x with state := .down, raiseHeld := true, demand := .raise }) with
    power := { resetPower with reserve := reserve } }
/-- The last channel of a round, with a gate held that the update admits or refuses by 1 mAh. -/
theorem witness_RoundEndUpdatesThePower :
    (∀ n, (heldBack n).held = none ∧ (heldBack n).scan.converting = some 31 ∧
      (∃ x, (heldBack n).channel? 31 = some x ∧ x.desc.source = .wired none 60000 0 4) ∧ (heldBack n).described = true ∧
      ∃ y, (heldBack n).gates[0]? = some y ∧ y.state = .down ∧ y.raiseHeld = true ∧ y.demand = .raise ∧
        y.cfg.raiseCost + y.cfg.lowerCost = 7000) ∧
    4 ≤ ([0, 0, 0, 0] : List Raw).length ∧ (∀ j, 31 < j → j < 32 → (heldBack 0).converts j = false) ∧
    (let p := (heldBack 93000).power.update ((heldBack 93000).powerReadings) 100
     p.nextMode = .economy ∧ p.reserve + 7000 ≤ p.account) ∧
    (let p := (heldBack 93001).power.update ((heldBack 93001).powerReadings) 100
     p.nextMode = .economy ∧ ¬ p.reserve + 7000 ≤ p.account) :=
  ⟨fun n => ⟨rfl, rfl, ⟨_, rfl, rfl⟩, rfl, _, rfl, rfl, rfl, rfl, rfl⟩, by decide, fun j a b => by omega,
    by decide +kernel, by decide +kernel⟩
theorem witness_ChannelTimersFailTheChannel : (road.setChannel 14 (stale vane)).held = none ∧
    (road.setChannel 14 (stale vane)).described = true ∧ (road.setChannel 14 (stale vane)).channel? 14 = some (stale vane) ∧
    (stale vane).heldSince = some 0 ∧ (stale vane).silenceFrom = some 0 ∧ (stale vane).quality = .held ∧
    0 + (stale vane).desc.holdLimit ≤ (road.setChannel 14 (stale vane)).now := by decide +kernel

/-- At the bounds of its hypotheses: a period of 3600 and a loading whose settlement is cut to 0. -/
theorem witness_LoadingFollowsSnowAndSettlement :
    (3600 ≤ 3600) ∧ 599 * ((gully.figures { depth := none, speed := none, direction := none, air := none } 600 0).rate * 600) < 3600000 ∧
    (60 ≤ 60 ∧ 12 ≤ 12 ∧ 400 ≤ 400) := by decide
theorem witness_DisplayedFiguresAreRounded : (0 : Int) ≤ 25 ∧ (-1 : Int) < 0 ∧ -32768 ≤ (32767 : Int) := by decide
theorem witness_HazardPeriodComputesEveryPath :
    (let s : State := { road with clocks := { road.clocks with seconds := 600 } }
     s.held = none ∧ s.hazard.nextExpiry ≤ s.now ∧ s.described = true ∧ s.hazard.paths[0]? = some gully) ∧
    (let s : State := { State.reset with clocks := { road.clocks with seconds := 600 } }
     s.held = none ∧ s.hazard.nextExpiry ≤ s.now ∧ s.described = false) := by decide +kernel
/-- A raw level above, below and at the level of the path, the one below with its loading clear of the threshold or not. -/
theorem witness_PeriodStages :
    let still : Readings := { depth := none, speed := none, direction := none, air := some (-150) }
    gully.level = 2 ∧ ((gully.figures { still with depth := some 189, speed := some 94, direction := some 70 } 600 24000).rawAfter = 3) ∧
    (({ gully with loading := 600 } : Path).figures still 300 0).rawAfter = 1 ∧
    (({ gully with loading := 600 } : Path).period still 300 0).level = 1 ∧
    (({ gully with loading := 900 } : Path).figures still 300 0).rawAfter = 1 ∧
    (({ gully with loading := 900 } : Path).period still 300 0).level = 2 ∧
    (({ gully with loading := 1300 } : Path).figures still 300 0).rawAfter = 2 := by decide
/-- A floor of each bound, one removed, a seed, and a floor at its end. -/
theorem witness_FloorsAndSeedsWriteThePath :
    (∀ b, b = [0, 1, 0, 0, 0, 1] ∨ b = [0, 5, 255, 255, 255, 255] ∨ b = [0, 3, 0, 0, 0, 0] →
      Waits (asks road .slope .setPathFloor b) .slope .setPathFloor (reqOf .setPathFloor b) [] ∧
      read1 (reqOf .setPathFloor b).body 0 = 0 ∧ 1 ≤ read1 (reqOf .setPathFloor b).body 1 ∧
      read1 (reqOf .setPathFloor b).body 1 ≤ 5) ∧
    (asks road .slope .setPathFloor [0, 1, 0, 0, 0, 1]).hazard.paths[0]? = some gully ∧
    (Waits (asks road .slope .seedPath [0, 255, 255]) .slope .seedPath (reqOf .seedPath [0, 255, 255]) [] ∧
      readInt2 (reqOf .seedPath [0, 255, 255]).body 1 = -1) ∧
    Running (pathIn { gully with floor := some { level := 2, endsAt := 100 } }) ∧
    (pathIn { gully with floor := some { level := 2, endsAt := 100 } }).hazard.paths[0]? =
      some { gully with floor := some { level := 2, endsAt := 100 } } := by
  refine ⟨fun b hb => ?_, rfl, ⟨road_waits _ _ _ rfl, by decide⟩, ⟨rfl, rfl⟩, rfl⟩
  obtain rfl | rfl | rfl := hb <;> exact ⟨road_waits _ _ _ rfl, by decide, by decide, by decide⟩
/-- Each kind of detection; a trip line taken as asserted; a clearing with the trip line asserted and released. -/
theorem witness_DetectionsLatchUntilCleared :
    (∀ b, b = [0, 1] ∨ b = [0, 2] ∨ b = [0, 3] →
      Waits (asks road .slope .reportDetection b) .slope .reportDetection (reqOf .reportDetection b) [] ∧
      (asks road .slope .reportDetection b).hazard.paths[0]? = some gully ∧
      (detectionOfCode (read1 (reqOf .reportDetection b).body 1)).isSome = true) ∧
    (let p : Path := { gully with cfg := { lee with trip := some 47 } }
     Running (settled (pathIn p) 47 true) ∧
      (settled (pathIn p) 47 true).scan.lines[47]? = some { present := true, level := false, stability := some 0 } ∧
      (settled (pathIn p) 47 true).hazard.paths[0]? = some p ∧ p.cfg.trip = some 47 ∧ p.latch ≠ .release) ∧
    (let p : Path := { gully with cfg := { lee with trip := some 3 }, latch := .release }
     Waits (asks (pathIn p) .slope .clearPath [0]) .slope .clearPath (reqOf .clearPath [0]) [] ∧
      (asks (pathIn p) .slope .clearPath [0]).hazard.paths[0]? = some p ∧
      (asks (pathIn p) .slope .clearPath [0]).asserted 3 = true) ∧
    (let p : Path := { gully with cfg := { lee with trip := some 47 }, latch := .release }
     Waits (asks (pathIn p) .centre .clearPath [0]) .centre .clearPath (reqOf .clearPath [0]) [] ∧
      (asks (pathIn p) .centre .clearPath [0]).hazard.paths[0]? = some p ∧
      (∀ k ∈ p.cfg.segments, (asks (pathIn p) .centre .clearPath [0]).hasRight k .centre overrideRight = true) ∧
      (asks (pathIn p) .centre .clearPath [0]).asserted 47 = false) := by
  refine ⟨fun b hb => ?_, ⟨⟨rfl, rfl⟩, by decide +kernel, rfl, rfl, by decide⟩,
    ⟨asks_waits _ _ _ _ rfl (.inr rfl) rfl, rfl, by decide +kernel⟩,
    ⟨asks_waits _ _ _ _ rfl (.inr rfl) rfl, rfl, by decide +kernel, by decide +kernel⟩⟩
  obtain rfl | rfl | rfl := hb <;> exact ⟨road_waits _ _ _ rfl, rfl, rfl⟩
/-- A latched path that holds its claim on each affected segment, and a step. -/
def latchedRoad : State :=
  { pathIn { gully with latch := .release } with
    pending := [.floorEnd 0]
    segs := { road.segs with claims := lee.segments.map (fun k =>
      { segment := k, holder := .hazard 0, level := .close, urgent := true, reason := 2, since := 60, start := none,
        endsAt := none, link := none, pending := false }) } }
theorem witness_DetectionsLatchUntilCleared_step : CallsOk latchedRoad ∧ (∃ t, step latchedRoad = .next t) ∧
    ∃ p, latchedRoad.hazard.paths[0]? = some p ∧ p.latch ≠ .clear ∧ p.cfg.segments ≠ [] := by
  refine ⟨fun n p hp k hk => ?_, ⟨_, rfl⟩, _, rfl, by decide, by decide⟩
  rcases n with _ | n
  · obtain rfl := Option.some.inj hp
    have hk : k ∈ lee.segments := hk
    refine ⟨fun _ => ?_, fun h => (by cases h), fun h => (by cases h), fun h => (by cases h)⟩
    simp only [lee, List.mem_cons, List.not_mem_nil, or_false] at hk
    obtain rfl | rfl := hk <;> exact ⟨_, rfl, rfl, rfl, rfl⟩
  · cases hp

end Sys2Proof.Tests
end

