-- ==== Sys2Proof/Proofs/DisplayedFigures.lean ====
section
/-! The displayed figures (R63). Temperatures: the figure from 0 on, and the sign, which the display carries over;
what holds below 0 follows from these two. Winds: the figure on each side of 0. -/

namespace Sys2Proof.Proofs

open Sys2Proof.Machine

/-! ### Temperatures -/

theorem displayTemperature_of_nonneg {v : Int} (h : 0 ≤ v) : displayTemperature v = (v + 5) / 10 := by
  rw [displayTemperature, if_neg (not_lt.mpr h)]
  omega

/-- R63, "and the sign restored": the magnitude alone decides the figure. -/
theorem displayTemperature_neg (v : Int) : displayTemperature (-v) = -displayTemperature v := by
  simp only [displayTemperature, Int.natAbs_neg]
  obtain below | rfl | above := lt_trichotomy v 0
  · rw [if_neg (by omega), if_pos below, neg_neg]
  · rfl
  · rw [if_pos (by omega), if_neg (by omega)]

/-- A displayed temperature lies between 0 and the value in tenths, on either side of 0. -/
theorem displayTemperature_between (v : Int) : min v 0 ≤ displayTemperature v ∧ displayTemperature v ≤ max v 0 := by
  obtain above | below := le_total 0 v
  · have figure := displayTemperature_of_nonneg above
    omega
  · have figure := displayTemperature_of_nonneg (neg_nonneg.mpr below)
    rw [displayTemperature_neg] at figure
    omega

/-! ### Winds -/

theorem displayWind_of_neg {v : Int} (h : v < 0) : displayWind v = 0 := if_pos h

theorem displayWind_of_nonneg {v : Int} (h : 0 ≤ v) : displayWind v = (v * 36 + 50) / 100 := if_neg (not_lt.mpr h)

/-- A displayed wind lies between 0 and the value in tenths, and is 0 where the value is below. -/
theorem displayWind_between (v : Int) : 0 ≤ displayWind v ∧ displayWind v ≤ max v 0 := by
  obtain below | above := lt_or_ge v 0
  · rw [displayWind_of_neg below]
    omega
  · rw [displayWind_of_nonneg above]
    omega

/-! ### The statement -/

/-- Settles O57: no displayed figure is farther from 0 than the value it shows, so none leaves the 16 bits. -/
theorem displayedFiguresAreRounded : Obligations.DisplayedFiguresAreRounded := by
  unfold Obligations.DisplayedFiguresAreRounded
  refine ⟨fun v above => ⟨displayTemperature_of_nonneg above, displayTemperature_neg v⟩,
    fun _ above => displayWind_of_nonneg above, fun _ below => displayWind_of_neg below,
    rfl, rfl, rfl, rfl, rfl, rfl, rfl, rfl, rfl, fun v low high => ?_⟩
  obtain ⟨temperatureLow, temperatureHigh⟩ := displayTemperature_between v
  obtain ⟨windLow, windHigh⟩ := displayWind_between v
  omega

end Sys2Proof.Proofs
end

