-- ==== Sys2Proof/Proofs/LoadingBalance.lean ====
section
/-! The snow term, settlement and new loading of a period (R126, R128, R129). Each stage is bounded on its own, and the
period's figures are then read as those stages. -/

namespace Sys2Proof.Proofs

open Sys2Proof.Machine

/-! ### The snow term -/

theorem snowTerm_calm (snow : Nat) : snowTerm snow 4 100 = snow * 10 := by
  unfold snowTerm
  omega

theorem snowTerm_mono {snow snow' factor factor' k k' : Nat} (hs : snow ≤ snow') (hf : factor ≤ factor') (hk : k ≤ k') :
    snowTerm snow factor k ≤ snowTerm snow' factor' k' := by
  unfold snowTerm
  gcongr

/-! ### Settlement -/

theorem settleRate_le (air : Option Int) : settleRate air ≤ 35 := by
  cases air with
  | none => decide
  | some t =>
    simp only [settleRate]
    split_ifs <;> decide

/-- R128: r × P stays within 35 × 3600, an hour at the fastest rate. -/
theorem settleRate_mul_period_le (air : Option Int) {period : Nat} (hour : period ≤ 3600) :
    settleRate air * period ≤ 126000 :=
  Nat.mul_le_mul (settleRate_le air) hour

theorem settlement_eq_zero {loading rate period : Nat} (small : loading * (rate * period) < 3600000) :
    settlement loading rate period = 0 := by
  rw [settlement, Nat.mul_assoc]
  exact Nat.div_eq_of_lt small

/-- R128: "at most 3.5 % of L_old". -/
theorem settlement_le_share {loading rate period : Nat} (product : rate * period ≤ 126000) :
    1000 * settlement loading rate period ≤ 35 * loading := by
  have scaled : loading * (rate * period) ≤ loading * 126000 := Nat.mul_le_mul_left loading product
  rw [settlement, Nat.mul_assoc]
  omega

/-! ### The new loading -/

/-- R129: what settles is there to be taken away, so the truncated subtraction loses nothing. -/
theorem newLoading_add_settle {loading settle : Nat} (snow drift : Nat) (covered : settle ≤ loading) :
    newLoading loading settle snow drift + settle = Nat.min (9999 + settle) (loading + snow + drift) := by
  have exchanged : loading - settle + snow + drift + settle = loading + snow + drift := by omega
  rw [← exchanged]
  exact (Nat.add_min_add_right 9999 _ settle).symm

/-! ### The figures of a period -/

theorem figures_snowTerm (p : Path) (q : Readings) (period now : Nat) : (p.figures q period now).snowTerm =
    snowTerm (p.figures q period now).newSnow (p.figures q period now).windFactor p.cfg.sensitivity := rfl

theorem figures_rate (p : Path) (q : Readings) (period now : Nat) :
    (p.figures q period now).rate = settleRate q.air := rfl

theorem figures_settle (p : Path) (q : Readings) (period now : Nat) : (p.figures q period now).settle =
    settlement p.loading (p.figures q period now).rate period := rfl

theorem figures_newLoading (p : Path) (q : Readings) (period now : Nat) : (p.figures q period now).newLoading =
    newLoading p.loading (p.figures q period now).settle (p.figures q period now).snowTerm
      (p.figures q period now).drift := rfl

theorem period_loading (p : Path) (q : Readings) (period now : Nat) :
    (p.period q period now).loading = (p.figures q period now).newLoading := rfl

theorem period_substitutes_temperature (p : Path) (q : Readings) (period now : Nat) :
    (p.period q period now).substitutes.temperature = true ↔ q.air = none :=
  Option.isNone_iff_eq_none

/-! ### The statement -/

/-- Settles O56: within an hour at most 3.5 % of the loading settles, so the new loading balances with what was there and
what came in, up to 9999. -/
theorem loadingFollowsSnowAndSettlement : Obligations.LoadingFollowsSnowAndSettlement := by
  unfold Obligations.LoadingFollowsSnowAndSettlement
  refine ⟨fun p q period now => ⟨figures_snowTerm p q period now, figures_rate p q period now,
    figures_settle p q period now, period_loading p q period now,
    period_substitutes_temperature p q period now, fun hour => ?_, settlement_eq_zero⟩,
    snowTerm_calm, fun _ _ _ hs hf hk => snowTerm_mono hs hf hk, rfl⟩
  have product : (p.figures q period now).rate * period ≤ 126000 := settleRate_mul_period_le q.air hour
  have share : 1000 * (p.figures q period now).settle ≤ 35 * p.loading := settlement_le_share product
  have covered : (p.figures q period now).settle ≤ p.loading := by omega
  exact ⟨product, share, covered, newLoading_add_settle _ _ covered⟩

end Sys2Proof.Proofs
end

