-- ==== Sys2Proof/Proofs/AttentionLine.lean ====
section
/-! The attention line of a port (R170). The line depends on the reset in progress and on the port's notice queue, so each
operation is read by what it does to these two; the taking and the answering of a command touch neither. -/

namespace Sys2Proof.Proofs

open Sys2Proof.Machine Sys2Proof.Safety Sys2Proof.Laws

/-! ### The level of the line -/

theorem attention_iff (s : State) (m : Master) :
    s.attention m = true ↔ s.held = none ∧ (s.port m).notices ≠ [] := by
  simp [State.attention]

theorem attention_of_held {s : State} {cause : ResetCause} (h : s.held = some cause) (m : Master) :
    s.attention m = false := by
  simp [State.attention, h]

theorem attention_of_notices_nil {s : State} {m : Master} (h : (s.port m).notices = []) : s.attention m = false := by
  simp [State.attention, h]

theorem attention_of_notices {s : State} {m : Master} {n : Notice} {more : List Notice} (run : s.held = none)
    (h : (s.port m).notices = n :: more) : s.attention m = true :=
  (attention_iff s m).2 ⟨run, by simp [h]⟩

/-! ### The queue after each operation -/

theorem takeQueued_notices (s : State) (m : Master) (rest : List Request) (k : Master) :
    ((s.takeQueued m rest).port k).notices = (s.port k).notices :=
  takeQueued_frame s m rest .notices (by decide) k

/-- The response a command is finished with leaves every attention line as the owning block left it. -/
theorem attention_finish (s : State) (m : Master) (x : Response) (k : Master) :
    (s.finish m x).attention k = s.attention k := by
  have held : (s.finish m x).held = s.held := finish_frame s m x .reset (by decide)
  have notices : ((s.finish m x).port k).notices = (s.port k).notices := finish_frame s m x .notices (by decide) k
  rw [State.attention, held, notices, State.attention]

/-- R167, R170: a command that waits moves the lines as its owning block does. -/
theorem attention_execute {s : State} {m : Master} {c : Command} {r : Request} {rest : List Request}
    (w : Waits s m c r rest) (owner : List Byte → State → Answer) (k : Master) :
    (s.execute m c anyBody owner).attention k = (owner r.body (s.takeQueued m rest)).state.attention k := by
  rw [execute_of_waits w anyBody rfl owner, attention_finish]

theorem take_notices_of_empty {p : Port} {n : Notice} (empty : p.notices = []) (admits : p.admits n.kind = true) :
    (p.take n).notices = [n] := by
  simp [Port.take, admits, empty, Config.noticeQueueSize]

theorem fetchNotice_notices {s : State} {m : Master} {n : Notice} {more : List Notice}
    (h : (s.port m).notices = n :: more) : ((s.fetchNotice m).state.port m).notices = more := by
  simp [State.fetchNotice, h, Answer.ok]

theorem restart_notices (s : State) (cause : ResetCause) (m : Master) :
    ((s.restart cause).port m).notices = [restartedNotice cause 0] := by
  cases m <;> rfl

theorem reloaded_notices (s : State) (m : Master) :
    (s.reloaded.port m).notices = [restartedNotice .reload s.now] := by
  cases m <;> rfl

/-- R185: CENTRE's RELOAD is accepted outside LOADING, where no described corridor is busy. -/
theorem reload_state_of_accepted {s : State} (idle : s.loader.state ≠ .loading)
    (free : s.described = true → s.busy = false) : (s.reload .centre).state = s.reloaded := by
  have notBusy : ¬ (s.described = true ∧ s.busy = true) := fun ⟨described, busy⟩ => by simp [free described] at busy
  rw [State.reload, if_neg (fun other => other rfl), if_neg idle, if_neg notBusy, Answer.ok]

/-! ### The commands that move the line -/

theorem attention_resetEnd {s : State} {cause : ResetCause} (h : s.held = some cause) (m : Master) :
    ∃ t, exec .resetEnd s = .next t ∧ t.attention m = true := by
  have restarts : execResetEnd s = .next (s.restart cause) := by rw [execResetEnd, h]
  exact ⟨_, restarts, attention_of_notices rfl (restart_notices s cause m)⟩

theorem attention_tell_first {s : State} {m : Master} {n : Notice} (run : s.held = none)
    (empty : (s.port m).notices = []) (admits : (s.port m).admits n.kind = true) :
    (s.tell m n).attention m = true := by
  refine attention_of_notices (n := n) (more := []) run ?_
  rw [port_tell, take_notices_of_empty empty admits]

theorem attention_fetchNotice_only {s : State} {m : Master} {r : Request} {rest : List Request} {n : Notice}
    (w : Waits s m .fetchNotice r rest) (only : (s.port m).notices = [n]) :
    ∃ t, exec (.fetchNotice m) s = .next t ∧ t.attention m = false := by
  refine ⟨_, rfl, ?_⟩
  rw [attention_execute w]
  exact attention_of_notices_nil (fetchNotice_notices ((takeQueued_notices s m rest m).trans only))

theorem attention_resetPort {s : State} {m : Master} {r : Request} {rest : List Request}
    (w : Waits s m .resetPort r rest) : ∃ t, exec (.resetPort m) s = .next t ∧ t.attention m = false := by
  refine ⟨_, rfl, ?_⟩
  rw [attention_execute w]
  exact attention_of_notices_nil (by simp [Answer.ok, Port.cutOff])

theorem attention_reload {s : State} {r : Request} {rest : List Request} (w : Waits s .centre .reload r rest)
    (idle : s.loader.state ≠ .loading) (free : s.described = true → s.busy = false) (m : Master) :
    ∃ t, exec (.reload .centre) s = .next t ∧ t.attention m = true := by
  refine ⟨_, rfl, ?_⟩
  have accepted : ((s.takeQueued .centre rest).reload .centre).state = (s.takeQueued .centre rest).reloaded :=
    reload_state_of_accepted idle free
  rw [attention_execute w, accepted]
  exact attention_of_notices w.running (reloaded_notices _ m)

/-! ### The statement -/

/-- Settles O28: a running part's line follows the queue, and each clause is what its operation makes of the queue. -/
theorem attentionFollowsTheQueue : Obligations.AttentionFollowsTheQueue := by
  unfold Obligations.AttentionFollowsTheQueue
  exact ⟨fun s m run => (attention_iff s m).trans (and_iff_right run),
    fun _ m _ held => ⟨attention_of_held held m, attention_resetEnd held m⟩,
    fun _ _ _ run empty admits => ⟨attention_of_notices_nil empty, attention_tell_first run empty admits⟩,
    fun _ _ _ _ _ w only => attention_fetchNotice_only w only,
    fun _ _ _ _ w => attention_resetPort w,
    fun _ m _ _ w idle free => attention_reload w idle free m⟩

end Sys2Proof.Proofs
end

