-- ==== Sys2Proof/Proofs/Effects.lean ====
section
/-! What each operation of the model may change and what it may tell the ports, said once per operation, in the order of
the model's files. `Effect parts kinds s t`: nothing but these parts has changed, and each port has taken notices of these
kinds alone (R169). Laws/Moves.lean says of the operations between the blocks what they keep; this layer says for each
operation by itself how little it touches. -/

namespace Sys2Proof.Proofs

open Sys2Proof.Machine Sys2Proof.Safety Sys2Proof.Laws

structure Effect (parts : List Part) (kinds : List NoticeKind) (s t : State) : Prop where
  frame : Frame parts s t
  heard : ∀ m, ∃ ns : List Notice, (∀ n ∈ ns, n.kind ∈ kinds) ∧ t.port m = ns.foldl Port.take (s.port m)

namespace Effect

theorem refl (l : List Part) (K : List NoticeKind) (s : State) : Effect l K s s :=
  ⟨Moves.frame_refl l s, fun _ => ⟨[], by simp, rfl⟩⟩

theorem mono {l l' : List Part} {K K' : List NoticeKind} {s t : State} (h : Effect l K s t)
    (hl : ∀ p ∈ l, p ∈ l' := by decide) (hK : ∀ k ∈ K, k ∈ K' := by decide) : Effect l' K' s t := by
  refine ⟨Moves.frame_mono hl h.frame, fun m => ?_⟩
  obtain ⟨ns, kinds, port⟩ := h.heard m
  exact ⟨ns, fun n hn => hK _ (kinds n hn), port⟩

theorem trans {l : List Part} {K : List NoticeKind} {s t u : State} (h : Effect l K s t) (k : Effect l K t u) :
    Effect l K s u := by
  refine ⟨Moves.frame_trans h.frame k.frame, fun m => ?_⟩
  obtain ⟨first, firstKinds, firstPort⟩ := h.heard m
  obtain ⟨more, moreKinds, morePort⟩ := k.heard m
  refine ⟨first ++ more, fun n hn => ?_, by rw [morePort, firstPort, List.foldl_append]⟩
  exact (List.mem_append.1 hn).elim (firstKinds n) (moreKinds n)

/-- Two effects in a row, each within the parts and kinds of the whole. -/
theorem seq {l l₁ l₂ : List Part} {K K₁ K₂ : List NoticeKind} {s t u : State} (h : Effect l₁ K₁ s t)
    (k : Effect l₂ K₂ t u) (h₁ : ∀ p ∈ l₁, p ∈ l := by decide) (h₂ : ∀ p ∈ l₂, p ∈ l := by decide)
    (k₁ : ∀ n ∈ K₁, n ∈ K := by decide) (k₂ : ∀ n ∈ K₂, n ∈ K := by decide) : Effect l K s u :=
  (h.mono h₁ k₁).trans (k.mono h₂ k₂)

theorem fold {α : Type} {l : List Part} {K : List NoticeKind} (f : State → α → State)
    (h : ∀ s a, Effect l K s (f s a)) (as : List α) (s : State) : Effect l K s (as.foldl f s) :=
  foldl_keeps (Effect l K) (refl l K) trans f h as s

/-- A change that leaves the ports alone tells them nothing. -/
theorem silent {l : List Part} {s t : State} (h : Frame l s t) (p : t.ports = s.ports) : Effect l [] s t :=
  ⟨h, fun m => ⟨[], by simp, by simp [State.port, p]⟩⟩

/-! ### What an effect leaves -/

variable {l : List Part} {K : List NoticeKind} {s t : State}

theorem queued (h : Effect l K s t) (m : Master) : (t.port m).queued = (s.port m).queued := by
  obtain ⟨ns, -, port⟩ := h.heard m
  rw [port]
  exact foldl_keeps (fun p q : Port => q.queued = p.queued) (fun _ => rfl) (fun a b => b.trans a) _ take_queued ns _

theorem done (h : Effect l K s t) (m : Master) : (t.port m).done = (s.port m).done := by
  obtain ⟨ns, -, port⟩ := h.heard m
  rw [port]
  exact foldl_keeps (fun p q : Port => q.done = p.done) (fun _ => rfl) (fun a b => b.trans a) _ take_done ns _

theorem mask (h : Effect l K s t) (m : Master) : (t.port m).mask = (s.port m).mask := by
  obtain ⟨ns, -, port⟩ := h.heard m
  rw [port]
  exact foldl_keeps (fun p q : Port => q.mask = p.mask) (fun _ => rfl) (fun a b => b.trans a) _ take_mask ns _

theorem ports (h : Effect l K s t) (ok : PortsOk s) : PortsOk t := fun m => by
  obtain ⟨ns, -, port⟩ := h.heard m
  rw [port]
  exact foldl_keeps (fun p q : Port => PortOk p → PortOk q) (fun _ => id) (fun a b => b ∘ a) _
    (fun p n => take_ok p n) ns _ (ok m)

end Effect

/-! ### Changes of one part -/

section
variable (s : State)

theorem frame_pending (x : List Instr) : Frame [.waiting] s { s with pending := x } := by
  intro p hp; cases p <;> simp [Part.same, State.port] at hp ⊢
theorem frame_display (x : Option ClockSetting) : Frame [.display] s { s with clocks := { s.clocks with display := x } } := by
  intro p hp; cases p <;> simp [Part.same, State.port] at hp ⊢
theorem frame_records (x : List Segment) : Frame [.records] s { s with segs := { s.segs with records := x } } := by
  intro p hp; cases p <;> simp [Part.same, State.port] at hp ⊢
theorem frame_claims (x : List Claim) : Frame [.claims] s (s.setClaims x) := by
  intro p hp; cases p <;> simp [Part.same, State.port, State.setClaims] at hp ⊢
theorem frame_authority (x : List (BitVec 5)) :
    Frame [.authority] s { s with segs := { s.segs with authority := x } } := by
  intro p hp; cases p <;> simp [Part.same, State.port] at hp ⊢
theorem frame_gates (x : List Gate) : Frame [.gates] s { s with gates := x } := by
  intro p hp; cases p <;> simp [Part.same, State.port] at hp ⊢
theorem frame_slots (x : List Slot) : Frame [.slots] s { s with store := { s.store with slots := x } } := by
  intro p hp; cases p <;> simp [Part.same, State.port] at hp ⊢
theorem frame_priority (x : List Nat) : Frame [.priority] s { s with store := { s.store with priority := x } } := by
  intro p hp; cases p <;> simp [Part.same, State.port] at hp ⊢
theorem frame_tops (x : List Top) : Frame [.tops] s { s with store := { s.store with tops := x } } := by
  intro p hp; cases p <;> simp [Part.same, State.port] at hp ⊢
theorem frame_signs (x : List Sign) : Frame [.signs] s { s with line := { s.line with signs := x } } := by
  intro p hp; cases p <;> simp [Part.same, State.port] at hp ⊢
theorem frame_transmit (x : List Entry) (y : Option InFlight) (n : Nat) :
    Frame [.transmit] s { s with line := { s.line with entries := x, inFlight := y, made := n } } := by
  intro p hp; cases p <;> simp [Part.same, State.port] at hp ⊢
theorem frame_lineState (x : LineState) (n : Nat) (r : Option Nat) :
    Frame [.line] s { s with line := { s.line with state := x, errors := n, recovery := r } } := by
  intro p hp; cases p <;> simp [Part.same, State.port] at hp ⊢
theorem frame_channels (x : List (Option Channel)) :
    Frame [.channels] s { s with scan := { s.scan with channels := x } } := by
  intro p hp; cases p <;> simp [Part.same, State.port] at hp ⊢
theorem frame_inputs (x : List InputLine) : Frame [.inputs] s { s with scan := { s.scan with lines := x } } := by
  intro p hp; cases p <;> simp [Part.same, State.port] at hp ⊢
theorem frame_round (x : Option Nat) (n : Nat) (y : Option Nat) :
    Frame [.round] s { s with scan := { s.scan with converting := x, roundStart := n, nextRound := y } } := by
  intro p hp; cases p <;> simp [Part.same, State.port] at hp ⊢
theorem frame_paths (x : List Path) : Frame [.paths] s { s with hazard := { s.hazard with paths := x } } := by
  intro p hp; cases p <;> simp [Part.same, State.port] at hp ⊢
theorem frame_period (x y : Nat) :
    Frame [.period] s { s with hazard := { s.hazard with period := x, nextExpiry := y } } := by
  intro p hp; cases p <;> simp [Part.same, State.port] at hp ⊢
theorem frame_reserve (n : Nat) : Frame [.reserve] s { s with power := { s.power with reserve := n } } := by
  intro p hp; cases p <;> simp [Part.same, State.port] at hp ⊢
theorem frame_mode (x : Mode) : Frame [.mode] s { s with power := { s.power with mode := x } } := by
  intro p hp; cases p <;> simp [Part.same, State.port] at hp ⊢
theorem frame_loader (x : Loader) : Frame [.loader] s { s with loader := x } := by
  intro p hp; cases p <;> simp [Part.same, State.port] at hp ⊢

/-! ### Machine/Ops.lean -/

theorem effect_updSegment (k : Nat) (f : Segment → Segment) : Effect [.records] [] s (s.updSegment k f) :=
  .silent (frame_records s _) rfl

theorem effect_setClaims (x : List Claim) : Effect [.claims] [] s (s.setClaims x) := .silent (frame_claims s x) rfl

theorem effect_updGate (g : Nat) (f : Gate → Gate) : Effect [.gates] [] s (s.updGate g f) := .silent (frame_gates s _) rfl

theorem effect_updSign (k : Nat) (f : Sign → Sign) : Effect [.signs] [] s (s.updSign k f) := .silent (frame_signs s _) rfl

theorem effect_setInFlight (x : Option InFlight) : Effect [.transmit] [] s (s.setInFlight x) :=
  .silent (frame_transmit s _ _ _) rfl

theorem effect_updPath (n : Nat) (f : Path → Path) : Effect [.paths] [] s (s.updPath n f) := .silent (frame_paths s _) rfl

theorem effect_setChannel (c : Nat) (x : Channel) : Effect [.channels] [] s (s.setChannel c x) :=
  .silent (frame_channels s _) rfl

theorem effect_tell (m : Master) (n : Notice) (kind : NoticeKind) (h : n.kind = kind := by rfl) :
    Effect noticeParts [kind] s (s.tell m n) := by
  subst h
  refine ⟨?_, fun k => ?_⟩
  · have moved := moves_tell s m n
    intro p hp
    cases p <;> first
      | exact absurd (by decide) hp
      | exact moved.frame _ (by decide)
      | simp [Part.same]
  · obtain rfl | other := eq_or_ne k m
    · exact ⟨[n], by simp, port_tell s k n⟩
    · exact ⟨[], by simp, port_tell_ne s other n⟩

theorem effect_tellAll (n : Notice) (kind : NoticeKind) (h : n.kind = kind := by rfl) :
    Effect noticeParts [kind] s (s.tellAll n) :=
  ((effect_tell s .centre n kind h).trans (effect_tell _ .slope n kind h)).trans (effect_tell _ .crew n kind h)

theorem effect_newEntry (k : Nat) (r : EntryReason) : Effect [.transmit] [] s (s.newEntry k r) :=
  .silent (frame_transmit s _ _ _) rfl

theorem effect_enter (k : Nat) (r : EntryReason) : Effect [.transmit] [] s (s.enter k r) := by
  unfold State.enter
  split
  · exact effect_setInFlight s _
  · split
    · exact .silent (frame_transmit s _ _ _) rfl
    · exact effect_newEntry s k r

theorem effect_request (k : Nat) (r : EntryReason) : Effect [.transmit] [] s (s.request k r) := by
  unfold State.request
  split
  · exact .refl _ _ s
  · split
    · exact effect_enter s k r
    · exact .refl _ _ s

/-! ### Machine/Selector.lean -/

theorem effect_reselectSign (k : Nat) : Effect [.tops, .transmit] [] s (s.reselectSign k) := by
  unfold State.reselectSign
  split
  · dsimp only
    split
    · exact .refl _ _ s
    · exact Effect.seq (.silent (frame_tops s (s.store.tops.set k _)) rfl) (effect_request _ k .change)
  · exact .refl _ _ s

theorem effect_reselect : Effect [.tops, .transmit] [] s s.reselect := .fold _ effect_reselectSign _ s

theorem effect_writeSlot (n : Nat) (f : Slot → Slot) : Effect contentParts [] s (s.writeSlot n f) := by
  unfold State.writeSlot
  split
  · exact .refl _ _ s
  · have written := fun y => Effect.silent (frame_slots s (s.store.slots.set n y)) rfl
    dsimp only
    split
    · exact (written _).mono
    · exact .seq (written _) (effect_reselect _)

theorem effect_formSlot (n : Nat) (c : Option Content) : Effect contentParts [] s (s.formSlot n c) :=
  effect_writeSlot s n _

theorem effect_formWeather (k : Nat) : Effect contentParts [] s (s.formWeather k) := by
  unfold State.formWeather
  split
  · split
    · exact effect_formSlot s _ _
    · exact .refl _ _ s
  · exact .refl _ _ s

theorem effect_formWeatherFrom (c : Nat) (y : Channel) : Effect contentParts [] s (s.formWeatherFrom c y) := by
  refine .fold _ (fun s k => ?_) _ s
  split
  · split
    · exact effect_formWeather s k
    · exact .refl _ _ s
  · exact .refl _ _ s

/-! ### Machine/Mode.lean -/

theorem effect_resetRefresh (k : Nat) : Effect [.signs, .transmit] [] s (s.resetRefresh k) := by
  unfold State.resetRefresh
  split
  · exact .refl _ _ s
  · split
    · exact (effect_updSign s k _).mono
    · split
      · exact .seq (effect_updSign s k _) (effect_request _ k .refresh)
      · exact (effect_updSign s k _).mono

theorem effect_blankWeather (k : Nat) : Effect [.signs, .transmit] [] s (s.blankWeather k) := by
  unfold State.blankWeather
  split
  · exact .refl _ _ s
  · split
    · exact .seq (effect_updSign s k _) (effect_request _ k .blank)
    · exact .refl _ _ s

theorem effect_eachSign {l : List Part} {K : List NoticeKind} {f : State → Nat → State}
    (h : ∀ s k, Effect l K s (f s k)) : Effect l K s (s.eachSign f) := .fold f h _ s

end

/-- What a change of mode may change beside the mode: the signs' refresh due, what they are to show and their requests. -/
def modeParts : List Part := [.mode, .signs, .tops, .transmit] ++ noticeParts

section
variable (s : State)

theorem effect_handMode (old : Mode) : Effect [.signs, .tops, .transmit] [] s (s.handMode old) := by
  have selected := (effect_reselect s).mono (l' := [.signs, .tops, .transmit]) (K' := [])
  have refreshed (s : State) : Effect [.signs, .tops, .transmit] [] s (s.eachSign State.resetRefresh) :=
    (effect_eachSign s effect_resetRefresh).mono
  have blanked (s : State) : Effect [.signs, .tops, .transmit] [] s (s.eachSign State.blankWeather) :=
    (effect_eachSign s effect_blankWeather).mono
  unfold State.handMode
  dsimp only
  split <;> split
  · exact (selected.trans (refreshed _)).trans (blanked _)
  · exact selected.trans (refreshed _)
  · exact (refreshed s).trans (blanked _)
  · exact refreshed s

theorem effect_evaluateMode (silent : Bool) : Effect modeParts [.powerMode] s (s.evaluateMode silent) := by
  have recorded := Effect.silent (frame_mode s s.power.nextMode) rfl
  unfold State.evaluateMode
  dsimp only
  split
  · exact .refl _ _ s
  · split
    · exact .seq recorded (effect_handMode _ _)
    · exact .seq (.seq (l := modeParts) (K := [.powerMode]) recorded (effect_tellAll _ _ .powerMode)) (effect_handMode _ _)

theorem effect_updateReserve : Effect (.reserve :: modeParts) [.powerMode] s s.updateReserve := by
  unfold State.updateReserve
  dsimp only
  split
  · exact .refl _ _ s
  · exact Effect.seq (.silent (frame_reserve s (closureReserve s.gates)) rfl) (effect_evaluateMode _ false)

/-! ### Machine/Flags.lean and Machine/Road.lean -/

theorem effect_withSegmentNotice {l : List Part} {K : List NoticeKind} (k : Nat) (f : State → State)
    (h : Effect l K s (f s)) (hl : ∀ p ∈ noticeParts, p ∈ l := by decide) (hK : .segmentState ∈ K := by decide) :
    Effect l K s (s.withSegmentNotice k f) := by
  unfold State.withSegmentNotice
  dsimp only
  split
  · split
    · exact h
    · exact h.trans ((effect_tellAll _ _ .segmentState).mono hl (by intro n hn; rw [List.mem_singleton] at hn; exact hn ▸ hK))
  · exact h

theorem effect_formSegmentSlot (k : Nat) : Effect contentParts [] s (s.formSegmentSlot k) := by
  unfold State.formSegmentSlot
  split
  · exact .refl _ _ s
  · exact effect_formSlot s _ _

theorem effect_handLamps (l : List Nat) (b : Bool) : Effect [.gates] [] s (s.handLamps l b) :=
  .fold _ (fun s g => effect_updGate s g _) l s

theorem effect_recordDemand (l : List Nat) (d : Demand) : Effect [.gates] [] s (s.recordDemand l d) :=
  .fold _ (fun s g => effect_updGate s g _) l s

theorem effect_testGates (k : Nat) : Effect (.records :: .gates :: contentParts) [] s (s.testGates k) := by
  unfold State.testGates
  split
  · exact .refl _ _ s
  · split
    · split
      · exact .seq (effect_updSegment s k _) (effect_formSegmentSlot _ k)
      · exact .refl _ _ s
    · exact (effect_updSegment s k _).mono
    · split
      · exact .seq (.seq (l := [.records, .gates]) (K := []) (.seq (l := [.records, .gates]) (K := [])
          (effect_updSegment s k _) (effect_handLamps _ _ _)) (effect_recordDemand _ _ _)) (effect_formSegmentSlot _ k)
      · exact .refl _ _ s
    · exact .refl _ _ s

end

/-- The notices the reports between gates, segments and power controller raise. -/
def roadKinds : List NoticeKind := [.segmentState, .gateState, .gateHeld, .powerMode]

/-- What a gate's report may tell. -/
def reportKinds : List NoticeKind := [.gateState, .powerMode]

section
variable (s : State)

theorem effect_gateReport (g : Nat) : Effect roadParts reportKinds s (s.gateReport g) := by
  unfold State.gateReport
  split
  · exact .refl _ _ s
  · exact .seq (.seq (l := roadParts) (K := reportKinds) (effect_testGates s _) (effect_updateReserve _))
      (effect_tellAll _ _ .gateState)

theorem effect_changeGate (g : Nat) (f : Gate → Gate) : Effect roadParts reportKinds s (s.changeGate g f) :=
  .seq (effect_updGate s g f) (effect_gateReport _ g)

theorem effect_applyLower (g : Nat) : Effect roadParts reportKinds s (s.applyLower g) := by
  unfold State.applyLower
  split
  · exact .refl _ _ s
  · split
    · split
      · exact effect_changeGate s g _
      · exact effect_changeGate s g _
    · exact effect_changeGate s g _
    all_goals exact .refl _ _ s

theorem effect_applyRaise (g : Nat) : Effect roadParts roadKinds s (s.applyRaise g) := by
  unfold State.applyRaise
  split
  · exact .refl _ _ s
  · split
    · split
      · exact (effect_changeGate s g _).mono
      · split
        · exact .refl _ _ s
        · exact .seq (effect_updGate s g _) (effect_tellAll _ _ .gateHeld)
    all_goals exact .refl _ _ s

theorem effect_applyRecorded (g : Nat) : Effect roadParts roadKinds s (s.applyRecorded g) := by
  unfold State.applyRecorded
  split
  · exact .refl _ _ s
  · split
    · exact (effect_applyLower s g).mono
    · exact effect_applyRaise s g
    all_goals exact .refl _ _ s

theorem effect_arrive (g : Nat) (state : GateState) : Effect roadParts roadKinds s (s.arrive g state) :=
  .seq (effect_changeGate s g _) (effect_applyRecorded _ g)

theorem effect_applyAll (l : List Nat) : Effect roadParts roadKinds s (l.foldl State.applyRecorded s) :=
  .fold _ effect_applyRecorded l s

theorem effect_handDemand (k : Nat) (l : List Nat) (d : Demand) : Effect roadParts roadKinds s (s.handDemand k l d) :=
  .seq (.seq (l := roadParts) (K := roadKinds) (effect_recordDemand s l d) (effect_applyAll _ l)) (effect_testGates _ k)

theorem effect_followUp (k : Nat) : Effect roadParts roadKinds s (s.followUp k) := by
  unfold State.followUp
  split
  · exact .refl _ _ s
  · dsimp only
    split
    · exact .seq (effect_handLamps s _ _) (effect_formSegmentSlot _ k)
    · exact .seq (.seq (l := roadParts) (K := roadKinds) (.seq (l := roadParts) (K := roadKinds) (effect_handLamps s _ _)
        (effect_updSegment _ k _)) (effect_handDemand _ k _ _)) (effect_formSegmentSlot _ k)

theorem effect_stepSegment (k : Nat) : Effect [.records] [] s (s.stepSegment k) := by
  unfold State.stepSegment
  split
  · exact .refl _ _ s
  · exact effect_updSegment s k _

theorem effect_recompute (k : Nat) : Effect roadParts roadKinds s (s.recompute k) :=
  effect_withSegmentNotice s k _ (.seq (effect_stepSegment s k) (effect_followUp _ k))

theorem effect_dropClaim (k : Nat) (h : Holder) : Effect [.claims] [] s (s.dropClaim k h) := effect_setClaims s _
theorem effect_replaceClaim (k : Nat) (h : Holder) (x : Claim) : Effect [.claims] [] s (s.replaceClaim k h x) :=
  effect_setClaims s _
theorem effect_tailClaim (k : Nat) (h : Holder) (x : Claim) : Effect [.claims] [] s (s.tailClaim k h x) :=
  effect_setClaims s _
theorem effect_unlinkClaim (k : Nat) (m : Master) : Effect [.claims] [] s (s.unlinkClaim k m) := effect_setClaims s _

theorem effect_matchClaim (k path : Nat) (call : Call) :
    Effect (.claims :: roadParts) roadKinds s (s.matchClaim k path call) := by
  unfold State.matchClaim
  split
  · split
    · exact .refl _ _ s
    · exact .seq (effect_tailClaim s _ _ _) (effect_recompute _ k)
  · split
    · exact .seq (effect_dropClaim s _ _) (effect_recompute _ k)
    · split
      · exact .seq (effect_tailClaim s _ _ _) (effect_recompute _ k)
      · split
        · exact .refl _ _ s
        · exact .seq (effect_replaceClaim s _ _ _) (effect_recompute _ k)

theorem effect_handCall (k path : Nat) (call : Call) :
    Effect (.claims :: roadParts) roadKinds s (s.handCall k path call) := by
  unfold State.handCall
  dsimp only
  split
  · exact .seq (effect_matchClaim s k path call) (effect_formSegmentSlot _ k)
  · exact effect_matchClaim s k path call

theorem effect_handOver (n : Nat) : Effect (.claims :: roadParts) roadKinds s (s.handOver n) := by
  unfold State.handOver
  split
  · exact .refl _ _ s
  · exact .fold _ (fun s k => effect_handCall s k n _) _ s

/-! ### Machine/Posted.lean -/

theorem effect_endPosted (n : Nat) (cause : SlotEndCause) (tell : Bool) :
    Effect (.claims :: contentParts ++ noticeParts) [.slotEnded] s (s.endPosted n cause tell) := by
  unfold State.endPosted
  split
  · exact .refl _ _ s
  · split
    · rename_i p _ _
      have unlinked : Effect [.claims] [] s (match p.link with | some k => s.unlinkClaim k p.owner | none => s) := by
        split
        · exact effect_unlinkClaim s _ _
        · exact .refl _ _ s
      have ended := Effect.seq (l := .claims :: contentParts ++ noticeParts) (K := [.slotEnded]) unlinked
        (effect_writeSlot _ n (fun y => { y with content := none, posted := none }))
      dsimp only
      split
      · exact ended.seq (effect_tell _ _ _ .slotEnded)
      · exact ended
    · exact .refl _ _ s

theorem effect_linkSlot (n : Nat) (link : Option Nat) : Effect [.slots] [] s (s.linkSlot n link) :=
  .silent (frame_slots s _) rfl

theorem effect_withdrawLinked (c : Claim) :
    Effect (.claims :: contentParts ++ noticeParts) [.slotEnded] s (s.withdrawLinked c) := by
  unfold State.withdrawLinked
  split
  · exact .refl _ _ s
  · exact effect_endPosted s _ _ _

end

end Sys2Proof.Proofs
end

