-- ==== Sys2Proof/Proofs/FamilyEffects.lean ====
section
/-! What the commands and events of each family may change and tell: the effects of their owning blocks, in the order of
the model's files. -/

namespace Sys2Proof.Proofs

open Sys2Proof.Machine Sys2Proof.Safety Sys2Proof.Laws

/-! ### The answers of the owning blocks -/

/-- An owning block's answer, by the state it leaves. -/
abbrev Answers (l : List Part) (K : List NoticeKind) (s : State) (a : Answer) : Prop := Effect l K s a.state

theorem answers_ok {l : List Part} {K : List NoticeKind} {s t : State} (body : List Byte) (h : Effect l K s t) :
    Answers l K s (Answer.ok body t) := h

section
variable (s : State)

theorem effect_whenRunning {l : List Part} {K : List NoticeKind} (f : State → State) (h : Effect l K s (f s)) :
    Effect l K s (s.whenRunning f) := by
  unfold State.whenRunning
  split
  · exact h
  · exact .refl l K s

/-! ### Machine/SegmentFamily.lean -/

theorem answers_readSegment (body : List Byte) : Answers [] [] s (s.readSegment body) := by
  unfold State.readSegment
  split <;> exact .refl _ _ s

theorem effect_relink (k : Nat) (old new : Option Nat) : Effect [.slots] [] s (s.relink k old new) := by
  have cleared : Effect [.slots] [] s
      (match old with | some n => if new = some n then s else s.linkSlot n none | none => s) := by
    split
    · split
      · exact .refl _ _ s
      · exact effect_linkSlot s _ _
    · exact .refl _ _ s
  unfold State.relink
  dsimp only
  split
  · exact cleared.trans (effect_linkSlot _ _ _)
  · exact cleared

theorem effect_putClaim (m : Master) (a : PlaceArgs) : Effect [.claims, .slots] [] s (s.putClaim m a) := by
  unfold State.putClaim
  split
  · exact .seq (effect_tailClaim s _ _ _) (effect_relink _ _ _ _)
  · dsimp only
    split
    · exact .seq (effect_tailClaim s _ _ _) (effect_relink _ _ _ _)
    · exact .seq (effect_replaceClaim s _ _ _) (effect_relink _ _ _ _)

theorem answers_placeClaim (m : Master) (body : List Byte) :
    Answers (.claims :: roadParts) roadKinds s (s.placeClaim m body) := by
  unfold State.placeClaim
  split
  · exact .refl _ _ s
  · split
    · exact .refl _ _ s
    · split
      · exact .refl _ _ s
      · split
        · exact .refl _ _ s
        · exact answers_ok _ (.seq (effect_putClaim s m _) (effect_recompute _ _))

theorem effect_tellClaimEnded (k : Nat) (m : Master) (reason cause : Nat) :
    Effect noticeParts [.claimEnded] s (s.tellClaimEnded k m reason cause) := by
  unfold State.tellClaimEnded
  dsimp only
  split
  · exact effect_tell s _ _ .claimEnded
  · exact (effect_tell s _ _ .claimEnded).trans (effect_tell _ _ _ .claimEnded)

end

/-- The notices of a claim that a master loses. -/
def lossKinds : List NoticeKind := .claimEnded :: .slotEnded :: roadKinds

section
variable (s : State)

theorem answers_releaseClaim (m : Master) (body : List Byte) :
    Answers (.claims :: roadParts) lossKinds s (s.releaseClaim m body) := by
  have removed (k : Nat) (h : Master) (c : Claim) := Effect.seq (l := .claims :: roadParts) (K := lossKinds)
    (effect_dropClaim s k (.master h)) (effect_withdrawLinked _ c)
  unfold State.releaseClaim
  dsimp only
  split
  · exact .refl _ _ s
  · split
    · exact .refl _ _ s
    · rename_i h _
      unfold State.releaseMasterClaim
      split
      · exact .refl _ _ s
      · split
        · exact .refl _ _ s
        · dsimp only
          split
          · exact answers_ok _ (.seq (removed _ h _) (effect_recompute _ _))
          · exact answers_ok _ (.seq (.seq (l := .claims :: roadParts) (K := lossKinds) (removed _ h _)
              (effect_tellClaimEnded _ _ _ _ _)) (effect_recompute _ _))

theorem effect_sweep (k : Nat) : Effect roadParts roadKinds s (s.sweep k) :=
  effect_withSegmentNotice s k _ (.seq (effect_updSegment s k _) (effect_followUp _ k))

theorem answers_confirmSweep (m : Master) (body : List Byte) : Answers roadParts roadKinds s (s.confirmSweep m body) := by
  unfold State.confirmSweep
  dsimp only
  split
  · exact .refl _ _ s
  · split
    · exact .refl _ _ s
    · split
      · exact .refl _ _ s
      · split
        · exact .refl _ _ s
        · exact answers_ok _ (effect_sweep s _)

theorem answers_setAuthority (m : Master) (body : List Byte) : Answers [.authority] [] s (s.setAuthority m body) := by
  unfold State.setAuthority
  dsimp only
  split
  · exact .refl _ _ s
  · split
    · split
      · exact .refl _ _ s
      · exact answers_ok _ (.silent (frame_authority s _) rfl)
    · exact .refl _ _ s

theorem effect_startClaim (k : Nat) (h : Holder) : Effect (.claims :: roadParts) roadKinds s (s.startClaim k h) := by
  unfold State.startClaim
  split
  · exact .refl _ _ s
  · split
    · exact .refl _ _ s
    · split
      · exact .seq (effect_tailClaim s _ _ _) (effect_recompute _ k)
      · exact .refl _ _ s

theorem effect_expireClaim (k : Nat) (h : Holder) : Effect (.claims :: roadParts) lossKinds s (s.expireClaim k h) := by
  unfold State.expireClaim
  split
  · split
    · exact .refl _ _ s
    · split
      · exact .seq (.seq (l := .claims :: roadParts) (K := lossKinds) (.seq (l := .claims :: roadParts) (K := lossKinds)
          (effect_dropClaim s k _) (effect_recompute _ k)) (effect_withdrawLinked _ _)) (effect_tellClaimEnded _ _ _ _ _)
      · exact .refl _ _ s
  · exact .refl _ _ s

theorem effect_expireConfirming (k : Nat) :
    Effect roadParts (.unwarned :: roadKinds) s (s.expireConfirming k) := by
  unfold State.expireConfirming
  split
  · exact .refl _ _ s
  · split
    · exact .refl _ _ s
    · split
      · dsimp only
        exact .seq (effect_withSegmentNotice (l := roadParts) (K := roadKinds) s k _
          (.seq (effect_updSegment s k _) (effect_followUp _ k))) (effect_tellAll _ _ .unwarned)
      · exact .refl _ _ s

theorem effect_changeMinute (k : Nat) : Effect contentParts [] s (s.changeMinute k) := by
  unfold State.changeMinute
  split
  · exact .refl _ _ s
  · split
    · exact effect_formSegmentSlot s k
    · exact .refl _ _ s

theorem effect_endPrewarn (k : Nat) : Effect roadParts roadKinds s (s.endPrewarn k) := by
  unfold State.endPrewarn
  split
  · exact .refl _ _ s
  · split
    · exact effect_withSegmentNotice s k _ (.seq (effect_updSegment s k _) (effect_followUp _ k))
    · exact .refl _ _ s

/-! ### Machine/GateFamily.lean -/

theorem answers_readGate (body : List Byte) : Answers [] [] s (s.readGate body) := by
  unfold State.readGate
  split <;> exact .refl _ _ s

theorem answers_resetGate (m : Master) (body : List Byte) : Answers roadParts roadKinds s (s.resetGate m body) := by
  unfold State.resetGate
  split
  · exact .refl _ _ s
  · split
    · exact .refl _ _ s
    · split
      · exact .refl _ _ s
      · split
        · exact .refl _ _ s
        · exact answers_ok _ (effect_withSegmentNotice s _ _ (effect_arrive s _ _))

theorem effect_holdPosition (g : Nat) (p : Position) : Effect [.gates] [] s (s.holdPosition g p) := effect_updGate s g _

theorem effect_limitChange (g : Nat) (limit : Limit) (b : Bool) : Effect roadParts roadKinds s (s.limitChange g limit b) := by
  unfold State.limitChange
  split
  · exact .refl _ _ s
  · dsimp only
    split
    · exact (effect_holdPosition s g _).mono
    · split
      · exact .refl _ _ s
      · exact .seq (effect_holdPosition s g _) (effect_gateReport _ g)
    · exact .seq (effect_holdPosition s g _) (effect_arrive _ g _)
    · split
      · exact (effect_holdPosition s g _).mono
      · exact .seq (effect_holdPosition s g _) (effect_changeGate _ g _)

theorem effect_obstructionChange (g : Nat) (b : Bool) : Effect roadParts roadKinds s (s.obstructionChange g b) := by
  unfold State.obstructionChange
  split
  · exact .refl _ _ s
  · split
    · split
      · exact (effect_changeGate s g _).mono
      · split
        · exact (effect_updGate s g _).mono
        · exact .refl _ _ s
    · split
      · exact (effect_updGate s g _).mono
      · exact .refl _ _ s

theorem effect_leaveManual (g : Nat) (x : Gate) : Effect roadParts roadKinds s (s.leaveManual g x) := by
  unfold State.leaveManual
  split
  · exact effect_arrive s g _
  · exact (effect_changeGate s g _).mono

theorem effect_keyChange (g : Nat) (b : Bool) : Effect roadParts roadKinds s (s.keyChange g b) := by
  unfold State.keyChange
  split
  · exact .refl _ _ s
  · split
    · split
      · exact .refl _ _ s
      · exact (effect_changeGate s g _).mono
    · split
      · exact effect_leaveManual s g _
      · exact .refl _ _ s

theorem effect_gateEvent (g : Nat) (f : State → State) (h : Effect roadParts roadKinds s (f s)) :
    Effect roadParts roadKinds s (s.gateEvent g f) := by
  unfold State.gateEvent
  split
  · exact .refl _ _ s
  · exact effect_withSegmentNotice s _ f h

theorem effect_gateLine (g own line : Nat) (f : State → State) (h : Effect roadParts roadKinds s (f s)) :
    Effect roadParts roadKinds s (s.gateLine g own line f) := by
  unfold State.gateLine
  split
  · exact effect_gateEvent s g f h
  · exact .refl _ _ s

theorem effect_deliverGate (g line : Nat) (b : Bool) : Effect roadParts roadKinds s (s.deliverGate g line b) := by
  unfold State.deliverGate
  split
  · exact .refl _ _ s
  · dsimp only
    refine (((effect_gateLine s g _ line _ ?_).trans (effect_gateLine _ g _ line _ ?_)).trans
      (effect_gateLine _ g _ line _ ?_)).trans (effect_gateLine _ g _ line _ ?_)
    · exact effect_limitChange _ g .up b
    · exact effect_limitChange _ g .down b
    · exact effect_obstructionChange _ g b
    · exact effect_keyChange _ g b

theorem effect_deliverGates (line : Nat) (b : Bool) : Effect roadParts roadKinds s (s.deliverGates line b) :=
  .fold _ (fun s g => effect_deliverGate s g line b) _ s

theorem effect_travelTimeout (g : Nat) : Effect roadParts roadKinds s (s.travelTimeout g) := by
  unfold State.travelTimeout
  split
  · exact .refl _ _ s
  · split
    · exact effect_gateEvent s g _ (effect_changeGate s g _).mono
    · exact .refl _ _ s

theorem effect_endPause (g : Nat) (x : Gate) : Effect roadParts roadKinds s (s.endPause g x) := by
  unfold State.endPause
  split
  · exact effect_arrive s g _
  · split
    · exact (effect_changeGate s g _).mono
    · exact (effect_changeGate s g _).mono

theorem effect_reversalPauseEnd (g : Nat) : Effect roadParts roadKinds s (s.reversalPauseEnd g) := by
  unfold State.reversalPauseEnd
  split
  · exact .refl _ _ s
  · split
    · exact effect_gateEvent s g _ (effect_endPause s g _)
    · exact .refl _ _ s

theorem effect_holdOffEnd (g : Nat) : Effect roadParts roadKinds s (s.holdOffEnd g) := by
  unfold State.holdOffEnd
  split
  · exact .refl _ _ s
  · split
    · exact effect_gateEvent s g _ (effect_changeGate s g _).mono
    · exact .refl _ _ s

/-! ### Machine/SlotFamily.lean -/

theorem answers_postMessage (m : Master) (body : List Byte) : Answers contentParts [] s (s.postMessage m body) := by
  unfold State.postMessage
  split
  · exact .refl _ _ s
  · split
    · exact .refl _ _ s
    · exact answers_ok _ (effect_writeSlot s _ _)

theorem answers_withdrawMessage (m : Master) (body : List Byte) :
    Answers (.claims :: contentParts ++ noticeParts) [.slotEnded] s (s.withdrawMessage m body) := by
  unfold State.withdrawMessage
  dsimp only
  split
  · exact .refl _ _ s
  · split
    · exact .refl _ _ s
    · split
      · exact .refl _ _ s
      · exact answers_ok _ (effect_endPosted s _ _ _)

theorem effect_writePriorityMap (entries : List (Nat × Nat)) :
    Effect (.priority :: contentParts) [] s (s.writePriorityMap entries) := by
  have mapped := Effect.silent (frame_priority s (entries.foldl writePriority s.store.priority)) rfl
  have reclassed := fun t x => Effect.silent (frame_slots t x) rfl
  exact .seq (mapped.seq (l := [.priority, .slots]) (K := [])
    (reclassed _ (s.store.slots.map (fun x => x.reclass (entries.foldl writePriority s.store.priority)))))
    (effect_reselect _)

theorem answers_setPriorityMap (m : Master) (body : List Byte) :
    Answers (.priority :: contentParts) [] s (s.setPriorityMap m body) := by
  unfold State.setPriorityMap
  split
  · exact .refl _ _ s
  · split
    · exact .refl _ _ s
    · exact answers_ok _ (effect_writePriorityMap s _)

theorem effect_setDisplay (minute : Nat) : Effect (.display :: contentParts) [] s (s.setDisplay minute) := by
  unfold State.setDisplay
  dsimp only
  refine Effect.seq (.silent (frame_display s (some { minute := minute, setAt := s.now })) rfl)
    (.fold (l := contentParts) (K := []) _ (fun t k => ?_) _ _)
  split
  · exact effect_formSegmentSlot t k
  · exact .refl _ _ t

theorem answers_setClock (m : Master) (body : List Byte) : Answers (.display :: contentParts) [] s (s.setClock m body) := by
  unfold State.setClock
  split
  · exact .refl _ _ s
  · split
    · exact .refl _ _ s
    · exact answers_ok _ (effect_setDisplay s _)

theorem effect_expireSlot (n : Nat) : Effect (.claims :: contentParts ++ noticeParts) [.slotEnded] s (s.expireSlot n) := by
  unfold State.expireSlot
  split
  · exact .refl _ _ s
  · split
    · exact effect_endPosted s _ _ _
    · exact .refl _ _ s

/-! ### Machine/SignFamily.lean -/

theorem answers_readSign (body : List Byte) : Answers [] [] s (s.readSign body) := by
  unfold State.readSign
  split <;> exact .refl _ _ s

theorem effect_tellSign (k : Nat) (old : SignState) : Effect noticeParts [.signState] s (s.tellSign k old) := by
  unfold State.tellSign
  split
  · exact .refl _ _ s
  · split
    · exact .refl _ _ s
    · exact effect_tellAll s _ .signState

theorem effect_forceBlank (k : Nat) : Effect [.transmit] [] s (s.forceBlank k) := by
  unfold State.forceBlank
  split
  · exact effect_setInFlight s _
  · split
    · exact .silent (frame_transmit s _ _ _) rfl
    · exact effect_newEntry s k _

theorem effect_disableSign (k : Nat) : Effect [.signs, .transmit] [] s (s.disableSign k) :=
  .seq (effect_forceBlank s k) (effect_updSign _ k _)

theorem effect_enableSign (k : Nat) (old : SignState) :
    Effect ([.signs, .transmit] ++ noticeParts) [.signState] s (s.enableSign k old) :=
  .seq (.seq (l := [.signs, .transmit] ++ noticeParts) (K := [.signState]) (effect_updSign s k _)
    (effect_tellSign _ k old)) (effect_request _ k .probe)

theorem answers_setSign (m : Master) (body : List Byte) :
    Answers ([.signs, .transmit] ++ noticeParts) [.signState] s (s.setSign m body) := by
  unfold State.setSign
  split
  · exact .refl _ _ s
  · split
    · exact .refl _ _ s
    · split
      · exact .refl _ _ s
      · unfold State.applySetSign
        split
        · split <;> exact .refl _ _ s
        · split
          · refine answers_ok _ ?_
            split
            · exact effect_enableSign s _ _
            · exact .refl _ _ s
          · refine answers_ok _ ?_
            split
            · exact .refl _ _ s
            · exact (effect_disableSign s _).mono

theorem effect_startTransaction : Effect [.transmit] [] s s.startTransaction := by
  unfold State.startTransaction
  split
  · exact .refl _ _ s
  · split
    · exact .refl _ _ s
    · exact .silent (frame_transmit s _ _ _) rfl

theorem effect_messageSent : Effect [.transmit] [] s s.messageSent := by
  unfold State.messageSent
  split
  · exact .refl _ _ s
  · exact effect_setInFlight s _

theorem effect_returnEntry (x : InFlight) (b : Bool) : Effect [.transmit] [] s (s.returnEntry x b) :=
  .silent (frame_transmit s _ _ _) rfl

theorem effect_raiseErrors : Effect (.line :: noticeParts) [.busState] s s.raiseErrors := by
  unfold State.raiseErrors
  dsimp only
  split
  · exact Effect.seq (.silent (frame_lineState s .down (Nat.min 255 (s.line.errors + Config.echoPenalty))
      (some (s.now + Config.recoveryTime))) rfl) (effect_tellAll _ _ .busState)
  · exact (Effect.silent (frame_lineState s s.line.state (Nat.min 255 (s.line.errors + Config.echoPenalty))
      s.line.recovery) rfl).mono

theorem effect_echoMismatch :
    Effect ([.signs, .transmit, .line] ++ noticeParts) [.busState] s s.echoMismatch := by
  unfold State.echoMismatch
  split
  · exact .refl _ _ s
  · split
    · exact .refl _ _ s
    · dsimp only
      split
      · exact .seq (.seq (l := [.signs, .transmit]) (K := []) (effect_returnEntry s _ _) (effect_updSign _ _ _))
          (effect_raiseErrors _)
      · exact .seq (effect_returnEntry s _ _) (effect_raiseErrors _)

theorem effect_testConfirming (n k : Nat) : Effect roadParts roadKinds s (s.testConfirming n k) := by
  unfold State.testConfirming
  split
  · split
    · exact effect_withSegmentNotice s k _ (.seq (effect_updSegment s k _) (effect_followUp _ k))
    · exact .refl _ _ s
  · exact .refl _ _ s

theorem effect_reportAck (n : Nat) : Effect roadParts roadKinds s (s.reportAck n) :=
  .fold _ (fun s k => effect_testConfirming s n k) _ s

theorem effect_settleDisabled (k : Nat) : Effect (.signs :: noticeParts) [.signState] s (s.settleDisabled k) := by
  unfold State.settleDisabled
  split
  · exact .refl _ _ s
  · exact .seq (effect_updSign s k _) (effect_tellSign _ k _)

theorem effect_enterAfterAck (k : Nat) (x : InFlight) : Effect [.transmit] [] s (s.enterAfterAck k x) := by
  unfold State.enterAfterAck
  split
  · dsimp only
    split
    · exact effect_setInFlight s none
    · split
      · exact (effect_setInFlight s none).trans (effect_newEntry _ k _)
      · split
        · exact (effect_setInFlight s none).trans (effect_newEntry _ k _)
        · exact (effect_setInFlight s none).trans (effect_newEntry _ k _)
        · exact effect_setInFlight s none
  · exact .refl _ _ s

theorem effect_lowerErrors : Effect [.line] [] s s.lowerErrors := .silent (frame_lineState s _ _ _) rfl

theorem effect_endAck (x : InFlight) (lamp heater door : Bool) :
    Effect (.line :: roadParts) (.signState :: roadKinds) s (s.endAck x lamp heater door) := by
  unfold State.endAck
  dsimp only
  split
  · exact .refl _ _ s
  · rename_i y _
    have written : Effect [.line, .signs] [] s
        (s.updSign x.entry.sign (fun z => z.acknowledge x lamp heater door s.now s.power.mode)).lowerErrors :=
      .seq (effect_updSign s _ _) (effect_lowerErrors _)
    have ended (t : State) : Effect (.line :: roadParts) (.signState :: roadKinds) t
        ((t.tellSign x.entry.sign y.state).enterAfterAck x.entry.sign x) :=
      .seq (effect_tellSign t _ _) (effect_enterAfterAck _ _ x)
    split <;> split
    · exact .seq (.seq (l := .line :: roadParts) (K := .signState :: roadKinds) written (ended _))
        (effect_settleDisabled _ _)
    · exact .seq (.seq (l := .line :: roadParts) (K := .signState :: roadKinds)
        (.seq (l := .line :: roadParts) (K := .signState :: roadKinds) written (effect_reportAck _ _)) (ended _))
        (effect_settleDisabled _ _)
    · exact .seq written (ended _)
    · exact .seq (.seq (l := .line :: roadParts) (K := .signState :: roadKinds) written (effect_reportAck _ _)) (ended _)

theorem effect_failUnreachable (k : Nat) (old : SignState) :
    Effect (.signs :: noticeParts) [.signState] s (s.failUnreachable k old) :=
  .seq (effect_updSign s k _) (effect_tellSign _ k old)

theorem effect_thirdFailure (x : InFlight) (y : Sign) :
    Effect ([.signs, .transmit] ++ noticeParts) [.signState] s (s.thirdFailure x y) := by
  unfold State.thirdFailure
  dsimp only
  split
  · exact .seq (effect_setInFlight s none) (effect_settleDisabled _ _)
  · split
    · exact .seq (.seq (l := [.signs, .transmit]) (K := []) (effect_setInFlight s none) (effect_updSign _ _ _))
        (effect_newEntry _ _ _)
    · exact .seq (effect_setInFlight s none) (effect_failUnreachable _ _ _)

theorem effect_failAttempt (x : InFlight) :
    Effect ([.signs, .transmit] ++ noticeParts) [.signState] s (s.failAttempt x) := by
  unfold State.failAttempt
  dsimp only
  split
  · exact .refl _ _ s
  · split
    · exact effect_thirdFailure s x _
    · exact .seq (effect_updSign s _ _) (effect_returnEntry _ x _)

theorem effect_nextExchange (x : InFlight) (y : Sign) (stage : Stage) (op : Operation) :
    Effect [.transmit] [] s (s.nextExchange x y stage op) := effect_setInFlight s _

end

/-- What a failed exchange may change. -/
def exchangeParts : List Part := [.signs, .transmit, .line] ++ noticeParts

section
variable (s : State)

theorem effect_refuseContent (x : InFlight) : Effect exchangeParts [.signState] s (s.refuseContent x) := by
  unfold State.refuseContent
  split
  · exact (effect_nextExchange s _ _ _ _).mono
  · exact (effect_nextExchange s _ _ _ _).mono
  · exact .seq (effect_failAttempt s x) (effect_lowerErrors _)
  · exact .refl _ _ s

theorem effect_replyReceived (bytes : List Byte) :
    Effect (.line :: roadParts) (.signState :: roadKinds) s (s.replyReceived bytes) := by
  unfold State.replyReceived
  split
  · exact .refl _ _ s
  · split
    · exact .refl _ _ s
    · split
      · exact effect_endAck s _ _ _ _
      · exact (effect_refuseContent s _).mono
      · exact .seq (effect_failAttempt s _) (effect_lowerErrors _)
      · exact (effect_failAttempt s _).mono

theorem effect_replyTimeout : Effect ([.signs, .transmit] ++ noticeParts) [.signState] s s.replyTimeout := by
  unfold State.replyTimeout
  split
  · exact .refl _ _ s
  · split
    · exact effect_failAttempt s _
    · exact .refl _ _ s

theorem effect_refreshArrives (k : Nat) : Effect [.signs, .transmit] [] s (s.refreshArrives k) := by
  unfold State.refreshArrives
  split
  · exact .refl _ _ s
  · split
    · exact .seq (effect_updSign s k _) (effect_request _ k _)
    · exact .refl _ _ s

theorem effect_probeArrives (k : Nat) : Effect [.signs, .transmit] [] s (s.probeArrives k) := by
  unfold State.probeArrives
  split
  · exact .refl _ _ s
  · split
    · exact .seq (effect_updSign s k _) (effect_request _ k _)
    · exact .refl _ _ s

theorem effect_recoverLine : Effect ([.transmit, .line] ++ noticeParts) [.busState] s s.recoverLine := by
  unfold State.recoverLine
  dsimp only
  exact .seq (Effect.seq (l := [.transmit, .line]) (K := []) (.silent (frame_lineState s .up 0 none) rfl)
    (effect_eachSign _ (fun t k => effect_request t k .refresh))) (effect_tellAll _ _ .busState)

/-! ### Machine/HazardFamily.lean -/

theorem effect_tellPath (n : Nat) (old : Path) : Effect noticeParts [.pathLevel] s (s.tellPath n old) := by
  unfold State.tellPath
  split
  · exact .refl _ _ s
  · split
    · exact .refl _ _ s
    · exact effect_tellAll s _ .pathLevel

theorem effect_tellInput (n : Nat) (old : Path) : Effect noticeParts [.pathInput] s (s.tellInput n old) := by
  unfold State.tellInput
  split
  · exact .refl _ _ s
  · split
    · exact .refl _ _ s
    · exact effect_tellAll s _ .pathInput

end

/-- What a path hands on when it changes. -/
def pathParts : List Part := .paths :: .claims :: roadParts

/-- The notices of a path that changes. -/
def pathKinds : List NoticeKind := .pathLevel :: .pathInput :: roadKinds

section
variable (s : State)

theorem effect_computePath (n : Nat) : Effect pathParts pathKinds s (s.computePath n) := by
  unfold State.computePath
  split
  · exact .refl _ _ s
  · have told (t : State) (p : Path) : Effect pathParts pathKinds t ((t.tellPath n p).tellInput n p) :=
      .seq (effect_tellPath t n p) (effect_tellInput _ n p)
    dsimp only
    split
    · exact .seq (effect_updPath s n _) (told _ _)
    · exact .seq (.seq (l := pathParts) (K := pathKinds) (effect_updPath s n _) (effect_handOver _ n)) (told _ _)

theorem effect_computePaths : Effect pathParts pathKinds s s.computePaths := .fold _ effect_computePath _ s

theorem effect_expirePeriod : Effect (.period :: pathParts) pathKinds s s.expirePeriod := by
  have moved := Effect.silent (frame_period s s.hazard.period (s.hazard.nextExpiry + s.hazard.period)) rfl
  unfold State.expirePeriod
  dsimp only
  split
  · exact .seq moved (effect_computePaths _)
  · exact moved.mono

theorem effect_endFloor (n : Nat) : Effect pathParts roadKinds s (s.endFloor n) := by
  unfold State.endFloor
  split
  · exact .refl _ _ s
  · split
    · exact .seq (effect_updPath s n _) (effect_handOver _ n)
    · exact .refl _ _ s

theorem answers_readPath (body : List Byte) : Answers [] [] s (s.readPath body) := by
  unfold State.readPath
  split <;> exact .refl _ _ s

theorem effect_takeDetection (n : Nat) (kind : DetectionKind) :
    Effect pathParts roadKinds s (s.takeDetection n kind) := by
  unfold State.takeDetection
  split
  · exact .refl _ _ s
  · dsimp only
    split
    · exact (effect_updPath s n _).mono
    · exact .seq (effect_updPath s n _) (effect_handOver _ n)

theorem effect_detection (n : Nat) (kind : DetectionKind) : Effect pathParts pathKinds s (s.detection n kind) := by
  unfold State.detection
  split
  · exact .refl _ _ s
  · exact .seq (effect_takeDetection s n kind) (effect_tellPath _ n _)

theorem effect_deliverPaths (line : Nat) (b : Bool) : Effect pathParts pathKinds s (s.deliverPaths line b) := by
  refine .fold _ (fun s n => ?_) _ s
  split
  · split
    · exact effect_detection s n _
    · exact .refl _ _ s
  · exact .refl _ _ s

theorem answers_reportDetection (m : Master) (body : List Byte) :
    Answers pathParts pathKinds s (s.reportDetection m body) := by
  unfold State.reportDetection
  split
  · exact .refl _ _ s
  · split
    · exact answers_ok _ (effect_detection s _ _)
    · exact .refl _ _ s

theorem answers_clearPath (m : Master) (body : List Byte) : Answers pathParts pathKinds s (s.clearPath m body) := by
  unfold State.clearPath
  split
  · exact .refl _ _ s
  · split
    · exact .refl _ _ s
    · split
      · exact .refl _ _ s
      · refine answers_ok _ ?_
        unfold State.clearLatch
        split
        · exact .refl _ _ s
        · exact .seq (.seq (l := pathParts) (K := pathKinds) (effect_updPath s _ _) (effect_handOver _ _))
            (effect_tellPath _ _ _)

theorem effect_placeFloor (n level duration : Nat) (p : Path) :
    Effect pathParts pathKinds s (s.placeFloor n level duration p) :=
  .seq (.seq (l := pathParts) (K := pathKinds) (effect_updPath s n _) (effect_handOver _ n)) (effect_tellPath _ n p)

theorem answers_setPathFloor (m : Master) (body : List Byte) : Answers pathParts pathKinds s (s.setPathFloor m body) := by
  unfold State.setPathFloor
  dsimp only
  split
  · exact .refl _ _ s
  · split
    · exact .refl _ _ s
    · split
      · exact .refl _ _ s
      · exact answers_ok _ (effect_placeFloor s _ _ _ _)

theorem effect_applySeed (n loading : Nat) (p : Path) : Effect pathParts pathKinds s (s.applySeed n loading p) :=
  .seq (.seq (l := pathParts) (K := pathKinds) (.seq (l := pathParts) (K := pathKinds) (effect_updPath s n _)
    (effect_handOver _ n)) (effect_tellPath _ n p)) (effect_tellInput _ n p)

theorem answers_seedPath (m : Master) (body : List Byte) : Answers pathParts pathKinds s (s.seedPath m body) := by
  unfold State.seedPath
  dsimp only
  split
  · exact .refl _ _ s
  · split
    · exact .refl _ _ s
    · exact answers_ok _ (effect_applySeed s _ _ _)

end

/-! ### Machine/PowerFamily.lean -/

/-- What an update of the power controller may change beside the mode. -/
def updateParts : List Part := [.parameters, .charge, .account]

section
variable (s : State)

theorem frame_update (r : PowerReadings) (now : Nat) :
    Frame updateParts s { s with power := s.power.update r now } := by
  obtain ⟨-, -, -, -, reserve, mode, -, -⟩ := update_keeps s.power r now
  intro p hp
  cases p <;> simp [Part.same, updateParts, State.port, reserve, mode] at hp ⊢

theorem effect_powerUpdate :
    Effect (updateParts ++ modeParts) [.chargeState, .powerMode] s s.powerUpdate := by
  have updated := Effect.silent (frame_update s s.powerReadings s.now) rfl
  unfold State.powerUpdate
  dsimp only
  split
  · exact updated.seq (effect_evaluateMode _ false)
  · exact .seq (.seq (l := updateParts ++ modeParts) (K := [.chargeState, .powerMode]) updated
      (effect_tellAll _ _ .chargeState)) (effect_evaluateMode _ false)

/-! ### Machine/ScanFamily.lean -/

theorem effect_publish (c : Nat) (x : Channel) (before : Quality) :
    Effect (.channels :: contentParts ++ noticeParts) [.channelState] s (s.publish c x before) := by
  have formed : Effect (.channels :: contentParts) [] s ((s.setChannel c x).formWeatherFrom c x) :=
    .seq (effect_setChannel s c x) (effect_formWeatherFrom _ c x)
  unfold State.publish
  dsimp only
  split
  · exact formed.mono
  · exact formed.seq (effect_tellAll _ _ .channelState)

theorem answers_readChannel (body : List Byte) : Answers [] [] s (s.readChannel body) := by
  unfold State.readChannel
  split <;> exact .refl _ _ s

theorem answers_submitObservation (m : Master) (body : List Byte) :
    Answers (.channels :: contentParts ++ noticeParts) [.channelState] s (s.submitObservation m body) := by
  unfold State.submitObservation
  dsimp only
  split
  · exact .refl _ _ s
  · split
    · exact .refl _ _ s
    · split
      · exact .refl _ _ s
      · split
        · exact .refl _ _ s
        · exact answers_ok _ (effect_publish s _ _ _)

theorem effect_startRound (start : Nat) : Effect [.round] [] s (s.startRound start) :=
  .silent (frame_round s _ _ _) rfl

theorem effect_retryRaise (g : Nat) : Effect roadParts roadKinds s (s.retryRaise g) := by
  unfold State.retryRaise
  split
  · exact .refl _ _ s
  · split
    · exact effect_gateEvent s g _ (effect_applyRaise s g)
    · exact .refl _ _ s

theorem effect_retryRaises : Effect roadParts roadKinds s s.retryRaises := .fold _ effect_retryRaise _ s

theorem effect_fixRound : Effect [.round] [] s s.fixRound := .silent (frame_round s _ _ _) rfl

end

/-- What the end of a round may change. -/
def roundParts : List Part := .round :: updateParts ++ roadParts

/-- What the end of a round may tell. -/
def roundKinds : List NoticeKind := .chargeState :: roadKinds

section
variable (s : State)

theorem effect_endRound : Effect roundParts roundKinds s s.endRound := by
  have fixed : Effect roundParts roundKinds s s.powerUpdate.fixRound :=
    .seq (effect_powerUpdate s) (effect_fixRound _)
  unfold State.endRound
  dsimp only
  split
  · exact fixed.trans (effect_retryRaises _).mono
  · exact fixed

theorem effect_advanceRound (c : Nat) : Effect roundParts roundKinds s (s.advanceRound c) := by
  have left := Effect.silent (frame_round s (s.nextConverted (c + 1)) s.scan.roundStart s.scan.nextRound) rfl
  unfold State.advanceRound
  dsimp only
  split
  · exact .seq left (effect_endRound _)
  · exact left.mono

theorem effect_conversionDone (c : Nat) (raws : List Raw) :
    Effect (.channels :: roundParts) (.channelState :: roundKinds) s (s.conversionDone c raws) := by
  unfold State.conversionDone
  split
  · exact .refl _ _ s
  · split
    · exact .refl _ _ s
    · split
      · exact .refl _ _ s
      · exact .seq (effect_publish s _ _ _) (effect_advanceRound _ c)

theorem effect_expireHold (c : Nat) :
    Effect (.channels :: contentParts ++ noticeParts) [.channelState] s (s.expireHold c) := by
  unfold State.expireHold
  split
  · exact .refl _ _ s
  · split
    · exact .refl _ _ s
    · split
      · exact effect_publish s _ _ _
      · exact .refl _ _ s

theorem effect_expireSilence (c : Nat) :
    Effect (.channels :: contentParts ++ noticeParts) [.channelState] s (s.expireSilence c) := by
  unfold State.expireSilence
  split
  · exact .refl _ _ s
  · split
    · exact .refl _ _ s
    · split
      · exact effect_publish s _ _ _
      · exact .refl _ _ s

theorem effect_updLine (l : Nat) (f : InputLine → InputLine) : Effect [.inputs] [] s (s.updLine l f) :=
  .silent (frame_inputs s _) rfl

theorem effect_deliver (l : Nat) (b : Bool) : Effect pathParts pathKinds s (s.deliver l b) := by
  unfold State.deliver
  split
  · exact .seq (effect_deliverGates s l b) (effect_deliverPaths _ l b)
  · exact .refl _ _ s

end

/-! ### Machine/Startup.lean: the derivation at the end of a load -/

section
variable (s : State)

theorem effect_deriveChannels (channels : List (Nat × ChannelDesc)) :
    Effect [.channels] [] s (s.deriveChannels channels) := .silent (frame_channels s _) rfl

theorem effect_deriveSigns (signs : List SignConfig) :
    Effect [.signs, .transmit, .line, .tops] [] s (s.deriveSigns signs) := by
  have built : Effect [.signs, .transmit, .line, .tops] [] s { s with
      line := { resetLine with signs := signs.map SignConfig.newRecord },
      store := { s.store with tops := List.replicate signs.length Top.blank } } := by
    refine .silent (fun p hp => ?_) rfl
    cases p <;> simp [Part.same, State.port] at hp ⊢
  exact built.seq (effect_eachSign _ (fun t k => effect_request t k .probe))

/-- What step 1 of a derivation writes. -/
def mapParts : List Part := [.authority, .priority, .parameters, .account, .period, .channels, .signs, .transmit, .line, .tops]

theorem loadAccount_keeps (p : Power) (cause : ResetCause) : p.loadAccount cause =
    { p with account := (p.loadAccount cause).account, remainder := (p.loadAccount cause).remainder } := by
  unfold Power.loadAccount
  split
  · split <;> rfl
  · rfl

theorem takePeriod_paths (h : Hazard) (period now : Nat) : (h.takePeriod period now).paths = h.paths := by
  unfold Hazard.takePeriod
  split <;> rfl

theorem effect_deriveMaps (d : Description) : Effect mapParts [] s (s.deriveMaps d) := by
  have mapped : Effect mapParts [] s { s with
      segs := { s.segs with authority := d.authority.getD defaultAuthority },
      store := { s.store with priority := d.priority.getD defaultPriority },
      power := (s.power.takeParams d.power).loadAccount s.loader.cause,
      hazard := s.hazard.takePeriod d.period s.now } := by
    refine .silent (fun p hp => ?_) rfl
    rw [loadAccount_keeps]
    cases p <;> simp [Part.same, mapParts, State.port, Power.takeParams, takePeriod_paths] at hp ⊢
  exact .seq (mapped.seq (l := mapParts) (K := []) (effect_deriveChannels _ _)) (effect_deriveSigns _ _)

theorem effect_deriveGates (gates : List GateConfig) :
    Effect (.gates :: .reserve :: modeParts) [.powerMode] s (s.deriveGates gates) := by
  have built := Effect.seq (l := [.gates, .reserve]) (K := []) (.silent (frame_gates s (gates.map s.newGate)) rfl)
    (.silent (frame_reserve _ (closureReserve (gates.map s.newGate))) rfl)
  exact built.seq (effect_evaluateMode _ true)

theorem effect_handSegment (k : Nat) : Effect (.gates :: contentParts) [] s (s.handSegment k) := by
  unfold State.handSegment
  split
  · exact .refl _ _ s
  · exact .seq (Effect.seq (l := [.gates]) (K := []) (effect_recordDemand s _ _) (effect_handLamps _ _ _))
      (effect_formSegmentSlot _ k)

theorem effect_deriveSegments (segments : List SegmentConfig) :
    Effect (.records :: .claims :: .gates :: contentParts) [] s (s.deriveSegments segments) := by
  have built := Effect.seq (l := [.records, .claims]) (K := [])
    (.silent (frame_records s (segments.map s.newSegment)) rfl) (effect_setClaims _ [])
  exact built.seq (.fold (l := .gates :: contentParts) (K := []) _ effect_handSegment _ _)

theorem effect_takeTripLine (n : Nat) : Effect pathParts roadKinds s (s.takeTripLine n) := by
  unfold State.takeTripLine
  split
  · exact .refl _ _ s
  · split
    · exact effect_takeDetection s n _
    · exact .refl _ _ s

theorem effect_derivePaths (paths : List PathConfig) : Effect pathParts roadKinds s (s.derivePaths paths) := by
  unfold State.derivePaths
  dsimp only
  exact Effect.seq (.silent (frame_paths s (paths.map PathConfig.newRecord)) rfl)
    (.fold (l := pathParts) (K := roadKinds) _ effect_takeTripLine _ _)

theorem effect_deriveWeather : Effect contentParts [] s s.deriveWeather :=
  .seq (effect_eachSign s effect_formWeather) (effect_reselect _)

theorem effect_endDescribed (d : Description) (state : PartState) (report : LoadReport) :
    Effect (derivedParts ++ noticeParts) roadKinds s (s.endDescribed d state report) := by
  unfold State.endDescribed
  dsimp only
  refine Effect.seq ?_ (.silent (frame_loader _ _) rfl) (l₁ := derivedParts ++ noticeParts) (K₁ := roadKinds)
  refine .seq ?_ (effect_deriveWeather _) (l₁ := derivedParts ++ noticeParts) (K₁ := roadKinds)
  refine .seq ?_ (effect_derivePaths _ _) (l₁ := derivedParts ++ noticeParts) (K₁ := roadKinds)
  refine .seq ?_ (effect_deriveSegments _ _) (l₁ := derivedParts ++ noticeParts) (K₁ := roadKinds)
  exact .seq (effect_deriveMaps s d) (effect_deriveGates _ _)

end

end Sys2Proof.Proofs
end

