-- ==== Sys2Proof/Proofs/Rows.lean ====
section
/-! What a step can do, said once. `touched` lists for each row of the table the parts its owning block may change, and
`Row` says in which form exec runs the row: an event with its effect, a command handed to its owning block, or one of the
rows of resets and ports that write the ports themselves. From these follow the frame of every row, and the rule by which
an invariant is kept: it is enough to look at the rows that touch what it rests on. -/

namespace Sys2Proof.Proofs

open Sys2Proof.Machine Sys2Proof.Safety Sys2Proof.Laws

/-- Every part of the state. -/
def allParts : List Part :=
  [.waiting, .reset, .drawn, .clock, .display, .records, .claims, .authority, .gates, .slots, .priority, .tops, .signs,
    .transmit, .line, .channels, .inputs, .round, .paths, .period, .parameters, .charge, .account, .reserve, .mode, .queued,
    .done, .notices, .masks, .overrun, .overflow, .transfers, .loader]

/-- Every kind of notice. -/
def allKinds : List NoticeKind :=
  [.restarted, .segmentState, .claimEnded, .unwarned, .gateState, .gateHeld, .pathLevel, .pathInput, .channelState,
    .signState, .busState, .powerMode, .chargeState, .slotEnded]

/-- The parts an accepted RELOAD writes (R185). -/
def reloadParts : List Part :=
  [.records, .claims, .gates, .slots, .tops, .signs, .transmit, .line, .round, .paths, .notices, .overflow, .transfers,
    .loader]

/-- The parts a row may change beside the request slot of its command. -/
def touched : Instr → List Part
  | .powerOn | .pinReset | .lowSupply | .resetEnd => allParts
  | .descriptionLoadEnd _ => derivedParts ++ noticeParts
  | .transferStart _ => [.transfers]
  | .transferEnd _ _ => [.queued, .done, .overrun, .overflow, .transfers]
  | .unknownCommand _ | .status _ | .readSegment _ | .readGate _ | .readSign _ | .readChannel _ | .readPower _
  | .readPath _ => []
  | .fetchNotice _ => [.notices]
  | .setNoticeMask _ => [.masks]
  | .resetPort _ => [.queued, .done, .notices, .masks, .overflow, .transfers]
  | .placeClaim _ | .releaseClaim _ | .claimStart _ _ | .claimExpiry _ _ => .claims :: roadParts
  | .confirmSweep _ | .confirmingExpiry _ | .prewarnEnd _ | .resetGate _ | .travelTimeout _ | .reversalPauseEnd _
  | .holdOffEnd _ => roadParts
  | .setAuthority _ => [.authority]
  | .prewarnMinuteChange _ | .postMessage _ => contentParts
  | .inputEdge _ _ => [.inputs]
  | .debounceExpiry _ => .inputs :: pathParts
  | .lampToggle _ => [.gates]
  | .withdrawMessage _ | .slotExpiry _ => .claims :: contentParts ++ noticeParts
  | .setPriorityMap _ => .priority :: contentParts
  | .setClock _ => .display :: contentParts
  | .setSignDisable _ | .setSignEnable _ | .replyTimeout => [.signs, .transmit] ++ noticeParts
  | .transactionStart | .messageSent => [.transmit]
  | .echoMismatch => exchangeParts
  | .replyReceived _ => .line :: roadParts
  | .refreshDue _ | .probeDue _ => [.signs, .transmit]
  | .lineRecovery => [.transmit, .line] ++ noticeParts
  | .submitObservation _ | .holdAgeExpiry _ | .silenceExpiry _ => .channels :: contentParts ++ noticeParts
  | .scanRoundStart => [.round]
  | .channelConversionDone _ => .channels :: roundParts
  | .hazardPeriodExpiry => .period :: pathParts
  | .floorEnd _ | .reportDetection _ | .clearPath _ | .setPathFloor _ | .seedPath _ => pathParts
  | .reload _ => reloadParts

/-! ### Loads that end in NO_CORRIDOR -/

theorem effect_dropCorridor (s : State) (report : LoadReport) :
    Effect (derivedParts ++ noticeParts) [] s (s.dropCorridor report) := by
  refine .silent (fun p hp => ?_) rfl
  cases p <;> first
    | exact absurd (by decide) hp
    | simp [Part.same, State.port, State.dropCorridor]

theorem effect_endNoCorridor (s : State) (report : LoadReport) :
    Effect (derivedParts ++ noticeParts) roadKinds s (s.endNoCorridor report) := by
  have dropped := (effect_dropCorridor s report).seq (l := derivedParts ++ noticeParts) (K := roadKinds)
    (effect_updateReserve _)
  have taken (t : State) : Frame [.parameters, .account] t
      { t with power := (t.power.takeParams none).loadAccount .reload } := by
    intro p hp
    rw [loadAccount_keeps]
    cases p <;> simp [Part.same, State.port, Power.takeParams] at hp ⊢
  exact dropped.seq (.silent (taken _) rfl)

theorem effect_endLoad (s : State) (l : Load) : Effect (derivedParts ++ noticeParts) roadKinds s (s.endLoad l) := by
  unfold State.endLoad
  split
  · exact effect_endNoCorridor s _
  · exact effect_endDescribed s _ _ _

/-! ### The rows -/

/-- The rows of resets and ports, which write the ports themselves. -/
def portRow : Instr → Bool
  | .powerOn | .pinReset | .lowSupply | .resetEnd | .transferStart _ | .transferEnd _ _ | .unknownCommand _ | .fetchNotice _
  | .setNoticeMask _ | .resetPort _ | .reload _ => true
  | _ => false

/-- The form in which exec runs a row. -/
inductive Row (c : Instr) : Prop
  /-- An event of the part or of its lines. -/
  | event (f : State → State) (runs : ∀ s, exec c s = .next (f s)) (effect : ∀ s, Effect (touched c) allKinds s (f s))
  /-- A master's command, answered by its owning block. -/
  | command (m : Master) (d : Command) (applies : List Byte → Bool) (owner : List Byte → State → Answer)
      (runs : ∀ s, exec c s = .next (s.execute m d applies owner))
      (answers : ∀ body u, Answers (touched c) allKinds u (owner body u))
  /-- A command whose owning block writes the ports beside raising notices. -/
  | portCommand (m : Master) (d : Command) (applies : List Byte → Bool) (owner : List Byte → State → Answer)
      (runs : ∀ s, exec c s = .next (s.execute m d applies owner))
      (frame : ∀ body u, Frame (touched c) u (owner body u).state) (port : portRow c = true := by rfl)
  /-- A reset, a transfer, or a command of an unknown code. -/
  | portEvent (f : State → State) (runs : ∀ s, exec c s = .next (f s))
      (frame : ∀ s, Frame (touched c ++ answerParts) s (f s)) (port : portRow c = true := by rfl)

/-- The first list lies within the second. -/
def inside (a b : List Part) : Bool := a.all b.contains

theorem mem_of_inside {a b : List Part} (h : inside a b = true) : ∀ p ∈ a, p ∈ b := by
  simpa [inside] using h

theorem mem_allKinds (k : NoticeKind) : k ∈ allKinds := by cases k <;> decide

theorem Row.ofEvent {c : Instr} {l : List Part} {K : List NoticeKind} (f : State → State)
    (runs : ∀ s, exec c s = .next (f s)) (effect : ∀ s, Effect l K s (f s)) (sub : inside l (touched c) = true := by rfl) :
    Row c :=
  .event f runs (fun s => (effect s).mono (mem_of_inside sub) (fun k _ => mem_allKinds k))

theorem Row.ofTimer {c : Instr} {l : List Part} {K : List NoticeKind} (f : State → State)
    (runs : ∀ s, exec c s = .next (s.whenRunning f)) (effect : ∀ s, Effect l K s (f s))
    (sub : inside l (touched c) = true := by rfl) : Row c :=
  .ofEvent _ runs (fun s => effect_whenRunning s f (effect s)) sub

theorem Row.ofCommand {c : Instr} {l : List Part} {K : List NoticeKind} (m : Master) (d : Command)
    (applies : List Byte → Bool) (owner : List Byte → State → Answer)
    (runs : ∀ s, exec c s = .next (s.execute m d applies owner)) (answers : ∀ u body, Answers l K u (owner body u))
    (sub : inside l (touched c) = true := by rfl) : Row c :=
  .command m d applies owner runs (fun b u => (answers u b).mono (mem_of_inside sub) (fun k _ => mem_allKinds k))

theorem frame_all (s t : State) : Frame (allParts ++ answerParts) s t := by
  intro p hp
  cases p <;> exact absurd (by decide) hp

/-- A field of the ports that the new port of a master keeps is kept at every port. -/
theorem same_setPort {α : Type} (s : State) (m : Master) (p : Port) (field : Port → α) (h : field p = field (s.port m))
    (k : Master) : field ((s.setPort m p).port k) = field (s.port k) := by
  obtain rfl | other := eq_or_ne k m
  · rw [port_setPort, h]
  · rw [port_setPort_ne s other]

/-- A port replaced changes the fields in which the new port differs. -/
theorem frame_setPort (s : State) (m : Master) (p : Port) (l : List Part)
    (queued : .queued ∉ l → p.queued = (s.port m).queued) (done : .done ∉ l → p.done = (s.port m).done)
    (notices : .notices ∉ l → p.notices = (s.port m).notices) (masks : .masks ∉ l → p.mask = (s.port m).mask)
    (overrun : .overrun ∉ l → p.overrun = (s.port m).overrun) (overflow : .overflow ∉ l → p.overflow = (s.port m).overflow)
    (transfers : .transfers ∉ l → p.transfer = (s.port m).transfer) : Frame l s (s.setPort m p) := by
  intro q hq
  cases q
  case queued => exact same_setPort s m p _ (queued hq)
  case done => exact same_setPort s m p _ (done hq)
  case notices => exact same_setPort s m p _ (notices hq)
  case masks => exact same_setPort s m p _ (masks hq)
  case overrun => exact same_setPort s m p _ (overrun hq)
  case overflow => exact same_setPort s m p _ (overflow hq)
  case transfers => exact same_setPort s m p _ (transfers hq)
  all_goals simp [Part.same]

theorem frame_ite {l : List Part} {s t : State} (c : Prop) [Decidable c] (h : Frame l s t) :
    Frame l s (if c then t else s) := by
  split
  · exact h
  · exact Moves.frame_refl l s

theorem effect_ite {l : List Part} {K : List NoticeKind} {s t : State} (c : Prop) [Decidable c] (h : Effect l K s t) :
    Effect l K s (if c then t else s) := by
  split
  · exact h
  · exact .refl l K s

theorem takeIncoming_keeps (p : Port) (bytes : List Byte) : p.takeIncoming bytes = { p with
    queued := (p.takeIncoming bytes).queued, done := (p.takeIncoming bytes).done,
    overrun := (p.takeIncoming bytes).overrun } := by
  unfold Port.takeIncoming
  split
  · rfl
  · split <;> rfl
  · split <;> rfl

theorem endOutgoing_keeps (p : Port) (t : Transfer) (n : Nat) : p.endOutgoing t n = { p with
    transfer := none, done := (p.endOutgoing t n).done, overrun := (p.endOutgoing t n).overrun,
    overflow := (p.endOutgoing t n).overflow } := by
  unfold Port.endOutgoing
  split <;> rfl

theorem frame_transferEnd (s : State) (m : Master) (t : Transfer) (bytes : List Byte) :
    Frame [.queued, .done, .overrun, .overflow, .transfers] s
      (s.setPort m (((s.port m).endOutgoing t bytes.length).takeIncoming bytes)) := by
  rw [takeIncoming_keeps, endOutgoing_keeps]
  exact frame_setPort s m _ _ (by simp) (by simp) (fun _ => rfl) (fun _ => rfl) (by simp) (by simp) (by simp)

theorem frame_executeUnknown (s : State) (m : Master) : Frame answerParts s (s.executeUnknown m) := by
  unfold State.executeUnknown
  split
  · exact Moves.frame_refl _ s
  · split
    · exact Moves.frame_refl _ s
    · refine frame_ite _ ?_
      exact Moves.frame_trans (Moves.frame_mono (by decide) (takeQueued_frame s m _))
        (Moves.frame_mono (by decide) (finish_frame _ m _))

theorem frame_fetchNotice (s : State) (m : Master) : Frame [.notices] s (s.fetchNotice m).state := by
  unfold State.fetchNotice
  dsimp only
  split
  · exact Moves.frame_refl _ s
  · exact frame_setPort s m _ _ (fun _ => rfl) (fun _ => rfl) (by simp) (fun _ => rfl) (fun _ => rfl) (fun _ => rfl)
      (fun _ => rfl)

theorem frame_setMask (s : State) (m : Master) (mask : Word16) : Frame [.masks] s (s.setMask m mask).state := by
  unfold State.setMask
  split
  · exact Moves.frame_refl _ s
  · exact frame_setPort s m _ _ (fun _ => rfl) (fun _ => rfl) (fun _ => rfl) (by simp) (fun _ => rfl) (fun _ => rfl)
      (fun _ => rfl)

theorem frame_cutOff (s : State) (m : Master) :
    Frame [.queued, .done, .notices, .masks, .overflow, .transfers] s (s.setPort m (s.port m).cutOff) :=
  frame_setPort s m _ _ (by simp) (by simp) (by simp) (by simp) (fun _ => rfl) (by simp) (by simp)

theorem frame_reloaded (s : State) : Frame reloadParts s s.reloaded := by
  intro p hp
  cases p <;> first
    | exact absurd (by decide) hp
    | (intro m; cases m <;> rfl)
    | simp [Part.same, State.reloaded, Scan.cutShort]

theorem frame_reload (s : State) (m : Master) : Frame reloadParts s (s.reload m).state := by
  unfold State.reload
  split
  · exact Moves.frame_refl _ s
  · split
    · exact Moves.frame_refl _ s
    · split
      · exact Moves.frame_refl _ s
      · exact frame_reloaded s

theorem row (c : Instr) : Row c := by
  cases c
  case powerOn => exact .portEvent _ (fun _ => rfl) (fun s => frame_all s _)
  case pinReset => exact .portEvent _ (fun _ => rfl) (fun s => frame_all s _)
  case lowSupply => exact .portEvent _ (fun _ => rfl) (fun s => frame_all s _)
  case resetEnd => exact .portEvent _ (fun _ => rfl) (fun s => frame_all s _)
  case descriptionLoadEnd image => exact .ofEvent _ (fun _ => rfl) (fun s => effect_ite _ (effect_endLoad s _))
  case transferStart m =>
    refine .portEvent _ (fun _ => rfl) (fun s => ?_)
    split
    · exact Moves.frame_refl _ s
    · exact frame_setPort s m _ _ (fun _ => rfl) (fun _ => rfl) (fun _ => rfl) (fun _ => rfl) (fun _ => rfl)
        (fun _ => rfl) (by simp [touched])
  case transferEnd m bytes =>
    refine .portEvent _ (fun _ => rfl) (fun s => ?_)
    split
    · exact Moves.frame_refl _ s
    · split
      · exact Moves.frame_refl _ s
      · exact Moves.frame_mono (fun _ => List.mem_append_left _) (frame_transferEnd s m _ bytes)
  case unknownCommand m =>
    exact .portEvent _ (fun _ => rfl) (fun s => frame_executeUnknown s m)
  case status m => exact .ofCommand m _ _ _ (fun _ => rfl) (fun u _ => answers_ok _ (.refl [] [] u))
  case fetchNotice m => exact .portCommand m _ _ _ (fun _ => rfl) (fun _ u => frame_fetchNotice u m)
  case setNoticeMask m => exact .portCommand m _ _ _ (fun _ => rfl) (fun _ u => frame_setMask u m _)
  case resetPort m => exact .portCommand m _ _ _ (fun _ => rfl) (fun _ u => frame_cutOff u m)
  case readSegment m => exact .ofCommand m _ _ _ (fun _ => rfl) (fun u => answers_readSegment u)
  case placeClaim m => exact .ofCommand m _ _ _ (fun _ => rfl) (fun u => answers_placeClaim u m)
  case releaseClaim m => exact .ofCommand m _ _ _ (fun _ => rfl) (fun u => answers_releaseClaim u m)
  case confirmSweep m => exact .ofCommand m _ _ _ (fun _ => rfl) (fun u => answers_confirmSweep u m)
  case setAuthority m => exact .ofCommand m _ _ _ (fun _ => rfl) (fun u => answers_setAuthority u m)
  case claimStart k h =>
    exact .ofTimer _ (fun _ => rfl) (fun s => effect_startClaim s k h)
  case claimExpiry k h =>
    exact .ofTimer _ (fun _ => rfl) (fun s => effect_expireClaim s k h)
  case confirmingExpiry k =>
    exact .ofTimer _ (fun _ => rfl) (fun s => effect_expireConfirming s k)
  case prewarnMinuteChange k =>
    exact .ofTimer _ (fun _ => rfl) (fun s => effect_changeMinute s k)
  case prewarnEnd k => exact .ofTimer _ (fun _ => rfl) (fun s => effect_endPrewarn s k)
  case readGate m => exact .ofCommand m _ _ _ (fun _ => rfl) (fun u => answers_readGate u)
  case resetGate m => exact .ofCommand m _ _ _ (fun _ => rfl) (fun u => answers_resetGate u m)
  case inputEdge l b =>
    refine .ofEvent (l := [.inputs]) (K := []) _ (fun _ => rfl) (fun s => ?_)
    split
    · exact effect_updLine s l _
    · exact effect_updLine s l _
  case debounceExpiry l =>
    refine .ofEvent (l := .inputs :: pathParts) (K := pathKinds) _ (fun _ => rfl) (fun s => ?_)
    split
    · exact .refl _ _ s
    · exact effect_ite _ (.seq (effect_updLine s l _) (effect_deliver _ l _))
  case travelTimeout g => exact .ofTimer _ (fun _ => rfl) (fun s => effect_travelTimeout s g)
  case reversalPauseEnd g =>
    exact .ofTimer _ (fun _ => rfl) (fun s => effect_reversalPauseEnd s g)
  case holdOffEnd g => exact .ofTimer _ (fun _ => rfl) (fun s => effect_holdOffEnd s g)
  case lampToggle g => exact .ofTimer _ (fun _ => rfl) (fun s => effect_updGate s g _)
  case postMessage m => exact .ofCommand m _ _ _ (fun _ => rfl) (fun u => answers_postMessage u m)
  case withdrawMessage m => exact .ofCommand m _ _ _ (fun _ => rfl) (fun u => answers_withdrawMessage u m)
  case setPriorityMap m => exact .ofCommand m _ _ _ (fun _ => rfl) (fun u => answers_setPriorityMap u m)
  case setClock m => exact .ofCommand m _ _ _ (fun _ => rfl) (fun u => answers_setClock u m)
  case slotExpiry n => exact .ofTimer _ (fun _ => rfl) (fun s => effect_expireSlot s n)
  case readSign m => exact .ofCommand m _ _ _ (fun _ => rfl) (fun u => answers_readSign u)
  case setSignDisable m => exact .ofCommand m _ _ _ (fun _ => rfl) (fun u => answers_setSign u m)
  case setSignEnable m => exact .ofCommand m _ _ _ (fun _ => rfl) (fun u => answers_setSign u m)
  case transactionStart =>
    exact .ofTimer _ (fun _ => rfl) (fun s => (effect_ite _ (effect_startTransaction s)))
  case messageSent => exact .ofTimer _ (fun _ => rfl) (fun s => effect_messageSent s)
  case echoMismatch => exact .ofTimer _ (fun _ => rfl) (fun s => effect_echoMismatch s)
  case replyReceived bytes =>
    exact .ofTimer _ (fun _ => rfl) (fun s => effect_replyReceived s bytes)
  case replyTimeout => exact .ofTimer _ (fun _ => rfl) (fun s => effect_replyTimeout s)
  case refreshDue k => exact .ofTimer _ (fun _ => rfl) (fun s => effect_refreshArrives s k)
  case probeDue k => exact .ofTimer _ (fun _ => rfl) (fun s => effect_probeArrives s k)
  case lineRecovery =>
    refine .ofTimer (l := [.transmit, .line] ++ noticeParts) (K := [.busState]) _ (fun _ => rfl) (fun s => ?_)
    split
    · exact .refl _ _ s
    · exact effect_ite _ (effect_recoverLine s)
  case readChannel m => exact .ofCommand m _ _ _ (fun _ => rfl) (fun u => answers_readChannel u)
  case submitObservation m => exact .ofCommand m _ _ _ (fun _ => rfl) (fun u => answers_submitObservation u m)
  case scanRoundStart =>
    refine .ofEvent (l := [.round]) (K := []) _ (fun _ => rfl) (fun s => ?_)
    split
    · exact .refl _ _ s
    · exact effect_ite _ (effect_startRound s _)
  case channelConversionDone raws =>
    refine .ofEvent (l := .channels :: roundParts) (K := .channelState :: roundKinds) _ (fun _ => rfl) (fun s => ?_)
    split
    · exact .refl _ _ s
    · exact effect_ite _ (effect_conversionDone s _ raws)
  case holdAgeExpiry c => exact .ofEvent _ (fun _ => rfl) (fun s => effect_ite _ (effect_expireHold s c))
  case silenceExpiry c => exact .ofEvent _ (fun _ => rfl) (fun s => effect_ite _ (effect_expireSilence s c))
  case readPower m => exact .ofCommand m _ _ _ (fun _ => rfl) (fun u _ => answers_ok _ (.refl [] [] u))
  case hazardPeriodExpiry => exact .ofEvent _ (fun _ => rfl) (fun s => effect_ite _ (effect_expirePeriod s))
  case floorEnd n => exact .ofTimer _ (fun _ => rfl) (fun s => effect_endFloor s n)
  case readPath m => exact .ofCommand m _ _ _ (fun _ => rfl) (fun u => answers_readPath u)
  case reportDetection m => exact .ofCommand m _ _ _ (fun _ => rfl) (fun u => answers_reportDetection u m)
  case clearPath m => exact .ofCommand m _ _ _ (fun _ => rfl) (fun u => answers_clearPath u m)
  case setPathFloor m => exact .ofCommand m _ _ _ (fun _ => rfl) (fun u => answers_setPathFloor u m)
  case seedPath m => exact .ofCommand m _ _ _ (fun _ => rfl) (fun u => answers_seedPath u m)
  case reload m => exact .portCommand m _ _ _ (fun _ => rfl) (fun _ u => frame_reload u m)

/-! ### The execution of a command -/

/-- What an execution leaves of a state that it changes: the owning block's answer on the state with the slot taken, or
that state where the port block refuses, and then the slot DONE. -/
theorem execute_keeps {P : State → Prop} {s : State} (m : Master) (c : Command) (applies : List Byte → Bool)
    (owner : List Byte → State → Answer) (ok : P s)
    (executed : s.held = none → ∀ r rest x, (s.port m).queued = r :: rest → P ((s.takeQueued m rest).finish m x) ∧
      ((c.anyState = true ∨ s.described = true) →
        P ((owner r.body (s.takeQueued m rest)).state.finish m x))) : P (s.execute m c applies owner) := by
  unfold State.execute
  split
  · exact ok
  · rename_i run
    split
    · exact ok
    · rename_i r rest oldest
      have kept := fun x => executed (by simpa using run) r rest x oldest
      split
      · dsimp only [State.answer]
        split
        · exact (kept _).1
        · rename_i state
          split
          · exact (kept _).1
          · refine (kept _).2 ?_
            cases any : c.anyState
            · exact .inr (by simpa [any, State.described, State.takeQueued, or_iff_not_imp_left] using state)
            · exact .inl rfl
      · exact ok

theorem frame_execute {l : List Part} (s : State) (m : Master) (c : Command) (applies : List Byte → Bool)
    (owner : List Byte → State → Answer) (h : ∀ body u, Frame l u (owner body u).state) :
    Frame (l ++ answerParts) s (s.execute m c applies owner) := by
  have taken (rest : List Request) : Frame (l ++ answerParts) s (s.takeQueued m rest) :=
    Moves.frame_mono (by simp [answerParts]) (takeQueued_frame s m rest)
  have finished (t : State) (x : Response) : Frame (l ++ answerParts) t (t.finish m x) :=
    Moves.frame_mono (by simp [answerParts]) (finish_frame t m x)
  refine execute_keeps (P := Frame (l ++ answerParts) s) m c applies owner (Moves.frame_refl _ s)
    (fun _ r rest x _ => ⟨Moves.frame_trans (taken rest) (finished _ x), fun _ => ?_⟩)
  exact Moves.frame_trans (Moves.frame_trans (taken rest)
    (Moves.frame_mono (fun _ => List.mem_append_left _) (h r.body _))) (finished _ x)

/-- A row changes nothing but the parts it touches and the request slots. -/
theorem exec_frame {c : Instr} {s t : State} (h : exec c s = .next t) : Frame (touched c ++ answerParts) s t := by
  cases row c with
  | event f runs effect =>
    rw [runs] at h
    cases h
    exact Moves.frame_mono (fun _ => List.mem_append_left _) (effect s).frame
  | command m d applies owner runs answers =>
    rw [runs] at h
    cases h
    exact frame_execute s m d applies owner (fun b u => (answers b u).frame)
  | portCommand m d applies owner runs frame _ =>
    rw [runs] at h
    cases h
    exact frame_execute s m d applies owner frame
  | portEvent f runs frame _ =>
    rw [runs] at h
    cases h
    exact frame s

/-! ### Invariants -/

/-- A predicate looks at no other parts of the state. -/
def RestsOn (parts : List Part) (P : State → Prop) : Prop := ∀ s t, (∀ p ∈ parts, p.same s t) → P s → P t

/-- The two lists have no part in common. -/
def apart (a b : List Part) : Bool := a.all (fun p => !b.contains p)

theorem not_mem_of_apart {a b : List Part} (h : apart a b = true) : ∀ p ∈ a, p ∉ b := by
  simpa [apart] using h

namespace RestsOn

variable {parts : List Part} {P : State → Prop} (rests : RestsOn parts P)
include rests

theorem keep {l : List Part} {s t : State} (ok : P s) (h : Frame l s t) (away : apart parts l = true := by decide) : P t :=
  rests s t (fun p hp => h p (not_mem_of_apart away p hp)) ok

theorem keep_effect {l : List Part} {K : List NoticeKind} {s t : State} (ok : P s) (h : Effect l K s t)
    (away : apart parts l = true := by decide) : P t := rests.keep ok h.frame away

/-- A row that touches none of the parts keeps the predicate. -/
theorem keep_exec {c : Instr} {s t : State} (ok : P s) (h : exec c s = .next t)
    (away : apart parts (touched c ++ answerParts) = true := by rfl) : P t := rests.keep ok (exec_frame h) away

/-- A command keeps a predicate that its owning block keeps. -/
theorem keep_execute {s : State} (m : Master) (c : Command) (applies : List Byte → Bool)
    (owner : List Byte → State → Answer) (ok : P s)
    (kept : ∀ body u, u.held = none → (c.anyState = true ∨ u.described = true) → P u → P (owner body u).state)
    (away : apart parts answerParts = true := by decide) : P (s.execute m c applies owner) := by
  have apartFrom (l : List Part) (sub : ∀ p ∈ l, p ∈ answerParts) : apart parts l = true := by
    have := not_mem_of_apart away
    simp only [apart, List.all_eq_true, Bool.not_eq_true', List.contains_eq_mem, decide_eq_false_iff_not]
    exact fun p hp hl => this p hp (sub p hl)
  have taken (rest : List Request) : P (s.takeQueued m rest) :=
    rests.keep ok (takeQueued_frame s m rest) (apartFrom _ (by decide))
  have finished (t : State) (x : Response) (h : P t) : P (t.finish m x) :=
    rests.keep h (finish_frame t m x) (apartFrom _ (by decide))
  refine execute_keeps m c applies owner ok (fun run r rest x _ => ⟨finished _ x (taken rest), fun state => ?_⟩)
  exact finished _ x (kept r.body _ run state (taken rest))

end RestsOn

theorem keep_whenRunning {P : State → Prop} {s : State} (f : State → State) (ok : P s)
    (kept : s.held = none → s.described = true → P (f s)) : P (s.whenRunning f) := by
  unfold State.whenRunning
  split
  · rename_i h
    simp only [Bool.and_eq_true, Option.isNone_iff_eq_none] at h
    exact kept h.1 h.2
  · exact ok

theorem keep_ite {P : State → Prop} {s t : State} (c : Prop) [Decidable c] (ok : P s) (kept : c → P t) :
    P (if c then t else s) := by
  split
  · exact kept ‹_›
  · exact ok

/-- The idle step changes the queue and the timers alone (notes/assumptions/1.md). -/
theorem idle_cases (s : State) : (s.idle = s) ∨ (∃ l, s.idle = s.enqueue l) ∨ (∃ l, s.idle = s.tick.enqueue l) := by
  unfold State.idle
  split
  · exact .inl rfl
  · split
    · exact .inr (.inr ⟨_, rfl⟩)
    · exact .inr (.inl ⟨_, rfl⟩)

theorem enqueue_frame (s : State) (l : List Instr) : Frame [.waiting, .drawn] s (s.enqueue l) := by
  intro p hp
  cases p <;> simp [Part.same, State.enqueue, State.port] at hp ⊢

/-- A step keeps what every row, the queue and the passing of a millisecond keep. -/
theorem step_keeps {parts : List Part} {P : State → Prop} (rests : RestsOn parts P)
    (rows : ∀ c s t, P s → exec c s = .next t → P t) (tick : ∀ s, P s → P s.tick)
    (away : apart parts [.waiting, .drawn] = true := by decide) (s t : State) (ok : P s) (h : step s = .next t) : P t := by
  unfold step at h
  split at h
  · refine rows _ _ _ (rests.keep ok (Moves.frame_mono (k := [.waiting, .drawn]) (by decide) (frame_pending s _)) away) h
  · cases h
    obtain same | ⟨l, same⟩ | ⟨l, same⟩ := idle_cases s
    · rwa [same]
    · rw [same]
      exact rests.keep ok (enqueue_frame s l) away
    · rw [same]
      exact rests.keep (tick s ok) (enqueue_frame _ l) away

/-- The parts that a millisecond moves. -/
def timeParts : List Part := [.clock, .inputs, .gates, .records, .transmit]

theorem tick_frame (s : State) : Frame timeParts s s.tick := by
  have clock (c : Clocks) : c.tick.display = c.display := by
    unfold Clocks.tick
    repeat' split
    all_goals rfl
  intro p hp
  unfold State.tick State.tickDescribed State.tickAlways
  cases p <;> first
    | exact absurd (by decide) hp
    | (split <;> simp [Part.same, State.port, clock])

end Sys2Proof.Proofs
end

