-- ==== Sys2Proof/Proofs/Invariants.lean ====
section
/-! How an invariant of the road is kept. The operations between segments, gates, paths and slots are built from few
changes: a gate's record moves (`GateMove`), a raise begins, a segment tests its gates, a segment is recomputed, a slot is
formed or ended. `ArmKept` and `RoadKept` list these for a predicate; what follows carries it through every row. The
predicate `B k` is what is left of `P` while the claims of segment k have changed and k is not yet recomputed (R8). -/

namespace Sys2Proof.Proofs

open Sys2Proof.Machine Sys2Proof.Safety Sys2Proof.Laws

/-! ### The moves of a gate's record -/

/-- A change of a gate's record that keeps it sound, its description and its demand, and begins no raise. -/
structure GateMove (x y : Gate) : Prop where
  cfg : y.cfg = x.cfg
  demand : y.demand = x.demand
  raising : y.state = .raising → x.state = .raising
  sound : GateOk x → GateOk y

/-- A gate that is sound and not LOWERING has neither sub-phase nor pause. -/
theorem gateOk_resting {x : Gate} (ok : GateOk x) (h : x.state ≠ .lowering) : x.sub = none ∧ x.pause = none := by
  have sub : x.sub = none := by
    rw [← Option.not_isSome_iff_eq_none]
    exact fun some => h (ok.sub.1 some)
  refine ⟨sub, ?_⟩
  rw [← Option.not_isSome_iff_eq_none]
  intro some
  simpa [sub] using ok.pause.1 some

theorem gateOk_no_reason {x : Gate} (ok : GateOk x) (h : x.state ≠ .fault) : x.reason = none := by
  rw [← Option.not_isSome_iff_eq_none]
  exact fun some => h (ok.reason.1 some)

namespace GateMove

theorem position (x : Gate) (p : Position) : GateMove x { x with position := p } :=
  ⟨rfl, rfl, id, fun ok => ⟨ok.sub, ok.pause, ok.pauseMost, ok.holdOff, ok.reason, ok.travel, ok.rest⟩⟩

theorem raiseHeld (x : Gate) (b : Bool) : GateMove x { x with raiseHeld := b } :=
  ⟨rfl, rfl, id, fun ok => ⟨ok.sub, ok.pause, ok.pauseMost, ok.holdOff, ok.reason, ok.travel, ok.rest⟩⟩

theorem toggle (x : Gate) : GateMove x x.toggle := by
  unfold Gate.toggle
  split
  · exact ⟨rfl, rfl, id, fun ok => ⟨ok.sub, ok.pause, ok.pauseMost, ok.holdOff, ok.reason, ok.travel, ok.rest⟩⟩
  · exact ⟨rfl, rfl, id, id⟩

theorem rest (x : Gate) (state : GateState) (h : state = .up ∨ state = .down) : GateMove x (x.rest state) := by
  obtain rfl | rfl := h
  · exact ⟨rfl, rfl, nofun, fun _ => ⟨by simp [Gate.rest], by simp [Gate.rest], by simp [Gate.rest], by simp [Gate.rest],
      by simp [Gate.rest], Nat.zero_le _, fun _ => rfl⟩⟩
  · exact ⟨rfl, rfl, nofun, fun _ => ⟨by simp [Gate.rest], by simp [Gate.rest], by simp [Gate.rest], by simp [Gate.rest],
      by simp [Gate.rest], Nat.zero_le _, fun _ => rfl⟩⟩

theorem toFault (x : Gate) (r : FaultReason) : GateMove x (x.toFault r) :=
  ⟨rfl, rfl, nofun, fun _ => ⟨by simp [Gate.toFault], by simp [Gate.toFault], by simp [Gate.toFault],
    by simp [Gate.toFault], by simp [Gate.toFault], Nat.zero_le _, fun _ => rfl⟩⟩

theorem toManual (x : Gate) : GateMove x x.toManual :=
  ⟨rfl, rfl, nofun, fun _ => ⟨by simp [Gate.toManual], by simp [Gate.toManual], by simp [Gate.toManual],
    by simp [Gate.toManual], by simp [Gate.toManual], Nat.zero_le _, fun _ => rfl⟩⟩

theorem startLowering (x : Gate) (h : x.state ≠ .fault) : GateMove x x.startLowering :=
  ⟨rfl, rfl, nofun, fun ok => ⟨by simp [Gate.startLowering], by simp [Gate.startLowering], by simp [Gate.startLowering],
    by simp [Gate.startLowering], by simp [Gate.startLowering, gateOk_no_reason ok h], Nat.le_refl _,
    by simp [Gate.startLowering]⟩⟩

theorem startStopped (x : Gate) (h : x.state ≠ .fault) : GateMove x x.startStopped :=
  ⟨rfl, rfl, nofun, fun ok => ⟨by simp [Gate.startStopped], by simp [Gate.startStopped], by simp [Gate.startStopped],
    by simp [Gate.startStopped], by simp [Gate.startStopped, gateOk_no_reason ok h], Nat.le_refl _,
    by simp [Gate.startStopped]⟩⟩

theorem reverse (x : Gate) (h : x.state ≠ .fault) : GateMove x x.reverse :=
  ⟨rfl, rfl, nofun, fun ok => ⟨by simp [Gate.reverse], by simp [Gate.reverse], by simp [Gate.reverse],
    by simp [Gate.reverse], by simp [Gate.reverse, gateOk_no_reason ok h], Nat.le_refl _, by simp [Gate.reverse]⟩⟩

/-- R48: a gate under lower drive has no pause, so it halts with none. -/
theorem halt (x : Gate) (h : x.lowerDrive = true) : GateMove x x.halt := by
  obtain ⟨state, sub⟩ : x.state = .lowering ∧ x.sub = some .driving := by simpa [Gate.lowerDrive] using h
  refine ⟨rfl, rfl, nofun, fun ok => ?_⟩
  have pause : x.pause = none := by
    rw [← Option.not_isSome_iff_eq_none, ok.pause, sub]
    simp
  exact ⟨by simp [Gate.halt], by simp [Gate.halt, pause], by simp [Gate.halt, pause], by simp [Gate.halt],
    by simp [Gate.halt, gateOk_no_reason ok (by simp [state])], ok.travel, by simp [Gate.halt]⟩

theorem holdOff (x : Gate) (n : Option Nat) (h : x.state = .stopped) (most : ∀ m, n = some m → m ≤ Config.holdOff) :
    GateMove x { x with holdOff := n } :=
  ⟨rfl, rfl, id, fun ok => ⟨ok.sub, ok.pause, ok.pauseMost, fun m hm => ⟨h, most m hm⟩, ok.reason, ok.travel, ok.rest⟩⟩

theorem resume (x : Gate) (h : x.state = .stopped) : GateMove x x.resume := by
  refine ⟨rfl, rfl, nofun, fun ok => ?_⟩
  obtain ⟨-, pause⟩ := gateOk_resting ok (by simp [h])
  exact ⟨by simp [Gate.resume], by simp [Gate.resume, pause], by simp [Gate.resume, pause], by simp [Gate.resume],
    by simp [Gate.resume, gateOk_no_reason ok (by simp [h])], ok.travel, by simp [Gate.resume]⟩

end GateMove

theorem keep_fold {α : Type} {P : State → Prop} {s : State} (f : State → α → State) (h : ∀ s a, P s → P (f s a))
    (l : List α) (ok : P s) : P (l.foldl f s) :=
  foldl_keeps (fun s t => P s → P t) (fun _ => id) (fun a b => b ∘ a) f h l s ok

theorem keep_cases {P : State → Prop} {s t : State} (c : Prop) [Decidable c] (yes : c → P s) (no : ¬ c → P t) :
    P (if c then s else t) := by
  split
  · exact yes ‹_›
  · exact no ‹_›

/-! ### Gates and their reports -/

/-- A predicate kept by what a gate's report and the application of a demand do. -/
structure ArmKept (parts : List Part) (P : State → Prop) : Prop where
  rests : RestsOn parts P
  notices : apart parts noticeParts = true
  reserve : ∀ s, P s → P s.updateReserve
  test : ∀ s k, P s → P (s.testGates k)
  move : ∀ s g x f, P s → s.gates[g]? = some x → GateMove x (f x) → P (s.updGate g f)
  start : ∀ s g x, P s → s.gates[g]? = some x → x.state = .down → x.demand = .raise → P (s.updGate g Gate.startRaising)

namespace ArmKept

variable {parts : List Part} {P : State → Prop} (kept : ArmKept parts P) {s : State}
include kept

theorem tellAll (n : Notice) (ok : P s) : P (s.tellAll n) :=
  kept.rests.keep_effect ok (effect_tellAll s n n.kind rfl) kept.notices

theorem tell (m : Master) (n : Notice) (ok : P s) : P (s.tell m n) :=
  kept.rests.keep_effect ok (effect_tell s m n n.kind rfl) kept.notices

theorem withSegmentNotice (k : Nat) (f : State → State) (ok : P (f s)) : P (s.withSegmentNotice k f) := by
  unfold State.withSegmentNotice
  dsimp only
  split
  · split
    · exact ok
    · exact kept.tellAll _ ok
  · exact ok

theorem gateReport (g : Nat) (ok : P s) : P (s.gateReport g) := by
  unfold State.gateReport
  split
  · exact ok
  · exact kept.tellAll _ (kept.reserve _ (kept.test _ _ ok))

theorem changeGate {g : Nat} {x : Gate} {f : Gate → Gate} (ok : P s) (at_g : s.gates[g]? = some x)
    (move : GateMove x (f x)) : P (s.changeGate g f) := kept.gateReport g (kept.move s g x f ok at_g move)

theorem applyLower (g : Nat) (ok : P s) : P (s.applyLower g) := by
  unfold State.applyLower
  split
  · exact ok
  · rename_i x at_g
    split
    · rename_i up
      split
      · exact kept.changeGate ok at_g (.startStopped x (by simp [up]))
      · exact kept.changeGate ok at_g (.startLowering x (by simp [up]))
    · rename_i raising
      exact kept.changeGate ok at_g (.reverse x (by simp [raising]))
    all_goals exact ok

theorem applyRaise {g : Nat} {x : Gate} (ok : P s) (at_g : s.gates[g]? = some x) (demand : x.demand = .raise) :
    P (s.applyRaise g) := by
  unfold State.applyRaise
  rw [at_g]
  dsimp only
  split
  · rename_i down
    split
    · exact kept.gateReport g (kept.start s g x ok at_g down demand)
    · split
      · exact ok
      · exact kept.tellAll _ (kept.move s g x _ ok at_g (.raiseHeld x true))
  all_goals exact ok

theorem applyRecorded (g : Nat) (ok : P s) : P (s.applyRecorded g) := by
  unfold State.applyRecorded
  split
  · exact ok
  · rename_i x at_g
    split
    · exact kept.applyLower g ok
    · rename_i demand
      exact kept.applyRaise ok at_g demand
    all_goals exact ok

theorem arrive (g : Nat) {state : GateState} (h : state = .up ∨ state = .down) (ok : P s) : P (s.arrive g state) := by
  refine kept.applyRecorded g ?_
  cases at_g : s.gates[g]? with
  | none =>
    have same : s.changeGate g (fun x => x.rest state) = s := by
      have := List.getElem?_eq_none_iff.1 at_g
      simp [State.changeGate, State.updGate, State.gateReport, List.modify_eq_self this, at_g]
    rwa [same]
  | some x => exact kept.changeGate ok at_g (.rest x state h)

end ArmKept

theorem limitEffect_rests {state r : GateState} {p : Position} {l : Limit} {b : Bool}
    (h : limitEffect state p l b = .rests r) : r = .up ∨ r = .down := by
  unfold limitEffect at h
  split at h <;> (repeat' split at h) <;> simp_all

theorem restState_eq {p : Position} {state : GateState} (h : p.restState = some state) : state = .up ∨ state = .down := by
  cases p <;> simp [Position.restState] at h <;> simp [← h]

/-! ### The moves of a segment's record -/

/-- A segment's record is sound but for its demand, which is yet to be handed over (R19). -/
def SegmentSound (x : Segment) : Prop := SegmentOk { x with demand := x.wantedDemand }

/-- A change of a segment's record by one of its timers, a sweep or an acknowledgement, before its demand follows. -/
structure SegmentMove (x y : Segment) : Prop where
  cfg : y.cfg = x.cfg
  level : y.level = x.level
  urgent : y.urgent = x.urgent
  deciding : y.deciding = x.deciding
  demand : y.demand = x.demand
  swept : x.state = .reopening → x.swept = true → y.state = .reopening ∧ y.swept = true
  sound : SegmentOk x → SegmentSound y

theorem SegmentMove.sweep (x : Segment) (h : x.state = .reopening) : SegmentMove x { x with swept := true } := by
  refine ⟨rfl, rfl, rfl, rfl, rfl, fun _ _ => ⟨h, rfl⟩, fun ok => ?_⟩
  exact ⟨ok.phase, ok.opened, ok.restricted, ok.shut, ok.reopening, ok.secured, fun _ => h, ok.confirming, ok.remaining,
    ok.counting, rfl⟩

theorem SegmentMove.prewarn (x : Segment) (b : Bool) (h : x.state = .closing) :
    SegmentMove x { x.toPrewarn with unwarned := b } := by
  have still : { x.toPrewarn with unwarned := b } = { x with
      phase := some (if x.remaining = 0 then .lowering else .prewarn), confirmDue := none, unwarned := b } := by
    unfold Segment.toPrewarn
    split <;> simp_all
  rw [still]
  refine ⟨rfl, rfl, rfl, rfl, rfl, by simp [h], fun ok => ?_⟩
  refine ⟨by simp [h], ok.opened, ok.restricted, ok.shut, ok.reopening, ok.secured, ok.swept, ?_, ok.remaining, ?_, rfl⟩
  · dsimp only
    split <;> simp
  · intro counts
    exact .inr (by simpa using counts)

theorem SegmentMove.lowering (x : Segment) (h : x.state = .closing) : SegmentMove x x.toLowering := by
  refine ⟨rfl, rfl, rfl, rfl, rfl, by simp [h], fun ok => ?_⟩
  exact ⟨by simp [Segment.toLowering, h], ok.opened, ok.restricted, ok.shut, ok.reopening, ok.secured, ok.swept,
    by simp [Segment.toLowering], Nat.zero_le _, by simp [Segment.toLowering], rfl⟩

/-! ### Segments, paths and slots -/

/-- The parts that the road's invariants do not look at. -/
def quietParts : List Part :=
  [.waiting, .drawn, .clock, .display, .authority, .signs, .line, .channels, .inputs, .round, .paths, .period, .parameters,
    .charge, .account, .reserve, .mode, .queued, .done, .notices, .masks, .overrun, .overflow, .transfers]

/-- A predicate kept by the operations of segments, gates, paths and slots. -/
structure RoadKept (parts : List Part) (P : State → Prop) (B : Nat → State → Prop) : Prop extends ArmKept parts P where
  quiet : apart parts quietParts = true
  restsBut : ∀ k, RestsOn parts (B k)
  slot : ∀ s k, P s → P (s.formSegmentSlot k)
  weather : ∀ s k, P s → P (s.formWeather k)
  mode : ∀ s silent, P s → P (s.evaluateMode silent)
  ended : ∀ s n cause tell, P s → P (s.endPosted n cause tell)
  endedBut : ∀ k s n cause tell, B k s → B k (s.endPosted n cause tell)
  linkedBut : ∀ k s n link, B k s → B k (s.linkSlot n link)
  but : ∀ k s, P s → B k s
  claims : ∀ k s c, B k s → (∀ j, j ≠ k → c.filter (fun d => d.segment == j) = s.claimsOf j) →
    (ClaimsOk s → ClaimsOk (s.setClaims c)) → B k (s.setClaims c)
  recompute : ∀ k s, B k s → P (s.recompute k)
  follow : ∀ s k x f, P s → s.segs.records[k]? = some x → SegmentMove x (f x) → P ((s.updSegment k f).followUp k)

theorem apart_of_inside {a b c : List Part} (h : apart a b = true) (sub : inside c b = true) : apart a c = true := by
  simp only [apart, inside, List.all_eq_true, Bool.not_eq_true', List.contains_eq_mem, decide_eq_true_eq,
    decide_eq_false_iff_not] at *
  exact fun p hp hc => h p hp (sub p hc)

/-! ### The claims of the other segments stay -/

theorem claimsOf_filter (s : State) (k : Nat) (h : Holder) {j : Nat} (other : j ≠ k) :
    (s.segs.claims.filter (fun c => !c.isOf k h)).filter (fun d => d.segment == j) = s.claimsOf j := by
  rw [List.filter_filter]
  refine List.filter_congr (fun d _ => ?_)
  by_cases e : d.segment = j
  · simp [e, Claim.isOf, other]
  · simp [e]

theorem claimsOf_tail (s : State) (k : Nat) (h : Holder) (x : Claim) (hx : x.segment = k) {j : Nat} (other : j ≠ k) :
    (s.segs.claims.filter (fun c => !c.isOf k h) ++ [x]).filter (fun d => d.segment == j) = s.claimsOf j := by
  rw [List.filter_append, claimsOf_filter s k h other]
  simp [hx, Ne.symm other]

theorem claimsOf_replace (s : State) (k : Nat) (h : Holder) (x : Claim) (hx : x.segment = k) {j : Nat} (other : j ≠ k) :
    (s.segs.claims.map (fun c => if c.isOf k h then x else c)).filter (fun d => d.segment == j) = s.claimsOf j := by
  unfold State.claimsOf
  induction s.segs.claims with
  | nil => rfl
  | cons c rest ih =>
    by_cases e : c.isOf k h = true
    · have seg := ((isOf_iff c k h).1 e).1
      simp [e, seg, hx, Ne.symm other, ih]
    · simp [e, ih, List.filter_cons]

namespace RoadKept

variable {parts : List Part} {P : State → Prop} {B : Nat → State → Prop} (kept : RoadKept parts P B) {s : State}
include kept

theorem still {l : List Part} {K : List NoticeKind} {t : State} (ok : P s) (h : Effect l K s t)
    (sub : inside l quietParts = true := by decide) : P t :=
  kept.rests.keep_effect ok h (apart_of_inside kept.quiet sub)

theorem stillBut {k : Nat} {l : List Part} {K : List NoticeKind} {t : State} (ok : B k s) (h : Effect l K s t)
    (sub : inside l quietParts = true := by decide) : B k t :=
  (kept.restsBut k).keep_effect ok h (apart_of_inside kept.quiet sub)

/-! #### Claims -/

theorem dropClaim (k : Nat) (h : Holder) (ok : P s) : B k (s.dropClaim k h) :=
  kept.claims k s _ (kept.but k s ok) (fun _ other => claimsOf_filter s k h other) (moves_dropClaim s k h).claims

theorem tailClaim (k : Nat) (h : Holder) (x : Claim) (hx : x.segment = k ∧ x.holder = h) (ok : P s) :
    B k (s.tailClaim k h x) :=
  kept.claims k s _ (kept.but k s ok) (fun _ other => claimsOf_tail s k h x hx.1 other) (moves_tailClaim s k h x hx).claims

theorem replaceClaim (k : Nat) (h : Holder) (x : Claim) (hx : x.segment = k ∧ x.holder = h) (ok : P s) :
    B k (s.replaceClaim k h x) :=
  kept.claims k s _ (kept.but k s ok) (fun _ other => claimsOf_replace s k h x hx.1 other)
    (moves_replaceClaim s k h x hx).claims

theorem relink {k : Nat} (j : Nat) (old new : Option Nat) (ok : B k s) : B k (s.relink j old new) := by
  have cleared : B k (match old with | some n => if new = some n then s else s.linkSlot n none | none => s) := by
    split
    · split
      · exact ok
      · exact kept.linkedBut k _ _ _ ok
    · exact ok
  unfold State.relink
  dsimp only
  split
  · exact kept.linkedBut k _ _ _ cleared
  · exact cleared

theorem putClaim (m : Master) (a : PlaceArgs) (ok : P s) : B a.segment (s.putClaim m a) := by
  unfold State.putClaim
  split
  · exact kept.relink _ _ _ (kept.tailClaim _ _ _ ⟨rfl, rfl⟩ ok)
  · dsimp only
    refine kept.relink _ _ _ ?_
    split
    · exact kept.tailClaim _ _ _ ⟨rfl, rfl⟩ ok
    · exact kept.replaceClaim _ _ _ ⟨rfl, rfl⟩ ok

theorem placeClaim (m : Master) (body : List Byte) (ok : P s) : P (s.placeClaim m body).state := by
  unfold State.placeClaim
  split
  · exact ok
  · split
    · exact ok
    · split
      · exact ok
      · split
        · exact ok
        · exact kept.recompute _ _ (kept.putClaim m _ ok)

theorem withdrawLinked (c : Claim) (ok : P s) : P (s.withdrawLinked c) := by
  unfold State.withdrawLinked
  split
  · exact ok
  · exact kept.ended _ _ _ _ ok

theorem withdrawLinkedBut {k : Nat} (c : Claim) (ok : B k s) : B k (s.withdrawLinked c) := by
  unfold State.withdrawLinked
  split
  · exact ok
  · exact kept.endedBut k _ _ _ _ ok

theorem releaseClaim (m : Master) (body : List Byte) (ok : P s) : P (s.releaseClaim m body).state := by
  unfold State.releaseClaim
  dsimp only
  split
  · exact ok
  · split
    · exact ok
    · unfold State.releaseMasterClaim
      split
      · exact ok
      · split
        · exact ok
        · rename_i holder _ _ _ c _
          have withdrawn := kept.withdrawLinkedBut c (kept.dropClaim (read1 body 0) (.master holder) ok)
          exact kept.recompute _ _ (keep_cases _ (fun _ => withdrawn)
            (fun _ => kept.stillBut withdrawn (effect_tellClaimEnded _ (read1 body 0) holder c.reason 1)))

theorem startClaim (k : Nat) (h : Holder) (ok : P s) : P (s.startClaim k h) := by
  unfold State.startClaim
  split
  · exact ok
  · rename_i c found
    obtain ⟨segment, holder⟩ := claim?_isOf found
    split
    · exact ok
    · split
      · exact kept.recompute _ _ (kept.tailClaim k h _ ⟨segment, holder⟩ ok)
      · exact ok

theorem expireClaim (k : Nat) (h : Holder) (ok : P s) : P (s.expireClaim k h) := by
  unfold State.expireClaim
  split
  · split
    · exact ok
    · split
      · exact kept.still (kept.withdrawLinked _ (kept.recompute _ _ (kept.dropClaim _ _ ok)))
          (effect_tellClaimEnded _ _ _ _ _)
      · exact ok
  · exact ok

theorem matchClaim (k path : Nat) (call : Call) (ok : P s) : P (s.matchClaim k path call) := by
  unfold State.matchClaim
  split
  · split
    · exact ok
    · exact kept.recompute _ _ (kept.tailClaim _ _ _ ⟨rfl, rfl⟩ ok)
  · rename_i c found
    have holder := claim?_isOf found
    split
    · exact kept.recompute _ _ (kept.dropClaim _ _ ok)
    · split
      · exact kept.recompute _ _ (kept.tailClaim _ _ _ holder ok)
      · split
        · exact ok
        · exact kept.recompute _ _ (kept.replaceClaim _ _ _ holder ok)

theorem handCall (k path : Nat) (call : Call) (ok : P s) : P (s.handCall k path call) := by
  unfold State.handCall
  exact keep_ite _ (kept.matchClaim k path call ok) (fun _ => kept.slot _ _ (kept.matchClaim k path call ok))

theorem handOver (n : Nat) (ok : P s) : P (s.handOver n) := by
  unfold State.handOver
  split
  · exact ok
  · exact keep_fold _ (fun s k ok => kept.handCall k n _ ok) _ ok

/-! #### Phases of a segment -/

/-- A segment's record moves, its demand and slot follow, and its standing is told. -/
theorem moveSegment {k : Nat} {x : Segment} {f : Segment → Segment} (ok : P s) (at_k : s.segs.records[k]? = some x)
    (move : SegmentMove x (f x)) : P (s.withSegmentNotice k (fun s => (s.updSegment k f).followUp k)) :=
  kept.withSegmentNotice k _ (kept.follow s k x f ok at_k move)

theorem confirmSweep (m : Master) (body : List Byte) (ok : P s) : P (s.confirmSweep m body).state := by
  unfold State.confirmSweep
  dsimp only
  split
  · exact ok
  · rename_i x at_k
    split
    · exact ok
    · split
      · exact ok
      · rename_i reopening
        split
        · exact ok
        · exact kept.moveSegment ok at_k (.sweep x (by simpa using reopening))

theorem expireConfirming (k : Nat) (ok : P s) : P (s.expireConfirming k) := by
  unfold State.expireConfirming
  split
  · exact ok
  · rename_i x at_k
    split
    · exact ok
    · split
      · rename_i h
        exact kept.tellAll _ (kept.moveSegment ok at_k (.prewarn x true h.1))
      · exact ok

theorem changeMinute (k : Nat) (ok : P s) : P (s.changeMinute k) := by
  unfold State.changeMinute
  split
  · exact ok
  · exact keep_ite _ ok (fun _ => kept.slot _ _ ok)

theorem endPrewarn (k : Nat) (ok : P s) : P (s.endPrewarn k) := by
  unfold State.endPrewarn
  split
  · exact ok
  · rename_i x at_k
    exact keep_ite _ ok (fun h => kept.moveSegment ok at_k (.lowering x h.1))

theorem testConfirming (n k : Nat) (ok : P s) : P (s.testConfirming n k) := by
  unfold State.testConfirming
  split
  · rename_i x y at_k at_n
    exact keep_ite _ ok (fun h => kept.moveSegment ok at_k (.prewarn x false h.1))
  · exact ok

theorem reportAck (n : Nat) (ok : P s) : P (s.reportAck n) :=
  keep_fold _ (fun _ k ok => kept.testConfirming n k ok) _ ok

/-! #### Gates -/

theorem gateEvent (g : Nat) (f : State → State) (ok : P s) (h : P (f s)) : P (s.gateEvent g f) := by
  unfold State.gateEvent
  split
  · exact ok
  · exact kept.withSegmentNotice _ _ h

theorem resetGate (m : Master) (body : List Byte) (ok : P s) : P (s.resetGate m body).state := by
  unfold State.resetGate
  split
  · exact ok
  · split
    · exact ok
    · split
      · exact ok
      · split
        · exact ok
        · rename_i state rests
          exact kept.withSegmentNotice _ (fun s => s.arrive (read1 body 0) state) (kept.arrive _ (restState_eq rests) ok)

theorem limitChange (g : Nat) (limit : Limit) (asserted : Bool) (ok : P s) : P (s.limitChange g limit asserted) := by
  unfold State.limitChange
  split
  · exact ok
  · rename_i x at_g
    dsimp only
    have held : P (s.holdPosition g (s.positionOf x.cfg)) := kept.move s g x _ ok at_g (.position x _)
    have at_g' : (s.holdPosition g (s.positionOf x.cfg)).gates[g]? = some { x with position := s.positionOf x.cfg } := by
      simp [State.holdPosition, at_g]
    split
    · exact held
    · exact keep_cases _ (fun _ => ok) (fun _ => kept.gateReport g held)
    · rename_i state effect
      exact kept.arrive g (limitEffect_rests effect) held
    · exact keep_cases _ (fun _ => held) (fun _ => kept.changeGate held at_g' (.toFault _ _))

theorem obstructionChange (g : Nat) (asserted : Bool) (ok : P s) : P (s.obstructionChange g asserted) := by
  unfold State.obstructionChange
  split
  · exact ok
  · rename_i x at_g
    split
    · split
      · rename_i drive
        exact kept.changeGate ok at_g (.halt x drive)
      · exact keep_ite _ ok (fun stopped => kept.move s g x _ ok at_g (.holdOff x none stopped (by simp)))
    · exact keep_ite _ ok (fun stopped => kept.move s g x _ ok at_g (.holdOff x _ stopped (by simp)))

theorem leaveManual {g : Nat} {x : Gate} (ok : P s) (at_g : s.gates[g]? = some x) : P (s.leaveManual g x) := by
  unfold State.leaveManual
  split
  · rename_i state rests
    exact kept.arrive g (restState_eq rests) ok
  · exact kept.changeGate ok at_g (.toFault x _)

theorem keyChange (g : Nat) (asserted : Bool) (ok : P s) : P (s.keyChange g asserted) := by
  unfold State.keyChange
  split
  · exact ok
  · rename_i x at_g
    split
    · exact keep_cases _ (fun _ => ok) (fun _ => kept.changeGate ok at_g (.toManual x))
    · exact keep_ite _ ok (fun _ => kept.leaveManual ok at_g)

theorem gateLine (g own line : Nat) (f : State → State) (ok : P s) (h : P (f s)) : P (s.gateLine g own line f) := by
  unfold State.gateLine
  exact keep_ite _ ok (fun _ => kept.gateEvent g f ok h)

theorem deliverGate (g line : Nat) (asserted : Bool) (ok : P s) : P (s.deliverGate g line asserted) := by
  unfold State.deliverGate
  split
  · exact ok
  · rename_i x _
    dsimp only
    have up := kept.gateLine g x.cfg.upLine line (fun s => s.limitChange g .up asserted) ok (kept.limitChange g .up asserted ok)
    have down := kept.gateLine g x.cfg.downLine line (fun s => s.limitChange g .down asserted) up
      (kept.limitChange g .down asserted up)
    have beam := kept.gateLine g x.cfg.obstructionLine line (fun s => s.obstructionChange g asserted) down
      (kept.obstructionChange g asserted down)
    exact kept.gateLine g x.cfg.keyLine line (fun s => s.keyChange g asserted) beam (kept.keyChange g asserted beam)

theorem deliverGates (line : Nat) (asserted : Bool) (ok : P s) : P (s.deliverGates line asserted) :=
  keep_fold _ (fun _ g ok => kept.deliverGate g line asserted ok) _ ok

theorem travelTimeout (g : Nat) (ok : P s) : P (s.travelTimeout g) := by
  unfold State.travelTimeout
  split
  · exact ok
  · rename_i x at_g
    exact keep_ite _ ok (fun _ => kept.gateEvent g _ ok (kept.changeGate ok at_g (.toFault x _)))

theorem endPause {g : Nat} {x : Gate} (ok : P s) (at_g : s.gates[g]? = some x) (lowering : x.state = .lowering) :
    P (s.endPause g x) := by
  unfold State.endPause
  split
  · exact kept.arrive g (.inr rfl) ok
  · split
    · exact kept.changeGate ok at_g (.startStopped x (by simp [lowering]))
    · exact kept.changeGate ok at_g (.startLowering x (by simp [lowering]))

theorem reversalPauseEnd (g : Nat) (ok : P s) : P (s.reversalPauseEnd g) := by
  unfold State.reversalPauseEnd
  split
  · exact ok
  · rename_i x at_g
    exact keep_ite _ ok (fun h => kept.gateEvent g _ ok (kept.endPause ok at_g h.1))

theorem holdOffEnd (g : Nat) (ok : P s) : P (s.holdOffEnd g) := by
  unfold State.holdOffEnd
  split
  · exact ok
  · rename_i x at_g
    exact keep_ite _ ok (fun h => kept.gateEvent g _ ok (kept.changeGate ok at_g (.resume x h.1)))

theorem lampToggle (g : Nat) (ok : P s) : P (s.updGate g Gate.toggle) := by
  cases at_g : s.gates[g]? with
  | none =>
    have same : s.updGate g Gate.toggle = s := by
      simp [State.updGate, List.modify_eq_self (List.getElem?_eq_none_iff.1 at_g)]
    rwa [same]
  | some x => exact kept.move s g x _ ok at_g (.toggle x)

theorem retryRaise (g : Nat) (ok : P s) : P (s.retryRaise g) := by
  unfold State.retryRaise
  split
  · exact ok
  · rename_i x at_g
    exact keep_ite _ ok (fun h => kept.gateEvent g _ ok (kept.applyRaise ok at_g h.2))

theorem retryRaises (ok : P s) : P s.retryRaises := keep_fold _ (fun _ g ok => kept.retryRaise g ok) _ ok

/-! #### Slots, channels and the power controller -/

theorem withdrawMessage (m : Master) (body : List Byte) (ok : P s) : P (s.withdrawMessage m body).state := by
  unfold State.withdrawMessage
  dsimp only
  split
  · exact ok
  · split
    · exact ok
    · split
      · exact ok
      · exact kept.ended _ _ _ _ ok

theorem expireSlot (n : Nat) (ok : P s) : P (s.expireSlot n) := by
  unfold State.expireSlot
  split
  · exact ok
  · exact keep_ite _ ok (fun _ => kept.ended _ _ _ _ ok)

theorem formWeatherFrom (c : Nat) (y : Channel) (ok : P s) : P (s.formWeatherFrom c y) := by
  refine keep_fold _ (fun s k ok => ?_) _ ok
  split
  · exact keep_ite _ ok (fun _ => kept.weather s k ok)
  · exact ok

theorem publish (c : Nat) (x : Channel) (before : Quality) (ok : P s) : P (s.publish c x before) := by
  have formed := kept.formWeatherFrom c x (kept.still ok (effect_setChannel s c x))
  unfold State.publish
  exact keep_cases _ (fun _ => formed) (fun _ => kept.tellAll _ formed)

theorem submitObservation (m : Master) (body : List Byte) (ok : P s) : P (s.submitObservation m body).state := by
  unfold State.submitObservation
  dsimp only
  split
  · exact ok
  · split
    · exact ok
    · split
      · exact ok
      · split
        · exact ok
        · exact kept.publish _ _ _ ok

theorem expireHold (c : Nat) (ok : P s) : P (s.expireHold c) := by
  unfold State.expireHold
  split
  · exact ok
  · split
    · exact ok
    · exact keep_ite _ ok (fun _ => kept.publish _ _ _ ok)

theorem expireSilence (c : Nat) (ok : P s) : P (s.expireSilence c) := by
  unfold State.expireSilence
  split
  · exact ok
  · split
    · exact ok
    · exact keep_ite _ ok (fun _ => kept.publish _ _ _ ok)

theorem powerUpdate (ok : P s) : P s.powerUpdate := by
  have updated : P { s with power := s.power.update s.powerReadings s.now } :=
    kept.still ok (.silent (frame_update s s.powerReadings s.now) rfl)
  unfold State.powerUpdate
  exact kept.mode _ _ (keep_cases _ (fun _ => updated) (fun _ => kept.tellAll _ updated))

theorem endRound (ok : P s) : P s.endRound := by
  have fixed := kept.still (kept.powerUpdate ok) (effect_fixRound _)
  unfold State.endRound
  exact keep_ite _ fixed (fun _ => kept.retryRaises fixed)

theorem advanceRound (c : Nat) (ok : P s) : P (s.advanceRound c) := by
  have next : P { s with scan := { s.scan with converting := s.nextConverted (c + 1) } } :=
    kept.still ok (.silent (frame_round s _ _ _) rfl)
  unfold State.advanceRound
  exact keep_ite _ next (fun _ => kept.endRound next)

theorem conversionDone (c : Nat) (raws : List Raw) (ok : P s) : P (s.conversionDone c raws) := by
  unfold State.conversionDone
  split
  · exact ok
  · split
    · exact ok
    · exact keep_cases _ (fun _ => ok) (fun _ => kept.advanceRound c (kept.publish c _ _ ok))

/-! #### Paths -/

theorem tellPath (n : Nat) (old : Path) (ok : P s) : P (s.tellPath n old) := kept.still ok (effect_tellPath s n old)

theorem tellInput (n : Nat) (old : Path) (ok : P s) : P (s.tellInput n old) := kept.still ok (effect_tellInput s n old)

theorem updPath (n : Nat) (f : Path → Path) (ok : P s) : P (s.updPath n f) := kept.still ok (effect_updPath s n f)

theorem computePath (n : Nat) (ok : P s) : P (s.computePath n) := by
  unfold State.computePath
  split
  · exact ok
  · rename_i p _
    have computed := kept.updPath n (fun _ => p.period (s.readings p.cfg) s.hazard.period s.now) ok
    exact kept.tellInput n _ (kept.tellPath n _
      (keep_cases _ (fun _ => computed) (fun _ => kept.handOver n computed)))

theorem expirePeriod (ok : P s) : P s.expirePeriod := by
  have expired : P { s with hazard := { s.hazard with nextExpiry := s.hazard.nextExpiry + s.hazard.period } } :=
    kept.still ok (.silent (frame_period s _ _) rfl)
  unfold State.expirePeriod
  exact keep_ite _ expired (fun _ => keep_fold _ (fun _ n ok => kept.computePath n ok) _ expired)

theorem endFloor (n : Nat) (ok : P s) : P (s.endFloor n) := by
  unfold State.endFloor
  split
  · exact ok
  · exact keep_ite _ ok (fun _ => kept.handOver n (kept.updPath n _ ok))

theorem takeDetection (n : Nat) (kind : DetectionKind) (ok : P s) : P (s.takeDetection n kind) := by
  unfold State.takeDetection
  split
  · exact ok
  · exact keep_cases _ (fun _ => kept.updPath n _ ok) (fun _ => kept.handOver n (kept.updPath n _ ok))

theorem detection (n : Nat) (kind : DetectionKind) (ok : P s) : P (s.detection n kind) := by
  unfold State.detection
  split
  · exact ok
  · exact kept.tellPath n _ (kept.takeDetection n kind ok)

theorem deliverPaths (line : Nat) (asserted : Bool) (ok : P s) : P (s.deliverPaths line asserted) := by
  refine keep_fold _ (fun s n ok => ?_) _ ok
  split
  · exact keep_ite _ ok (fun _ => kept.detection n _ ok)
  · exact ok

theorem deliver (line : Nat) (asserted : Bool) (ok : P s) : P (s.deliver line asserted) := by
  unfold State.deliver
  exact keep_ite _ ok (fun _ => kept.deliverPaths line asserted (kept.deliverGates line asserted ok))

theorem reportDetection (m : Master) (body : List Byte) (ok : P s) : P (s.reportDetection m body).state := by
  unfold State.reportDetection
  split
  · exact ok
  · split
    · exact kept.detection _ _ ok
    · exact ok

theorem clearPath (m : Master) (body : List Byte) (ok : P s) : P (s.clearPath m body).state := by
  unfold State.clearPath
  split
  · exact ok
  · split
    · exact ok
    · split
      · exact ok
      · exact keep_cases _ (fun _ => ok) (fun _ => kept.tellPath _ _ (kept.handOver _ (kept.updPath _ _ ok)))

theorem setPathFloor (m : Master) (body : List Byte) (ok : P s) : P (s.setPathFloor m body).state := by
  unfold State.setPathFloor
  dsimp only
  split
  · exact ok
  · split
    · exact ok
    · split
      · exact ok
      · exact kept.tellPath _ _ (kept.handOver _ (kept.updPath _ _ ok))

theorem seedPath (m : Master) (body : List Byte) (ok : P s) : P (s.seedPath m body).state := by
  unfold State.seedPath
  dsimp only
  split
  · exact ok
  · split
    · exact ok
    · exact kept.tellInput _ _ (kept.tellPath _ _ (kept.handOver _ (kept.updPath _ _ ok)))

/-! #### The rows -/

/-- Rows that touch only what the road's invariants do not look at keep them. -/
theorem quietRow {c : Instr} {t : State} (ok : P s) (h : exec c s = .next t)
    (sub : inside (touched c ++ answerParts) quietParts = true := by rfl) : P t :=
  kept.rests.keep ok (exec_frame h) (apart_of_inside kept.quiet sub)

omit kept in
theorem timer {c : Instr} {t : State} {f : State → State} (ok : P s) (h : exec c s = .next t)
    (runs : exec c s = .next (s.whenRunning f)) (step : P (f s)) : P t := by
  rw [runs] at h
  cases h
  exact keep_whenRunning f ok (fun _ _ => step)

theorem command {c : Instr} {t : State} {m : Master} {d : Command} {applies : List Byte → Bool}
    {owner : List Byte → State → Answer} (ok : P s) (h : exec c s = .next t)
    (runs : exec c s = .next (s.execute m d applies owner)) (answer : ∀ body u, P u → P (owner body u).state) : P t := by
  rw [runs] at h
  cases h
  exact kept.rests.keep_execute m d applies owner ok (fun body u _ _ ok => answer body u ok)
    (apart_of_inside kept.quiet (by decide))

end RoadKept

/-- The rows that the road's invariants are to look at one by one. -/
def sideRow : Instr → Bool
  | .powerOn | .pinReset | .lowSupply | .resetEnd | .descriptionLoadEnd _ | .postMessage _ | .setPriorityMap _ | .setClock _
  | .setSignDisable _ | .setSignEnable _ | .transactionStart | .messageSent | .echoMismatch | .replyReceived _
  | .replyTimeout | .refreshDue _ | .probeDue _ | .lineRecovery | .reload _ => true
  | _ => false

/-- Every row but the side rows keeps the invariant. -/
theorem RoadKept.row {parts : List Part} {P : State → Prop} {B : Nat → State → Prop} (kept : RoadKept parts P B) {c : Instr}
    {s t : State} (plain : sideRow c = false) (ok : P s) (h : exec c s = .next t) : P t := by
  cases c
  case transferStart | transferEnd | unknownCommand | status | readSegment | readGate | readSign | readChannel | readPower
    | readPath | fetchNotice | setNoticeMask | resetPort | setAuthority | inputEdge | scanRoundStart =>
    exact kept.quietRow ok h
  case placeClaim m => exact kept.command ok h rfl (fun body _ ok => kept.placeClaim m body ok)
  case releaseClaim m => exact kept.command ok h rfl (fun body _ ok => kept.releaseClaim m body ok)
  case confirmSweep m => exact kept.command ok h rfl (fun body _ ok => kept.confirmSweep m body ok)
  case resetGate m => exact kept.command ok h rfl (fun body _ ok => kept.resetGate m body ok)
  case withdrawMessage m => exact kept.command ok h rfl (fun body _ ok => kept.withdrawMessage m body ok)
  case submitObservation m => exact kept.command ok h rfl (fun body _ ok => kept.submitObservation m body ok)
  case reportDetection m => exact kept.command ok h rfl (fun body _ ok => kept.reportDetection m body ok)
  case clearPath m => exact kept.command ok h rfl (fun body _ ok => kept.clearPath m body ok)
  case setPathFloor m => exact kept.command ok h rfl (fun body _ ok => kept.setPathFloor m body ok)
  case seedPath m => exact kept.command ok h rfl (fun body _ ok => kept.seedPath m body ok)
  case claimStart k j => exact timer ok h rfl (kept.startClaim k j ok)
  case claimExpiry k j => exact timer ok h rfl (kept.expireClaim k j ok)
  case confirmingExpiry k => exact timer ok h rfl (kept.expireConfirming k ok)
  case prewarnMinuteChange k => exact timer ok h rfl (kept.changeMinute k ok)
  case prewarnEnd k => exact timer ok h rfl (kept.endPrewarn k ok)
  case travelTimeout g => exact timer ok h rfl (kept.travelTimeout g ok)
  case reversalPauseEnd g => exact timer ok h rfl (kept.reversalPauseEnd g ok)
  case holdOffEnd g => exact timer ok h rfl (kept.holdOffEnd g ok)
  case lampToggle g => exact timer ok h rfl (kept.lampToggle g ok)
  case slotExpiry n => exact timer ok h rfl (kept.expireSlot n ok)
  case floorEnd n => exact timer ok h rfl (kept.endFloor n ok)
  case debounceExpiry l =>
    cases h
    split
    · exact ok
    · exact keep_ite _ ok (fun _ => kept.deliver _ _ (kept.still ok (effect_updLine _ _ _)))
  case channelConversionDone raws =>
    cases h
    split
    · exact ok
    · exact keep_ite _ ok (fun _ => kept.conversionDone _ raws ok)
  case holdAgeExpiry c =>
    cases h
    exact keep_ite _ ok (fun _ => kept.expireHold c ok)
  case silenceExpiry c =>
    cases h
    exact keep_ite _ ok (fun _ => kept.expireSilence c ok)
  case hazardPeriodExpiry =>
    cases h
    exact keep_ite _ ok (fun _ => kept.expirePeriod ok)
  all_goals exact absurd plain (by simp [sideRow])

end Sys2Proof.Proofs
end

