-- ==== Sys2Proof/Proofs/ClaimsAndLine.lean ====
section
/-! The rows that write every record, resets, loads and RELOAD, and the two invariants that the shared operations of
Laws/Moves.lean keep as they stand: one claim per segment and holder (R2), one transmit entry per sign (R83, R85). -/

namespace Sys2Proof.Proofs

open Sys2Proof.Machine Sys2Proof.Safety Sys2Proof.Laws

/-! ### Resets, loads and RELOAD -/

/-- A predicate kept by the rows that write every record. -/
structure StartKept (P : State → Prop) : Prop where
  held : ∀ (s : State) (cause : ResetCause), P (s.holdReset cause)
  restarted : ∀ (s : State) (cause : ResetCause), P (s.restart cause)
  loaded : ∀ (s : State) (image : List MemCell), s.loader.state = .loading → P s → P (s.endLoad (loadImage image))
  reloaded : ∀ s : State, (s.described = true → s.busy = false) → P s → P s.reloaded

def startRow : Instr → Bool
  | .powerOn | .pinReset | .lowSupply | .resetEnd | .descriptionLoadEnd _ | .reload _ => true
  | _ => false

theorem StartKept.row {parts : List Part} {P : State → Prop} (kept : StartKept P) (rests : RestsOn parts P) {c : Instr}
    {s t : State} (start : startRow c = true) (ok : P s) (h : exec c s = .next t)
    (away : apart parts answerParts = true := by rfl) : P t := by
  cases c
  case powerOn => cases h; exact kept.held s _
  case pinReset => cases h; exact kept.held s _
  case lowSupply => cases h; exact kept.held s _
  case resetEnd =>
    cases h
    split
    · exact ok
    · exact kept.restarted s _
  case descriptionLoadEnd image =>
    cases h
    exact keep_ite _ ok (fun loading => kept.loaded s image loading.2 ok)
  case reload m =>
    cases h
    refine rests.keep_execute m _ _ _ ok (fun _ u _ _ ok => ?_) away
    unfold State.reload
    split
    · exact ok
    · split
      · exact ok
      · split
        · exact ok
        · rename_i free
          exact kept.reloaded u (fun described => by simpa [described] using free) ok
  all_goals exact absurd start (by simp [startRow])

/-! ### The side rows -/

/-- The parts that the rows of slots, maps and signs write beside the road's. -/
def sideParts : List Part := [.display, .priority] ++ contentParts ++ exchangeParts ++ answerParts

namespace RoadKept

section
variable {parts : List Part} {P : State → Prop} {B : Nat → State → Prop} (kept : RoadKept parts P B)
  (away : apart parts exchangeParts = true) {s : State}
include kept away

theorem atLine {l : List Part} {K : List NoticeKind} {t : State} (ok : P s) (h : Effect l K s t)
    (sub : inside l exchangeParts = true := by rfl) : P t := kept.rests.keep_effect ok h (apart_of_inside away sub)

theorem endAck (x : InFlight) (lamp heater door : Bool) (ok : P s) : P (s.endAck x lamp heater door) := by
  unfold State.endAck
  dsimp only
  split
  · exact ok
  · rename_i y _
    have written := kept.atLine away (kept.atLine away ok (effect_updSign s x.entry.sign
      (fun z => z.acknowledge x lamp heater door s.now s.power.mode))) (effect_lowerErrors _)
    have told := kept.atLine away (keep_cases (x.op = .probe) (fun _ => written)
      (fun _ => kept.reportAck x.entry.sign written)) (effect_tellSign _ x.entry.sign y.state)
    have entered := kept.atLine away told (effect_enterAfterAck _ x.entry.sign x)
    exact keep_ite _ entered (fun _ => kept.atLine away entered (effect_settleDisabled _ _))

theorem replyReceived (bytes : List Byte) (ok : P s) : P (s.replyReceived bytes) := by
  have failed (x : InFlight) : P (s.failAttempt x) := kept.atLine away ok (effect_failAttempt s x)
  unfold State.replyReceived
  split
  · exact ok
  · split
    · exact ok
    · split
      · exact kept.endAck away _ _ _ _ ok
      · exact kept.atLine away ok (effect_refuseContent s _)
      · exact kept.atLine away (failed _) (effect_lowerErrors _)
      · exact failed _

end

variable {parts : List Part} {P : State → Prop} {B : Nat → State → Prop} (kept : RoadKept parts P B)
  (away : apart parts sideParts = true) {s : State}
include kept away

/-- Every row but resets, loads and RELOAD keeps an invariant of the road that looks at none of these parts. -/
theorem workRow {c : Instr} {t : State} (work : startRow c = false) (ok : P s) (h : exec c s = .next t) : P t := by
  have aside (sub : inside (touched c ++ answerParts) sideParts = true) : P t :=
    kept.rests.keep ok (exec_frame h) (apart_of_inside away sub)
  cases side : sideRow c
  · exact kept.row side ok h
  · cases c
    case replyReceived bytes => exact RoadKept.timer ok h rfl (kept.replyReceived (apart_of_inside away (by rfl)) bytes ok)
    case postMessage | setPriorityMap | setClock | setSignDisable | setSignEnable | transactionStart | messageSent
      | echoMismatch | replyTimeout | refreshDue | probeDue | lineRecovery => exact aside rfl
    all_goals simp [startRow, sideRow] at work side

theorem everyRow (starts : StartKept P) {c : Instr} {t : State} (ok : P s) (h : exec c s = .next t) : P t := by
  cases start : startRow c
  · exact kept.workRow away start ok h
  · exact starts.row kept.rests start ok h (apart_of_inside away (by rfl))

end RoadKept

/-! ### One claim per segment and holder -/

theorem claims_rests : RestsOn [.claims] ClaimsOk := fun s t same ok => by
  have claims : t.segs.claims = s.segs.claims := same .claims (by simp)
  simpa only [ClaimsOk, claims] using ok

theorem claims_road : RoadKept [.claims] ClaimsOk (fun _ => ClaimsOk) where
  rests := claims_rests
  notices := rfl
  reserve s := (moves_updateReserve s).claims
  test s k := (moves_testGates s k).claims
  move _ _ _ _ ok _ _ := ok
  start _ _ _ ok _ _ _ := ok
  quiet := rfl
  restsBut _ := claims_rests
  slot s k := (moves_formSegmentSlot s k).claims
  weather s k := (moves_formWeather s k).claims
  mode s silent := (moves_evaluateMode s silent).claims
  ended s n cause tell := (moves_endPosted s n cause tell).claims
  endedBut _ s n cause tell := (moves_endPosted s n cause tell).claims
  linkedBut _ s n link := (moves_linkSlot s n link).claims
  but _ _ := id
  claims _ _ _ ok _ one := one ok
  recompute k s := (moves_recompute s k).claims
  follow s k _ f ok _ _ := (moves_followUp (s.updSegment k f) k).claims ok

/-- A state without claims. -/
theorem claimsOk_nil {s : State} (h : s.segs.claims = []) : ClaimsOk s := by
  rw [ClaimsOk, h]
  exact .nil

theorem RoadKept.derivePaths {parts : List Part} {P : State → Prop} {B : Nat → State → Prop} (kept : RoadKept parts P B)
    {s : State} (paths : List PathConfig) (ok : P s) : P (s.derivePaths paths) := by
  refine keep_fold _ (fun s n ok => ?_) _ (kept.still ok (.silent (frame_paths s _) rfl))
  unfold State.takeTripLine
  split
  · exact ok
  · exact keep_ite _ ok (fun _ => kept.takeDetection n _ ok)

theorem deriveSegments_claims (s : State) (segments : List SegmentConfig) :
    (s.deriveSegments segments).segs.claims = [] :=
  foldl_keeps (fun s t : State => t.segs.claims = s.segs.claims) (fun _ => rfl) (fun a b => b.trans a) _
    (fun s k => (effect_handSegment s k).frame .claims (by decide)) _ _

/-- A load that gives a description ends with the part state, after the derivations of R184. -/
theorem keep_endDescribed {parts : List Part} {P : State → Prop} (rests : RestsOn parts P) {s : State} {d : Description}
    (state : PartState) (report : LoadReport)
    (ok : P ((((s.deriveMaps d).deriveGates d.gates).deriveSegments d.segments).derivePaths d.paths).deriveWeather)
    (away : apart parts [.loader] = true := by rfl) : P (s.endDescribed d state report) := by
  unfold State.endDescribed
  exact rests.keep ok (frame_loader _ _) away

theorem claims_starts : StartKept ClaimsOk where
  held _ _ := claimsOk_nil rfl
  restarted _ _ := claimsOk_nil rfl
  loaded s image _ _ := by
    unfold State.endLoad
    split
    · exact claimsOk_nil ((effect_updateReserve (s.dropCorridor _)).frame .claims (by decide))
    · rename_i d _
      have shut := claimsOk_nil (deriveSegments_claims ((s.deriveMaps d).deriveGates d.gates) d.segments)
      exact keep_endDescribed claims_rests _ _ (claims_rests.keep_effect (claims_road.derivePaths _ shut) (effect_deriveWeather _))
  reloaded _ _ _ := claimsOk_nil rfl

/-- Settles O8: every operation on the claims keeps the one claim of each pair (R3). -/
theorem claimsStayOnePerHolder : Obligations.ClaimsStayOnePerHolder :=
  step_keeps claims_rests (fun _ _ _ ok h => claims_road.everyRow rfl claims_starts ok h) (fun s ok => claims_rests.keep ok (tick_frame s))

/-! ### One transmit entry per sign -/

/-- The invariant of the sign line, as one of the state. -/
def TransmitOk (s : State) : Prop := LineOk s.line

theorem transmit_rests : RestsOn [.transmit] TransmitOk := fun s t same ok => by
  obtain ⟨entries, flight, -⟩ : t.line.entries = s.line.entries ∧ t.line.inFlight = s.line.inFlight ∧ _ :=
    same .transmit (by simp)
  exact ⟨by rw [entries]; exact ok.entries, by rw [entries, flight]; exact ok.flying⟩

theorem transmit_road : RoadKept [.transmit] TransmitOk (fun _ => TransmitOk) where
  rests := transmit_rests
  notices := rfl
  reserve s := (moves_updateReserve s).line
  test s k := (moves_testGates s k).line
  move _ _ _ _ ok _ _ := ok
  start _ _ _ ok _ _ _ := ok
  quiet := rfl
  restsBut _ := transmit_rests
  slot s k := (moves_formSegmentSlot s k).line
  weather s k := (moves_formWeather s k).line
  mode s silent := (moves_evaluateMode s silent).line
  ended s n cause tell := (moves_endPosted s n cause tell).line
  endedBut _ s n cause tell := (moves_endPosted s n cause tell).line
  linkedBut _ s n link := (moves_linkSlot s n link).line
  but _ _ := id
  claims _ _ _ ok _ _ := ok
  recompute k s := (moves_recompute s k).line
  follow s k _ f ok _ _ := (moves_followUp (s.updSegment k f) k).line ok

/-- The sign of every entry is another, so that an entry for sign k may join the list. -/
def NoEntry (s : State) (k : Nat) : Prop := ∀ e ∈ s.line.entries, e.sign ≠ k

theorem sending_iff {s : State} {x : InFlight} :
    s.sending = some x ↔ s.line.inFlight = some x ∧ x.exchange = .sending := by
  unfold State.sending
  cases s.line.inFlight with
  | none => simp
  | some y =>
    simp only [Option.ite_none_right_eq_some, Option.some.injEq]
    exact ⟨fun ⟨h, e⟩ => ⟨e, e ▸ h⟩, fun ⟨e, h⟩ => ⟨e ▸ h, e⟩⟩

theorem moves_testConfirming (s : State) (n k : Nat) : Moves s (s.testConfirming n k) := by
  unfold State.testConfirming
  split
  · split
    · exact moves_withSegmentNotice s k _ ((moves_updSegment s k _ (fun x => by simp)).trans (moves_followUp _ k))
    · exact .refl s
  · exact .refl s

theorem moves_handSegment (s : State) (k : Nat) : Moves s (s.handSegment k) := by
  unfold State.handSegment
  split
  · exact .refl s
  · exact ((moves_recordDemand s _ _).trans (moves_handLamps _ _ _)).trans (moves_formSegmentSlot _ _)

theorem awaiting_iff {s : State} {x : InFlight} {left : Nat} :
    s.awaiting = some (x, left) ↔ s.line.inFlight = some x ∧ x.exchange = .window left := by
  unfold State.awaiting
  cases s.line.inFlight with
  | none => simp
  | some y =>
    dsimp only
    split
    · rename_i now window
      simp only [Option.some.injEq, Prod.mk.injEq]
      exact ⟨fun ⟨same, left⟩ => ⟨same, by rw [← same, window, left]⟩,
        fun ⟨same, left⟩ => ⟨same, by simpa [same, left] using window.symm⟩⟩
    · rename_i other
      simp only [reduceCtorEq, Option.some.injEq, false_iff, not_and]
      exact fun same window => other left (same ▸ window)

namespace TransmitOk

variable {s : State} (ok : TransmitOk s)
include ok

theorem still {l : List Part} {K : List NoticeKind} {t : State} (h : Effect l K s t)
    (away : apart [.transmit] l = true := by rfl) : TransmitOk t := transmit_rests.keep_effect ok h away

theorem noEntry {x : InFlight} (flies : s.line.inFlight = some x) : NoEntry s x.entry.sign := ok.flying x flies

theorem moved {t : State} (h : Moves s t) : TransmitOk t := h.line ok

theorem ended : TransmitOk (s.setInFlight none) := ⟨ok.entries, by simp⟩

theorem newEntry {k : Nat} (r : EntryReason) (idle : s.line.inFlight = none) (new : NoEntry s k) :
    TransmitOk (s.newEntry k r) := lineOk_append ok _ _ new (by simp [idle])

theorem request (k : Nat) (r : EntryReason) : TransmitOk (s.request k r) := (moves_request s k r).line ok

/-- R85: a transaction goes on with another exchange or held request. -/
theorem goesOn {x y : InFlight} (flies : s.line.inFlight = some x) (same : y.entry = x.entry) :
    TransmitOk (s.setInFlight (some y)) := by
  refine ⟨ok.entries, fun z hz => ?_⟩
  obtain rfl : y = z := by simpa using hz
  rw [same]
  exact ok.flying x flies

theorem returnEntry {x : InFlight} (disabling : Bool) (flies : s.line.inFlight = some x) :
    TransmitOk (s.returnEntry x disabling) := by
  refine ⟨?_, by simp [State.returnEntry]⟩
  simp only [State.returnEntry, List.pairwise_append]
  refine ⟨ok.entries, List.pairwise_singleton _ _, fun a ha b hb => ?_⟩
  rw [List.mem_singleton] at hb
  subst hb
  exact ok.noEntry flies a ha

/-! #### SET SIGN -/

theorem forceBlank (k : Nat) : TransmitOk (s.forceBlank k) := by
  unfold State.forceBlank
  split
  · rename_i flying
    refine ⟨ok.entries, fun y hy => ?_⟩
    obtain ⟨x, hx, rfl⟩ := Option.map_eq_some_iff.1 (by simpa using hy)
    exact ok.flying x hx
  · rename_i idle
    split
    · exact lineOk_map ok _ (fun e => by split <;> rfl)
    · rename_i new
      exact lineOk_append ok _ _ (no_entry new) (inFlightFor_eq_false (Bool.eq_false_iff.2 idle))

theorem setSign (m : Master) (body : List Byte) : TransmitOk (s.setSign m body).state := by
  unfold State.setSign
  split
  · exact ok
  · split
    · exact ok
    · split
      · exact ok
      · unfold State.applySetSign
        split
        · split
          · exact ok
          · exact ok
        · split
          · exact keep_ite _ ok (fun _ => ((ok.still (effect_updSign s _ _)).still (effect_tellSign _ _ _)).request _ _)
          · exact keep_cases _ (fun _ => ok) (fun _ => (ok.forceBlank _).still (effect_updSign _ _ _))

/-! #### Transactions -/

theorem startTransaction : TransmitOk s.startTransaction := by
  unfold State.startTransaction
  split
  · exact ok
  · rename_i e _
    split
    · exact ok
    · rename_i x _
      refine ⟨ok.entries.filter _, fun y hy d hd => ?_⟩
      obtain rfl : s.openTransaction e x = y := by simpa using hy
      simpa [State.openTransaction] using (List.mem_filter.1 hd).2

theorem messageSent : TransmitOk s.messageSent := by
  unfold State.messageSent
  split
  · exact ok
  · rename_i x sending
    exact ok.goesOn (sending_iff.1 sending).1 rfl

theorem echoMismatch : TransmitOk s.echoMismatch := by
  unfold State.echoMismatch
  split
  · exact ok
  · rename_i x sending
    split
    · exact ok
    · rename_i y _
      have returned := ok.returnEntry (y.disabling x) (sending_iff.1 sending).1
      refine still (keep_ite _ returned (fun _ => returned.still (effect_updSign _ _ _))) (effect_raiseErrors _)

/-! #### The end of a transaction -/

theorem settleDisabled (k : Nat) : TransmitOk (s.settleDisabled k) := ok.still (effect_settleDisabled s k)

theorem lowerErrors : TransmitOk s.lowerErrors := ok.still (effect_lowerErrors s)

theorem enterAfterAck {x : InFlight} (mine : ∀ z, s.line.inFlight = some z → z.entry.sign = x.entry.sign) :
    TransmitOk (s.enterAfterAck x.entry.sign x) := by
  unfold State.enterAfterAck
  split
  · rename_i y z _ flies
    have new : NoEntry s x.entry.sign := mine z flies ▸ ok.noEntry flies
    dsimp only
    split
    · exact ok.ended
    · split
      · exact ok.ended.newEntry _ rfl new
      · split
        · exact ok.ended.newEntry _ rfl new
        · exact ok.ended.newEntry _ rfl new
        · exact ok.ended
  · exact ok

/-- R88: the report to the segment table leaves the transaction of the same sign in flight. -/
theorem reported (k : Nat) (probe : Prop) [Decidable probe] :
    TransmitOk (if probe then s else s.reportAck k) ∧ ∀ x z, s.line.inFlight = some x →
      (if probe then s else s.reportAck k).line.inFlight = some z → z.entry.sign = x.entry.sign := by
  split
  · exact ⟨ok, fun x z hx hz => by rw [hx] at hz; cases hz; rfl⟩
  · have moves : Moves s (s.reportAck k) := .fold _ (fun t j => moves_testConfirming t k j) _ s
    refine ⟨ok.moved moves, fun x z hx hz => ?_⟩
    have same := moves.flight
    rw [hx, hz] at same
    simpa using congrArg (fun w : Option InFlight => w.map (fun w => w.entry.sign)) same

theorem endAck {x : InFlight} (lamp heater door : Bool) (flies : s.line.inFlight = some x) :
    TransmitOk (s.endAck x lamp heater door) := by
  unfold State.endAck
  dsimp only
  split
  · exact ok
  · rename_i y _
    have written := (ok.still (effect_updSign s x.entry.sign
      (fun z => z.acknowledge x lamp heater door s.now s.power.mode))).lowerErrors
    have reported := written.reported x.entry.sign (x.op = .probe)
    have told := (reported.1.still (effect_tellSign _ x.entry.sign y.state)).enterAfterAck (x := x) (fun z hz => by
      rw [((effect_tellSign _ x.entry.sign y.state).frame .transmit (by decide)).2.1] at hz
      exact reported.2 x z flies hz)
    exact keep_ite _ told (fun _ => told.settleDisabled _)

theorem failUnreachable (k : Nat) (old : SignState) : TransmitOk (s.failUnreachable k old) :=
  ok.still (effect_failUnreachable s k old)

theorem thirdFailure {x : InFlight} (y : Sign) (flies : s.line.inFlight = some x) : TransmitOk (s.thirdFailure x y) := by
  unfold State.thirdFailure
  dsimp only
  split
  · exact ok.ended.settleDisabled _
  · split
    · exact (ok.ended.still (effect_updSign _ _ _)).newEntry _ rfl (ok.noEntry flies)
    · exact ok.ended.failUnreachable _ _

theorem failAttempt {x : InFlight} (flies : s.line.inFlight = some x) : TransmitOk (s.failAttempt x) := by
  unfold State.failAttempt
  dsimp only
  split
  · exact ok
  · split
    · exact ok.thirdFailure _ flies
    · exact (ok.still (effect_updSign s _ _)).returnEntry _ flies

theorem refuseContent {x : InFlight} (flies : s.line.inFlight = some x) : TransmitOk (s.refuseContent x) := by
  unfold State.refuseContent
  split
  · exact ok.goesOn flies rfl
  · exact ok.goesOn flies rfl
  · exact (ok.failAttempt flies).lowerErrors
  · exact ok

theorem replyReceived (bytes : List Byte) : TransmitOk (s.replyReceived bytes) := by
  unfold State.replyReceived
  split
  · exact ok
  · rename_i x left awaiting
    obtain ⟨flies, -⟩ := awaiting_iff.1 awaiting
    split
    · exact ok
    · split
      · exact ok.endAck _ _ _ flies
      · exact ok.refuseContent flies
      · exact (ok.failAttempt flies).lowerErrors
      · exact ok.failAttempt flies

theorem replyTimeout : TransmitOk s.replyTimeout := by
  unfold State.replyTimeout
  split
  · exact ok
  · rename_i x left awaiting
    exact keep_ite _ ok (fun _ => ok.failAttempt (awaiting_iff.1 awaiting).1)

/-! #### The timers of the line -/

theorem refreshArrives (k : Nat) : TransmitOk (s.refreshArrives k) := by
  unfold State.refreshArrives
  split
  · exact ok
  · exact keep_ite _ ok (fun _ => (ok.still (effect_updSign s _ _)).request _ _)

theorem probeArrives (k : Nat) : TransmitOk (s.probeArrives k) := by
  unfold State.probeArrives
  split
  · exact ok
  · exact keep_ite _ ok (fun _ => (ok.still (effect_updSign s _ _)).request _ _)

theorem eachRequest (r : EntryReason) : TransmitOk (s.eachSign (fun t k => t.request k r)) :=
  keep_fold (P := TransmitOk) (fun t k => t.request k r) (fun _ k (ok : TransmitOk _) => ok.request k r) _ ok

theorem recoverLine : TransmitOk s.recoverLine := by
  have up : TransmitOk { s with line := { s.line with errors := 0, state := .up, recovery := none } } :=
    ok.still (.silent (frame_lineState s _ _ _) rfl)
  exact (up.eachRequest .refresh).still (effect_tellAll _ _ .busState)

/-! #### Slots and maps -/

theorem postMessage (m : Master) (body : List Byte) : TransmitOk (s.postMessage m body).state := by
  unfold State.postMessage
  split
  · exact ok
  · split
    · exact ok
    · exact ok.moved (moves_writeSlot s _ _)

theorem setPriorityMap (m : Master) (body : List Byte) : TransmitOk (s.setPriorityMap m body).state := by
  unfold State.setPriorityMap
  split
  · exact ok
  · split
    · exact ok
    · exact (moves_reselect _).line ok

theorem setClock (m : Master) (body : List Byte) : TransmitOk (s.setClock m body).state := by
  unfold State.setClock
  split
  · exact ok
  · split
    · exact ok
    · exact keep_fold _ (fun t k (ok : TransmitOk t) => keep_ite _ ok (fun _ => ok.moved (moves_formSegmentSlot t k))) _
        (show TransmitOk _ from ok)

end TransmitOk

/-! #### The rows -/

/-- A line without entries and transaction. -/
theorem lineOk_empty {l : SignLine} (entries : l.entries = []) (idle : l.inFlight = none) : LineOk l :=
  ⟨by simp [entries], by simp [idle]⟩

theorem transmitOk_deriveSigns (s : State) (signs : List SignConfig) : TransmitOk (s.deriveSigns signs) :=
  TransmitOk.eachRequest (s := { s with
    line := { resetLine with signs := signs.map SignConfig.newRecord },
    store := { s.store with tops := List.replicate signs.length Top.blank } }) (lineOk_empty rfl rfl) .probe

theorem TransmitOk.deriveGates {s : State} (ok : TransmitOk s) (gates : List GateConfig) : TransmitOk (s.deriveGates gates) := by
  unfold State.deriveGates
  exact (moves_evaluateMode _ true).line ok

theorem TransmitOk.deriveSegments {s : State} (ok : TransmitOk s) (segments : List SegmentConfig) :
    TransmitOk (s.deriveSegments segments) :=
  keep_fold (P := TransmitOk) _ (fun t k ok => ok.moved (moves_handSegment t k)) _ ok

theorem TransmitOk.deriveWeather {s : State} (ok : TransmitOk s) : TransmitOk s.deriveWeather :=
  (keep_fold (P := TransmitOk) State.formWeather (fun t k ok => ok.moved (moves_formWeather t k)) _ ok).moved
    (moves_reselect _)

theorem transmit_starts : StartKept TransmitOk where
  held _ _ := lineOk_empty rfl rfl
  restarted _ _ := lineOk_empty rfl rfl
  loaded s image _ _ := by
    unfold State.endLoad
    split
    · exact (moves_updateReserve (s.dropCorridor _)).line (lineOk_empty rfl rfl)
    · rename_i d _
      have signs : TransmitOk (s.deriveMaps d) := transmitOk_deriveSigns _ d.signs
      have shut := (signs.deriveGates d.gates).deriveSegments d.segments
      exact keep_endDescribed transmit_rests _ _ (transmit_road.derivePaths _ shut).deriveWeather
  reloaded _ _ _ := lineOk_empty rfl rfl

theorem transmit_tick (s : State) (ok : TransmitOk s) : TransmitOk s.tick := by
  unfold State.tick State.tickDescribed
  refine keep_cases _ (fun _ => ⟨ok.entries, fun x hx => ?_⟩) (fun _ => ok)
  obtain ⟨y, hy, rfl⟩ := Option.map_eq_some_iff.1 hx
  exact ok.flying y hy

theorem transmit_row {c : Instr} {s t : State} (ok : TransmitOk s) (h : exec c s = .next t) : TransmitOk t := by
  have command (m : Master) (d : Command) (applies : List Byte → Bool) (owner : List Byte → State → Answer)
      (answer : ∀ body u, TransmitOk u → TransmitOk (owner body u).state) :
      exec c s = .next (s.execute m d applies owner) → TransmitOk t :=
    fun runs => transmit_road.command ok h runs answer
  cases start : startRow c
  · cases side : sideRow c
    · exact transmit_road.row side ok h
    · cases c
      case postMessage m => exact command m _ _ _ (fun body _ ok => ok.postMessage m body) rfl
      case setPriorityMap m => exact command m _ _ _ (fun body _ ok => ok.setPriorityMap m body) rfl
      case setClock m => exact command m _ _ _ (fun body _ ok => ok.setClock m body) rfl
      case setSignDisable m => exact command m _ _ _ (fun body _ ok => ok.setSign m body) rfl
      case setSignEnable m => exact command m _ _ _ (fun body _ ok => ok.setSign m body) rfl
      case transactionStart => exact RoadKept.timer ok h rfl (keep_ite _ ok (fun _ => ok.startTransaction))
      case messageSent => exact RoadKept.timer ok h rfl ok.messageSent
      case echoMismatch => exact RoadKept.timer ok h rfl ok.echoMismatch
      case replyReceived bytes => exact RoadKept.timer ok h rfl (ok.replyReceived bytes)
      case replyTimeout => exact RoadKept.timer ok h rfl ok.replyTimeout
      case refreshDue k => exact RoadKept.timer ok h rfl (ok.refreshArrives k)
      case probeDue k => exact RoadKept.timer ok h rfl (ok.probeArrives k)
      case lineRecovery =>
        refine RoadKept.timer (f := fun s => match s.line.recovery with
          | none => s
          | some t => if t ≤ s.now then s.recoverLine else s) ok h rfl ?_
        split
        · exact ok
        · exact keep_ite _ ok (fun _ => ok.recoverLine)
      all_goals simp [startRow, sideRow] at start side
  · exact transmit_starts.row transmit_rests start ok h

/-- Settles O9: entries join the list only for a sign that has none and is not in flight (R83, R85). -/
theorem transmitListStaysOnePerSign : Obligations.TransmitListStaysOnePerSign :=
  step_keeps transmit_rests (fun _ _ _ => transmit_row) transmit_tick

end Sys2Proof.Proofs
end

