-- ==== Sys2Proof/Proofs/GateRecords.lean ====
section
/-! Each gate record consistent with its state (R31): every change of a gate's record is a sound one. -/

namespace Sys2Proof.Proofs

open Sys2Proof.Machine Sys2Proof.Safety Sys2Proof.Laws

theorem gates_rests : RestsOn [.gates] GatesOk := fun s t same ok => by
  have gates : t.gates = s.gates := same .gates (by simp)
  rw [GatesOk, gates]
  exact ok

/-! ### Changes of a record -/

theorem gatesOk_upd {s : State} {g : Nat} {f : Gate → Gate} (ok : GatesOk s)
    (sound : ∀ x, s.gates[g]? = some x → GateOk x → GateOk (f x)) : GatesOk (s.updGate g f) := by
  intro y hy
  obtain ⟨j, hj⟩ := List.mem_iff_getElem?.1 hy
  rw [updGate_gates, List.getElem?_modify] at hj
  obtain ⟨x, hx, rfl⟩ := Option.map_eq_some_iff.1 hj
  have okx := ok x (List.mem_of_getElem? hx)
  split
  · rename_i here
    exact sound x (here ▸ hx) okx
  · exact okx

theorem gateOk_setLamp (x : Gate) (b : Bool) (ok : GateOk x) : GateOk (x.setLamp b) := by
  unfold Gate.setLamp
  split
  · exact ok
  · exact ⟨ok.sub, ok.pause, ok.pauseMost, ok.holdOff, ok.reason, ok.travel, ok.rest⟩

theorem gateOk_record (x : Gate) (d : Demand) (ok : GateOk x) : GateOk (x.record d) :=
  ⟨ok.sub, ok.pause, ok.pauseMost, ok.holdOff, ok.reason, ok.travel, ok.rest⟩

theorem gateOk_startRaising (x : Gate) (down : x.state = .down) (ok : GateOk x) : GateOk x.startRaising :=
  ⟨by simp [Gate.startRaising], by simp [Gate.startRaising], by simp [Gate.startRaising], by simp [Gate.startRaising],
    by simp [Gate.startRaising, gateOk_no_reason ok (by simp [down])], Nat.le_refl _, by simp [Gate.startRaising]⟩

theorem gates_handLamps {s : State} (l : List Nat) (b : Bool) (ok : GatesOk s) : GatesOk (s.handLamps l b) :=
  keep_fold _ (fun _ _ ok => gatesOk_upd ok (fun x _ => gateOk_setLamp x b)) l ok

theorem gates_recordDemand {s : State} (l : List Nat) (d : Demand) (ok : GatesOk s) : GatesOk (s.recordDemand l d) :=
  keep_fold _ (fun _ _ ok => gatesOk_upd ok (fun x _ => gateOk_record x d)) l ok

theorem gates_still {s t : State} {l : List Part} {K : List NoticeKind} (ok : GatesOk s) (h : Effect l K s t)
    (away : apart [.gates] l = true := by rfl) : GatesOk t := gates_rests.keep_effect ok h away

theorem gates_testGates {s : State} (k : Nat) (ok : GatesOk s) : GatesOk (s.testGates k) := by
  unfold State.testGates
  split
  · exact ok
  · split
    · exact keep_ite _ ok (fun _ => gates_still (gates_still ok (effect_updSegment s k _)) (effect_formSegmentSlot _ k))
    · exact gates_still ok (effect_updSegment s k _)
    · exact keep_ite _ ok (fun _ => gates_still
        (gates_recordDemand _ _ (gates_handLamps _ _ (gates_still ok (effect_updSegment s k _))))
        (effect_formSegmentSlot _ k))
    · exact ok

/-! ### The operations -/

theorem gates_arms : ArmKept [.gates] GatesOk where
  rests := gates_rests
  notices := rfl
  reserve s ok := gates_still ok (effect_updateReserve s)
  test _ k ok := gates_testGates k ok
  move _ _ x _ ok at_g move := gatesOk_upd ok (fun y hy => by
    rw [at_g] at hy
    cases hy
    exact move.sound)
  start _ _ x ok at_g down _ := gatesOk_upd ok (fun y hy => by
    rw [at_g] at hy
    cases hy
    exact gateOk_startRaising x down)

theorem gates_followUp {s : State} (k : Nat) (ok : GatesOk s) : GatesOk (s.followUp k) := by
  unfold State.followUp
  split
  · exact ok
  · rename_i x _
    have lamps := gates_handLamps x.cfg.gates x.wantedLamps ok
    refine gates_still (keep_cases _ (fun _ => lamps) (fun _ => ?_)) (effect_formSegmentSlot _ k)
    exact gates_testGates _ (keep_fold _ (fun _ g ok => gates_arms.applyRecorded g ok) _
      (gates_recordDemand _ _ (gates_still lamps (effect_updSegment _ k _))))

theorem gates_road : RoadKept [.gates] GatesOk (fun _ => GatesOk) where
  toArmKept := gates_arms
  quiet := rfl
  restsBut _ := gates_rests
  slot s k ok := gates_still ok (effect_formSegmentSlot s k)
  weather s k ok := gates_still ok (effect_formWeather s k)
  mode s silent ok := gates_still ok (effect_evaluateMode s silent)
  ended s n cause tell ok := gates_still ok (effect_endPosted s n cause tell)
  endedBut _ s n cause tell ok := gates_still ok (effect_endPosted s n cause tell)
  linkedBut _ s n link ok := gates_still ok (effect_linkSlot s n link)
  but _ _ := id
  claims _ _ _ ok _ _ := ok
  recompute k s ok := by
    refine gates_arms.withSegmentNotice k _ (gates_followUp k ?_)
    unfold State.stepSegment
    split
    · exact ok
    · exact gates_still ok (effect_updSegment s k _)
  follow s k _ f ok _ _ := gates_followUp k (gates_still ok (effect_updSegment s k f))

/-! ### The rows -/

theorem gatesOk_nil {s : State} (h : s.gates = []) : GatesOk s := by
  rw [GatesOk, h]
  exact List.forall_mem_nil _

theorem gateOk_new (s : State) (c : GateConfig) : GateOk (s.newGate c) := by
  have reason : (s.newGate c).reason.isSome = true ↔ (s.newGate c).state = .fault := by
    simp only [State.newGate, derivedGate]
    split
    · simp
    · split <;> simp
  have resting : (s.newGate c).state ≠ .lowering := by
    simp only [State.newGate, derivedGate]
    split
    · simp
    · split <;> simp
  exact ⟨by simpa [State.newGate] using resting, by simp [State.newGate], by simp [State.newGate], by simp [State.newGate], reason,
    Nat.zero_le _, fun _ => rfl⟩

theorem gates_deriveGates (s : State) (gates : List GateConfig) : GatesOk (s.deriveGates gates) := by
  unfold State.deriveGates
  refine gates_still (s := { s with gates := _, power := _ }) (fun x hx => ?_) (effect_evaluateMode _ true)
  obtain ⟨c, -, rfl⟩ := List.mem_map.1 hx
  exact gateOk_new s c

theorem gates_handSegment {s : State} (k : Nat) (ok : GatesOk s) : GatesOk (s.handSegment k) := by
  unfold State.handSegment
  split
  · exact ok
  · exact gates_still (gates_handLamps _ _ (gates_recordDemand _ _ ok)) (effect_formSegmentSlot _ k)

theorem gates_starts : StartKept GatesOk where
  held _ _ := gatesOk_nil rfl
  restarted _ _ := gatesOk_nil rfl
  loaded s image _ _ := by
    unfold State.endLoad
    split
    · exact gatesOk_nil ((effect_updateReserve (s.dropCorridor _)).frame .gates (by decide))
    · rename_i d _
      have shut : GatesOk (((s.deriveMaps d).deriveGates d.gates).deriveSegments d.segments) :=
        keep_fold (P := GatesOk) _ (fun _ k ok => gates_handSegment k ok) _ (gates_deriveGates _ d.gates)
      exact keep_endDescribed gates_rests _ _ (gates_still (gates_road.derivePaths _ shut) (effect_deriveWeather _))
  reloaded s _ ok x hx := by
    obtain ⟨y, hy, rfl⟩ := List.mem_map.1 hx
    exact gateOk_setLamp y false (ok y hy)

/-- A timer counted down stays within its bound. -/
theorem gateOk_tenth (x : Gate) (ok : GateOk x) : GateOk x.tenth := by
  have less {n m : Nat} {o : Option Nat} (most : ∀ n, o = some n → n ≤ m) (h : o.map (· - 1) = some n) : n ≤ m := by
    obtain ⟨k, hk, rfl⟩ := Option.map_eq_some_iff.1 h
    exact (Nat.sub_le _ _).trans (most k hk)
  refine ⟨ok.sub, ?_, ?_, ?_, ok.reason, ?_, ?_⟩
  · simp only [Gate.tenth]
    split
    · simpa using ok.pause
    · exact ok.pause
  · simp only [Gate.tenth]
    split
    · exact fun n => less ok.pauseMost
    · exact ok.pauseMost
  · simp only [Gate.tenth]
    split
    · exact fun n h => ⟨‹_›, less (fun n hn => (ok.holdOff n hn).2) h⟩
    · exact ok.holdOff
  · simp only [Gate.tenth]
    split
    · exact (Nat.sub_le _ _).trans ok.travel
    · exact ok.travel
  · intro rest
    simp [Gate.tenth, ok.rest rest]

theorem gateOk_lampMilli (x : Gate) (ok : GateOk x) : GateOk x.lampMilli := by
  unfold Gate.lampMilli
  split
  · exact ⟨ok.sub, ok.pause, ok.pauseMost, ok.holdOff, ok.reason, ok.travel, ok.rest⟩
  · exact ok

theorem gates_tick (s : State) (ok : GatesOk s) : GatesOk s.tick := by
  unfold State.tick State.tickDescribed
  refine keep_cases _ (fun _ x hx => ?_) (fun _ => ok)
  obtain ⟨y, hy, rfl⟩ := List.mem_map.1 hx
  have lamp := gateOk_lampMilli y (ok y hy)
  split
  · exact gateOk_tenth _ lamp
  · exact lamp

/-- Settles O10: every change of a gate's record is a move that keeps it sound. -/
theorem gateRecordsStayConsistent : Obligations.GateRecordsStayConsistent :=
  step_keeps gates_rests (fun _ _ _ ok h => gates_road.everyRow rfl gates_starts ok h) gates_tick

end Sys2Proof.Proofs
end

