-- ==== Sys2Proof/Proofs/SegmentRecords.lean ====
section
/-! Each segment record consistent with its state (R1, R11 to R19). The state rule leaves a record sound but for its demand
(`SegmentSound`), which the follow-up then hands over (R19). -/

namespace Sys2Proof.Proofs

open Sys2Proof.Machine Sys2Proof.Safety Sys2Proof.Laws

theorem records_rests : RestsOn [.records] SegmentsOk := fun s t same ok => by
  have records : t.segs.records = s.segs.records := same .records (by simp)
  rw [SegmentsOk, records]
  exact ok

/-! ### The state rule -/

/-- What a segment's record says beside its level: the fields that its state and phase call for. -/
structure SegmentCore (x : Segment) : Prop where
  phase : x.phase.isSome = true ↔ x.state = .closing
  secured : x.secured = true → x.state = .closed
  swept : x.swept = true → x.state = .reopening
  confirming : x.confirmDue.isSome = true ↔ x.phase = some .confirming
  remaining : x.remaining ≤ x.cfg.interval
  counting : x.remaining ≠ 0 → x.phase = some .confirming ∨ x.phase = some .prewarn

theorem segmentOk_core {x : Segment} (ok : SegmentOk x) : SegmentCore x :=
  ⟨ok.phase, ok.secured, ok.swept, ok.confirming, ok.remaining, ok.counting⟩

namespace SegmentCore

variable {x : Segment} (core : SegmentCore x)
include core

theorem derive (claims : List Claim) : SegmentCore (x.derive claims) :=
  ⟨core.phase, core.secured, core.swept, core.confirming, core.remaining, core.counting⟩

/-- A segment that is not CLOSING has no phase, and nothing is counted down. -/
theorem resting (h : x.state ≠ .closing) : x.phase = none ∧ x.confirmDue = none ∧ x.remaining = 0 := by
  have phase : x.phase = none := by
    rw [← Option.not_isSome_iff_eq_none]
    exact fun some => h (core.phase.1 some)
  refine ⟨phase, ?_, ?_⟩
  · rw [← Option.not_isSome_iff_eq_none]
    exact fun some => by simpa [phase] using core.confirming.1 some
  · by_contra left
    simpa [phase] using core.counting left

theorem not_secured (h : x.state ≠ .closed) : x.secured = false := by
  rw [← Bool.not_eq_true]
  exact fun secured => h (core.secured secured)

theorem not_swept (h : x.state ≠ .reopening) : x.swept = false := by
  rw [← Bool.not_eq_true]
  exact fun swept => h (core.swept swept)

/-- A record whose level agrees with its state is sound but for its demand. -/
theorem sound (opened : x.state = .opened → x.level = .noLevel ∨ x.level = .advise)
    (restricted : x.state = .restricted → x.level = .chains)
    (shut : x.state = .closing ∨ x.state = .closed → x.level = .close)
    (reopening : x.state = .reopening → x.level ≠ .close) : SegmentSound x :=
  ⟨core.phase, opened, restricted, shut, reopening, core.secured, core.swept, core.confirming, core.remaining, core.counting, rfl⟩

end SegmentCore

theorem openState_opened {l : Level} (h : l ≠ .close) : openState l = .opened → l = .noLevel ∨ l = .advise := by
  cases l <;> simp_all [openState]

theorem openState_restricted {l : Level} : openState l = .restricted → l = .chains := by
  cases l <;> simp [openState]

theorem openState_cases (l : Level) : openState l = .opened ∨ openState l = .restricted := by
  cases l <;> simp [openState]

theorem toOpen_sound {x : Segment} (core : SegmentCore x) (closed : x.state ≠ .closed) (reopening : x.state ≠ .reopening)
    (level : x.level ≠ .close) (now : Nat) : SegmentSound (x.toOpen now) := by
  have secured := core.not_secured closed
  have swept := core.not_swept reopening
  have state : (x.toOpen now).state = openState x.level ∧ (x.toOpen now).level = x.level ∧ (x.toOpen now).phase = none ∧
      (x.toOpen now).remaining = 0 ∧ (x.toOpen now).confirmDue = none ∧ (x.toOpen now).secured = false ∧
      (x.toOpen now).swept = false := by
    unfold Segment.toOpen
    split
    · exact ⟨‹_›, rfl, rfl, rfl, rfl, secured, swept⟩
    · exact ⟨rfl, rfl, rfl, rfl, rfl, secured, rfl⟩
  obtain ⟨state, sameLevel, phase, remaining, due, secured, swept⟩ := state
  have opened := openState_cases x.level
  refine SegmentCore.sound ⟨?_, by simp [secured], by simp [swept], by simp [due, phase], by simp [remaining],
    by simp [remaining]⟩ ?_ ?_ ?_ ?_
  · simp only [phase, state]
    rcases opened with e | e <;> simp [e]
  · rw [state, sameLevel]; exact openState_opened level
  · rw [state, sameLevel]; exact openState_restricted
  · rw [state]; rcases opened with e | e <;> simp [e]
  · rw [state]; rcases opened with e | e <;> simp [e]

theorem toReopening_sound {x : Segment} (level : x.level ≠ .close) (now : Nat) : SegmentSound (x.toReopening now) :=
  SegmentCore.sound ⟨by simp [Segment.toReopening], by simp [Segment.toReopening], by simp [Segment.toReopening],
    by simp [Segment.toReopening], by simp [Segment.toReopening], by simp [Segment.toReopening]⟩ (by simp [Segment.toReopening])
    (by simp [Segment.toReopening]) (by simp [Segment.toReopening]) (fun _ => level)

theorem toLowering_sound {x : Segment} (closing : x.state = .closing) (secured : x.secured = false) (swept : x.swept = false)
    (level : x.level = .close) : SegmentSound x.toLowering :=
  SegmentCore.sound ⟨by simp [Segment.toLowering, closing], by simp [Segment.toLowering, secured],
    by simp [Segment.toLowering, swept], by simp [Segment.toLowering], Nat.zero_le _, by simp [Segment.toLowering]⟩
    (by simp [Segment.toLowering, closing]) (by simp [Segment.toLowering, closing]) (fun _ => level)
    (by simp [Segment.toLowering, closing])

theorem toClosing_sound {x : Segment} (secured : x.secured = false) (swept : x.swept = false) (level : x.level = .close)
    (now : Nat) (confirmed : Bool) : SegmentSound (x.toClosing now confirmed) := by
  unfold Segment.toClosing Segment.toPrewarn
  dsimp only
  split
  · split
    · rename_i none
      exact SegmentCore.sound ⟨by simp, by simp [secured], by simp [swept], by simp, by simp [none], by simp [none]⟩ (by simp)
        (by simp) (fun _ => level) (by simp)
    · exact SegmentCore.sound ⟨by simp, by simp [secured], by simp [swept], by simp, Nat.le_refl _, by simp⟩ (by simp)
        (by simp) (fun _ => level) (by simp)
  · exact SegmentCore.sound ⟨by simp, by simp [secured], by simp [swept], by simp, Nat.le_refl _, by simp⟩ (by simp)
      (by simp) (fun _ => level) (by simp)

/-- R11, R14, R15, R17, R18: the state rule leaves the record sound but for its demand. -/
theorem step_sound {x : Segment} (core : SegmentCore x) (now : Nat) (confirmed : Bool) :
    SegmentSound (x.step now confirmed) := by
  have stays (state : x.state = .closing ∨ x.state = .closed ∨ x.state = .reopening)
      (level : x.level = .close ↔ x.state ≠ .reopening) : SegmentSound x := by
    refine core.sound ?_ ?_ (fun shut => level.2 ?_) (fun h => fun close => level.1 close h) <;>
      (rcases state with h | h | h <;> simp_all)
  have open_ (state : x.state = .opened ∨ x.state = .restricted) : SegmentSound
      (if x.level = .close then
        (if x.urgent then { x.toClosingLowering now with unwarned := false } else x.toClosing now confirmed)
      else x.toOpen now) := by
    have secured := core.not_secured (by rcases state with h | h <;> simp [h])
    have swept := core.not_swept (by rcases state with h | h <;> simp [h])
    split
    · split
      · exact toLowering_sound (x := { x with state := .closing, since := now, swept := false, unwarned := false }) rfl secured
          rfl ‹_›
      · exact toClosing_sound secured swept ‹_› now confirmed
    · exact toOpen_sound core (by rcases state with h | h <;> simp [h]) (by rcases state with h | h <;> simp [h]) ‹_› now
  unfold Segment.step
  split
  · exact open_ (.inl ‹_›)
  · exact open_ (.inr ‹_›)
  · rename_i closing
    split
    · split
      · exact stays (.inl closing) (by simp [*])
      · exact toReopening_sound ‹_› now
    · split
      · split
        · exact toLowering_sound closing (core.not_secured (by simp [closing])) (core.not_swept (by simp [closing])) ‹_›
        · exact stays (.inl closing) (by simp [*])
      · exact toOpen_sound core (by simp [closing]) (by simp [closing]) ‹_› now
  · rename_i closed
    split
    · exact stays (.inr (.inl closed)) (by simp [*])
    · exact toReopening_sound ‹_› now
  · rename_i reopening
    split
    · exact toLowering_sound (x := { x with state := .closing, since := now, swept := false }) rfl
        (core.not_secured (by simp [reopening])) rfl ‹_›
    · exact stays (.inr (.inr reopening)) (by simp [*])

/-! ### Changes of a record -/

/-- Every record is sound, but that of segment k may have a demand yet to be handed over. -/
def SoundBut (k : Nat) (s : State) : Prop :=
  ∀ j x, s.segs.records[j]? = some x → (j ≠ k → SegmentOk x) ∧ (j = k → SegmentSound x)

theorem segmentOk_sound {x : Segment} (ok : SegmentOk x) : SegmentSound x :=
  (segmentOk_core ok).sound ok.opened ok.restricted ok.shut ok.reopening

theorem soundBut_upd {s : State} {k : Nat} {f : Segment → Segment} (ok : SegmentsOk s)
    (sound : ∀ x, s.segs.records[k]? = some x → SegmentOk x → SegmentSound (f x)) : SoundBut k (s.updSegment k f) := by
  intro j y hy
  rw [updSegment_records, List.getElem?_modify] at hy
  obtain ⟨x, hx, rfl⟩ := Option.map_eq_some_iff.1 hy
  have okx := ok x (List.mem_of_getElem? hx)
  refine ⟨fun other => ?_, fun here => ?_⟩
  · rw [if_neg (Ne.symm other)]
    exact okx
  · rw [if_pos here.symm]
    exact sound x (here ▸ hx) okx

/-- R19: with the demand its standing calls for, the record is sound. -/
theorem SoundBut.demanded {s : State} {k : Nat} {f : Segment → Segment} (ok : SoundBut k s)
    (demand : ∀ x, s.segs.records[k]? = some x → f x = { x with demand := x.wantedDemand }) :
    SegmentsOk (s.updSegment k f) := by
  intro y hy
  obtain ⟨j, hj⟩ := List.mem_iff_getElem?.1 hy
  rw [updSegment_records, List.getElem?_modify] at hj
  obtain ⟨x, hx, rfl⟩ := Option.map_eq_some_iff.1 hj
  obtain ⟨others, mine⟩ := ok j x hx
  split
  · rename_i here
    rw [demand x (here ▸ hx)]
    exact mine here.symm
  · rename_i other
    exact others (Ne.symm other)

theorem segmentsOk_upd {s : State} {k : Nat} {f : Segment → Segment} (ok : SegmentsOk s)
    (sound : ∀ x, s.segs.records[k]? = some x → SegmentOk x → SegmentOk (f x)) : SegmentsOk (s.updSegment k f) := by
  intro y hy
  obtain ⟨j, hj⟩ := List.mem_iff_getElem?.1 hy
  rw [updSegment_records, List.getElem?_modify] at hj
  obtain ⟨x, hx, rfl⟩ := Option.map_eq_some_iff.1 hj
  have okx := ok x (List.mem_of_getElem? hx)
  split
  · rename_i here
    exact sound x (here ▸ hx) okx
  · exact okx

theorem records_still {s t : State} {l : List Part} {K : List NoticeKind} (ok : SegmentsOk s) (h : Effect l K s t)
    (away : apart [.records] l = true := by rfl) : SegmentsOk t := records_rests.keep_effect ok h away

/-- R16: a segment whose phase LOWERING ends is CLOSED and keeps demand LOWER. -/
theorem segmentOk_close {x : Segment} (ok : SegmentOk x) (closing : x.state = .closing) (lowering : x.phase = some .lowering)
    (now : Nat) (secured : Bool) : SegmentOk { x with
      state := .closed, phase := none, since := now, remaining := 0, confirmDue := none, secured := secured } := by
  have demand : x.demand = .lower := by rw [ok.demand]; simp [Segment.wantedDemand, closing, lowering]
  have swept := (segmentOk_core ok).not_swept (by simp [closing])
  exact ⟨by simp, by simp, by simp, fun _ => ok.shut (.inl closing), by simp, fun _ => rfl, by simp [swept], by simp, Nat.zero_le _,
    by simp, by simp [demand, Segment.wantedDemand]⟩

/-- R18: a completed reopening leaves the segment OPEN or RESTRICTED by its level, with demand NONE. -/
theorem segmentOk_open {x : Segment} (ok : SegmentOk x) (reopening : x.state = .reopening) (now : Nat) :
    SegmentOk { x with state := openState x.level, since := now, swept := false, demand := .noDemand } := by
  obtain ⟨phase, due, remaining⟩ := (segmentOk_core ok).resting (by simp [reopening])
  have secured := (segmentOk_core ok).not_secured (by simp [reopening])
  have opened := openState_cases x.level
  refine ⟨?_, openState_opened (ok.reopening reopening), openState_restricted, ?_, ?_, by simp [secured], by simp,
    by simp [due, phase], by simp [remaining], by simp [remaining], ?_⟩
  · simp only [phase]; rcases opened with e | e <;> simp [e]
  · dsimp only; rcases opened with e | e <;> simp [e]
  · dsimp only; rcases opened with e | e <;> simp [e]
  · simp only [Segment.wantedDemand]; rcases opened with e | e <;> simp [e]

theorem records_testGates {s : State} (k : Nat) (ok : SegmentsOk s) : SegmentsOk (s.testGates k) := by
  unfold State.testGates
  split
  · exact ok
  · rename_i x at_k
    have upd {f : Segment → Segment} (sound : SegmentOk x → SegmentOk (f x)) : SegmentsOk (s.updSegment k f) :=
      segmentsOk_upd ok (fun y hy => by
        rw [at_k] at hy
        cases hy
        exact sound)
    split
    · rename_i closing
      exact keep_ite _ ok (fun h => records_still (upd (fun okx => segmentOk_close okx closing h.1 _ _))
        (effect_formSegmentSlot _ k))
    · rename_i closed
      refine upd (fun okx => ⟨okx.phase, okx.opened, okx.restricted, okx.shut, okx.reopening, fun _ => closed, okx.swept,
        okx.confirming, okx.remaining, okx.counting, okx.demand⟩)
    · rename_i reopening
      exact keep_ite _ ok (fun _ => records_still (records_still (records_still (upd (fun okx => segmentOk_open okx reopening _))
        (effect_handLamps _ _ _)) (effect_recordDemand _ _ _)) (effect_formSegmentSlot _ k))
    · exact ok

/-! ### The operations -/

theorem records_arms : ArmKept [.records] SegmentsOk where
  rests := records_rests
  notices := rfl
  reserve s ok := records_still ok (effect_updateReserve s)
  test _ k ok := records_testGates k ok
  move _ _ _ _ ok _ _ := ok
  start _ _ _ ok _ _ _ := ok

theorem records_followUp {s : State} {k : Nat} (ok : SoundBut k s) : SegmentsOk (s.followUp k) := by
  unfold State.followUp
  split
  · rename_i none
    intro x hx
    obtain ⟨j, hj⟩ := List.mem_iff_getElem?.1 hx
    exact (ok j x hj).1 (fun here => by rw [here, none] at hj; cases hj)
  · rename_i x at_k
    have same : (s.handLamps x.cfg.gates x.wantedLamps).segs.records = s.segs.records :=
      (effect_handLamps s _ _).frame .records (by decide)
    have lamps : SoundBut k (s.handLamps x.cfg.gates x.wantedLamps) := by
      rw [SoundBut, same]
      exact ok
    refine records_still (keep_cases _ (fun agrees => ?_) (fun _ => ?_)) (effect_formSegmentSlot _ k)
    · have kept : (s.handLamps x.cfg.gates x.wantedLamps).updSegment k id = s.handLamps x.cfg.gates x.wantedLamps := by
        simp [State.updSegment, List.modify_id]
      rw [← kept]
      refine lamps.demanded (fun y hy => ?_)
      rw [same, at_k] at hy
      cases hy
      rw [← agrees]
      rfl
    · refine records_testGates _ (keep_fold _ (fun _ g ok => records_arms.applyRecorded g ok) _
        (records_still (lamps.demanded (fun y hy => ?_)) (effect_recordDemand _ _ _)))
      rw [same, at_k] at hy
      cases hy
      rfl

theorem records_road : RoadKept [.records] SegmentsOk (fun _ => SegmentsOk) where
  toArmKept := records_arms
  quiet := rfl
  restsBut _ := records_rests
  slot s k ok := records_still ok (effect_formSegmentSlot s k)
  weather s k ok := records_still ok (effect_formWeather s k)
  mode s silent ok := records_still ok (effect_evaluateMode s silent)
  ended s n cause tell ok := records_still ok (effect_endPosted s n cause tell)
  endedBut _ s n cause tell ok := records_still ok (effect_endPosted s n cause tell)
  linkedBut _ s n link ok := records_still ok (effect_linkSlot s n link)
  but _ _ := id
  claims _ _ _ ok _ _ := ok
  recompute k s ok := by
    refine records_arms.withSegmentNotice k _ (records_followUp ?_)
    unfold State.stepSegment
    split
    · exact fun j x hx => have okx := ok x (List.mem_of_getElem? hx); ⟨fun _ => okx, fun _ => segmentOk_sound okx⟩
    · exact soundBut_upd ok (fun x _ okx => step_sound ((segmentOk_core okx).derive _) _ _)
  follow s k x f ok at_k move := by
    refine records_followUp (soundBut_upd ok (fun y hy => ?_))
    rw [at_k] at hy
    cases hy
    exact move.sound

/-! ### The rows -/

theorem segmentsOk_nil {s : State} (h : s.segs.records = []) : SegmentsOk s := by
  rw [SegmentsOk, h]
  exact List.forall_mem_nil _

theorem segmentOk_new (s : State) (c : SegmentConfig) : SegmentOk (s.newSegment c) := by
  unfold State.newSegment
  dsimp only
  split
  · exact ⟨by simp, by simp, by simp, by simp, by simp, by simp, by simp, by simp, Nat.zero_le _, by simp, rfl⟩
  · exact ⟨by simp, by simp, by simp, by simp, by simp, by simp, by simp, by simp, Nat.zero_le _, by simp, rfl⟩

theorem records_deriveSegments (s : State) (segments : List SegmentConfig) : SegmentsOk (s.deriveSegments segments) := by
  refine keep_fold (P := SegmentsOk) _ (fun t k ok => records_still ok (effect_handSegment t k)) _ (fun x hx => ?_)
  obtain ⟨c, -, rfl⟩ := List.mem_map.1 hx
  exact segmentOk_new s c

theorem records_starts : StartKept SegmentsOk where
  held _ _ := segmentsOk_nil rfl
  restarted _ _ := segmentsOk_nil rfl
  loaded s image _ _ := by
    unfold State.endLoad
    split
    · exact segmentsOk_nil ((effect_updateReserve (s.dropCorridor _)).frame .records (by decide))
    · rename_i d _
      have shut := records_deriveSegments ((s.deriveMaps d).deriveGates d.gates) d.segments
      exact keep_endDescribed records_rests _ _ (records_still (records_road.derivePaths _ shut) (effect_deriveWeather _))
  reloaded _ _ _ := segmentsOk_nil rfl

theorem segmentOk_second (x : Segment) (ok : SegmentOk x) : SegmentOk x.second := by
  unfold Segment.second
  split
  · rename_i counting
    exact ⟨ok.phase, ok.opened, ok.restricted, ok.shut, ok.reopening, ok.secured, ok.swept, ok.confirming,
      (Nat.sub_le _ _).trans ok.remaining, fun _ => .inr counting.2, ok.demand⟩
  · exact ok

theorem records_tick (s : State) (ok : SegmentsOk s) : SegmentsOk s.tick := by
  unfold State.tick State.tickDescribed
  refine keep_cases _ (fun _ => ?_) (fun _ => ok)
  intro x hx
  dsimp only at hx
  split at hx
  · obtain ⟨y, hy, rfl⟩ := List.mem_map.1 hx
    exact segmentOk_second y (ok y hy)
  · exact ok x hx

/-- Settles O11: the state rule, the tests on the gates and the timers leave each record sound (R11 to R19). -/
theorem segmentRecordsStayConsistent : Obligations.SegmentRecordsStayConsistent :=
  step_keeps records_rests (fun _ _ _ ok h => records_road.everyRow rfl records_starts ok h) records_tick

end Sys2Proof.Proofs
end

