-- ==== Sys2Proof/Proofs/SegmentLevels.lean ====
section
/-! The level, urgency and deciding claim of every segment are those of its claims (R7, R8). They change with the claims
alone, and a change of the claims of a segment is followed by its recomputation. -/

namespace Sys2Proof.Proofs

open Sys2Proof.Machine Sys2Proof.Safety Sys2Proof.Laws

/-! ### Claims and links -/

/-- A change of the claims that keeps what level, urgency and decision look at. -/
structure SameWeight (f : Claim → Claim) : Prop where
  counted : ∀ c, (f c).counted = c.counted
  presses : ∀ c, (f c).presses = c.presses
  holder : ∀ c, (f c).holder = c.holder
  segment : ∀ c, (f c).segment = c.segment

namespace SameWeight

variable {f : Claim → Claim} (same : SameWeight f)
include same

theorem level (l : List Claim) : effectiveLevel (l.map f) = effectiveLevel l := by
  simp [effectiveLevel, List.foldr_map, same.counted]

theorem urgent (l : List Claim) : urgentClaims (l.map f) = urgentClaims l := by
  simp only [urgentClaims, List.any_map]
  congr 1
  exact funext same.presses

theorem deciding (l : List Claim) : (decidingClaim (l.map f)).map (·.holder) = (decidingClaim l).map (·.holder) := by
  simp only [decidingClaim, same.level, List.find?_map, Option.map_map, Function.comp_def, same.counted, same.holder]

theorem claimsOf (s : State) (k : Nat) : (s.setClaims (s.segs.claims.map f)).claimsOf k = (s.claimsOf k).map f := by
  simp only [State.claimsOf, setClaims_claims, List.filter_map, Function.comp_def, same.segment]

end SameWeight

/-- The segment follows its claims as it did, where both weigh the same. -/
theorem follows_of_same {s t : State} {k : Nat} {x y : Segment} (ok : FollowsClaims s k x) (claims : t.claimsOf k = s.claimsOf k)
    (level : y.level = x.level) (urgent : y.urgent = x.urgent) (deciding : y.deciding = x.deciding) : FollowsClaims t k y := by
  rw [FollowsClaims, claims, level, urgent, deciding]
  exact ok

/-! ### The levels but those of one segment -/

/-- Every segment but k follows its claims. -/
def LevelsBut (k : Nat) (s : State) : Prop := ∀ j x, j ≠ k → s.segs.records[j]? = some x → FollowsClaims s j x

theorem levels_rests : RestsOn [.records, .claims] LevelsOk := fun s t same ok k x at_k => by
  have records : t.segs.records = s.segs.records := same .records (by simp)
  have claims : t.segs.claims = s.segs.claims := same .claims (by simp)
  rw [records] at at_k
  exact follows_of_same (ok k x at_k) (by rw [State.claimsOf, claims]; rfl) rfl rfl rfl

theorem levelsBut_rests (k : Nat) : RestsOn [.records, .claims] (LevelsBut k) := fun s t same ok j x other at_j => by
  have records : t.segs.records = s.segs.records := same .records (by simp)
  have claims : t.segs.claims = s.segs.claims := same .claims (by simp)
  rw [records] at at_j
  exact follows_of_same (ok j x other at_j) (by rw [State.claimsOf, claims]; rfl) rfl rfl rfl

theorem levels_still {s t : State} {l : List Part} {K : List NoticeKind} (ok : LevelsOk s) (h : Effect l K s t)
    (away : apart [.records, .claims] l = true := by rfl) : LevelsOk t := levels_rests.keep_effect ok h away

theorem levels_upd {s : State} {k : Nat} {f : Segment → Segment} (ok : LevelsOk s)
    (kept : ∀ x, s.segs.records[k]? = some x →
      (f x).level = x.level ∧ (f x).urgent = x.urgent ∧ (f x).deciding = x.deciding) : LevelsOk (s.updSegment k f) := by
  intro j y hy
  rw [updSegment_records, List.getElem?_modify] at hy
  obtain ⟨x, hx, rfl⟩ := Option.map_eq_some_iff.1 hy
  split
  · rename_i here
    obtain ⟨level, urgent, deciding⟩ := kept x (here ▸ hx)
    exact follows_of_same (ok j x hx) rfl level urgent deciding
  · exact ok j x hx

/-- R8 step 1: the record of segment k follows its claims again. -/
theorem LevelsBut.derived {s : State} {k : Nat} {f : Segment → Segment} (ok : LevelsBut k s)
    (derived : ∀ x, FollowsClaims s k (f x)) : LevelsOk (s.updSegment k f) := by
  intro j y hy
  rw [updSegment_records, List.getElem?_modify] at hy
  obtain ⟨x, hx, rfl⟩ := Option.map_eq_some_iff.1 hy
  split
  · rename_i here
    subst here
    exact derived x
  · rename_i other
    exact ok j x (Ne.symm other) hx

/-- R67: a posted slot that ends takes the link from its claim and leaves what the claim weighs. -/
theorem sameWeight_unlink (k : Nat) (m : Master) :
    SameWeight (fun c => if c.isOf k (.master m) then { c with link := none } else c) where
  counted c := by split <;> rfl
  presses c := by split <;> rfl
  holder c := by split <;> rfl
  segment c := by split <;> rfl

theorem follows_unlink {s : State} {j : Nat} {x : Segment} (k : Nat) (m : Master) (ok : FollowsClaims s j x) :
    FollowsClaims (s.unlinkClaim k m) j x := by
  have same := sameWeight_unlink k m
  obtain ⟨level, urgent, deciding⟩ := ok
  rw [FollowsClaims, State.unlinkClaim, same.claimsOf, same.level, same.urgent, same.deciding]
  exact ⟨level, urgent, deciding⟩

theorem keep_endPosted {parts : List Part} {P : State → Prop} (rests : RestsOn parts P) {s : State} (n : Nat)
    (cause : SlotEndCause) (tell : Bool) (ok : P s) (unlink : ∀ s k m, P s → P (s.unlinkClaim k m))
    (away : apart parts (contentParts ++ noticeParts) = true := by rfl) : P (s.endPosted n cause tell) := by
  unfold State.endPosted
  split
  · exact ok
  · split
    · rename_i c p _ _
      dsimp only
      have unlinked : P (match p.link with | some k => s.unlinkClaim k p.owner | none => s) := by
        split
        · exact unlink _ _ _ ok
        · exact ok
      have written := rests.keep_effect unlinked (effect_writeSlot _ n (fun y => { y with content := none, posted := none }))
        (apart_of_inside away rfl)
      exact keep_ite _ written (fun _ => rests.keep_effect written (effect_tell _ _ _ .slotEnded) (apart_of_inside away rfl))
    · exact ok

/-! ### The operations -/

theorem levels_testGates {s : State} (k : Nat) (ok : LevelsOk s) : LevelsOk (s.testGates k) := by
  unfold State.testGates
  split
  · exact ok
  · split
    · refine keep_ite _ ok (fun _ => levels_still ?_ (effect_formSegmentSlot _ k))
      exact levels_upd ok (fun _ _ => ⟨rfl, rfl, rfl⟩)
    · exact levels_upd ok (fun _ _ => ⟨rfl, rfl, rfl⟩)
    · refine keep_ite _ ok (fun _ => levels_still (levels_still (levels_still ?_ (effect_handLamps _ _ _))
        (effect_recordDemand _ _ _)) (effect_formSegmentSlot _ k))
      exact levels_upd ok (fun _ _ => ⟨rfl, rfl, rfl⟩)
    · exact ok

theorem levels_arms : ArmKept [.records, .claims] LevelsOk where
  rests := levels_rests
  notices := rfl
  reserve s ok := levels_still ok (effect_updateReserve s)
  test _ k ok := levels_testGates k ok
  move s g _ f ok _ _ := levels_still ok (effect_updGate s g f)
  start s g _ ok _ _ _ := levels_still ok (effect_updGate s g _)

theorem levels_followUp {s : State} (k : Nat) (ok : LevelsOk s) : LevelsOk (s.followUp k) := by
  unfold State.followUp
  split
  · exact ok
  · rename_i x _
    have lamps := levels_still ok (effect_handLamps s x.cfg.gates x.wantedLamps)
    refine levels_still (keep_cases _ (fun _ => lamps) (fun _ => ?_)) (effect_formSegmentSlot _ k)
    refine levels_testGates _ (keep_fold _ (fun _ g ok => levels_arms.applyRecorded g ok) _
      (levels_still ?_ (effect_recordDemand _ _ _)))
    exact levels_upd lamps (fun _ _ => ⟨rfl, rfl, rfl⟩)

theorem step_levels (x : Segment) (now : Nat) (b : Bool) :
    (x.step now b).level = x.level ∧ (x.step now b).urgent = x.urgent ∧ (x.step now b).deciding = x.deciding := by
  have opens : (x.toOpen now).level = x.level ∧ (x.toOpen now).urgent = x.urgent ∧ (x.toOpen now).deciding = x.deciding := by
    unfold Segment.toOpen
    split <;> exact ⟨rfl, rfl, rfl⟩
  have closes : (x.toClosing now b).level = x.level ∧ (x.toClosing now b).urgent = x.urgent ∧
      (x.toClosing now b).deciding = x.deciding := by
    unfold Segment.toClosing Segment.toPrewarn
    dsimp only
    repeat' split
    all_goals exact ⟨rfl, rfl, rfl⟩
  unfold Segment.step
  repeat' split
  all_goals first
    | exact opens
    | exact closes
    | exact ⟨rfl, rfl, rfl⟩

theorem levels_road : RoadKept [.records, .claims] LevelsOk LevelsBut where
  toArmKept := levels_arms
  quiet := rfl
  restsBut := levelsBut_rests
  slot s k ok := levels_still ok (effect_formSegmentSlot s k)
  weather s k ok := levels_still ok (effect_formWeather s k)
  mode s silent ok := levels_still ok (effect_evaluateMode s silent)
  ended _ n cause tell ok := keep_endPosted levels_rests n cause tell ok
    (fun _ k m ok j x at_j => follows_unlink k m (ok j x at_j))
  endedBut k _ n cause tell ok := keep_endPosted (levelsBut_rests k) n cause tell ok
    (fun _ k m ok j x other at_j => follows_unlink k m (ok j x other at_j))
  linkedBut k s n link ok := (levelsBut_rests k).keep_effect ok (effect_linkSlot s n link)
  but _ _ ok j x _ at_j := ok j x at_j
  claims _ _ _ ok same _ j x other at_j := follows_of_same (ok j x other at_j) (same j other) rfl rfl rfl
  recompute k s ok := by
    refine levels_arms.withSegmentNotice k _ (levels_followUp k ?_)
    unfold State.stepSegment
    split
    · rename_i none
      exact fun j x at_j => ok j x (fun here => by rw [here, none] at at_j; cases at_j) at_j
    · refine ok.derived (fun x => ?_)
      obtain ⟨level, urgent, deciding⟩ := step_levels (x.derive (s.claimsOf k)) s.now
        ((s.updSegment k (fun y => { y with state := .closing })).entryConfirmed k (Segment.cfg _).approach)
      exact ⟨level, urgent, deciding⟩
  follow s k x f ok at_k move := levels_followUp k (levels_upd ok (fun y hy => by
    rw [at_k] at hy
    cases hy
    exact ⟨move.level, move.urgent, move.deciding⟩))

/-! ### The rows -/

theorem levelsOk_nil {s : State} (h : s.segs.records = []) : LevelsOk s := fun k x at_k => by
  simp [h] at at_k

theorem follows_new {s : State} {k : Nat} {x : Segment} (nothing : s.segs.claims = []) (level : x.level = .noLevel)
    (urgent : x.urgent = false) (deciding : x.deciding = none) : FollowsClaims s k x := by
  rw [FollowsClaims, level, urgent, deciding, State.claimsOf, nothing]
  exact ⟨rfl, rfl, rfl⟩

theorem levels_deriveSegments (s : State) (segments : List SegmentConfig) : LevelsOk (s.deriveSegments segments) := by
  refine keep_fold (P := LevelsOk) _ (fun t k ok => levels_still ok (effect_handSegment t k)) _ (fun k x hx => ?_)
  obtain ⟨c, -, rfl⟩ := List.mem_map.1 (List.mem_of_getElem? hx)
  exact follows_new rfl rfl rfl rfl

theorem levels_starts : StartKept LevelsOk where
  held _ _ := levelsOk_nil rfl
  restarted _ _ := levelsOk_nil rfl
  loaded s image _ _ := by
    unfold State.endLoad
    split
    · exact levelsOk_nil ((effect_updateReserve (s.dropCorridor _)).frame .records (by decide))
    · rename_i d _
      have shut := levels_deriveSegments ((s.deriveMaps d).deriveGates d.gates) d.segments
      exact keep_endDescribed levels_rests _ _ (levels_still (levels_road.derivePaths _ shut) (effect_deriveWeather _))
  reloaded _ _ _ := levelsOk_nil rfl

theorem levels_tick (s : State) (ok : LevelsOk s) : LevelsOk s.tick := by
  have second (x : Segment) : x.second.level = x.level ∧ x.second.urgent = x.urgent ∧ x.second.deciding = x.deciding := by
    unfold Segment.second
    split <;> exact ⟨rfl, rfl, rfl⟩
  unfold State.tick State.tickDescribed
  refine keep_cases _ (fun _ => ?_) (fun _ => ok)
  intro k x hx
  dsimp only at hx
  split at hx
  · rw [List.getElem?_map] at hx
    obtain ⟨y, hy, rfl⟩ := Option.map_eq_some_iff.1 hx
    obtain ⟨level, urgent, deciding⟩ := second y
    exact follows_of_same (ok k y hy) rfl level urgent deciding
  · exact ok k x hx

/-- Settles O12: a change of the claims of a segment is followed by its recomputation, and nothing else moves its level. -/
theorem levelsFollowTheClaims : Obligations.LevelsFollowTheClaims :=
  step_keeps levels_rests (fun _ _ _ ok h => levels_road.everyRow rfl levels_starts ok h) levels_tick

end Sys2Proof.Proofs
end

