-- ==== Sys2Proof/Proofs/Descriptions.lean ====
section
/-! What the checks of a load (R180, R181) leave of a description that ends in READY or DEGRADED. -/

namespace Sys2Proof.Proofs

open Sys2Proof.Machine Sys2Proof.Safety Sys2Proof.Laws

/-- R180, R181: a description as the loader hands it over: gates and segments name each other, no gate stands in two gate
lists, and the paths lie within their ranges. -/
structure Checked (d : Description) : Prop where
  gates : gatesOk d.segments d.gates = true
  lists : distinct (d.segments.flatMap (·.gates)) = true
  paths : ∀ p ∈ d.paths, ∃ r, p = parsePath r ∧ pathRangeOk r = true

theorem test_bytes {o : Optional} {ok : List Byte → Bool} {b : List Byte} (h : (o.test ok).bytes = some b) : ok b = true := by
  unfold Optional.test at h
  split at h
  · split at h
    · rename_i taken fine
      rw [taken] at h
      cases h
      exact fine
    · cases h
  · rename_i none
    rw [none] at h
    cases h

theorem faultyGroup_none {q : Required} (h : q.faultyGroup = none) :
    segmentsOk q.header q.signConfigs q.segments = true ∧ gatesOk q.segmentConfigs q.gates = true := by
  unfold Required.faultyGroup at h
  repeat' split at h
  all_goals simp_all

theorem checked_finish {q : Required} {paths authority priority power : Optional} {d : Description}
    (fine : q.faultyGroup = none) (ranges : ∀ b, paths.bytes = some b → pathsRangeOk q.header.paths b = true)
    (h : (q.finish paths authority priority power).description = some d) : Checked d := by
  obtain ⟨segments, gates⟩ := faultyGroup_none fine
  cases h
  refine ⟨gates, ?_, fun p hp => ?_⟩
  · have one : distinct (q.segments.flatMap (fun r => (parseSegment r).gates)) = true := by
      simp only [segmentsOk, Bool.and_eq_true] at segments
      exact segments.2
    simpa [Required.segmentConfigs, List.flatMap_map] using one
  · cases read : paths.bytes with
    | none => simp [read] at hp
    | some b =>
      have range := ranges b read
      simp only [pathsRangeOk, Bool.and_eq_true, List.all_eq_true] at range
      simp only [read, Option.map_some, Option.getD_some, List.mem_map] at hp
      obtain ⟨r, hr, rfl⟩ := hp
      exact ⟨r, rfl, range.2 r hr⟩

theorem checked_check {q : Required} {image : List MemCell} {pos : Nat} {d : Description}
    (h : (q.check image pos).description = some d) : Checked d := by
  unfold Required.check at h
  dsimp only at h
  split at h
  · cases h
  · split at h
    · exact checked_finish ‹_› (fun b hb => test_bytes hb) h
    · cases h

theorem checked_loadImage {image : List MemCell} {d : Description} (h : (loadImage image).description = some d) :
    Checked d := by
  unfold loadImage loadGroups at h
  repeat' split at h
  all_goals first
    | cases h
    | exact checked_check h

theorem nodup_of_distinct {l : List Nat} (h : distinct l = true) : l.Nodup := by
  induction l with
  | nil => exact .nil
  | cons a rest ih =>
    simp only [distinct, Bool.and_eq_true, Bool.not_eq_true', List.contains_eq_mem, decide_eq_false_iff_not] at h
    exact List.nodup_cons.2 ⟨h.1, ih h.2⟩

namespace Checked

variable {d : Description} (ok : Checked d)
include ok

/-- R180: a gate stands in the list of the segment it names. -/
theorem home {g : Nat} {c : GateConfig} (at_g : d.gates[g]? = some c) :
    ∃ y, d.segments[c.segment]? = some y ∧ g ∈ y.gates := by
  have each := ok.gates
  simp only [gatesOk, Bool.and_eq_true, List.all_eq_true] at each
  have here := each.1 (c, g) (by rw [List.mem_zipIdx_iff_getElem?]; exact at_g)
  simp only [gateOk, Bool.and_eq_true] at here
  cases at_k : d.segments[c.segment]? with
  | none => simp [at_k] at here
  | some y => exact ⟨y, rfl, by simpa [at_k] using here.1.1.1.1.1⟩

/-- R180: no gate stands in the lists of two segments. -/
theorem same_list {g j k : Nat} {y z : SegmentConfig} (at_j : d.segments[j]? = some y) (at_k : d.segments[k]? = some z)
    (inY : g ∈ y.gates) (inZ : g ∈ z.gates) : j = k := by
  obtain ⟨-, apart⟩ := List.nodup_flatMap.1 (nodup_of_distinct ok.lists)
  rw [List.pairwise_iff_getElem] at apart
  obtain ⟨hj, rfl⟩ := List.getElem?_eq_some_iff.1 at_j
  obtain ⟨hk, rfl⟩ := List.getElem?_eq_some_iff.1 at_k
  rcases lt_trichotomy j k with before | same | after
  · exact absurd inZ (apart j k hj hk before inY)
  · exact same
  · exact absurd inY (apart k j hk hj after inZ)

/-- R180: a gate stands in no list but that of the segment it names. -/
theorem segment_of_listed {g k : Nat} {c : GateConfig} {y : SegmentConfig} (at_g : d.gates[g]? = some c)
    (at_k : d.segments[k]? = some y) (listed : g ∈ y.gates) : c.segment = k := by
  obtain ⟨z, at_z, own⟩ := ok.home at_g
  exact ok.same_list at_z at_k own listed

end Checked

end Sys2Proof.Proofs
end

