-- ==== Sys2Proof/Proofs/RaisedArms.lean ====
section
/-! A gate rises only behind a confirmed sweep (R39). Beside what RoadOk says, the proof follows a demand LOWER through the
gate list of its segment: until a gate has applied it, the gate may still be RAISING (`RoadWith`). -/

namespace Sys2Proof.Proofs

open Sys2Proof.Machine Sys2Proof.Safety Sys2Proof.Laws

/-! ### Rows without a described corridor -/

/-- The parts that a row may change while no corridor is described, beside what a channel's result moves; resets, loads and
RELOAD left out (R167, R182). -/
def bareParts : List Part :=
  [.channels, .inputs, .round, .period, .parameters, .charge, .account, .mode, .queued, .done, .notices, .masks, .overrun,
    .overflow, .transfers]

theorem execute_bare {s : State} {m : Master} {c : Command} {applies : List Byte → Bool}
    {owner : List Byte → State → Answer} (any : c.anyState = false) (bare : s.described = false) :
    Frame answerParts s (s.execute m c applies owner) := by
  refine execute_keeps (P := Frame answerParts s) m c applies owner (Moves.frame_refl _ s) (fun _ r rest x _ => ⟨?_, ?_⟩)
  · exact Moves.frame_trans (Moves.frame_mono (by decide) (takeQueued_frame s m rest))
      (Moves.frame_mono (by decide) (finish_frame _ m x))
  · simp [any, bare]

theorem whenRunning_bare {s : State} (f : State → State) (bare : s.described = false) : s.whenRunning f = s := by
  simp [State.whenRunning, bare]

theorem bare_of_frame {l : List Part} {s t : State} (h : Frame l s t) (bare : s.described = false)
    (away : Part.loader ∉ l := by decide) : t.described = false := by
  have same : t.loader = s.loader := h .loader away
  simp only [State.described] at bare ⊢
  rw [same]
  exact bare

theorem frame_expirePeriod_bare {s : State} (bare : s.described = false) : Frame [.period] s s.expirePeriod := by
  unfold State.expirePeriod
  dsimp only
  rw [if_neg (by simp [bare])]
  exact frame_period s _ _

/-- The rows without a described corridor, given what the results of the channels move. -/
theorem frame_bare_of {l : List Part} {c : Instr} {s t : State} (work : startRow c = false) (bare : s.described = false)
    (h : exec c s = .next t) (sub : inside bareParts l = true)
    (publish : ∀ c x q, Frame l s (s.publish c x q)) (convert : ∀ c raws, Frame l s (s.conversionDone c raws)) :
    Frame l s t := by
  have widen {t : State} {k : List Part} (f : Frame k s t) (part : inside k bareParts = true := by rfl) : Frame l s t :=
    Moves.frame_mono (mem_of_inside sub) (Moves.frame_mono (mem_of_inside part) f)
  have within (part : inside (touched c ++ answerParts) bareParts = true) : Frame l s t := widen (exec_frame h) part
  have refused (m : Master) (d : Command) (applies : List Byte → Bool) (owner : List Byte → State → Answer)
      (any : d.anyState = false) : exec c s = .next (s.execute m d applies owner) → Frame l s t := fun runs => by
    rw [runs] at h
    cases h
    exact widen (execute_bare any bare)
  have unmoved (f : State → State) : exec c s = .next (s.whenRunning f) → Frame l s t := fun runs => by
    rw [runs, whenRunning_bare f bare] at h
    cases h
    exact Moves.frame_refl _ s
  cases c
  case transferStart | transferEnd | unknownCommand | status | fetchNotice | setNoticeMask | resetPort | readSegment | readGate
    | readSign | readChannel | readPower | readPath | inputEdge | scanRoundStart => exact within rfl
  case placeClaim m | releaseClaim m | confirmSweep m | setAuthority m | resetGate m | postMessage m | withdrawMessage m
    | setPriorityMap m | setClock m | setSignDisable m | setSignEnable m | submitObservation m | reportDetection m
    | clearPath m | setPathFloor m | seedPath m => exact refused m _ _ _ rfl rfl
  case claimStart k j => exact unmoved (fun s => s.startClaim k j) rfl
  case claimExpiry k j => exact unmoved (fun s => s.expireClaim k j) rfl
  case confirmingExpiry k => exact unmoved (fun s => s.expireConfirming k) rfl
  case prewarnMinuteChange k => exact unmoved (fun s => s.changeMinute k) rfl
  case prewarnEnd k => exact unmoved (fun s => s.endPrewarn k) rfl
  case travelTimeout g => exact unmoved (fun s => s.travelTimeout g) rfl
  case reversalPauseEnd g => exact unmoved (fun s => s.reversalPauseEnd g) rfl
  case holdOffEnd g => exact unmoved (fun s => s.holdOffEnd g) rfl
  case lampToggle g => exact unmoved (fun s => s.updGate g Gate.toggle) rfl
  case slotExpiry n => exact unmoved (fun s => s.expireSlot n) rfl
  case transactionStart => exact unmoved (fun s => if s.line.idle then s.startTransaction else s) rfl
  case messageSent => exact unmoved State.messageSent rfl
  case echoMismatch => exact unmoved State.echoMismatch rfl
  case replyReceived bytes => exact unmoved (fun s => s.replyReceived bytes) rfl
  case replyTimeout => exact unmoved State.replyTimeout rfl
  case refreshDue k => exact unmoved (fun s => s.refreshArrives k) rfl
  case probeDue k => exact unmoved (fun s => s.probeArrives k) rfl
  case lineRecovery => exact unmoved _ rfl
  case floorEnd n => exact unmoved (fun s => s.endFloor n) rfl
  case debounceExpiry l =>
    cases h
    split
    · exact Moves.frame_refl _ s
    · refine frame_ite _ ?_
      unfold State.deliver
      rw [if_neg (by rw [show (s.updLine l InputLine.settle).described = s.described from rfl, bare]; simp)]
      exact widen (effect_updLine s l _).frame
  case holdAgeExpiry c =>
    cases h
    refine frame_ite _ ?_
    unfold State.expireHold
    split
    · exact Moves.frame_refl _ s
    · split
      · exact Moves.frame_refl _ s
      · exact frame_ite _ (publish _ _ _)
  case silenceExpiry c =>
    cases h
    refine frame_ite _ ?_
    unfold State.expireSilence
    split
    · exact Moves.frame_refl _ s
    · split
      · exact Moves.frame_refl _ s
      · exact frame_ite _ (publish _ _ _)
  case channelConversionDone raws =>
    cases h
    split
    · exact Moves.frame_refl _ s
    · exact frame_ite _ (convert _ raws)
  case hazardPeriodExpiry =>
    cases h
    exact frame_ite _ (widen (frame_expirePeriod_bare bare))
  all_goals simp [startRow] at work

/-- The round goes on, or ends with an update of the power controller. -/
theorem frame_advanceRound_bare {l : List Part} {s u : State} (c : Nat) (bare : s.described = false)
    (sub : inside bareParts l = true) (loader : Part.loader ∉ l) (so_far : Frame l s u)
    (mode : ∀ v, Frame l s v → Frame l v (v.evaluateMode false)) : Frame l s (u.advanceRound c) := by
  have widen {s t : State} {k : List Part} (f : Frame k s t) (part : inside k bareParts = true := by rfl) : Frame l s t :=
    Moves.frame_mono (mem_of_inside sub) (Moves.frame_mono (mem_of_inside part) f)
  have updated (v : State) (h : Frame l s v) : Frame l s v.powerUpdate := by
    have power := Moves.frame_trans h (widen (frame_update v v.powerReadings v.now))
    have told : Frame l s (if (v.power.update v.powerReadings v.now).charge = v.power.charge then
        { v with power := v.power.update v.powerReadings v.now }
        else ({ v with power := v.power.update v.powerReadings v.now } : State).tellAll
          (({ v with power := v.power.update v.powerReadings v.now } : State).chargeNotice v.powerReadings)) := by
      split
      · exact power
      · exact Moves.frame_trans power (widen (effect_tellAll _ _ .chargeState).frame)
    exact Moves.frame_trans told (mode _ told)
  have next := Moves.frame_trans so_far (widen (frame_round u (u.nextConverted (c + 1)) u.scan.roundStart u.scan.nextRound))
  unfold State.advanceRound
  dsimp only
  split
  · have fixed := Moves.frame_trans (updated _ next) (widen (effect_fixRound _).frame)
    unfold State.endRound
    dsimp only
    rw [if_neg (by simpa using bare_of_frame fixed bare loader)]
    exact fixed
  · exact next

theorem frame_conversionDone_bare {l : List Part} {s : State} (c : Nat) (raws : List Raw) (bare : s.described = false)
    (sub : inside bareParts l = true) (loader : Part.loader ∉ l) (publish : ∀ x q, Frame l s (s.publish c x q))
    (mode : ∀ v, Frame l s v → Frame l v (v.evaluateMode false)) : Frame l s (s.conversionDone c raws) := by
  unfold State.conversionDone
  split
  · exact Moves.frame_refl _ s
  · split
    · exact Moves.frame_refl _ s
    · split
      · exact Moves.frame_refl _ s
      · exact frame_advanceRound_bare c bare sub loader (publish _ _) mode

/-- Rows without a described corridor touch neither claims, segments and gates nor the paths, the line and the loader. -/
theorem frame_bare {c : Instr} {s t : State} (work : startRow c = false) (bare : s.described = false)
    (h : exec c s = .next t) : Frame (bareParts ++ [.slots, .tops, .transmit, .signs]) s t := by
  have publish (c : Nat) (x : Channel) (q : Quality) : Frame (bareParts ++ [.slots, .tops, .transmit, .signs]) s (s.publish c x q) :=
    Moves.frame_mono (by decide) (effect_publish s c x q).frame
  exact frame_bare_of work bare h rfl publish (fun c raws => frame_conversionDone_bare c raws bare rfl (by decide) (publish c)
    (fun u _ => Moves.frame_mono (by decide) (effect_evaluateMode u false).frame))

/-! ### Gates and segments that agree -/

/-- Gates and segments name each other and hold one demand, the demand of each segment is the one its standing calls for, and
a gate is RAISING only behind a sweep, or in segment k while a demand LOWER is still to reach it in the list l. -/
structure RoadWith (k : Nat) (l : List Nat) (s : State) : Prop where
  home : ∀ (g : Nat) (x : Gate), s.gates[g]? = some x →
    ∃ y, s.segs.records[x.cfg.segment]? = some y ∧ g ∈ y.cfg.gates
  lists : ∀ (j : Nat) (y : Segment) (g : Nat) (x : Gate), s.segs.records[j]? = some y → g ∈ y.cfg.gates →
    s.gates[g]? = some x → x.cfg.segment = j ∧ x.demand = y.demand
  demand : ∀ y ∈ s.segs.records, y.demand = y.wantedDemand
  raising : ∀ (g : Nat) (x : Gate), s.gates[g]? = some x → x.state = .raising →
    ∃ y, s.segs.records[x.cfg.segment]? = some y ∧
      ((y.state = .reopening ∧ y.swept = true) ∨ (x.cfg.segment = k ∧ y.demand = .lower ∧ g ∈ l))

/-- R39 with what it rests on, a corridor being described. -/
def Road (s : State) : Prop := RoadWith 0 [] s

theorem road_anywhere {k j : Nat} {s : State} (ok : RoadWith k [] s) (l : List Nat) : RoadWith j l s :=
  ⟨ok.home, ok.lists, ok.demand, fun g x at_g raising => by
    obtain ⟨y, at_y, swept | ⟨-, -, none⟩⟩ := ok.raising g x at_g raising
    · exact ⟨y, at_y, .inl swept⟩
    · simp at none⟩

theorem roadOk_of_road {s : State} (ok : Road s) (described : s.described = true) : RoadOk s where
  undescribed bare := by simp [described] at bare
  home _ := ok.home
  lists := ok.lists
  demand := ok.demand
  raising x hx raising := by
    obtain ⟨g, at_g⟩ := List.mem_iff_getElem?.1 hx
    obtain ⟨y, at_y, swept | ⟨-, -, none⟩⟩ := ok.raising g x at_g raising
    · exact ⟨y, at_y, swept⟩
    · simp at none

theorem road_of_roadOk {s : State} (ok : RoadOk s) (described : s.described = true) : Road s where
  home := ok.home described
  lists := ok.lists
  demand := ok.demand
  raising g x at_g raising := by
    obtain ⟨y, at_y, swept⟩ := ok.raising x (List.mem_of_getElem? at_g) raising
    exact ⟨y, at_y, .inl swept⟩

theorem roadWith_rests (k : Nat) (l : List Nat) : RestsOn [.records, .gates] (RoadWith k l) := fun s t same ok => by
  have records : t.segs.records = s.segs.records := same .records (by simp)
  have gates : t.gates = s.gates := same .gates (by simp)
  exact ⟨by rw [records, gates]; exact ok.home, by rw [records, gates]; exact ok.lists, by rw [records]; exact ok.demand,
    by rw [records, gates]; exact ok.raising⟩

/-- A gate of a segment in whose list it stands knows it. -/
theorem RoadWith.owner {k : Nat} {l : List Nat} {s : State} (ok : RoadWith k l s) {g : Nat} {x : Gate} {y : Segment}
    (at_g : s.gates[g]? = some x) (at_y : s.segs.records[x.cfg.segment]? = some y) : g ∈ y.cfg.gates ∧ x.demand = y.demand := by
  obtain ⟨z, at_z, listed⟩ := ok.home g x at_g
  rw [at_y] at at_z
  cases at_z
  exact ⟨listed, (ok.lists _ y g x at_y listed at_g).2⟩

/-! ### Lamps and demands of a list -/

theorem foldl_updGate {f : Gate → Gate} (twice : ∀ x, f (f x) = f x) (l : List Nat) (s : State) (j : Nat) :
    (l.foldl (fun s g => s.updGate g f) s).gates[j]? = (s.gates[j]?).map (fun x => if j ∈ l then f x else x) := by
  induction l generalizing s with
  | nil => simp
  | cons g rest ih =>
    rw [List.foldl_cons, ih, updGate_gates, List.getElem?_modify]
    cases s.gates[j]? with
    | none => rfl
    | some x =>
      rcases eq_or_ne g j with rfl | other
      · by_cases again : g ∈ rest <;> simp [again, twice]
      · simp [other, other.symm]

theorem setLamp_twice (b : Bool) (x : Gate) : (x.setLamp b).setLamp b = x.setLamp b := by
  unfold Gate.setLamp
  split <;> simp_all

theorem record_twice (d : Demand) (x : Gate) : (x.record d).record d = x.record d := by
  simp [Gate.record]

theorem handLamps_gate (s : State) (l : List Nat) (b : Bool) (j : Nat) :
    (s.handLamps l b).gates[j]? = (s.gates[j]?).map (fun x => if j ∈ l then x.setLamp b else x) :=
  foldl_updGate (setLamp_twice b) l s j

theorem recordDemand_gate (s : State) (l : List Nat) (d : Demand) (j : Nat) :
    (s.recordDemand l d).gates[j]? = (s.gates[j]?).map (fun x => if j ∈ l then x.record d else x) :=
  foldl_updGate (record_twice d) l s j

@[simp] theorem setLamp_state (x : Gate) (b : Bool) : (x.setLamp b).state = x.state := by
  unfold Gate.setLamp; split <;> rfl

@[simp] theorem setLamp_demand (x : Gate) (b : Bool) : (x.setLamp b).demand = x.demand := by
  unfold Gate.setLamp; split <;> rfl

@[simp] theorem handLamps_records (s : State) (l : List Nat) (b : Bool) : (s.handLamps l b).segs.records = s.segs.records :=
  (effect_handLamps s l b).frame .records (by decide)

@[simp] theorem recordDemand_records (s : State) (l : List Nat) (d : Demand) :
    (s.recordDemand l d).segs.records = s.segs.records := (effect_recordDemand s l d).frame .records (by decide)

/-- A change of the gates that keeps their description, demand and state. -/
theorem RoadWith.sameGates {k : Nat} {l : List Nat} {s t : State} (ok : RoadWith k l s)
    (records : t.segs.records = s.segs.records)
    (gates : ∀ (g : Nat) (x : Gate), t.gates[g]? = some x → ∃ z, s.gates[g]? = some z ∧ x.cfg = z.cfg ∧ x.demand = z.demand ∧
      (x.state = .raising → z.state = .raising)) : RoadWith k l t := by
  refine ⟨fun g x at_g => ?_, fun j y g x at_j listed at_g => ?_, by rw [records]; exact ok.demand, fun g x at_g raising => ?_⟩
  · obtain ⟨z, at_z, cfg, -, -⟩ := gates g x at_g
    rw [records, cfg]
    exact ok.home g z at_z
  · obtain ⟨z, at_z, cfg, demand, -⟩ := gates g x at_g
    rw [cfg, demand]
    exact ok.lists j y g z (records ▸ at_j) listed at_z
  · obtain ⟨z, at_z, cfg, -, was⟩ := gates g x at_g
    rw [records, cfg]
    exact ok.raising g z at_z (was raising)

theorem RoadWith.handLamps {k : Nat} {l : List Nat} {s : State} (ok : RoadWith k l s) (list : List Nat) (b : Bool) :
    RoadWith k l (s.handLamps list b) := by
  refine ok.sameGates (handLamps_records s list b) (fun g x at_g => ?_)
  rw [handLamps_gate] at at_g
  obtain ⟨z, at_z, rfl⟩ := Option.map_eq_some_iff.1 at_g
  refine ⟨z, at_z, ?_⟩
  split <;> simp

/-! ### The tests on the gates -/

/-- A change of the record of segment j that keeps its description and demand, and its sweep where it has one. -/
theorem RoadWith.updSegment {k : Nat} {l : List Nat} {s : State} (ok : RoadWith k l s) {j : Nat} {f : Segment → Segment} {y : Segment}
    (at_j : s.segs.records[j]? = some y) (cfg : (f y).cfg = y.cfg) (same : (f y).demand = y.demand)
    (demand : (f y).demand = (f y).wantedDemand)
    (swept : y.state = .reopening → y.swept = true → (f y).state = .reopening ∧ (f y).swept = true) :
    RoadWith k l (s.updSegment j f) := by
  have before (i : Nat) (z : Segment) (at_i : (s.updSegment j f).segs.records[i]? = some z) :
      ∃ w, s.segs.records[i]? = some w ∧ z.cfg = w.cfg ∧ z.demand = w.demand ∧ z.demand = z.wantedDemand := by
    rw [updSegment_records, List.getElem?_modify] at at_i
    obtain ⟨w, at_w, rfl⟩ := Option.map_eq_some_iff.1 at_i
    refine ⟨w, at_w, ?_⟩
    split
    · rename_i here
      subst here
      rw [at_j] at at_w
      cases at_w
      exact ⟨cfg, same, demand⟩
    · exact ⟨rfl, rfl, ok.demand w (List.mem_of_getElem? at_w)⟩
  have after (i : Nat) (w : Segment) (at_w : s.segs.records[i]? = some w) :
      ∃ z, (s.updSegment j f).segs.records[i]? = some z ∧ z.cfg = w.cfg ∧ z.demand = w.demand ∧
        (w.state = .reopening ∧ w.swept = true → z.state = .reopening ∧ z.swept = true) := by
    rw [updSegment_records, List.getElem?_modify, at_w]
    refine ⟨_, rfl, ?_⟩
    split
    · rename_i here
      subst here
      rw [at_j] at at_w
      cases at_w
      exact ⟨cfg, same, fun h => swept h.1 h.2⟩
    · exact ⟨rfl, rfl, id⟩
  refine ⟨fun g x at_g => ?_, fun i z g x at_i listed at_g => ?_, fun z hz => ?_, fun g x at_g raising => ?_⟩
  · obtain ⟨w, at_w, listed⟩ := ok.home g x at_g
    obtain ⟨z, at_z, cfg, -, -⟩ := after _ w at_w
    exact ⟨z, at_z, cfg ▸ listed⟩
  · obtain ⟨w, at_w, cfg, demand, -⟩ := before i z at_i
    rw [demand]
    exact ok.lists i w g x at_w (cfg ▸ listed) at_g
  · obtain ⟨i, at_i⟩ := List.mem_iff_getElem?.1 hz
    obtain ⟨w, -, -, -, wanted⟩ := before i z at_i
    exact wanted
  · obtain ⟨w, at_w, why⟩ := ok.raising g x at_g raising
    obtain ⟨z, at_z, -, demand, stays⟩ := after _ w at_w
    exact ⟨z, at_z, why.imp stays (fun ⟨here, lower, left⟩ => ⟨here, demand ▸ lower, left⟩)⟩

/-- What is left while the record of segment j has moved and its demand is not yet handed over. -/
structure RoadBut (j k : Nat) (l : List Nat) (s : State) : Prop where
  home : ∀ (g : Nat) (x : Gate), s.gates[g]? = some x →
    ∃ y, s.segs.records[x.cfg.segment]? = some y ∧ g ∈ y.cfg.gates
  lists : ∀ (i : Nat) (y : Segment) (g : Nat) (x : Gate), s.segs.records[i]? = some y → g ∈ y.cfg.gates →
    s.gates[g]? = some x → x.cfg.segment = i ∧ x.demand = y.demand
  demand : ∀ (i : Nat) (y : Segment), i ≠ j → s.segs.records[i]? = some y → y.demand = y.wantedDemand
  raising : ∀ (g : Nat) (x : Gate), x.cfg.segment ≠ j → s.gates[g]? = some x → x.state = .raising →
    ∃ y, s.segs.records[x.cfg.segment]? = some y ∧
      ((y.state = .reopening ∧ y.swept = true) ∨ (x.cfg.segment = k ∧ y.demand = .lower ∧ g ∈ l))

theorem RoadWith.but {k : Nat} {l : List Nat} {s : State} (ok : RoadWith k l s) (j : Nat) : RoadBut j k l s :=
  ⟨ok.home, ok.lists, fun _ y _ at_i => ok.demand y (List.mem_of_getElem? at_i), fun g x _ => ok.raising g x⟩

/-- R36: the record of segment j moves to a standing whose demand is then recorded in its whole list. -/
theorem RoadBut.handed {j k : Nat} {l : List Nat} {s t : State} (ok : RoadBut j k l s) {f : Segment → Segment} {y : Segment}
    (at_j : s.segs.records[j]? = some y) (records : t.segs.records = s.segs.records.modify j f)
    (gates : ∀ (g : Nat) (x : Gate), t.gates[g]? = some x → ∃ z, s.gates[g]? = some z ∧ x.cfg = z.cfg ∧
      (x.state = .raising → z.state = .raising) ∧ x.demand = if g ∈ y.cfg.gates then (f y).demand else z.demand)
    (cfg : (f y).cfg = y.cfg) (wanted : (f y).demand = (f y).wantedDemand)
    (mine : ∀ (g : Nat) (x : Gate), s.gates[g]? = some x → x.cfg.segment = j → g ∈ y.cfg.gates → x.state = .raising →
      ((f y).state = .reopening ∧ (f y).swept = true) ∨ (j = k ∧ (f y).demand = .lower ∧ g ∈ l)) : RoadWith k l t := by
  have here : t.segs.records[j]? = some (f y) := by rw [records, List.getElem?_modify, at_j]; simp
  have there {i : Nat} (other : i ≠ j) : t.segs.records[i]? = s.segs.records[i]? := by
    simp [records, Ne.symm other]
  have listed {g : Nat} {z : Gate} (at_g : s.gates[g]? = some z) : g ∈ y.cfg.gates ↔ z.cfg.segment = j := by
    refine ⟨fun listed => (ok.lists j y g z at_j listed at_g).1, fun mine => ?_⟩
    obtain ⟨w, at_w, listed⟩ := ok.home g z at_g
    rw [mine, at_j] at at_w
    cases at_w
    exact listed
  refine ⟨fun g x at_g => ?_, fun i w g x at_i inList at_g => ?_, fun w hw => ?_, fun g x at_g raising => ?_⟩
  · obtain ⟨z, at_z, sameCfg, -, -⟩ := gates g x at_g
    obtain ⟨w, at_w, inList⟩ := ok.home g z at_z
    rw [sameCfg]
    by_cases mine : z.cfg.segment = j
    · exact ⟨f y, by rw [mine]; exact here, cfg ▸ (listed at_z).2 mine⟩
    · exact ⟨w, by rw [there mine]; exact at_w, inList⟩
  · obtain ⟨z, at_z, sameCfg, -, demand⟩ := gates g x at_g
    by_cases mine : i = j
    · subst mine
      rw [here] at at_i
      cases at_i
      rw [cfg] at inList
      exact ⟨sameCfg ▸ (listed at_z).1 inList, by rw [demand, if_pos inList]⟩
    · rw [there mine] at at_i
      obtain ⟨segment, same⟩ := ok.lists i w g z at_i inList at_z
      refine ⟨sameCfg ▸ segment, ?_⟩
      rw [demand, if_neg (fun mineToo => mine (segment.symm.trans ((listed at_z).1 mineToo)))]
      exact same
  · obtain ⟨i, at_i⟩ := List.mem_iff_getElem?.1 hw
    by_cases mine : i = j
    · subst mine
      rw [here] at at_i
      cases at_i
      exact wanted
    · exact ok.demand i w mine (there mine ▸ at_i)
  · obtain ⟨z, at_z, sameCfg, was, -⟩ := gates g x at_g
    rw [sameCfg]
    by_cases own : z.cfg.segment = j
    · refine ⟨f y, by rw [own]; exact here, ?_⟩
      rw [own]
      exact mine g z at_z own ((listed at_z).2 own) (was raising)
    · obtain ⟨w, at_w, why⟩ := ok.raising g z own at_z (was raising)
      exact ⟨w, by rw [there own]; exact at_w, why⟩

theorem roadWith_still {k : Nat} {l : List Nat} {s t : State} {p : List Part} {K : List NoticeKind} (ok : RoadWith k l s)
    (h : Effect p K s t) (away : apart [.records, .gates] p = true := by rfl) : RoadWith k l t :=
  (roadWith_rests k l).keep_effect ok h away

/-- R18: a segment whose gates are all up has none RAISING. -/
theorem not_raising_of_allUp {s : State} {list : List Nat} (up : s.allUp list = true) {g : Nat} {x : Gate} (listed : g ∈ list)
    (at_g : s.gates[g]? = some x) : x.state ≠ .raising := by
  intro raising
  have all := List.all_eq_true.1 up x (List.mem_filterMap.2 ⟨g, listed, at_g⟩)
  simp [Gate.isUp, raising] at all

theorem roadWith_testGates {k : Nat} {l : List Nat} {s : State} (j : Nat) (ok : RoadWith k l s) : RoadWith k l (s.testGates j) := by
  unfold State.testGates
  split
  · exact ok
  · rename_i y at_j
    have wanted := ok.demand y (List.mem_of_getElem? at_j)
    split
    · rename_i closing
      refine keep_ite _ ok (fun done => roadWith_still ?_ (effect_formSegmentSlot _ j))
      refine ok.updSegment at_j rfl rfl ?_ (fun reopening => by simp [closing] at reopening)
      rw [wanted]
      simp [Segment.wantedDemand, closing, done.1]
    · rename_i closed
      refine ok.updSegment at_j rfl rfl ?_ (fun reopening => by simp [closed] at reopening)
      rw [wanted]
      simp [Segment.wantedDemand, closed]
    · rename_i reopening
      refine keep_ite _ ok (fun done => roadWith_still ?_ (effect_formSegmentSlot _ j))
      refine (ok.but j).handed at_j (f := fun y => { y with
          state := openState y.level, since := s.now, swept := false, demand := .noDemand }) (by simp) (fun g x at_g => ?_) rfl ?_
        (fun g x at_g _ listed raising => absurd raising (not_raising_of_allUp done.2 listed at_g))
      · rw [recordDemand_gate, handLamps_gate, updSegment_gates] at at_g
        obtain ⟨z, lit, rfl⟩ := Option.map_eq_some_iff.1 at_g
        obtain ⟨w, at_w, rfl⟩ := Option.map_eq_some_iff.1 lit
        refine ⟨w, at_w, ?_⟩
        split <;> simp [Gate.record]
      · rcases openState_cases y.level with e | e <;> simp [Segment.wantedDemand, e]
    · exact ok

/-! ### Arms that move -/

theorem roadWith_updGate {k : Nat} {l l' : List Nat} {s : State} (ok : RoadWith k l s) {g : Nat} {f : Gate → Gate} {x : Gate}
    (at_g : s.gates[g]? = some x) (cfg : (f x).cfg = x.cfg) (demand : (f x).demand = x.demand)
    (raising : (f x).state = .raising → ∃ y, s.segs.records[x.cfg.segment]? = some y ∧
      ((y.state = .reopening ∧ y.swept = true) ∨ (x.cfg.segment = k ∧ y.demand = .lower ∧ g ∈ l')))
    (others : ∀ h, h ≠ g → h ∈ l → h ∈ l') : RoadWith k l' (s.updGate g f) := by
  have gates (h : Nat) (w : Gate) (at_h : (s.updGate g f).gates[h]? = some w) : ∃ z, s.gates[h]? = some z ∧ w.cfg = z.cfg ∧
      w.demand = z.demand ∧ ((h = g ∧ w = f x ∧ z = x) ∨ (h ≠ g ∧ w = z)) := by
    rw [updGate_gates, List.getElem?_modify] at at_h
    obtain ⟨z, at_z, rfl⟩ := Option.map_eq_some_iff.1 at_h
    refine ⟨z, at_z, ?_⟩
    split
    · rename_i here
      subst here
      rw [at_g] at at_z
      cases at_z
      exact ⟨cfg, demand, .inl ⟨rfl, rfl, rfl⟩⟩
    · rename_i other
      exact ⟨rfl, rfl, .inr ⟨Ne.symm other, rfl⟩⟩
  refine ⟨fun h w at_h => ?_, fun i y h w at_i listed at_h => ?_, ok.demand, fun h w at_h up => ?_⟩
  · obtain ⟨z, at_z, same, -, -⟩ := gates h w at_h
    rw [same]
    exact ok.home h z at_z
  · obtain ⟨z, at_z, same, sameDemand, -⟩ := gates h w at_h
    rw [same, sameDemand]
    exact ok.lists i y h z at_i listed at_z
  · obtain ⟨z, at_z, same, -, ⟨rfl, rfl, rfl⟩ | ⟨other, rfl⟩⟩ := gates h w at_h
    · rw [same]
      exact raising up
    · obtain ⟨y, at_y, why⟩ := ok.raising h w at_z up
      exact ⟨y, at_y, why.imp_right (fun ⟨mine, lower, left⟩ => ⟨mine, lower, others h other left⟩)⟩

/-- R19, R38: a gate under demand RAISE belongs to a segment that is REOPENING, swept. -/
theorem RoadWith.sweptBehind {k : Nat} {l : List Nat} {s : State} (ok : RoadWith k l s) {g : Nat} {x : Gate}
    (at_g : s.gates[g]? = some x) (raise : x.demand = .raise) :
    ∃ y, s.segs.records[x.cfg.segment]? = some y ∧ y.state = .reopening ∧ y.swept = true := by
  obtain ⟨y, at_y, -⟩ := ok.home g x at_g
  have demand := (ok.owner at_g at_y).2
  have wanted := ok.demand y (List.mem_of_getElem? at_y)
  rw [raise] at demand
  rw [← demand] at wanted
  refine ⟨y, at_y, ?_⟩
  unfold Segment.wantedDemand at wanted
  split at wanted
  · cases wanted
  · cases wanted
  · split at wanted <;> cases wanted
  · cases wanted
  · rename_i reopening
    refine ⟨reopening, ?_⟩
    by_contra swept
    simp [swept] at wanted

theorem roadWith_arms (k : Nat) (l : List Nat) : ArmKept [.records, .gates] (RoadWith k l) where
  rests := roadWith_rests k l
  notices := rfl
  reserve s ok := roadWith_still ok (effect_updateReserve s)
  test _ j ok := roadWith_testGates j ok
  move _ g x _ ok at_g move := roadWith_updGate ok at_g move.cfg move.demand
    (fun up => ok.raising g x at_g (move.raising up)) (fun _ _ => id)
  start _ _ _ ok at_g _ raise := roadWith_updGate ok at_g rfl rfl
    (fun _ => by
      obtain ⟨y, at_y, swept⟩ := ok.sweptBehind at_g raise
      exact ⟨y, at_y, .inl swept⟩) (fun _ _ => id)

/-- R37: a gate that the demand LOWER reaches is RAISING no longer. -/
theorem roadWith_applyRecorded {k g : Nat} {rest : List Nat} {s : State} (ok : RoadWith k (g :: rest) s) :
    RoadWith k rest (s.applyRecorded g) := by
  have dropped (x : Gate) (at_g : s.gates[g]? = some x)
      (fine : x.state = .raising → ∃ y, s.segs.records[x.cfg.segment]? = some y ∧
        ((y.state = .reopening ∧ y.swept = true) ∨ (x.cfg.segment = k ∧ y.demand = .lower ∧ g ∈ rest))) :
      RoadWith k rest s := by
    have same := roadWith_updGate (f := id) (l' := rest) ok at_g rfl rfl fine (fun h other left => by
      simpa [other] using left)
    have unmoved : s.updGate g id = s := by simp [State.updGate, List.modify_id]
    rwa [unmoved] at same
  cases at_g : s.gates[g]? with
  | none =>
    have unmoved : s.applyRecorded g = s := by simp [State.applyRecorded, at_g]
    rw [unmoved]
    refine ⟨ok.home, ok.lists, ok.demand, fun h x at_h up => ?_⟩
    obtain ⟨y, at_y, why⟩ := ok.raising h x at_h up
    refine ⟨y, at_y, why.imp_right (fun ⟨mine, lower, left⟩ => ⟨mine, lower, ?_⟩)⟩
    exact (List.mem_cons.1 left).resolve_left (fun here => by rw [here, at_g] at at_h; cases at_h)
  | some x =>
    by_cases lowered : x.state = .raising ∧ x.demand = .lower
    · obtain ⟨up, lower⟩ := lowered
      have reversed : RoadWith k rest (s.updGate g Gate.reverse) :=
        roadWith_updGate ok at_g rfl rfl (by simp [Gate.reverse]) (fun h other left => by simpa [other] using left)
      have runs : s.applyRecorded g = s.changeGate g Gate.reverse := by
        simp [State.applyRecorded, State.applyLower, at_g, lower, up]
      rw [runs]
      exact (roadWith_arms k rest).gateReport g reversed
    · refine (roadWith_arms k rest).applyRecorded g (dropped x at_g (fun up => ?_))
      obtain ⟨y, at_y, swept | ⟨-, lower, -⟩⟩ := ok.raising g x at_g up
      · exact ⟨y, at_y, .inl swept⟩
      · exact absurd ⟨up, (ok.owner at_g at_y).2.trans lower⟩ lowered

theorem roadWith_applyAll {k : Nat} (l : List Nat) {s : State} (ok : RoadWith k l s) :
    RoadWith k [] (l.foldl State.applyRecorded s) := by
  induction l generalizing s with
  | nil => exact ok
  | cons g rest ih => exact ih (roadWith_applyRecorded ok)

/-! ### The follow-up of a segment -/

/-- The record of segment k has moved: a gate of it that is RAISING has its sweep, or a new demand LOWER to come. -/
structure RoadBefore (k : Nat) (s : State) : Prop where
  but : RoadBut k 0 [] s
  mine : ∀ (y : Segment) (g : Nat) (x : Gate), s.segs.records[k]? = some y → s.gates[g]? = some x → x.cfg.segment = k →
    x.state = .raising → (y.state = .reopening ∧ y.swept = true) ∨ (y.wantedDemand = .lower ∧ y.demand ≠ .lower)

theorem roadBefore_upd {s : State} {k : Nat} {f : Segment → Segment} (ok : Road s)
    (moves : ∀ y, s.segs.records[k]? = some y → (f y).cfg = y.cfg ∧ (f y).demand = y.demand ∧
      (y.state = .reopening → y.swept = true →
        ((f y).state = .reopening ∧ (f y).swept = true) ∨ (f y).wantedDemand = .lower)) :
    RoadBefore k (s.updSegment k f) := by
  have before (i : Nat) (z : Segment) (at_i : (s.updSegment k f).segs.records[i]? = some z) :
      ∃ w, s.segs.records[i]? = some w ∧ z.cfg = w.cfg ∧ z.demand = w.demand ∧ (i ≠ k → z = w) ∧ (i = k → z = f w) := by
    rw [updSegment_records, List.getElem?_modify] at at_i
    obtain ⟨w, at_w, rfl⟩ := Option.map_eq_some_iff.1 at_i
    refine ⟨w, at_w, ?_⟩
    split
    · rename_i here
      obtain ⟨cfg, demand, -⟩ := moves w (here ▸ at_w)
      exact ⟨cfg, demand, fun other => absurd here.symm other, fun _ => rfl⟩
    · rename_i other
      exact ⟨rfl, rfl, fun _ => rfl, fun here => absurd here.symm other⟩
  have after (i : Nat) (w : Segment) (at_w : s.segs.records[i]? = some w) :
      ∃ z, (s.updSegment k f).segs.records[i]? = some z ∧ z.cfg = w.cfg ∧ (i ≠ k → z = w) := by
    rw [updSegment_records, List.getElem?_modify, at_w]
    refine ⟨_, rfl, ?_⟩
    split
    · rename_i here
      exact ⟨(moves w (here ▸ at_w)).1, fun other => absurd here.symm other⟩
    · exact ⟨rfl, fun _ => rfl⟩
  refine ⟨⟨fun g x at_g => ?_, fun i z g x at_i listed at_g => ?_, fun i z other at_i => ?_, fun g x other at_g up => ?_⟩,
    fun z g x at_k at_g own up => ?_⟩
  · obtain ⟨w, at_w, listed⟩ := ok.home g x at_g
    obtain ⟨z, at_z, cfg, -⟩ := after _ w at_w
    exact ⟨z, at_z, cfg ▸ listed⟩
  · obtain ⟨w, at_w, cfg, demand, -, -⟩ := before i z at_i
    rw [demand]
    exact ok.lists i w g x at_w (cfg ▸ listed) at_g
  · obtain ⟨w, at_w, -, -, same, -⟩ := before i z at_i
    rw [same other]
    exact ok.demand w (List.mem_of_getElem? at_w)
  · obtain ⟨w, at_w, why⟩ := ok.raising g x at_g up
    obtain ⟨z, at_z, -, same⟩ := after _ w at_w
    exact ⟨z, at_z, by rw [same other]; exact why⟩
  · obtain ⟨w, at_w, -, demand, -, moved⟩ := before k z at_k
    obtain ⟨y, at_y, swept | ⟨-, -, none⟩⟩ := ok.raising g x at_g up
    · rw [own, at_w] at at_y
      cases at_y
      have raise : w.demand = .raise := by
        rw [ok.demand w (List.mem_of_getElem? at_w)]
        simp [Segment.wantedDemand, swept.1, swept.2]
      rw [moved rfl]
      refine ((moves w at_w).2.2 swept.1 swept.2).imp_right (fun lower => ⟨lower, ?_⟩)
      rw [← moved rfl, demand, raise]
      simp
    · simp at none

theorem step_demand (x : Segment) (now : Nat) (b : Bool) : (x.step now b).demand = x.demand := by
  have opens : (x.toOpen now).demand = x.demand := by
    unfold Segment.toOpen
    split <;> rfl
  have closes : (x.toClosing now b).demand = x.demand := by
    unfold Segment.toClosing Segment.toPrewarn
    dsimp only
    repeat' split
    all_goals rfl
  unfold Segment.step
  repeat' split
  all_goals first
    | exact opens
    | exact closes
    | rfl

/-- R18: a segment that is REOPENING goes on or closes again. -/
theorem step_sweep {x : Segment} {now : Nat} {b : Bool} (reopening : x.state = .reopening) (swept : x.swept = true) :
    ((x.step now b).state = .reopening ∧ (x.step now b).swept = true) ∨ (x.step now b).wantedDemand = .lower := by
  unfold Segment.step
  simp only [reopening]
  split
  · exact .inr (by simp [Segment.wantedDemand, Segment.toClosingLowering, Segment.toLowering])
  · exact .inl ⟨reopening, swept⟩

theorem road_followUp {s : State} {k : Nat} (ok : RoadBefore k s) : Road (s.followUp k) := by
  obtain ⟨but, mine⟩ := ok
  unfold State.followUp
  split
  · rename_i none
    refine ⟨but.home, but.lists, fun y hy => ?_, fun g x at_g up => ?_⟩
    · obtain ⟨i, at_i⟩ := List.mem_iff_getElem?.1 hy
      exact but.demand i y (fun here => by rw [here, none] at at_i; cases at_i) at_i
    · refine but.raising g x (fun own => ?_) at_g up
      obtain ⟨y, at_y, -⟩ := but.home g x at_g
      rw [own, none] at at_y
      cases at_y
  · rename_i y at_k
    dsimp only
    refine roadWith_still ?_ (effect_formSegmentSlot _ k)
    split
    · rename_i agrees
      refine RoadWith.handLamps ⟨but.home, but.lists, fun w hw => ?_, fun g x at_g up => ?_⟩ _ _
      · obtain ⟨i, at_i⟩ := List.mem_iff_getElem?.1 hw
        by_cases here : i = k
        · rw [here, at_k] at at_i
          cases at_i
          exact agrees
        · exact but.demand i w here at_i
      · by_cases own : x.cfg.segment = k
        · rcases mine y g x at_k at_g own up with swept | ⟨lower, new⟩
          · exact ⟨y, by rw [own]; exact at_k, .inl swept⟩
          · exact absurd (agrees.trans lower) new
        · exact but.raising g x own at_g up
    · have handed : RoadWith k y.cfg.gates
          (((s.handLamps y.cfg.gates y.wantedLamps).updSegment k (fun z => { z with demand := y.wantedDemand })).recordDemand
            y.cfg.gates y.wantedDemand) := by
        refine RoadBut.handed (j := k) (s := s) ⟨but.home, but.lists, but.demand, fun g x other at_g up => ?_⟩ at_k
          (f := fun z => { z with demand := y.wantedDemand }) (by simp) (fun g x at_g => ?_) rfl rfl
          (fun g x at_g own listed up => ?_)
        · obtain ⟨w, at_w, swept | ⟨-, -, none⟩⟩ := but.raising g x other at_g up
          · exact ⟨w, at_w, .inl swept⟩
          · simp at none
        · rw [recordDemand_gate, updSegment_gates, handLamps_gate] at at_g
          obtain ⟨z, lit, rfl⟩ := Option.map_eq_some_iff.1 at_g
          obtain ⟨w, at_w, rfl⟩ := Option.map_eq_some_iff.1 lit
          refine ⟨w, at_w, ?_⟩
          split <;> simp [Gate.record]
        · exact (mine y g x at_k at_g own up).imp id (fun lower => ⟨rfl, lower.1, listed⟩)
      exact road_anywhere (roadWith_testGates k (roadWith_applyAll _ handed)) []

theorem road_road : RoadKept [.records, .gates] Road (fun _ => Road) where
  toArmKept := roadWith_arms 0 []
  quiet := rfl
  restsBut _ := roadWith_rests 0 []
  slot s k ok := roadWith_still ok (effect_formSegmentSlot s k)
  weather s k ok := roadWith_still ok (effect_formWeather s k)
  mode s silent ok := roadWith_still ok (effect_evaluateMode s silent)
  ended s n cause tell ok := roadWith_still ok (effect_endPosted s n cause tell)
  endedBut _ s n cause tell ok := roadWith_still ok (effect_endPosted s n cause tell)
  linkedBut _ s n link ok := roadWith_still ok (effect_linkSlot s n link)
  but _ _ := id
  claims _ s c ok _ _ := roadWith_still ok (effect_setClaims s c)
  recompute k s ok := by
    refine (roadWith_arms 0 []).withSegmentNotice k _ (road_followUp ?_)
    unfold State.stepSegment
    split
    · rename_i none
      have unmoved : s.updSegment k id = s := by simp [State.updSegment, List.modify_id]
      rw [← unmoved]
      exact roadBefore_upd ok (fun y at_k => by rw [none] at at_k; cases at_k)
    · exact roadBefore_upd ok (fun y _ => ⟨by simp, step_demand _ _ _, fun reopening swept => step_sweep reopening swept⟩)
  follow s k x f ok at_k move := road_followUp (roadBefore_upd ok (fun y at_y => by
    rw [at_k] at at_y
    cases at_y
    exact ⟨move.cfg, move.demand, fun reopening swept => .inl (move.swept reopening swept)⟩))

/-! ### Loads and steps -/

/-- The gates and segments of a corridor being derived: each segment below n has handed its demand to its list (R20). -/
structure HandedBelow (n : Nat) (s : State) : Prop where
  home : ∀ (g : Nat) (x : Gate), s.gates[g]? = some x →
    ∃ y, s.segs.records[x.cfg.segment]? = some y ∧ g ∈ y.cfg.gates
  lists : ∀ (k : Nat) (y : Segment) (g : Nat) (x : Gate), s.segs.records[k]? = some y → g ∈ y.cfg.gates →
    s.gates[g]? = some x → x.cfg.segment = k ∧ (k < n → x.demand = y.demand)
  demand : ∀ y ∈ s.segs.records, y.demand = y.wantedDemand
  still : ∀ x ∈ s.gates, x.state ≠ .raising

theorem handSegment_gate {s : State} {k : Nat} {y : Segment} (at_k : s.segs.records[k]? = some y) (g : Nat) :
    (s.handSegment k).gates[g]? =
      (s.gates[g]?).map (fun x => if g ∈ y.cfg.gates then (x.record y.demand).setLamp y.wantedLamps else x) := by
  have slot (t : State) : (t.formSegmentSlot k).gates = t.gates := (effect_formSegmentSlot t k).frame .gates (by decide)
  simp only [State.handSegment, at_k, slot, handLamps_gate, recordDemand_gate, Option.map_map]
  congr 1
  funext x
  by_cases listed : g ∈ y.cfg.gates <;> simp [listed]

theorem handedBelow_succ {s : State} {n : Nat} (ok : HandedBelow n s) : HandedBelow (n + 1) (s.handSegment n) := by
  have records : (s.handSegment n).segs.records = s.segs.records := (effect_handSegment s n).frame .records (by decide)
  cases at_n : s.segs.records[n]? with
  | none =>
    have unmoved : s.handSegment n = s := by simp [State.handSegment, at_n]
    rw [unmoved]
    refine ⟨ok.home, fun k y g x at_k listed at_g => ?_, ok.demand, ok.still⟩
    obtain ⟨own, same⟩ := ok.lists k y g x at_k listed at_g
    refine ⟨own, fun below => same (lt_of_le_of_ne (Nat.le_of_lt_succ below) (fun here => ?_))⟩
    rw [here, at_n] at at_k
    cases at_k
  | some z =>
    have gate (g : Nat) (x : Gate) (at_g : (s.handSegment n).gates[g]? = some x) : ∃ w, s.gates[g]? = some w ∧
        x.cfg = w.cfg ∧ x.state = w.state ∧ x.demand = if g ∈ z.cfg.gates then z.demand else w.demand := by
      rw [handSegment_gate at_n] at at_g
      obtain ⟨w, at_w, rfl⟩ := Option.map_eq_some_iff.1 at_g
      refine ⟨w, at_w, ?_⟩
      split <;> simp [Gate.record]
    refine ⟨fun g x at_g => ?_, fun k y g x at_k listed at_g => ?_, by rw [records]; exact ok.demand, fun x hx => ?_⟩
    · obtain ⟨w, at_w, cfg, -, -⟩ := gate g x at_g
      rw [records, cfg]
      exact ok.home g w at_w
    · rw [records] at at_k
      obtain ⟨w, at_w, cfg, -, demand⟩ := gate g x at_g
      obtain ⟨own, same⟩ := ok.lists k y g w at_k listed at_w
      refine ⟨cfg ▸ own, fun below => ?_⟩
      by_cases here : g ∈ z.cfg.gates
      · obtain rfl : n = k := (ok.lists n z g w at_n here at_w).1.symm.trans own
        rw [at_n] at at_k
        cases at_k
        rw [demand, if_pos here]
      · rw [demand, if_neg here]
        refine same (lt_of_le_of_ne (Nat.le_of_lt_succ below) (fun last => ?_))
        subst last
        rw [at_n] at at_k
        cases at_k
        exact here listed
    · obtain ⟨g, at_g⟩ := List.mem_iff_getElem?.1 hx
      obtain ⟨w, at_w, -, state, -⟩ := gate g x at_g
      rw [state]
      exact ok.still w (List.mem_of_getElem? at_w)

theorem handedBelow_fold {s : State} (ok : HandedBelow 0 s) (n : Nat) :
    HandedBelow n ((List.range n).foldl State.handSegment s) := by
  induction n with
  | zero => exact ok
  | succ n ih =>
    rw [List.range_succ, List.foldl_append]
    exact handedBelow_succ ih

theorem deriveGates_gates (s : State) (gates : List GateConfig) : (s.deriveGates gates).gates = gates.map s.newGate := by
  unfold State.deriveGates
  exact (effect_evaluateMode _ true).frame .gates (by decide)

theorem newGate_still (s : State) (c : GateConfig) : (s.newGate c).state ≠ .raising := by
  simp only [State.newGate, derivedGate]
  split
  · simp
  · split <;> simp

/-- R20, R53: the corridor as derived from a checked description, before its paths. -/
theorem road_derived (s : State) {d : Description} (ok : Checked d) :
    Road (((s.deriveMaps d).deriveGates d.gates).deriveSegments d.segments) := by
  have gates := deriveGates_gates (s.deriveMaps d) d.gates
  revert gates
  generalize (s.deriveMaps d).deriveGates d.gates = t
  intro gates
  have gate (g : Nat) (x : Gate) (at_g : t.gates[g]? = some x) :
      ∃ c, d.gates[g]? = some c ∧ x = (s.deriveMaps d).newGate c := by
    rw [gates, List.getElem?_map] at at_g
    obtain ⟨c, at_c, rfl⟩ := Option.map_eq_some_iff.1 at_g
    exact ⟨c, at_c, rfl⟩
  have start : HandedBelow 0 { t with segs := { t.segs with records := d.segments.map t.newSegment, claims := [] } } := by
    refine ⟨fun g x at_g => ?_, fun k y g x at_k listed at_g => ⟨?_, by simp⟩, fun y hy => ?_, fun x hx => ?_⟩
    · obtain ⟨c, at_c, rfl⟩ := gate g x at_g
      obtain ⟨y, at_y, listed⟩ := ok.home at_c
      refine ⟨t.newSegment y, ?_, listed⟩
      simp [State.newGate, at_y]
    · obtain ⟨c, at_c, rfl⟩ := gate g x at_g
      rw [List.getElem?_map] at at_k
      obtain ⟨z, at_z, rfl⟩ := Option.map_eq_some_iff.1 at_k
      exact ok.segment_of_listed at_c at_z listed
    · obtain ⟨c, -, rfl⟩ := List.mem_map.1 hy
      exact (segmentOk_new t c).demand
    · obtain ⟨g, at_g⟩ := List.mem_iff_getElem?.1 hx
      obtain ⟨c, -, rfl⟩ := gate g x at_g
      exact newGate_still _ c
  have handed := handedBelow_fold start d.segments.length
  have length : (t.deriveSegments d.segments).segs.records.length = d.segments.length := by
    have same : (t.deriveSegments d.segments).segs.records = d.segments.map t.newSegment :=
      (Effect.fold State.handSegment effect_handSegment (List.range d.segments.length)
        { t with segs := { t.segs with records := d.segments.map t.newSegment, claims := [] } }).frame .records (by decide)
    rw [same, List.length_map]
  refine ⟨handed.home, fun k y g x at_k listed at_g => ?_, handed.demand, fun g x at_g up => ?_⟩
  · obtain ⟨own, same⟩ := handed.lists k y g x at_k listed at_g
    exact ⟨own, same (length ▸ (List.getElem?_eq_some_iff.1 at_k).1)⟩
  · exact absurd up (handed.still x (List.mem_of_getElem? at_g))

/-- No segment described and no gate raising. -/
theorem roadOk_bare {s : State} (bare : s.described = false) (records : s.segs.records = [])
    (still : ∀ x ∈ s.gates, x.state ≠ .raising) : RoadOk s where
  undescribed _ := records
  home described := by simp [bare] at described
  lists k y g x at_k := by simp [records] at at_k
  demand := by simp [records]
  raising x hx up := absurd up (still x hx)

theorem described_of_state {s : State} (h : s.loader.state = .ready ∨ s.loader.state = .degraded) : s.described = true := by
  rcases h with h | h <;> simp [State.described, h]

theorem roadOk_starts : StartKept RoadOk where
  held _ _ := roadOk_bare rfl rfl (by simp [State.holdReset, State.reset])
  restarted _ _ := roadOk_bare rfl rfl (by simp [State.restart, State.reset])
  loaded s image _ _ := by
    unfold State.endLoad
    split
    · have moved := (effect_updateReserve (s.dropCorridor (loadImage image).report)).frame
      have gates : (s.endNoCorridor (loadImage image).report).gates = [] := moved .gates (by decide)
      have loader : (s.endNoCorridor (loadImage image).report).loader.state = .noCorridor :=
        congrArg Loader.state (moved .loader (by decide))
      exact roadOk_bare (by simp [State.described, loader]) (moved .records (by decide)) (by simp [gates])
    · rename_i d given
      have derived := road_road.derivePaths d.paths (road_derived s (checked_loadImage given))
      refine roadOk_of_road (keep_endDescribed (roadWith_rests 0 []) _ _ (roadWith_still derived (effect_deriveWeather _))) ?_
      refine described_of_state ?_
      cases (loadImage image).degraded
      · exact .inl rfl
      · exact .inr rfl
  reloaded s free ok := by
    refine roadOk_bare rfl rfl (fun x hx up => ?_)
    obtain ⟨y, hy, rfl⟩ := List.mem_map.1 hx
    rw [setLamp_state] at up
    cases described : s.described
    · obtain ⟨z, at_z, -⟩ := ok.raising y hy up
      simp [ok.undescribed described] at at_z
    · have idle := free described
      simp only [State.busy, Bool.or_eq_false_iff, List.any_eq_false] at idle
      simpa [up] using idle.1 y hy

theorem roadOk_rests : RestsOn [.records, .gates, .loader] RoadOk := fun s t same ok => by
  have records : t.segs.records = s.segs.records := same .records (by simp)
  have gates : t.gates = s.gates := same .gates (by simp)
  have loader : t.loader = s.loader := same .loader (by simp)
  have described : t.described = s.described := by simp [State.described, loader]
  exact ⟨by rw [records, described]; exact ok.undescribed, by rw [records, gates, described]; exact ok.home,
    by rw [records, gates]; exact ok.lists, by rw [records]; exact ok.demand, by rw [records, gates]; exact ok.raising⟩

/-- No row but resets, loads and RELOAD moves the loader. -/
theorem described_of_work {c : Instr} {s t : State} (work : startRow c = false) (h : exec c s = .next t) :
    t.described = s.described := by
  have away : (startRow c || !(touched c ++ answerParts).contains .loader) = true := by
    cases c <;> rfl
  have loader : t.loader = s.loader := exec_frame h .loader (by simpa [work] using away)
  simp [State.described, loader]

theorem roadOk_row {c : Instr} {s t : State} (ok : RoadOk s) (h : exec c s = .next t) : RoadOk t := by
  cases start : startRow c
  · cases described : s.described
    · exact roadOk_rests.keep ok (frame_bare start described h)
    · have now : t.described = true := (described_of_work start h).trans described
      exact roadOk_of_road (road_road.workRow rfl start (road_of_roadOk ok described) h) now
  · exact roadOk_starts.row roadOk_rests start ok h

/-- A change of every record that keeps its description, demand and standing. -/
theorem roadOk_mapped {s t : State} (ok : RoadOk s) {f : Segment → Segment} {j : Gate → Gate}
    (records : t.segs.records = s.segs.records.map f) (gates : t.gates = s.gates.map j) (loader : t.loader = s.loader)
    (segment : ∀ y, (f y).cfg = y.cfg ∧ (f y).demand = y.demand ∧ (f y).state = y.state ∧ (f y).swept = y.swept ∧
      (f y).wantedDemand = y.wantedDemand)
    (gate : ∀ x, (j x).cfg = x.cfg ∧ (j x).demand = x.demand ∧ (j x).state = x.state) : RoadOk t := by
  have described : t.described = s.described := by simp [State.described, loader]
  refine ⟨fun bare => ?_, fun here g x at_g => ?_, fun k y g x at_k listed at_g => ?_, fun y hy => ?_, fun x hx up => ?_⟩
  · rw [records, ok.undescribed (described ▸ bare)]
    rfl
  · rw [gates, List.getElem?_map] at at_g
    obtain ⟨w, at_w, rfl⟩ := Option.map_eq_some_iff.1 at_g
    obtain ⟨y, at_y, listed⟩ := ok.home (described ▸ here) g w at_w
    refine ⟨f y, ?_, (segment y).1 ▸ listed⟩
    rw [records, (gate w).1, List.getElem?_map, at_y]
    rfl
  · rw [gates, List.getElem?_map] at at_g
    rw [records, List.getElem?_map] at at_k
    obtain ⟨w, at_w, rfl⟩ := Option.map_eq_some_iff.1 at_g
    obtain ⟨z, at_z, rfl⟩ := Option.map_eq_some_iff.1 at_k
    obtain ⟨own, same⟩ := ok.lists k z g w at_z ((segment z).1 ▸ listed) at_w
    exact ⟨(gate w).1 ▸ own, by rw [(gate w).2.1, (segment z).2.1, same]⟩
  · rw [records] at hy
    obtain ⟨z, hz, rfl⟩ := List.mem_map.1 hy
    obtain ⟨-, demand, -, -, wanted⟩ := segment z
    rw [demand, wanted]
    exact ok.demand z hz
  · rw [gates] at hx
    obtain ⟨w, hw, rfl⟩ := List.mem_map.1 hx
    obtain ⟨cfg, -, state⟩ := gate w
    obtain ⟨y, at_y, reopening, swept⟩ := ok.raising w hw (state ▸ up)
    obtain ⟨-, -, sameState, sameSwept, -⟩ := segment y
    refine ⟨f y, ?_, sameState ▸ reopening, sameSwept ▸ swept⟩
    rw [records, cfg, List.getElem?_map, at_y]
    rfl

theorem roadOk_tick (s : State) (ok : RoadOk s) : RoadOk s.tick := by
  have second (y : Segment) : y.second.cfg = y.cfg ∧ y.second.demand = y.demand ∧ y.second.state = y.state ∧
      y.second.swept = y.swept ∧ y.second.wantedDemand = y.wantedDemand := by
    unfold Segment.second
    split <;> exact ⟨rfl, rfl, rfl, rfl, rfl⟩
  have milli (x : Gate) : x.lampMilli.cfg = x.cfg ∧ x.lampMilli.demand = x.demand ∧ x.lampMilli.state = x.state := by
    unfold Gate.lampMilli
    split <;> exact ⟨rfl, rfl, rfl⟩
  unfold State.tick
  refine keep_cases _ (fun _ => ?_) (fun _ => ⟨ok.undescribed, ok.home, ok.lists, ok.demand, ok.raising⟩)
  refine roadOk_mapped ok (f := fun y => if s.tickAlways.clocks.millis = 0 then y.second else y)
    (j := fun g => if s.tickAlways.clocks.millis % 100 = 0 then g.lampMilli.tenth else g.lampMilli) ?_ rfl rfl
    (fun y => ?_) (fun x => ?_)
  · simp only [State.tickDescribed]
    split
    · rfl
    · exact (List.map_id _).symm
  · split
    · exact second y
    · exact ⟨rfl, rfl, rfl, rfl, rfl⟩
  · split
    · exact milli x
    · exact milli x

/-- Settles O13: a demand LOWER reaches every gate of a list before the row ends, and a raise begins only at a demand RAISE,
which a segment has only behind its sweep. -/
theorem armsRiseOnlyBehindASweep : Obligations.ArmsRiseOnlyBehindASweep :=
  step_keeps roadOk_rests (fun _ _ _ => roadOk_row) roadOk_tick

end Sys2Proof.Proofs
end

