-- ==== Sys2Proof/Proofs/SlotClasses.lean ====
section
/-! Each valid slot has the class of its origin in the priority map (R64): every content is formed with it, and SET PRIORITY
MAP, which alone writes the map in a described corridor, reclasses every slot. Without a description no slot is valid, no
sign and no segment described, so that a change of the power mode there writes no record of a sign. -/

namespace Sys2Proof.Proofs

open Sys2Proof.Machine Sys2Proof.Safety Sys2Proof.Laws

/-- A slot is invalid or has the class its origin is given (R64). -/
def Classed (s : State) (x : Slot) : Prop := ∀ c, x.content = some c → c.cls = s.classOf c.origin

/-- Every slot is. -/
def AllClassed (s : State) : Prop := ∀ x ∈ s.store.slots, Classed s x

theorem classed_rests : RestsOn [.slots, .priority] AllClassed := fun s t same ok => by
  have slots : t.store.slots = s.store.slots := same .slots (by simp)
  have priority : t.store.priority = s.store.priority := same .priority (by simp)
  simpa only [AllClassed, Classed, State.classOf, slots, priority] using ok

theorem allClassed_of_invalid {s : State} (none : ∀ x ∈ s.store.slots, x.content = none) : AllClassed s := fun x hx c hc => by
  simp [none x hx] at hc

/-! ### The operations on slots -/

theorem classed_still {s t : State} {l : List Part} {K : List NoticeKind} (ok : AllClassed s) (h : Effect l K s t)
    (away : apart [.slots, .priority] l = true := by rfl) : AllClassed t := classed_rests.keep_effect ok h away

theorem classed_reselect {s : State} (ok : AllClassed s) : AllClassed s.reselect := classed_still ok (effect_reselect s)

theorem classed_writeSlot {s : State} (n : Nat) (f : Slot → Slot) (ok : AllClassed s)
    (formed : ∀ x, s.store.slots[n]? = some x → Classed s (f x)) : AllClassed (s.writeSlot n f) := by
  unfold State.writeSlot
  split
  · exact ok
  · rename_i old at_n
    have written : AllClassed { s with store := { s.store with slots := s.store.slots.set n (old.renew (f old)) } } := by
      intro x hx
      obtain hx | rfl := List.mem_or_eq_of_mem_set hx
      · exact ok x hx
      · exact fun c hc => formed old at_n c hc
    dsimp only
    split
    · exact written
    · exact classed_reselect written

theorem classed_formSlot {s : State} (n : Nat) (c : Option Content) (ok : AllClassed s)
    (formed : ∀ d, c = some d → d.cls = s.classOf d.origin) : AllClassed (s.formSlot n c) :=
  classed_writeSlot n _ ok (fun _ _ => formed)

theorem segmentContent_classed {s : State} {k : Nat} {x : Segment} {c : Content} (h : s.segmentContent k x = some c) :
    c.cls = s.classOf c.origin := by
  unfold State.segmentContent at h
  dsimp only at h
  split at h
  · split at h
    · split at h
      · cases h; rfl
      · split at h <;> (cases h; rfl)
    · cases h
  all_goals cases h; rfl

theorem classed_formSegmentSlot {s : State} (k : Nat) (ok : AllClassed s) : AllClassed (s.formSegmentSlot k) := by
  unfold State.formSegmentSlot
  split
  · exact ok
  · exact classed_formSlot _ _ ok (fun _ h => segmentContent_classed h)

theorem classed_formWeather {s : State} (k : Nat) (ok : AllClassed s) : AllClassed (s.formWeather k) := by
  unfold State.formWeather
  split
  · refine keep_ite _ ok (fun _ => classed_formSlot _ _ ok (fun d h => ?_))
    cases h
    rfl
  · exact ok

theorem classed_endPosted {s : State} (n : Nat) (cause : SlotEndCause) (tell : Bool) (ok : AllClassed s) :
    AllClassed (s.endPosted n cause tell) := by
  unfold State.endPosted
  split
  · exact ok
  · split
    · rename_i x _ _ _ p _ _
      have unlinked : AllClassed (match p.link with
          | some k => s.unlinkClaim k p.owner
          | none => s) := by
        split
        · exact classed_still ok (effect_unlinkClaim s _ _)
        · exact ok
      have ended := classed_writeSlot n (fun y : Slot => { y with content := none, posted := none }) unlinked
        (fun _ _ c hc => by cases hc)
      exact keep_ite _ ended (fun _ => classed_still ended (effect_tell _ _ _ .slotEnded))
    · exact ok

theorem classed_linkSlot {s : State} (n : Nat) (link : Option Nat) (ok : AllClassed s) : AllClassed (s.linkSlot n link) := by
  intro x hx
  obtain ⟨j, hj⟩ := List.mem_iff_getElem?.1 hx
  simp only [State.linkSlot, List.getElem?_modify] at hj
  obtain ⟨y, hy, rfl⟩ := Option.map_eq_some_iff.1 hj
  have oky := ok y (List.mem_of_getElem? hy)
  split
  · exact oky
  · exact oky

theorem classed_testGates {s : State} (k : Nat) (ok : AllClassed s) : AllClassed (s.testGates k) := by
  unfold State.testGates
  split
  · exact ok
  · rename_i x _
    split
    · exact keep_ite _ ok (fun _ => classed_formSegmentSlot k (classed_still ok (effect_updSegment s k _)))
    · exact classed_still ok (effect_updSegment s k _)
    · exact keep_ite _ ok (fun _ => classed_formSegmentSlot k (classed_still (classed_still
        (classed_still ok (effect_updSegment s k _)) (effect_handLamps _ _ _)) (effect_recordDemand _ _ _)))
    · exact ok

theorem classed_arms : ArmKept [.slots, .priority] AllClassed where
  rests := classed_rests
  notices := rfl
  reserve s ok := classed_still ok (effect_updateReserve s)
  test _ k ok := classed_testGates k ok
  move s g _ f ok _ _ := classed_still ok (effect_updGate s g f)
  start s g _ ok _ _ _ := classed_still ok (effect_updGate s g _)

theorem classed_followUp {s : State} (k : Nat) (ok : AllClassed s) : AllClassed (s.followUp k) := by
  unfold State.followUp
  split
  · exact ok
  · rename_i x _
    have lamps := classed_still ok (effect_handLamps s x.cfg.gates x.wantedLamps)
    refine classed_formSegmentSlot k (keep_cases _ (fun _ => lamps) (fun _ => ?_))
    exact classed_testGates _ (keep_fold _ (fun _ g ok => classed_arms.applyRecorded g ok) _
      (classed_still (classed_still lamps (effect_updSegment _ k _)) (effect_recordDemand _ _ _)))

theorem classed_road : RoadKept [.slots, .priority] AllClassed (fun _ => AllClassed) where
  toArmKept := classed_arms
  quiet := rfl
  restsBut _ := classed_rests
  slot _ k ok := classed_formSegmentSlot k ok
  weather _ k ok := classed_formWeather k ok
  mode s silent ok := classed_still ok (effect_evaluateMode s silent)
  ended _ n cause tell ok := classed_endPosted n cause tell ok
  endedBut _ _ n cause tell ok := classed_endPosted n cause tell ok
  linkedBut _ _ n link ok := classed_linkSlot n link ok
  but _ _ := id
  claims _ _ _ ok _ _ := ok
  recompute k s ok := classed_arms.withSegmentNotice k _ (classed_followUp k (classed_still ok (effect_stepSegment s k)))
  follow s k _ f ok _ _ := classed_followUp k (classed_still ok (effect_updSegment s k f))

/-! ### The commands on slots -/

theorem classed_postMessage {s : State} (m : Master) (body : List Byte) (ok : AllClassed s) :
    AllClassed (s.postMessage m body).state := by
  unfold State.postMessage
  split
  · exact ok
  · split
    · exact ok
    · refine classed_writeSlot _ _ ok (fun x _ c hc => ?_)
      cases hc
      rfl

theorem classed_writePriorityMap (s : State) (entries : List (Nat × Nat)) : AllClassed (s.writePriorityMap entries) := by
  refine classed_reselect (fun x hx c hc => ?_)
  obtain ⟨y, -, rfl⟩ := List.mem_map.1 hx
  obtain ⟨d, -, rfl⟩ := Option.map_eq_some_iff.1 hc
  rfl

theorem classed_setPriorityMap {s : State} (m : Master) (body : List Byte) (ok : AllClassed s) :
    AllClassed (s.setPriorityMap m body).state := by
  unfold State.setPriorityMap
  split
  · exact ok
  · split
    · exact ok
    · exact classed_writePriorityMap s _

theorem classed_setClock {s : State} (m : Master) (body : List Byte) (ok : AllClassed s) :
    AllClassed (s.setClock m body).state := by
  unfold State.setClock
  split
  · exact ok
  · split
    · exact ok
    · have set : AllClassed { s with clocks := { s.clocks with display := some { minute := read2 body 0, setAt := s.now } } } :=
        ok
      exact keep_fold _ (fun t k ok => keep_ite _ ok (fun _ => classed_formSegmentSlot k ok)) _ set

theorem classed_workRow {c : Instr} {s t : State} (work : startRow c = false) (ok : AllClassed s)
    (h : exec c s = .next t) : AllClassed t := by
  cases side : sideRow c
  · exact classed_road.row side ok h
  · cases c
    case postMessage m => exact classed_road.command ok h rfl (fun body _ ok => classed_postMessage m body ok)
    case setPriorityMap m => exact classed_road.command ok h rfl (fun body _ ok => classed_setPriorityMap m body ok)
    case setClock m => exact classed_road.command ok h rfl (fun body _ ok => classed_setClock m body ok)
    case replyReceived bytes => exact RoadKept.timer ok h rfl (classed_road.replyReceived (by rfl) bytes ok)
    case setSignDisable | setSignEnable | transactionStart | messageSent | echoMismatch | replyTimeout | refreshDue | probeDue
      | lineRecovery => exact classed_rests.keep_exec ok h
    all_goals simp [startRow, sideRow] at work side

/-! ### No sign described -/

/-- A step over every sign does nothing where no sign is described. -/
theorem eachSign_bare {s : State} (f : State → Nat → State) (bare : s.line.signs = []) : s.eachSign f = s := by
  simp [State.eachSign, bare]

theorem reselect_bare {s : State} (bare : s.line.signs = []) : s.reselect = s := by
  simp [State.reselect, bare]

theorem handMode_bare {s : State} (old : Mode) (bare : s.line.signs = []) : s.handMode old = s := by
  simp [State.handMode, reselect_bare bare, eachSign_bare _ bare]

theorem frame_evaluateMode_bare {s : State} (silent : Bool) (bare : s.line.signs = []) :
    Frame (.mode :: noticeParts) s (s.evaluateMode silent) := by
  have mode (x : Mode) : Frame (.mode :: noticeParts) s { s with power := { s.power with mode := x } } :=
    Moves.frame_mono (by decide) (frame_mode s x)
  unfold State.evaluateMode
  dsimp only
  split
  · exact Moves.frame_refl _ s
  · split
    · rw [handMode_bare (s := { s with power := { s.power with mode := s.power.nextMode } }) _ bare]
      exact mode _
    · have told := effect_tellAll { s with power := { s.power with mode := s.power.nextMode } }
        (State.powerModeNotice { s with power := { s.power with mode := s.power.nextMode } }) .powerMode
      rw [handMode_bare _ ((told.frame .signs (by decide)).trans bare)]
      exact Moves.frame_trans (mode _) (Moves.frame_mono (by decide) told.frame)

theorem frame_updateReserve_bare {s : State} (bare : s.line.signs = []) :
    Frame (.reserve :: .mode :: noticeParts) s s.updateReserve := by
  unfold State.updateReserve
  dsimp only
  split
  · exact Moves.frame_refl _ s
  · exact Moves.frame_trans (Moves.frame_mono (by decide) (frame_reserve s _))
      (Moves.frame_mono (by decide) (frame_evaluateMode_bare false bare))

theorem frame_publish_bare {s : State} (c : Nat) (x : Channel) (q : Quality) (bare : s.line.signs = []) :
    Frame (.channels :: noticeParts) s (s.publish c x q) := by
  have set := Moves.frame_mono (k := .channels :: noticeParts) (by decide) (effect_setChannel s c x).frame
  have formed : (s.setChannel c x).formWeatherFrom c x = s.setChannel c x := by
    simp [State.formWeatherFrom, bare]
  unfold State.publish
  rw [formed]
  dsimp only
  split
  · exact set
  · exact Moves.frame_trans set (Moves.frame_mono (by decide) (effect_tellAll _ _ .channelState).frame)

/-- Rows without a described corridor touch no slot and no sign either, where no sign is described. -/
theorem frame_signless {c : Instr} {s t : State} (work : startRow c = false) (bare : s.described = false)
    (signs : s.line.signs = []) (h : exec c s = .next t) : Frame bareParts s t := by
  have publish (c : Nat) (x : Channel) (q : Quality) : Frame bareParts s (s.publish c x q) :=
    Moves.frame_mono (by decide) (frame_publish_bare c x q signs)
  exact frame_bare_of work bare h rfl publish (fun c raws => frame_conversionDone_bare c raws bare rfl (by decide) (publish c)
    (fun u kept => Moves.frame_mono (by decide) (frame_evaluateMode_bare false ((kept .signs (by decide)).trans signs))))

/-! ### The rows -/

theorem classes_rests : RestsOn [.slots, .priority, .signs, .records, .loader] ClassesOk := fun s t same ok => by
  have slots : t.store.slots = s.store.slots := same .slots (by simp)
  have signs : t.line.signs = s.line.signs := same .signs (by simp)
  have records : t.segs.records = s.segs.records := same .records (by simp)
  have loader : t.loader = s.loader := same .loader (by simp)
  refine ⟨classed_rests s t (fun p hp => same p (by simp at hp ⊢; tauto)) ok.classes, fun bare => ?_⟩
  rw [slots, signs, records]
  exact ok.undescribed (by simpa [State.described, loader] using bare)

theorem classesOk_described {s : State} (ok : AllClassed s) (described : s.described = true) : ClassesOk s :=
  ⟨ok, fun bare => by simp [described] at bare⟩

theorem classesOk_invalid {s : State} (invalid : ∀ x ∈ s.store.slots, x.content = none) (signs : s.line.signs = [])
    (records : s.segs.records = []) : ClassesOk s :=
  ⟨allClassed_of_invalid invalid, fun _ => ⟨signs, records, invalid⟩⟩

theorem reset_invalid : ∀ x ∈ State.reset.store.slots, x.content = none := fun x hx => by
  rw [(List.mem_replicate.1 hx).2]
  rfl

theorem classesOk_endNoCorridor {s : State} (report : LoadReport) (invalid : ∀ x ∈ s.store.slots, x.content = none) :
    ClassesOk (s.endNoCorridor report) := by
  have dropped : ClassesOk (s.dropCorridor report) := classesOk_invalid invalid rfl rfl
  have updated : ClassesOk (s.dropCorridor report).updateReserve := classes_rests.keep dropped (frame_updateReserve_bare rfl)
  exact ⟨updated.classes, updated.undescribed⟩

theorem classed_endDescribed {s : State} (d : Description) (state : PartState) (report : LoadReport)
    (invalid : ∀ x ∈ s.store.slots, x.content = none) : AllClassed (s.endDescribed d state report) := by
  have maps : AllClassed (s.deriveMaps d) := allClassed_of_invalid (by
    rw [show (s.deriveMaps d).store.slots = s.store.slots from (effect_deriveMaps s d).frame .slots (by decide)]
    exact invalid)
  have gates := classed_still maps (effect_deriveGates _ d.gates)
  have shut : AllClassed (((s.deriveMaps d).deriveGates d.gates).deriveSegments d.segments) := by
    refine keep_fold (P := AllClassed) _ (fun t k ok => ?_) _ gates
    unfold State.handSegment
    split
    · exact ok
    · exact classed_formSegmentSlot _ (classed_still (classed_still ok (effect_recordDemand t _ _)) (effect_handLamps _ _ _))
  have paths := classed_road.derivePaths d.paths shut
  exact keep_endDescribed classed_rests _ _
    (classed_reselect (keep_fold (P := AllClassed) _ (fun _ k ok => classed_formWeather k ok) _ paths))

theorem classes_starts : StartKept ClassesOk where
  held s _ := classesOk_invalid reset_invalid rfl rfl
  restarted s _ := classesOk_invalid reset_invalid rfl rfl
  loaded s image loading ok := by
    obtain ⟨-, -, invalid⟩ := ok.undescribed (by simp [State.described, loading])
    unfold State.endLoad
    split
    · exact classesOk_endNoCorridor _ invalid
    · refine classesOk_described (classed_endDescribed _ _ _ invalid) ?_
      simp only [State.endDescribed, State.described]
      split <;> rfl
  reloaded s _ _ := classesOk_invalid (fun x hx => by
    obtain ⟨y, -, rfl⟩ := List.mem_map.1 hx
    rfl) rfl rfl

theorem classesOk_row {c : Instr} {s t : State} (ok : ClassesOk s) (h : exec c s = .next t) : ClassesOk t := by
  cases start : startRow c
  · cases described : s.described
    · exact classes_rests.keep ok (frame_signless start described (ok.undescribed described).1 h)
    · exact classesOk_described (classed_workRow start ok.classes h) ((described_of_work start h).trans described)
  · exact classes_starts.row classes_rests start ok h

theorem classesOk_tick (s : State) (ok : ClassesOk s) : ClassesOk s.tick := by
  have loader : s.tick.loader = s.loader := tick_frame s .loader (by decide)
  cases described : s.described
  · unfold State.tick
    rw [if_neg (by simpa [State.tickAlways, State.described] using described)]
    exact ⟨ok.classes, fun _ => ok.undescribed described⟩
  · exact classesOk_described (classed_rests.keep ok.classes (tick_frame s)) (by simpa [State.described, loader] using described)

/-- Settles O14: every content is formed with the class of its origin, and without a description no slot is valid. -/
theorem slotClassesFollowTheMap : Obligations.SlotClassesFollowTheMap :=
  step_keeps classes_rests (fun _ _ _ => classesOk_row) classesOk_tick

end Sys2Proof.Proofs
end

