-- ==== Sys2Proof/Proofs/PortRecords.lean ====
section
/-! The slots and notices of a port within their bounds (R165, R169). A notice joins a queue only as `Port.take` lets it, so
the rows that raise notices keep the queues; the slots move only with a command's answer and with a transfer. -/

namespace Sys2Proof.Proofs

open Sys2Proof.Machine Sys2Proof.Safety Sys2Proof.Laws

/-! ### One port replaced -/

theorem portsOk_setPort {s : State} {m : Master} {p : Port} (ok : PortsOk s) (port : PortOk p) : PortsOk (s.setPort m p) :=
  fun k => by
    obtain rfl | other := eq_or_ne k m
    · rw [port_setPort]
      exact port
    · rw [port_setPort_ne s other]
      exact ok k

/-- The ports are sound, and one request slot of port m is EMPTY. -/
structure OneEmpty (s : State) (m : Master) : Prop where
  ports : PortsOk s
  empty : (s.port m).queued.length + (s.port m).done.length < Config.requestSlots

namespace OneEmpty

variable {s : State} {m : Master}

theorem takeQueued {r : Request} {rest : List Request} (ok : PortsOk s) (oldest : (s.port m).queued = r :: rest) :
    OneEmpty (s.takeQueued m rest) m := by
  have slots := (ok m).slots
  rw [oldest, List.length_cons] at slots
  refine ⟨portsOk_setPort ok ⟨by dsimp only; omega, (ok m).room, (ok m).keys⟩, ?_⟩
  rw [State.takeQueued, port_setPort]
  dsimp only
  omega

theorem finish (h : OneEmpty s m) (x : Response) : PortsOk (s.finish m x) := by
  refine portsOk_setPort h.ports ⟨?_, (h.ports m).room, (h.ports m).keys⟩
  have empty := h.empty
  simp only [List.length_append, List.length_singleton]
  omega

theorem effect {l : List Part} {K : List NoticeKind} {t : State} (h : OneEmpty s m) (e : Effect l K s t) : OneEmpty t m :=
  ⟨e.ports h.ports, by rw [e.queued, e.done]; exact h.empty⟩

theorem setPort {p : Port} (h : OneEmpty s m) (slots : p.queued.length + p.done.length =
    (s.port m).queued.length + (s.port m).done.length) (room : p.notices.length ≤ Config.noticeQueueSize)
    (keys : p.notices.Pairwise (fun a b => a.sameKey b = false)) : OneEmpty (s.setPort m p) m := by
  refine ⟨portsOk_setPort h.ports ⟨slots ▸ (h.ports m).slots, room, keys⟩, ?_⟩
  rw [port_setPort, slots]
  exact h.empty

theorem fetchNotice (h : OneEmpty s m) : OneEmpty (s.fetchNotice m).state m := by
  unfold State.fetchNotice
  dsimp only
  split
  · exact h
  · rename_i n rest queue
    have room := (h.ports m).room
    have keys := (h.ports m).keys
    rw [queue] at room keys
    exact h.setPort rfl ((Nat.le_succ _).trans room) keys.of_cons

theorem setMask (h : OneEmpty s m) (mask : Word16) : OneEmpty (s.setMask m mask).state m := by
  unfold State.setMask
  split
  · exact h
  · exact h.setPort rfl (h.ports m).room (h.ports m).keys

theorem cutOff (h : OneEmpty s m) : OneEmpty (s.setPort m (s.port m).cutOff) m :=
  h.setPort (by simp [Port.cutOff, Nat.add_comm]) (Nat.zero_le _) .nil

theorem reloaded (h : OneEmpty s m) : OneEmpty s.reloaded m := by
  have port (k : Master) : s.reloaded.port k = (s.port k).reloaded (restartedNotice .reload s.now) := by cases k <;> rfl
  refine ⟨fun k => ?_, by rw [port]; exact h.empty⟩
  rw [port]
  exact ⟨(h.ports k).slots, by simp [Port.reloaded, Config.noticeQueueSize], List.pairwise_singleton _ _⟩

theorem reload {k : Master} (h : OneEmpty s m) : OneEmpty (s.reload k).state m := by
  unfold State.reload
  split
  · exact h
  · split
    · exact h
    · split
      · exact h
      · exact h.reloaded

end OneEmpty

/-- A command whose owning block leaves a slot EMPTY keeps the ports. -/
theorem portsOk_execute {s : State} {m : Master} {d : Command} {applies : List Byte → Bool}
    {owner : List Byte → State → Answer} (ok : PortsOk s) (answer : ∀ body u, OneEmpty u m → OneEmpty (owner body u).state m) :
    PortsOk (s.execute m d applies owner) :=
  execute_keeps m d applies owner ok (fun _ r _ x oldest =>
    have taken := OneEmpty.takeQueued ok oldest
    ⟨taken.finish x, fun _ => (answer r.body _ taken).finish x⟩)

/-! ### Resets and transfers -/

theorem portOk_reset {notices : List Notice} (room : notices.length ≤ 1) : PortOk (resetPort notices) := by
  refine ⟨Nat.zero_le _, room.trans (by decide), ?_⟩
  match notices, room with
  | [], _ => exact .nil
  | [n], _ => exact List.pairwise_singleton _ _

theorem portsOk_reset {s : State} {notices : List Notice} (ports : s.ports = resetPorts notices)
    (room : notices.length ≤ 1) : PortsOk s := fun m => by
  rw [State.port, ports]
  cases m <;> exact portOk_reset room

theorem endOutgoing_ok {p : Port} (t : Transfer) (n : Nat) (ok : PortOk p) : PortOk (p.endOutgoing t n) := by
  unfold Port.endOutgoing
  split
  · refine ⟨?_, ok.room, ok.keys⟩
    have slots := ok.slots
    dsimp only
    split
    · rw [List.length_tail]
      omega
    · exact slots
  · exact ⟨ok.slots, ok.room, ok.keys⟩

theorem takeIncoming_ok {p : Port} (bytes : List Byte) (ok : PortOk p) : PortOk (p.takeIncoming bytes) := by
  have fits (some : ¬ p.free = 0) : p.queued.length + p.done.length + 1 ≤ Config.requestSlots := by
    unfold Port.free at some
    omega
  unfold Port.takeIncoming
  split
  · exact ok
  · split
    · exact ⟨ok.slots, ok.room, ok.keys⟩
    · rename_i some
      exact ⟨by simpa [Nat.add_assoc] using fits some, ok.room, ok.keys⟩
  · split
    · exact ⟨ok.slots, ok.room, ok.keys⟩
    · rename_i some
      refine ⟨?_, ok.room, ok.keys⟩
      have := fits some
      simp only [List.length_append, List.length_singleton]
      omega

/-! ### The rows -/

theorem ports_rests : RestsOn [.queued, .done, .notices] PortsOk := fun s t same ok m => by
  have queued : (t.port m).queued = (s.port m).queued := same .queued (by simp) m
  have done : (t.port m).done = (s.port m).done := same .done (by simp) m
  have notices : (t.port m).notices = (s.port m).notices := same .notices (by simp) m
  exact ⟨by rw [queued, done]; exact (ok m).slots, by rw [notices]; exact (ok m).room, by rw [notices]; exact (ok m).keys⟩

/-- The rows of resets and ports keep the ports. -/
theorem portsOk_portRow {c : Instr} {s t : State} (port : portRow c = true) (ok : PortsOk s) (h : exec c s = .next t) :
    PortsOk t := by
  cases c
  case powerOn => cases h; exact portsOk_reset rfl (by simp)
  case pinReset => cases h; exact portsOk_reset rfl (by simp)
  case lowSupply => cases h; exact portsOk_reset rfl (by simp)
  case resetEnd =>
    cases h
    split
    · exact ok
    · exact portsOk_reset rfl (by simp)
  case transferStart m =>
    cases h
    exact keep_cases _ (fun _ => ok) (fun _ => portsOk_setPort ok ⟨(ok m).slots, (ok m).room, (ok m).keys⟩)
  case transferEnd m bytes =>
    cases h
    split
    · exact ok
    · exact keep_cases _ (fun _ => ok) (fun _ => portsOk_setPort ok (takeIncoming_ok _ (endOutgoing_ok _ _ (ok m))))
  case unknownCommand m =>
    cases h
    unfold State.executeUnknown
    split
    · exact ok
    · split
      · exact ok
      · rename_i r rest oldest
        exact keep_ite _ ok (fun _ => (OneEmpty.takeQueued ok oldest).finish _)
  case fetchNotice m => cases h; exact portsOk_execute ok (fun _ _ empty => empty.fetchNotice)
  case setNoticeMask m => cases h; exact portsOk_execute ok (fun _ _ empty => empty.setMask _)
  case resetPort m => cases h; exact portsOk_execute ok (fun _ _ empty => empty.cutOff)
  case reload m => cases h; exact portsOk_execute ok (fun _ _ empty => empty.reload)
  all_goals simp [portRow] at port

theorem portsOk_row {c : Instr} {s t : State} (ok : PortsOk s) (h : exec c s = .next t) : PortsOk t := by
  cases row c with
  | event f runs effect =>
    rw [runs] at h
    cases h
    exact (effect s).ports ok
  | command m d applies owner runs answers =>
    rw [runs] at h
    cases h
    exact portsOk_execute ok (fun body u empty => empty.effect (answers body u))
  | portCommand _ _ _ _ _ _ port => exact portsOk_portRow port ok h
  | portEvent _ _ _ port => exact portsOk_portRow port ok h

/-- Settles O5: a command frees the slot that its response takes, and a frame is taken only into an EMPTY slot. -/
theorem portsStayWithinTheirSlots : Obligations.PortsStayWithinTheirSlots :=
  step_keeps ports_rests (fun _ _ _ => portsOk_row) (fun s ok => ports_rests.keep ok (tick_frame s))

end Sys2Proof.Proofs
end

