-- ==== Sys2Proof/Proofs/PathRecords.lean ====
section
/-! The bounds of a path record (R119). Every change of a record by the hazard engine is a `PathMove`; `HazardKept` says what
a predicate must bear to be kept by the operations of the hazard engine, each a move of one record followed, where level or
latch may have changed, by the handing over of its calls. -/

namespace Sys2Proof.Proofs

open Sys2Proof.Machine Sys2Proof.Safety Sys2Proof.Laws

/-! ### The moves of a path's record -/

/-- A change of a path's record that keeps what is described and the bounds. -/
structure PathMove (x y : Path) : Prop where
  cfg : y.cfg = x.cfg
  sound : PathOk x → PathOk y

theorem rawLevel_bounds (c : PathConfig) (loading : Nat) : 1 ≤ c.rawLevel loading ∧ c.rawLevel loading ≤ 5 := by
  unfold PathConfig.rawLevel
  repeat' split
  all_goals decide

theorem wetLevel_bounds {raw : Nat} (air : Option Int) (loading : Nat) (h : 1 ≤ raw ∧ raw ≤ 5) :
    1 ≤ wetLevel raw air loading ∧ wetLevel raw air loading ≤ 5 := by
  unfold wetLevel
  split
  · exact ⟨Nat.le_min.2 ⟨by decide, by omega⟩, Nat.min_le_left _ _⟩
  · exact h

theorem newLoading_le (loading settle snow drift : Nat) : newLoading loading settle snow drift ≤ 9999 := Nat.min_le_left _ _

/-- R132: the lifted level is the greater of the level and the floor. -/
theorem lifted_bounds {x : Path} {level : Nat} (ok : PathOk x) (least : 1 ≤ level) (most : level ≤ 5) :
    1 ≤ x.lifted level ∧ x.lifted level ≤ 5 ∧ ∀ f, x.floor = some f → 1 ≤ f.level ∧ f.level ≤ x.lifted level := by
  refine ⟨least.trans (Nat.le_max_left _ _), Nat.max_le.2 ⟨most, ?_⟩, fun f hf => ⟨(ok.floor f hf).1, ?_⟩⟩
  · cases hf : x.floor with
    | none => exact Nat.zero_le _
    | some f => exact (ok.floor f hf).2.trans ok.most
  · rw [Path.lifted, hf]
    exact Nat.le_max_right _ _

theorem hysteresis_bounds {x : Path} {raw : Nat} (loading : Nat) (ok : PathOk x) (h : 1 ≤ raw ∧ raw ≤ 5) :
    1 ≤ (x.hysteresis raw loading).1 ∧ (x.hysteresis raw loading).1 ≤ 5 ∧ (x.hysteresis raw loading).2 ≤ 255 := by
  have least := ok.least
  have most := ok.most
  unfold Path.hysteresis
  split
  · exact ⟨h.1, h.2, Nat.zero_le _⟩
  · split
    · rename_i drop
      exact ⟨by dsimp only; omega, by dsimp only; omega, Nat.zero_le _⟩
    · exact ⟨least, most, Nat.min_le_left _ _⟩

theorem reduced_le {x : Path} (ok : PathOk x) : x.reduced ≤ x.loading := by
  rw [Path.reduced, Nat.div_le_iff_le_mul_add_pred (by decide)]
  have := Nat.mul_le_mul_left x.loading ok.residual
  omega

namespace PathMove

theorem period (x : Path) (r : Readings) (period now : Nat) : PathMove x (x.period r period now) := by
  refine ⟨rfl, fun ok => ?_⟩
  have raw := wetLevel_bounds r.air (x.figures r period now).newLoading
    (rawLevel_bounds x.cfg (x.figures r period now).newLoading)
  obtain ⟨least, most, dwell⟩ := hysteresis_bounds (x.figures r period now).newLoading ok raw
  obtain ⟨lifted, top, floor⟩ := lifted_bounds ok least most
  exact ⟨lifted, top, newLoading_le _ _ _ _, dwell, ok.residual, floor⟩

theorem seed (x : Path) (r : Readings) (i : Int) : PathMove x (x.seed r (clampLoading i)) := by
  refine ⟨rfl, fun ok => ?_⟩
  obtain ⟨least, most⟩ := wetLevel_bounds r.air (clampLoading i) (rawLevel_bounds x.cfg (clampLoading i))
  obtain ⟨lifted, top, floor⟩ := lifted_bounds ok least most
  exact ⟨lifted, top, Nat.min_le_left _ _, Nat.zero_le _, ok.residual, floor⟩

theorem detect (x : Path) (kind : DetectionKind) : PathMove x (x.detect kind) := by
  have less (ok : PathOk x) := (reduced_le ok).trans ok.loading
  cases kind with
  | release => exact ⟨rfl, fun ok => ⟨ok.least, ok.most, less ok, ok.dwell, ok.residual, ok.floor⟩⟩
  | deposit => exact ⟨rfl, fun ok => ⟨ok.least, ok.most, ok.loading, ok.dwell, ok.residual, ok.floor⟩⟩
  | controlled => exact ⟨rfl, fun ok => ⟨ok.least, ok.most, less ok, ok.dwell, ok.residual, ok.floor⟩⟩

theorem clear (x : Path) : PathMove x { x with latch := .clear } :=
  ⟨rfl, fun ok => ⟨ok.least, ok.most, ok.loading, ok.dwell, ok.residual, ok.floor⟩⟩

theorem noFloor (x : Path) : PathMove x { x with floor := none } :=
  ⟨rfl, fun ok => ⟨ok.least, ok.most, ok.loading, ok.dwell, ok.residual, by simp⟩⟩

theorem setFloor (x : Path) {level : Nat} (duration now : Nat) (least : 1 ≤ level) (most : level ≤ 5) :
    PathMove x (x.setFloor level duration now) := by
  unfold Path.setFloor
  split
  · exact noFloor x
  · dsimp only
    split
    · refine ⟨rfl, fun ok => ⟨least, most, ok.loading, Nat.zero_le _, ok.residual, fun f hf => ?_⟩⟩
      cases hf
      exact ⟨least, Nat.le_refl _⟩
    · rename_i above
      refine ⟨rfl, fun ok => ⟨ok.least, ok.most, ok.loading, ok.dwell, ok.residual, fun f hf => ?_⟩⟩
      cases hf
      exact ⟨least, Nat.le_of_not_lt above⟩

end PathMove

/-! ### The operations of the hazard engine -/

/-- A predicate P kept by the operations of the hazard engine; B n leaves out the claims that path n calls for. -/
structure HazardKept (parts : List Part) (P : State → Prop) (B : Nat → State → Prop) : Prop where
  rests : RestsOn parts P
  notices : apart parts noticeParts = true
  same : ∀ (s : State) (n : Nat) (x : Path) (f : Path → Path), P s → s.hazard.paths[n]? = some x → PathMove x (f x) →
    (f x).level = x.level → (f x).latch = x.latch → P (s.updPath n f)
  free : ∀ (s : State) (n : Nat) (x : Path) (f : Path → Path), P s → s.hazard.paths[n]? = some x → PathMove x (f x) →
    B n (s.updPath n f)
  hand : ∀ (s : State) (n : Nat), B n s → P (s.handOver n)

/-- The rows of the hazard engine. -/
def hazardRow : Instr → Bool
  | .hazardPeriodExpiry | .floorEnd _ | .reportDetection _ | .clearPath _ | .setPathFloor _ | .seedPath _
  | .debounceExpiry _ => true
  | _ => false

namespace HazardKept

variable {parts : List Part} {P : State → Prop} {B : Nat → State → Prop} (kept : HazardKept parts P B) {s : State}
include kept

theorem told {n : Nat} {old : Path} (ok : P s) : P (s.tellPath n old) :=
  kept.rests.keep_effect ok (effect_tellPath s n old) kept.notices

theorem toldInput {n : Nat} {old : Path} (ok : P s) : P (s.tellInput n old) :=
  kept.rests.keep_effect ok (effect_tellInput s n old) kept.notices

theorem handed {n : Nat} {x : Path} (f : Path → Path) (ok : P s) (at_n : s.hazard.paths[n]? = some x)
    (move : PathMove x (f x)) : P ((s.updPath n f).handOver n) := kept.hand _ n (kept.free s n x f ok at_n move)

theorem computePath (n : Nat) (ok : P s) : P (s.computePath n) := by
  unfold State.computePath
  split
  · exact ok
  · rename_i p at_n
    have move := PathMove.period p (s.readings p.cfg) s.hazard.period s.now
    exact kept.toldInput (kept.told (keep_cases _ (fun level => kept.same s n p _ ok at_n move level rfl)
      (fun _ => kept.handed _ ok at_n move)))

theorem expirePeriod (apart : apart parts [.period] = true) (ok : P s) : P s.expirePeriod := by
  have later := kept.rests.keep ok (frame_period s s.hazard.period (s.hazard.nextExpiry + s.hazard.period)) apart
  unfold State.expirePeriod
  exact keep_cases _ (fun _ => keep_fold (P := P) _ (fun _ n ok => kept.computePath n ok) _ later) (fun _ => later)

theorem endFloor (n : Nat) (ok : P s) : P (s.endFloor n) := by
  unfold State.endFloor
  split
  · exact ok
  · rename_i f at_f
    obtain ⟨p, at_n, -⟩ := Option.bind_eq_some_iff.1 at_f
    exact keep_ite _ ok (fun _ => kept.handed _ ok at_n (.noFloor p))

theorem takeDetection (n : Nat) (kind : DetectionKind) (ok : P s) : P (s.takeDetection n kind) := by
  unfold State.takeDetection
  split
  · exact ok
  · rename_i p at_n
    have level : (p.detect kind).level = p.level := by cases kind <;> rfl
    exact keep_cases _ (fun latch => kept.same s n p _ ok at_n (.detect p kind) level latch)
      (fun _ => kept.handed _ ok at_n (.detect p kind))

theorem detection (n : Nat) (kind : DetectionKind) (ok : P s) : P (s.detection n kind) := by
  unfold State.detection
  split
  · exact ok
  · exact kept.told (kept.takeDetection n kind ok)

theorem deliverPaths (line : Nat) (asserted : Bool) (ok : P s) : P (s.deliverPaths line asserted) := by
  refine keep_fold (P := P) _ (fun t n ok => ?_) _ ok
  split
  · exact keep_ite _ ok (fun _ => kept.detection n _ ok)
  · exact ok

theorem reportDetection (m : Master) (body : List Byte) (ok : P s) : P (s.reportDetection m body).state := by
  unfold State.reportDetection
  split
  · exact ok
  · split
    · exact kept.detection _ _ ok
    · exact ok

theorem clearPath (m : Master) (body : List Byte) (ok : P s) : P (s.clearPath m body).state := by
  unfold State.clearPath
  split
  · exact ok
  · rename_i p at_n
    split
    · exact ok
    · split
      · exact ok
      · exact keep_cases _ (fun _ => ok) (fun _ => kept.told (kept.handed _ ok at_n (.clear p)))

theorem setPathFloor (m : Master) (body : List Byte) (ok : P s) : P (s.setPathFloor m body).state := by
  unfold State.setPathFloor
  dsimp only
  split
  · exact ok
  · split
    · exact ok
    · rename_i p at_n
      split
      · exact ok
      · exact kept.told (kept.handed _ ok at_n (.setFloor p _ _ (by omega) (by omega)))

theorem seedPath (m : Master) (body : List Byte) (ok : P s) : P (s.seedPath m body).state := by
  unfold State.seedPath
  dsimp only
  split
  · exact ok
  · split
    · exact ok
    · rename_i p at_n
      exact kept.toldInput (kept.told (kept.handed _ ok at_n (.seed p _ _)))

/-- R138: trip lines that stand asserted when the paths are derived. -/
theorem derivePaths (paths : List PathConfig)
    (ok : P { s with hazard := { s.hazard with paths := paths.map PathConfig.newRecord } }) : P (s.derivePaths paths) := by
  refine keep_fold (P := P) _ (fun t n ok => ?_) _ ok
  unfold State.takeTripLine
  split
  · exact ok
  · exact keep_ite _ ok (fun _ => kept.takeDetection n _ ok)

/-- A row of the hazard engine. -/
theorem row (away : apart parts (.inputs :: .period :: roadParts ++ answerParts) = true) {c : Instr} {t : State}
    (hazard : hazardRow c = true) (ok : P s) (h : exec c s = .next t) : P t := by
  have apartFrom (l : List Part) (sub : inside l (.inputs :: .period :: roadParts ++ answerParts) = true) :
      apart parts l = true := apart_of_inside away sub
  have command (m : Master) (d : Command) (applies : List Byte → Bool) (owner : List Byte → State → Answer)
      (answer : ∀ body u, P u → P (owner body u).state) : P (s.execute m d applies owner) :=
    kept.rests.keep_execute m d applies owner ok (fun body u _ _ ok => answer body u ok) (apartFrom _ rfl)
  cases c
  case hazardPeriodExpiry => cases h; exact keep_ite _ ok (fun _ => kept.expirePeriod (apartFrom _ rfl) ok)
  case floorEnd n => cases h; exact keep_whenRunning _ ok (fun _ _ => kept.endFloor n ok)
  case reportDetection m => cases h; exact command m _ _ _ (fun body _ ok => kept.reportDetection m body ok)
  case clearPath m => cases h; exact command m _ _ _ (fun body _ ok => kept.clearPath m body ok)
  case setPathFloor m => cases h; exact command m _ _ _ (fun body _ ok => kept.setPathFloor m body ok)
  case seedPath m => cases h; exact command m _ _ _ (fun body _ ok => kept.seedPath m body ok)
  case debounceExpiry l =>
    cases h
    split
    · exact ok
    · refine keep_ite _ ok (fun _ => ?_)
      have settled := kept.rests.keep_effect ok (effect_updLine s l InputLine.settle) (apartFrom _ rfl)
      unfold State.deliver
      exact keep_ite _ settled (fun _ => kept.deliverPaths _ _
        (kept.rests.keep_effect settled (effect_deliverGates _ _ _) (apartFrom _ rfl)))
  all_goals simp [hazardRow] at hazard

end HazardKept

/-! ### The bounds of the records -/

theorem paths_rests : RestsOn [.paths] PathsOk := fun s t same ok => by
  have paths : t.hazard.paths = s.hazard.paths := same .paths (by simp)
  rw [PathsOk, paths]
  exact ok

theorem pathsOk_upd {s : State} {n : Nat} {x : Path} {f : Path → Path} (ok : PathsOk s)
    (at_n : s.hazard.paths[n]? = some x) (move : PathMove x (f x)) : PathsOk (s.updPath n f) := by
  intro y hy
  obtain ⟨j, hj⟩ := List.mem_iff_getElem?.1 hy
  rw [updPath_paths, List.getElem?_modify] at hj
  obtain ⟨z, hz, rfl⟩ := Option.map_eq_some_iff.1 hj
  have okz := ok z (List.mem_of_getElem? hz)
  split
  · rename_i here
    subst here
    rw [at_n] at hz
    cases hz
    exact move.sound okz
  · exact okz

theorem paths_hazard : HazardKept [.paths] PathsOk (fun _ => PathsOk) where
  rests := paths_rests
  notices := rfl
  same _ _ _ _ ok at_n move _ _ := pathsOk_upd ok at_n move
  free _ _ _ _ ok at_n move := pathsOk_upd ok at_n move
  hand s n ok := paths_rests.keep_effect ok (effect_handOver s n)

theorem pathsOk_nil {s : State} (h : s.hazard.paths = []) : PathsOk s := by
  rw [PathsOk, h]
  exact List.forall_mem_nil _

theorem pathOk_new {c : PathConfig} (residual : c.residual ≤ 100) : PathOk c.newRecord :=
  ⟨Nat.le_refl _, by simp [PathConfig.newRecord], Nat.zero_le _, Nat.zero_le _, residual, by simp [PathConfig.newRecord]⟩

theorem Checked.residual {d : Description} (checked : Checked d) {c : PathConfig} (h : c ∈ d.paths) : c.residual ≤ 100 := by
  obtain ⟨r, rfl, range⟩ := checked.paths c h
  simp only [pathRangeOk, Bool.and_eq_true, decide_eq_true_eq] at range
  exact range.1.2

theorem paths_starts : StartKept PathsOk where
  held _ _ := pathsOk_nil rfl
  restarted _ _ := pathsOk_nil rfl
  loaded s image _ _ := by
    unfold State.endLoad
    split
    · exact pathsOk_nil ((effect_updateReserve (s.dropCorridor _)).frame .paths (by decide))
    · rename_i d described
      have derived := paths_hazard.derivePaths (s := ((s.deriveMaps d).deriveGates d.gates).deriveSegments d.segments) d.paths
        (fun p hp => by
          obtain ⟨c, hc, rfl⟩ := List.mem_map.1 hp
          exact pathOk_new ((checked_loadImage described).residual hc))
      exact keep_endDescribed paths_rests _ _ (paths_rests.keep_effect derived (effect_deriveWeather _))
  reloaded _ _ _ := pathsOk_nil rfl

theorem pathsOk_row {c : Instr} {s t : State} (ok : PathsOk s) (h : exec c s = .next t) : PathsOk t := by
  cases start : startRow c
  · cases hazard : hazardRow c
    · have away : (startRow c || hazardRow c || !(touched c ++ answerParts).contains .paths) = true := by cases c <;> rfl
      exact paths_rests.keep_exec ok h (by simpa [start, hazard, apart] using away)
    · exact paths_hazard.row rfl hazard ok h
  · exact paths_starts.row paths_rests start ok h

/-- Settles O6: every move of a path's record keeps its bounds. -/
theorem pathsStayWithinTheirBounds : Obligations.PathsStayWithinTheirBounds :=
  step_keeps paths_rests (fun _ _ _ => pathsOk_row) (fun s ok => paths_rests.keep ok (tick_frame s))

end Sys2Proof.Proofs
end

