-- ==== Sys2Proof/Proofs/EnergyAccount.lean ====
section
/-! The energy account within the capacity (R146, R152 to R154): every stage of an update of the power controller keeps the
bounds, and a load holds the account to the capacity that it takes. -/

namespace Sys2Proof.Proofs

open Sys2Proof.Machine Sys2Proof.Safety Sys2Proof.Laws

/-- The account and its remainder are within the capacity in force (R152). -/
structure Fits (p : Power) : Prop where
  account : p.account ≤ p.params.capacity
  remainder : p.remainder < 3600

theorem fits_carry (p : Power) (current : Int) (now : Nat) : Fits (p.carry current now) := by
  unfold Power.carry
  dsimp only
  split
  · exact ⟨Nat.zero_le _, by simp⟩
  · split
    · exact ⟨Nat.le_refl _, by simp⟩
    · have := Int.emod_lt_of_pos (p.total current now) (show (0 : Int) < 3600 by decide)
      have := Int.emod_nonneg (p.total current now) (show (3600 : Int) ≠ 0 by decide)
      exact ⟨by dsimp only; omega, by dsimp only; omega⟩

theorem fits_enterCharge {p : Power} (c : ChargeState) (now : Nat) (h : Fits p) : Fits (p.enterCharge c now) := by
  unfold Power.enterCharge
  split
  · exact h
  · dsimp only
    split
    · exact ⟨Nat.le_refl _, by simp⟩
    · exact ⟨h.account, h.remainder⟩

theorem fits_recalibrate {p : Power} (r : PowerReadings) (h : Fits p) : Fits (p.recalibrate r) := by
  unfold Power.recalibrate
  split
  · exact ⟨Nat.div_le_self _ _, by simp⟩
  · exact h

theorem fits_setPoint {p : Power} (r : PowerReadings) (h : Fits p) : Fits (p.setPoint r) := by
  rw [setPoint_keeps]
  exact ⟨h.account, h.remainder⟩

theorem fits_update (p : Power) (r : PowerReadings) (now : Nat) : Fits (p.update r now) :=
  fits_setPoint r (fits_recalibrate r (fits_enterCharge _ now (fits_carry p.adopt r.current now)))

/-- R154: after a load the account is within the capacity taken with it. -/
theorem fits_loadAccount {p : Power} (cause : ResetCause) (remainder : p.remainder < 3600) : Fits (p.loadAccount cause) := by
  unfold Power.loadAccount
  split
  · split
    · exact ⟨Nat.le_refl _, by simp⟩
    · rename_i within
      exact ⟨Nat.le_of_not_lt within, remainder⟩
  · exact ⟨Nat.div_le_self _ _, by simp⟩

/-! ### The rows -/

theorem account_rests : RestsOn [.parameters, .account] AccountOk := fun s t same ok => by
  obtain ⟨params, -, taken, -⟩ := same .parameters (by simp)
  obtain ⟨account, remainder, -⟩ := same .account (by simp)
  exact ⟨by rw [params, taken]; exact ok.capacity, by rw [account, params]; exact ok.account,
    by rw [remainder]; exact ok.remainder⟩

theorem accountOk_of_fits {s : State} (capacity : s.power.params.capacity = s.power.taken.capacity) (h : Fits s.power) :
    AccountOk s := ⟨capacity, h.account, h.remainder⟩

theorem accountOk_powerUpdate (s : State) : AccountOk s.powerUpdate := by
  obtain ⟨params, -, taken, -⟩ := update_keeps s.power s.powerReadings s.now
  have updated : AccountOk { s with power := s.power.update s.powerReadings s.now } :=
    accountOk_of_fits (by dsimp only; rw [params, taken]) (fits_update _ _ _)
  have told : AccountOk (if (s.power.update s.powerReadings s.now).charge = s.power.charge then
      { s with power := s.power.update s.powerReadings s.now }
      else ({ s with power := s.power.update s.powerReadings s.now } : State).tellAll
        (({ s with power := s.power.update s.powerReadings s.now } : State).chargeNotice s.powerReadings)) :=
    keep_cases _ (fun _ => updated) (fun _ => account_rests.keep_effect updated (effect_tellAll _ _ .chargeState))
  exact account_rests.keep_effect told (effect_evaluateMode _ false)

theorem accountOk_endRound (s : State) : AccountOk s.endRound := by
  have fixed := account_rests.keep_effect (accountOk_powerUpdate s) (effect_fixRound _)
  unfold State.endRound
  exact keep_ite _ fixed (fun _ => account_rests.keep_effect fixed (effect_retryRaises _))

theorem accountOk_advanceRound {s : State} (c : Nat) (ok : AccountOk s) : AccountOk (s.advanceRound c) := by
  unfold State.advanceRound
  exact keep_ite _ (account_rests.keep ok (frame_round s _ _ _)) (fun _ => accountOk_endRound _)

theorem accountOk_conversionDone {s : State} (c : Nat) (raws : List Raw) (ok : AccountOk s) :
    AccountOk (s.conversionDone c raws) := by
  unfold State.conversionDone
  split
  · exact ok
  · split
    · exact ok
    · exact keep_cases _ (fun _ => ok)
        (fun _ => accountOk_advanceRound c (account_rests.keep_effect ok (effect_publish s c _ _)))

theorem accountOk_reset {s : State} (power : s.power = resetPower) : AccountOk s :=
  ⟨by rw [power]; rfl, by simp [power, resetPower, defaultParams], by simp [power, resetPower]⟩

theorem accountOk_of_power {s t : State} (same : t.power = s.power) (ok : AccountOk s) : AccountOk t :=
  ⟨by rw [same]; exact ok.capacity, by rw [same]; exact ok.account, by rw [same]; exact ok.remainder⟩

/-- The parameters and the account as a load leaves them. -/
theorem accountOk_taken {s : State} {p : Power} {q : Option PowerParams} {cause : ResetCause}
    (power : s.power = (p.takeParams q).loadAccount cause) (remainder : p.remainder < 3600) : AccountOk s := by
  have fits := fits_loadAccount (p := p.takeParams q) cause remainder
  rw [← power] at fits
  exact accountOk_of_fits (by rw [power, loadAccount_keeps]; rfl) fits

theorem accountOk_deriveMaps {s : State} (d : Description) (ok : AccountOk s) : AccountOk (s.deriveMaps d) := by
  have taken : AccountOk { s with
      segs := { s.segs with authority := d.authority.getD defaultAuthority },
      store := { s.store with priority := d.priority.getD defaultPriority },
      power := (s.power.takeParams d.power).loadAccount s.loader.cause,
      hazard := s.hazard.takePeriod d.period s.now } := accountOk_taken rfl ok.remainder
  exact account_rests.keep_effect (account_rests.keep_effect taken (effect_deriveChannels _ d.channels))
    (effect_deriveSigns _ d.signs)

theorem account_starts : StartKept AccountOk where
  held _ _ := accountOk_reset rfl
  restarted _ _ := accountOk_reset rfl
  loaded s image _ ok := by
    unfold State.endLoad
    split
    · have dropped := accountOk_of_power (s := s) (t := s.dropCorridor (loadImage image).report) rfl ok
      have cleared := account_rests.keep_effect dropped (effect_updateReserve _)
      unfold State.endNoCorridor
      exact accountOk_taken (cause := .reload) rfl cleared.remainder
    · rename_i d _
      have shut := account_rests.keep_effect (account_rests.keep_effect (accountOk_deriveMaps d ok)
        (effect_deriveGates _ d.gates)) (effect_deriveSegments _ d.segments)
      exact keep_endDescribed account_rests _ _ (account_rests.keep_effect (account_rests.keep_effect shut
        (effect_derivePaths _ d.paths)) (effect_deriveWeather _))
  reloaded s _ ok := accountOk_of_power (s := s) rfl ok

theorem accountOk_row {c : Instr} {s t : State} (ok : AccountOk s) (h : exec c s = .next t) : AccountOk t := by
  cases start : startRow c
  · cases c
    case channelConversionDone raws =>
      cases h
      split
      · exact ok
      · exact keep_ite _ ok (fun _ => accountOk_conversionDone _ raws ok)
    all_goals first
      | exact account_rests.keep_exec ok h
      | simp [startRow] at start
  · exact account_starts.row account_rests start ok h

/-- Settles O7: every stage of an update and every load keeps the account within the capacity. -/
theorem accountStaysWithinTheCapacity : Obligations.AccountStaysWithinTheCapacity :=
  step_keeps account_rests (fun _ _ _ => accountOk_row) (fun s ok => account_rests.keep ok (tick_frame s))

end Sys2Proof.Proofs
end

