-- ==== Sys2Proof/Proofs/HazardClaims.lean ====
section
/-! Every path holds on its segments the claims it calls for (R134). The handing over of a path's calls (R10, R135) makes
these claims match; no other operation touches a claim of a path. -/

namespace Sys2Proof.Proofs

open Sys2Proof.Machine Sys2Proof.Safety Sys2Proof.Laws

/-! ### One claim found after the claims are written -/

theorem claim?_of_same {s t : State} (same : t.segs.claims = s.segs.claims) (k : Nat) (h : Holder) :
    t.claim? k h = s.claim? k h := by rw [State.claim?, State.claim?, same]

/-- Segment and holder of two claims differ. -/
def Apart (j : Nat) (i : Holder) (k : Nat) (h : Holder) : Prop := ¬ (j = k ∧ i = h)

theorem isOf_apart {c : Claim} {j k : Nat} {i h : Holder} (apart : Apart j i k h) (e : c.isOf k h = true) :
    c.isOf j i = false := by
  obtain ⟨segment, holder⟩ := (isOf_iff c k h).1 e
  refine Bool.eq_false_iff.2 (fun both => apart ?_)
  obtain ⟨segment', holder'⟩ := (isOf_iff c j i).1 both
  exact ⟨segment'.symm.trans segment, holder'.symm.trans holder⟩

theorem claim?_dropClaim (s : State) (k : Nat) (h : Holder) : (s.dropClaim k h).claim? k h = none := by
  simp [State.claim?, State.dropClaim, State.setClaims]

theorem claim?_dropClaim_apart (s : State) {j k : Nat} {i h : Holder} (apart : Apart j i k h) :
    (s.dropClaim k h).claim? j i = s.claim? j i := by
  simp only [State.claim?, State.dropClaim, State.setClaims, List.find?_filter]
  refine congrArg (fun p => List.find? p s.segs.claims) (funext fun c => ?_)
  cases e : c.isOf k h
  · simp
  · simp [isOf_apart apart e]

theorem claim?_tailClaim (s : State) {k : Nat} {h : Holder} {x : Claim} (hx : x.segment = k ∧ x.holder = h) :
    (s.tailClaim k h x).claim? k h = some x := by
  have here : x.isOf k h = true := (isOf_iff x k h).2 hx
  have gone := claim?_dropClaim s k h
  simp only [State.claim?, State.dropClaim, State.setClaims] at gone
  simp only [State.claim?, State.tailClaim, State.setClaims, List.find?_append, gone, Option.none_or,
    List.find?_singleton, here, if_true]

theorem claim?_tailClaim_apart (s : State) {j k : Nat} {i h : Holder} {x : Claim} (hx : x.segment = k ∧ x.holder = h)
    (apart : Apart j i k h) : (s.tailClaim k h x).claim? j i = s.claim? j i := by
  have away : x.isOf j i = false := isOf_apart apart ((isOf_iff x k h).2 hx)
  have kept := claim?_dropClaim_apart s apart
  simp only [State.claim?, State.dropClaim, State.setClaims] at kept
  simp only [State.claim?, State.tailClaim, State.setClaims, List.find?_append, kept, List.find?_singleton, away]
  simp

theorem claim?_replaceClaim {s : State} {k : Nat} {h : Holder} {x c : Claim} (hx : x.segment = k ∧ x.holder = h)
    (found : s.claim? k h = some c) : (s.replaceClaim k h x).claim? k h = some x := by
  have here : x.isOf k h = true := (isOf_iff x k h).2 hx
  have same : ((fun d : Claim => d.isOf k h) ∘ fun d => if d.isOf k h then x else d) = fun d => d.isOf k h := by
    funext d
    cases e : d.isOf k h <;> simp [e, here]
  simp only [State.claim?, State.replaceClaim, State.setClaims, List.find?_map, same]
  rw [show s.segs.claims.find? (fun d => d.isOf k h) = some c from found]
  simp [(isOf_iff c k h).2 (claim?_isOf found)]

theorem claim?_map_apart (s : State) {j k : Nat} {i h : Holder} {f : Claim → Claim} (apart : Apart j i k h)
    (own : ∀ c, c.isOf k h = true → (f c).isOf k h = true) :
    (s.setClaims (s.segs.claims.map (fun c => if c.isOf k h then f c else c))).claim? j i = s.claim? j i := by
  have same : ((fun d : Claim => d.isOf j i) ∘ fun d => if d.isOf k h then f d else d) = fun d => d.isOf j i := by
    funext d
    cases e : d.isOf k h
    · simp [e]
    · simp [e, isOf_apart apart e, isOf_apart apart (own d e)]
  simp only [State.claim?, State.setClaims, List.find?_map, same]
  cases found : s.segs.claims.find? (fun d => d.isOf j i) with
  | none => rfl
  | some d =>
    have at_j : d.isOf j i = true := by simpa using List.find?_some found
    cases e : d.isOf k h
    · simp [e]
    · simp [isOf_apart apart e] at at_j

theorem claim?_replaceClaim_apart (s : State) {j k : Nat} {i h : Holder} {x : Claim} (hx : x.segment = k ∧ x.holder = h)
    (apart : Apart j i k h) : (s.replaceClaim k h x).claim? j i = s.claim? j i :=
  claim?_map_apart s (f := fun _ => x) apart (fun _ _ => (isOf_iff x k h).2 hx)

/-! ### The calls of a path -/

/-- The claim found is the one called for, or there is none and none is called for (R134). -/
def Calls (found : Option Claim) (c : Call) : Prop :=
  (c.level = .noLevel → found = none) ∧
    (c.level ≠ .noLevel → ∃ d, found = some d ∧ d.level = c.level ∧ d.urgent = c.urgent)

/-- The claim found, if any, is active. -/
def Active (found : Option Claim) : Prop := ∀ d, found = some d → d.pending = false

/-- A call is urgent where it is for CLOSE (R134). -/
theorem callOk_iff (s : State) (n : Nat) (p : Path) (k : Nat) :
    CallOk s n p k ↔ Calls (s.claim? k (.hazard n)) p.call ∧ Active (s.claim? k (.hazard n)) := by
  have holds (level : Level) (urgent : Bool) (any : level ≠ .noLevel) : HoldsCall s k n level urgent ↔
      Calls (s.claim? k (.hazard n)) { level := level, urgent := urgent } ∧ Active (s.claim? k (.hazard n)) := by
    constructor
    · rintro ⟨c, found, level, urgent, active⟩
      exact ⟨⟨fun no => absurd no any, fun _ => ⟨c, found, level, urgent⟩⟩, fun d hd => by
        rw [found] at hd
        cases hd
        exact active⟩
    · rintro ⟨⟨-, call⟩, active⟩
      obtain ⟨c, found, level, urgent⟩ := call any
      exact ⟨c, found, level, urgent, active c found⟩
  have nothing : s.claim? k (.hazard n) = none ↔
      Calls (s.claim? k (.hazard n)) { level := .noLevel, urgent := false } ∧ Active (s.claim? k (.hazard n)) :=
    ⟨fun gone => ⟨⟨fun _ => gone, fun any => absurd rfl any⟩, fun d hd => by rw [gone] at hd; cases hd⟩,
      fun ⟨⟨gone, _⟩, _⟩ => gone rfl⟩
  unfold Path.call
  by_cases urgent : p.latch ≠ .clear ∨ p.level = 5
  · rw [if_pos urgent, ← holds .close true (by decide)]
    exact ⟨fun ok => ok.urgent urgent, fun h => ⟨fun _ => h, fun a b => absurd urgent (by simp [a, b]),
      fun a b => absurd urgent (by simp [a, b]), fun a b => absurd urgent (by simp [a, b])⟩⟩
  · rw [if_neg urgent]
    have latch : p.latch = .clear := by simpa using fun h => urgent (.inl h)
    have level : p.level ≠ 5 := fun h => urgent (.inr h)
    by_cases close : p.cfg.closeLevel ≤ p.level
    · rw [if_pos close, ← holds .close false (by decide)]
      exact ⟨fun ok => ok.close latch level close, fun h => ⟨fun a => absurd a urgent, fun _ _ _ => h,
        fun _ _ a => absurd close (Nat.not_le.2 a), fun _ _ a => absurd close (Nat.not_le.2 a)⟩⟩
    · rw [if_neg close]
      by_cases advise : p.cfg.adviseLevel ≤ p.level
      · rw [if_pos advise, ← holds .advise false (by decide)]
        exact ⟨fun ok => ok.advise latch level (Nat.lt_of_not_le close) advise, fun h => ⟨fun a => absurd a urgent,
          fun _ _ a => absurd a close, fun _ _ _ _ => h, fun _ _ _ a => absurd advise (Nat.not_le.2 a)⟩⟩
      · rw [if_neg advise, ← nothing]
        exact ⟨fun ok => ok.nothing latch level (Nat.lt_of_not_le close) (Nat.lt_of_not_le advise), fun h =>
          ⟨fun a => absurd a urgent, fun _ _ a => absurd a close, fun _ _ _ a => absurd a advise, fun _ _ _ _ => h⟩⟩

theorem callOk_of_claims {s t : State} {n k : Nat} {p : Path} (same : t.segs.claims = s.segs.claims) (ok : CallOk s n p k) :
    CallOk t n p k := by
  rw [callOk_iff] at ok ⊢
  rwa [claim?_of_same same]

/-- R10: what the segment table makes of one call: the claim of the path matches it, every other stays, and an active claim
stays active. -/
structure Matched (s t : State) (k n : Nat) (c : Call) : Prop where
  called : Calls (t.claim? k (.hazard n)) c
  others : ∀ j i, Apart j i k (.hazard n) → t.claim? j i = s.claim? j i
  active : Active (s.claim? k (.hazard n)) → Active (t.claim? k (.hazard n))

theorem Matched.of_claims {s t u : State} {k n : Nat} {c : Call} (h : Matched s t k n c)
    (same : u.segs.claims = t.segs.claims) : Matched s u k n c := by
  refine ⟨?_, fun j i apart => ?_, ?_⟩
  · rw [claim?_of_same same]
    exact h.called
  · rw [claim?_of_same same, h.others j i apart]
  · rw [claim?_of_same same]
    exact h.active

theorem matched_put {s t : State} {k n : Nat} {c : Call} {d : Claim} (any : c.level ≠ .noLevel)
    (found : t.claim? k (.hazard n) = some d) (level : d.level = c.level) (urgent : d.urgent = c.urgent)
    (others : ∀ j i, Apart j i k (.hazard n) → t.claim? j i = s.claim? j i)
    (active : Active (s.claim? k (.hazard n)) → d.pending = false) : Matched s t k n c :=
  ⟨⟨fun no => absurd no any, fun _ => ⟨d, found, level, urgent⟩⟩, others, fun a e he => by
    rw [found] at he
    cases he
    exact active a⟩

theorem matched_none {s t : State} {k n : Nat} {c : Call} (no : c.level = .noLevel)
    (gone : t.claim? k (.hazard n) = none) (others : ∀ j i, Apart j i k (.hazard n) → t.claim? j i = s.claim? j i) :
    Matched s t k n c :=
  ⟨⟨fun _ => gone, fun any => absurd no any⟩, others, fun _ d hd => by rw [gone] at hd; cases hd⟩

theorem matchClaim_matched (s : State) (k n : Nat) (c : Call) : Matched s (s.matchClaim k n c) k n c := by
  have recomputed {t : State} (h : Matched s t k n c) : Matched s (t.recompute k) k n c :=
    h.of_claims ((effect_recompute t k).frame .claims (by decide))
  unfold State.matchClaim
  split
  · rename_i gone
    split
    · exact matched_none ‹_› gone (fun _ _ _ => rfl)
    · exact recomputed (matched_put ‹_› (claim?_tailClaim s (k := k) (h := .hazard n) ⟨rfl, rfl⟩) rfl rfl
        (fun j i => claim?_tailClaim_apart s (k := k) (h := .hazard n) ⟨rfl, rfl⟩) (fun _ => rfl))
  · rename_i d found
    have own : d.segment = k ∧ d.holder = .hazard n := claim?_isOf found
    split
    · exact recomputed (matched_none ‹_› (claim?_dropClaim s _ _) (fun j i => claim?_dropClaim_apart s))
    · split
      · exact recomputed (matched_put ‹_› (claim?_tailClaim s own) rfl rfl (fun j i => claim?_tailClaim_apart s own)
          (fun active => active d found))
      · split
        · rename_i same
          exact matched_put ‹_› found same.1 same.2 (fun _ _ _ => rfl) (fun active => active d found)
        · exact recomputed (matched_put ‹_› (claim?_replaceClaim own found) rfl rfl
            (fun j i => claim?_replaceClaim_apart s own) (fun active => active d found))

theorem handCall_matched (s : State) (k n : Nat) (c : Call) : Matched s (s.handCall k n c) k n c := by
  have matched := matchClaim_matched s k n c
  unfold State.handCall
  dsimp only
  split
  · exact matched.of_claims ((effect_formSegmentSlot _ k).frame .claims (by decide))
  · exact matched

/-- R135: what the handing over of a call to the segments of a list leaves. -/
structure HandedOver (s t : State) (l : List Nat) (n : Nat) (c : Call) : Prop where
  called : ∀ k ∈ l, Calls (t.claim? k (.hazard n)) c
  others : ∀ j i, (i = .hazard n → j ∉ l) → t.claim? j i = s.claim? j i
  active : ∀ k, Active (s.claim? k (.hazard n)) → Active (t.claim? k (.hazard n))

theorem foldl_handCall (l : List Nat) (n : Nat) (c : Call) (s : State) :
    HandedOver s (l.foldl (fun s k => s.handCall k n c) s) l n c := by
  induction l generalizing s with
  | nil => exact ⟨by simp, fun _ _ _ => rfl, fun _ => id⟩
  | cons k rest ih =>
    have first := handCall_matched s k n c
    have later := ih (s.handCall k n c)
    refine ⟨fun j hj => ?_, fun j i away => ?_, fun j active => later.active j ?_⟩
    · by_cases again : j ∈ rest
      · exact later.called j again
      · obtain rfl : j = k := by simpa [again] using hj
        rw [List.foldl_cons, later.others j _ (fun _ => again)]
        exact first.called
    · rw [List.foldl_cons, later.others j i (fun h => fun mem => away h (List.mem_cons_of_mem _ mem))]
      exact first.others j i (fun ⟨same, holder⟩ => away holder (same ▸ List.mem_cons_self))
    · obtain rfl | other := eq_or_ne j k
      · exact first.active active
      · rw [first.others j _ (fun ⟨same, _⟩ => other same)]
        exact active

theorem handOver_handed {s : State} {n : Nat} {p : Path} (at_n : s.hazard.paths[n]? = some p) :
    HandedOver s (s.handOver n) p.cfg.segments n p.call := by
  rw [State.handOver, at_n]
  exact foldl_handCall _ n p.call s

/-! ### Every path but one -/

/-- The paths other than path n hold the claims that they call for, and the claims of path n are active. -/
structure CallsBut (n : Nat) (s : State) : Prop where
  others : ∀ (j : Nat) (p : Path), j ≠ n → s.hazard.paths[j]? = some p → ∀ k ∈ p.cfg.segments, CallOk s j p k
  active : ∀ p, s.hazard.paths[n]? = some p → ∀ k ∈ p.cfg.segments, Active (s.claim? k (.hazard n))

theorem calls_rests : RestsOn [.paths, .claims] CallsOk := fun s t same ok n p at_n k hk => by
  have paths : t.hazard.paths = s.hazard.paths := same .paths (by simp)
  have claims : t.segs.claims = s.segs.claims := same .claims (by simp)
  exact callOk_of_claims claims (ok n p (paths ▸ at_n) k hk)

/-- The claims of the paths stay, where the paths do. -/
theorem callsOk_of_same {s t : State} (ok : CallsOk s) (paths : t.hazard.paths = s.hazard.paths)
    (same : ∀ n p, s.hazard.paths[n]? = some p → ∀ k ∈ p.cfg.segments,
      t.claim? k (.hazard n) = s.claim? k (.hazard n)) : CallsOk t := fun n p at_n k hk => by
  rw [paths] at at_n
  rw [callOk_iff, same n p at_n k hk, ← callOk_iff]
  exact ok n p at_n k hk

theorem updPath_cases {s : State} {n j : Nat} {x y : Path} {f : Path → Path} (at_n : s.hazard.paths[n]? = some x)
    (at_j : (s.updPath n f).hazard.paths[j]? = some y) : (j = n ∧ y = f x) ∨ (j ≠ n ∧ s.hazard.paths[j]? = some y) := by
  rw [updPath_paths, List.getElem?_modify] at at_j
  obtain ⟨z, at_z, rfl⟩ := Option.map_eq_some_iff.1 at_j
  obtain rfl | other := eq_or_ne n j
  · rw [at_n] at at_z
    cases at_z
    exact .inl ⟨rfl, by simp⟩
  · rw [if_neg other]
    exact .inr ⟨other.symm, at_z⟩

theorem calls_hazard : HazardKept [.paths, .claims] CallsOk CallsBut where
  rests := calls_rests
  notices := rfl
  same s n x f ok at_n move level latch := fun j p at_j k hk => by
    obtain ⟨rfl, rfl⟩ | ⟨-, at_j⟩ := updPath_cases at_n at_j
    · have call : (f x).call = x.call := by simp only [Path.call, level, latch, move.cfg]
      have before := ok j x at_n k (move.cfg ▸ hk)
      rw [callOk_iff] at before ⊢
      rw [call]
      exact before
    · exact callOk_of_claims (s := s) rfl (ok j p at_j k hk)
  free s n x f ok at_n move := by
    refine ⟨fun j p other at_j k hk => ?_, fun p at_p k hk => ?_⟩
    · obtain ⟨rfl, -⟩ | ⟨-, at_j⟩ := updPath_cases at_n at_j
      · exact absurd rfl other
      · exact callOk_of_claims (s := s) rfl (ok j p at_j k hk)
    · obtain ⟨-, rfl⟩ | ⟨other, -⟩ := updPath_cases at_n at_p
      · exact ((callOk_iff _ _ _ _).1 (ok n x at_n k (move.cfg ▸ hk))).2
      · exact absurd rfl other
  hand s n ok := fun j p at_j k hk => by
    have paths : (s.handOver n).hazard.paths = s.hazard.paths := (effect_handOver s n).frame .paths (by decide)
    rw [paths] at at_j
    rw [callOk_iff]
    obtain rfl | other := eq_or_ne j n
    · have handed := handOver_handed at_j
      exact ⟨handed.called k hk, handed.active k (ok.active p at_j k hk)⟩
    · have same : (s.handOver n).claim? k (.hazard j) = s.claim? k (.hazard j) := by
        cases at_n : s.hazard.paths[n]? with
        | none => rw [State.handOver, at_n]
        | some q => exact (handOver_handed at_n).others k _ (fun h => absurd (by simpa using h) other)
      rw [same, ← callOk_iff]
      exact ok.others j p other at_j k hk

/-! ### The claims of masters -/

section
variable {s : State} (ok : CallsOk s)
include ok

theorem callsOk_setClaims {c : List Claim} (same : ∀ k n, (s.setClaims c).claim? k (.hazard n) = s.claim? k (.hazard n)) :
    CallsOk (s.setClaims c) := callsOk_of_same ok rfl (fun n _ _ k _ => same k n)

theorem callsOk_still {t : State} {l : List Part} {K : List NoticeKind} (h : Effect l K s t)
    (away : apart [.paths, .claims] l = true := by rfl) : CallsOk t := calls_rests.keep_effect ok h away

theorem callsOk_dropClaim (k : Nat) (m : Master) : CallsOk (s.dropClaim k (.master m)) :=
  callsOk_setClaims ok (fun _ _ => claim?_dropClaim_apart s (by simp [Apart]))

theorem callsOk_tailClaim (k : Nat) (m : Master) (x : Claim) (hx : x.segment = k ∧ x.holder = .master m) :
    CallsOk (s.tailClaim k (.master m) x) :=
  callsOk_setClaims ok (fun _ _ => claim?_tailClaim_apart s hx (by simp [Apart]))

theorem callsOk_replaceClaim (k : Nat) (m : Master) (x : Claim) (hx : x.segment = k ∧ x.holder = .master m) :
    CallsOk (s.replaceClaim k (.master m) x) :=
  callsOk_setClaims ok (fun _ _ => claim?_replaceClaim_apart s hx (by simp [Apart]))

theorem callsOk_unlinkClaim (k : Nat) (m : Master) : CallsOk (s.unlinkClaim k m) :=
  callsOk_setClaims ok (fun _ _ => claim?_map_apart s (k := k) (h := .master m) (f := fun c => { c with link := none })
    (by simp [Apart]) (fun _ => id))

theorem callsOk_endPosted (n : Nat) (cause : SlotEndCause) (tell : Bool) : CallsOk (s.endPosted n cause tell) := by
  unfold State.endPosted
  split
  · exact ok
  · split
    · rename_i x _ _ _ p _ _
      have unlinked : CallsOk (match p.link with
          | some k => s.unlinkClaim k p.owner
          | none => s) := by
        split
        · exact callsOk_unlinkClaim ok _ _
        · exact ok
      have ended := callsOk_still unlinked (effect_writeSlot _ n (fun y => { y with content := none, posted := none }))
      exact keep_ite _ ended (fun _ => callsOk_still ended (effect_tell _ _ _ .slotEnded))
    · exact ok

theorem callsOk_withdrawLinked (c : Claim) : CallsOk (s.withdrawLinked c) := by
  unfold State.withdrawLinked
  split
  · exact ok
  · exact callsOk_endPosted ok _ _ _

theorem callsOk_putClaim (m : Master) (a : PlaceArgs) : CallsOk (s.putClaim m a) := by
  unfold State.putClaim
  split
  · refine callsOk_still ?_ (effect_relink _ _ _ _)
    exact callsOk_tailClaim ok _ m _ ⟨rfl, rfl⟩
  · refine callsOk_still ?_ (effect_relink _ _ _ _)
    exact keep_cases _ (fun _ => callsOk_tailClaim ok _ m _ ⟨rfl, rfl⟩) (fun _ => callsOk_replaceClaim ok _ m _ ⟨rfl, rfl⟩)

theorem callsOk_placeClaim (m : Master) (body : List Byte) : CallsOk (s.placeClaim m body).state := by
  unfold State.placeClaim
  split
  · exact ok
  · split
    · exact ok
    · split
      · exact ok
      · split
        · exact ok
        · exact callsOk_still (callsOk_putClaim ok m _) (effect_recompute _ _)

theorem callsOk_releaseClaim (m : Master) (body : List Byte) : CallsOk (s.releaseClaim m body).state := by
  unfold State.releaseClaim
  dsimp only
  split
  · exact ok
  · split
    · exact ok
    · rename_i holder _
      unfold State.releaseMasterClaim
      split
      · exact ok
      · split
        · exact ok
        · have ended := callsOk_withdrawLinked (callsOk_dropClaim ok (read1 body 0) holder) ‹_›
          exact callsOk_still (keep_cases _ (fun _ => ended)
            (fun _ => callsOk_still ended (effect_tellClaimEnded _ _ _ _ _))) (effect_recompute _ _)

/-- R4: a claim of a path is active, so that only a master's claim can start. -/
theorem callsOk_startClaim (k : Nat) (h : Holder) : CallsOk (s.startClaim k h) := by
  unfold State.startClaim
  split
  · exact ok
  · rename_i c found
    have own : c.segment = k ∧ c.holder = h := claim?_isOf found
    split
    · exact ok
    · refine keep_ite _ ok (fun due => ?_)
      refine callsOk_still (callsOk_of_same (s := s) ok ?_ (fun n p at_n j hj => ?_)) (effect_recompute _ k)
      · rfl
      refine claim?_tailClaim_apart s own (fun ⟨segment, holder⟩ => ?_)
      subst segment holder
      have active := ((callOk_iff _ _ _ _).1 (ok n p at_n j hj)).2 c found
      simp [active] at due

theorem callsOk_expireClaim (k : Nat) (h : Holder) : CallsOk (s.expireClaim k h) := by
  unfold State.expireClaim
  split
  · split
    · exact ok
    · exact keep_ite _ ok (fun _ => callsOk_still (callsOk_withdrawLinked (callsOk_still (callsOk_dropClaim ok k _)
        (effect_recompute _ k)) _) (effect_tellClaimEnded _ _ _ _ _))
  · exact ok

theorem callsOk_withdrawMessage (m : Master) (body : List Byte) : CallsOk (s.withdrawMessage m body).state := by
  unfold State.withdrawMessage
  dsimp only
  split
  · exact ok
  · split
    · exact ok
    · split
      · exact ok
      · exact callsOk_endPosted ok _ _ _

theorem callsOk_expireSlot (n : Nat) : CallsOk (s.expireSlot n) := by
  unfold State.expireSlot
  split
  · exact ok
  · exact keep_ite _ ok (fun _ => callsOk_endPosted ok _ _ _)

end

/-! ### The rows -/

theorem callsOk_nil {s : State} (h : s.hazard.paths = []) : CallsOk s := fun n p at_n => by simp [h] at at_n

/-- A path as built calls for nothing: the advise and close levels begin at 2 (R119). -/
theorem call_newRecord {c : PathConfig} (advise : 2 ≤ c.adviseLevel) (close : 2 ≤ c.closeLevel) :
    c.newRecord.call = { level := .noLevel, urgent := false } := by
  have first : ¬ (c.newRecord.latch ≠ .clear ∨ c.newRecord.level = 5) := by simp [PathConfig.newRecord]
  have second : ¬ c.newRecord.cfg.closeLevel ≤ c.newRecord.level := Nat.not_le.2 close
  have third : ¬ c.newRecord.cfg.adviseLevel ≤ c.newRecord.level := Nat.not_le.2 advise
  rw [Path.call, if_neg first, if_neg second, if_neg third]

theorem Checked.levels {d : Description} (checked : Checked d) {c : PathConfig} (h : c ∈ d.paths) :
    2 ≤ c.adviseLevel ∧ 2 ≤ c.closeLevel := by
  obtain ⟨r, rfl, range⟩ := checked.paths c h
  simp only [pathRangeOk, within, Bool.and_eq_true, decide_eq_true_eq] at range
  omega

theorem calls_starts : StartKept CallsOk where
  held _ _ := callsOk_nil rfl
  restarted _ _ := callsOk_nil rfl
  loaded s image _ _ := by
    unfold State.endLoad
    split
    · exact callsOk_nil ((effect_updateReserve (s.dropCorridor _)).frame .paths (by decide))
    · rename_i d described
      have derived := calls_hazard.derivePaths (s := ((s.deriveMaps d).deriveGates d.gates).deriveSegments d.segments) d.paths
        (fun n p at_n k _ => by
          rw [List.getElem?_map] at at_n
          obtain ⟨c, at_c, rfl⟩ := Option.map_eq_some_iff.1 at_n
          obtain ⟨advise, close⟩ := (checked_loadImage described).levels (List.mem_of_getElem? at_c)
          have none : State.claim? { ((s.deriveMaps d).deriveGates d.gates).deriveSegments d.segments with
              hazard := { (((s.deriveMaps d).deriveGates d.gates).deriveSegments d.segments).hazard with
                paths := d.paths.map PathConfig.newRecord } } k (.hazard n) = none := by
            rw [State.claim?, deriveSegments_claims]
            rfl
          rw [callOk_iff, call_newRecord advise close, none]
          exact ⟨⟨fun _ => rfl, fun any => absurd rfl any⟩, fun _ h => by cases h⟩)
      exact keep_endDescribed calls_rests _ _ (calls_rests.keep_effect derived (effect_deriveWeather _))
  reloaded _ _ _ := callsOk_nil rfl

/-- The rows that write claims, those of the hazard engine left out. -/
def claimRow : Instr → Bool
  | .placeClaim _ | .releaseClaim _ | .claimStart _ _ | .claimExpiry _ _ | .withdrawMessage _ | .slotExpiry _ => true
  | _ => false

theorem callsOk_claimRow {c : Instr} {s t : State} (claim : claimRow c = true) (ok : CallsOk s) (h : exec c s = .next t) :
    CallsOk t := by
  have command (m : Master) (d : Command) (applies : List Byte → Bool) (owner : List Byte → State → Answer)
      (answer : ∀ body u, CallsOk u → CallsOk (owner body u).state) : CallsOk (s.execute m d applies owner) :=
    calls_rests.keep_execute m d applies owner ok (fun body u _ _ ok => answer body u ok)
  cases c
  case placeClaim m => cases h; exact command m _ _ _ (fun body _ ok => callsOk_placeClaim ok m body)
  case releaseClaim m => cases h; exact command m _ _ _ (fun body _ ok => callsOk_releaseClaim ok m body)
  case withdrawMessage m => cases h; exact command m _ _ _ (fun body _ ok => callsOk_withdrawMessage ok m body)
  case claimStart k h' => cases h; exact keep_whenRunning _ ok (fun _ _ => callsOk_startClaim ok k h')
  case claimExpiry k h' => cases h; exact keep_whenRunning _ ok (fun _ _ => callsOk_expireClaim ok k h')
  case slotExpiry n => cases h; exact keep_whenRunning _ ok (fun _ _ => callsOk_expireSlot ok n)
  all_goals simp [claimRow] at claim

theorem callsOk_row {c : Instr} {s t : State} (ok : CallsOk s) (h : exec c s = .next t) : CallsOk t := by
  cases start : startRow c
  · cases hazard : hazardRow c
    · cases claim : claimRow c
      · have away : (startRow c || hazardRow c || claimRow c || apart [.paths, .claims] (touched c ++ answerParts)) = true := by
          cases c <;> rfl
        exact calls_rests.keep_exec ok h (by simpa [start, hazard, claim] using away)
      · exact callsOk_claimRow claim ok h
    · exact calls_hazard.row rfl hazard ok h
  · exact calls_starts.row calls_rests start ok h

theorem callsOk_step : ∀ s t, CallsOk s → step s = .next t → CallsOk t :=
  step_keeps calls_rests (fun _ _ _ => callsOk_row) (fun s ok => calls_rests.keep ok (tick_frame s))

end Sys2Proof.Proofs
end

