-- ==== Sys2Proof/Proofs/Commands.lean ====
section
/-! The masters' commands by their rows: what the owning block of each answers (R167), how a refusal and an accepted answer
finish the command, and the statements about refusals and reads, which say no more than that. -/

namespace Sys2Proof.Proofs

open Sys2Proof.Machine Sys2Proof.Safety Sys2Proof.Laws

/-- The answer of the block that owns the command. -/
def owning (c : Command) (m : Master) (body : List Byte) (s : State) : Answer :=
  match c with
  | .status => Answer.ok (s.statusBody m) s
  | .fetchNotice => s.fetchNotice m
  | .setNoticeMask => s.setMask m (BitVec.ofNat 16 (read2 body 0))
  | .resetPort => Answer.ok [] (s.setPort m (s.port m).cutOff)
  | .readSegment => s.readSegment body
  | .placeClaim => s.placeClaim m body
  | .releaseClaim => s.releaseClaim m body
  | .confirmSweep => s.confirmSweep m body
  | .setAuthority => s.setAuthority m body
  | .readGate => s.readGate body
  | .resetGate => s.resetGate m body
  | .postMessage => s.postMessage m body
  | .withdrawMessage => s.withdrawMessage m body
  | .setPriorityMap => s.setPriorityMap m body
  | .setClock => s.setClock m body
  | .readSign => s.readSign body
  | .setSign => s.setSign m body
  | .readChannel => s.readChannel body
  | .submitObservation => s.submitObservation m body
  | .readPath => s.readPath body
  | .reportDetection => s.reportDetection m body
  | .clearPath => s.clearPath m body
  | .setPathFloor => s.setPathFloor m body
  | .seedPath => s.seedPath m body
  | .readPower => Answer.ok s.powerBody s
  | .reload => s.reload m

/-- The row of a command hands it to its owning block. -/
theorem exec_row (c : Command) (m : Master) (body : List Byte) : ∃ applies : List Byte → Bool, applies body = true ∧
    ∀ s, exec (c.row m body) s = .next (s.execute m c applies (owning c m)) := by
  cases c
  case setSign =>
    unfold Command.row
    dsimp only
    split
    · exact ⟨fun body => read1 body 1 != 0, by simp_all, fun _ => rfl⟩
    · exact ⟨fun body => read1 body 1 != 1, by simp_all, fun _ => rfl⟩
  all_goals exact ⟨anyBody, rfl, fun _ => rfl⟩

section
variable {s : State} {m : Master} {c : Command} {r : Request} {rest : List Request}

/-- A waiting command of a row that belongs to it is finished with the answer of its owning block. -/
theorem answered_of_waits {i : Instr} {applies : List Byte → Bool} (w : Waits s m c r rest) (own : applies r.body = true)
    (runs : ∀ s, exec i s = .next (s.execute m c applies (owning c m))) :
    exec i s = .next ((owning c m r.body (s.takeQueued m rest)).state.finish m
      ((owning c m r.body (s.takeQueued m rest)).response r.tag)) := by
  rw [runs, execute_of_waits w applies own]

theorem exec_waiting (w : Waits s m c r rest) : exec (c.row m r.body) s =
    .next ((owning c m r.body (s.takeQueued m rest)).state.finish m
      ((owning c m r.body (s.takeQueued m rest)).response r.tag)) := by
  obtain ⟨applies, own, runs⟩ := exec_row c m r.body
  exact answered_of_waits w own runs

/-- A refusal of the owning block changes nothing but the slot. -/
theorem refused {i : Instr} {code : RespCode} (no : code ≠ .ok)
    (runs : exec i s = .next ((owning c m r.body (s.takeQueued m rest)).state.finish m
      ((owning c m r.body (s.takeQueued m rest)).response r.tag)))
    (h : owning c m r.body (s.takeQueued m rest) = Answer.refuse code (s.takeQueued m rest)) :
    ∃ t, exec i s = .next t ∧ Finishes s t m rest (refusalOf r code) [] := by
  rw [h] at runs
  refine ⟨_, runs, ?_⟩
  have response : (Answer.refuse code (s.takeQueued m rest)).response r.tag = refusalOf r code := by
    simp [Answer.response, Answer.refuse, refusalOf, no]
  rw [response]
  exact finishes_refusal s m rest _

/-- An accepted command is finished with the owning block's body and state. -/
theorem accepted {i : Instr} {l : List Part} {K : List NoticeKind} {body : List Byte} {u : State}
    (runs : exec i s = .next ((owning c m r.body (s.takeQueued m rest)).state.finish m
      ((owning c m r.body (s.takeQueued m rest)).response r.tag)))
    (h : owning c m r.body (s.takeQueued m rest) = Answer.ok body u) (e : Effect l K (s.takeQueued m rest) u) :
    exec i s = .next (u.finish m (okTo r body)) ∧ Finishes s (u.finish m (okTo r body)) m rest (okTo r body) l := by
  rw [h] at runs
  exact ⟨runs, finishes_of _ e.frame e.queued e.done⟩

/-- A command accepted without a change of the owning block's parts. -/
theorem accepted_still {i : Instr} {body : List Byte}
    (runs : exec i s = .next ((owning c m r.body (s.takeQueued m rest)).state.finish m
      ((owning c m r.body (s.takeQueued m rest)).response r.tag)))
    (h : owning c m r.body (s.takeQueued m rest) = Answer.ok body (s.takeQueued m rest)) :
    ∃ t, exec i s = .next t ∧ Finishes s t m rest (okTo r body) [] :=
  ⟨_, accepted runs h (.refl [] [] _)⟩

end

/-! ### The port block's own checks (R167) -/

/-- Settles O23: the port block answers before the owning block is asked. -/
theorem portBlockRefusesFirst : Obligations.PortBlockRefusesFirst := by
  refine ⟨fun s m r rest run oldest unknown => ⟨_, rfl, ?_⟩, fun s m c r rest run oldest code bare five => ?_,
    fun s m c r rest run oldest code described length => ?_⟩
  · have answered : s.executeUnknown m = (s.takeQueued m rest).finish m (refusalOf r .unknownCommand) := by
      simp [State.executeUnknown, run, oldest, unknown, refusalOf]
    rw [answered]
    exact finishes_refusal s m rest _
  · obtain ⟨applies, own, runs⟩ := exec_row c m r.body
    have any : c.anyState = false := by cases c <;> first | rfl | simp at five
    exact ⟨_, by rw [runs, execute_notReady run oldest code any bare applies own], finishes_refusal s m rest _⟩
  · obtain ⟨applies, own, runs⟩ := exec_row c m r.body
    exact ⟨_, by rw [runs, execute_badLength run oldest code described length applies own], finishes_refusal s m rest _⟩

/-! ### Senders without the right (R9) -/

theorem masterOfCode_three : masterOfCode 3 = none := rfl

theorem owning_noRight {m : Master} {c : Command} {body : List Byte} {s : State}
    (h : (m ≠ .centre ∧ c ∈ [Command.setAuthority, .setPriorityMap, .setClock, .setSign, .reload]) ∨
      (m ≠ .slope ∧ c ∈ [Command.reportDetection, .setPathFloor, .seedPath]) ∨ (m ≠ .crew ∧ c = .resetGate)) :
    owning c m body s = Answer.refuse .noRight s := by
  simp only [List.mem_cons, List.not_mem_nil, or_false] at h
  rcases h with ⟨other, rfl | rfl | rfl | rfl | rfl⟩ | ⟨other, rfl | rfl | rfl⟩ | ⟨other, rfl⟩
  · simp [owning, State.setAuthority, other]
  · simp [owning, State.setPriorityMap, other]
  · simp [owning, State.setClock, other]
  · simp [owning, State.setSign, other]
  · simp [owning, State.reload, other]
  · simp [owning, State.reportDetection, other]
  · simp [owning, State.setPathFloor, other]
  · simp [owning, State.seedPath, other]
  · simp [owning, State.resetGate, other]

section
variable {s : State} {m : Master} {body : List Byte}

theorem placeClaim_noRight {a : PlaceArgs} (parsed : parsePlace body = some a) (some : s.segs.records[a.segment]? ≠ none)
    (no : s.hasRight a.segment m (levelRight a.level) = false) : s.placeClaim m body = Answer.refuse .noRight s := by
  simp [State.placeClaim, parsed, some, no]

theorem releaseClaim_noRight (some : s.segs.records[read1 body 0]? ≠ none)
    (h : read1 body 1 = 3 ∨ ∃ x, masterOfCode (read1 body 1) = Option.some x ∧ x ≠ m ∧
      s.hasRight (read1 body 0) m overrideRight = false) : s.releaseClaim m body = Answer.refuse .noRight s := by
  obtain hazard | ⟨x, holder, other, no⟩ := h
  · simp [State.releaseClaim, some, hazard, masterOfCode_three]
  · have within : ¬ 3 < read1 body 1 := fun above => by
      unfold masterOfCode at holder
      split at holder
      all_goals first | omega | cases holder
    simp [State.releaseClaim, State.releaseMasterClaim, some, within, holder, other.symm, no]

theorem confirmSweep_noRight (some : s.segs.records[read1 body 0]? ≠ none)
    (no : s.hasRight (read1 body 0) m sweepRight = false) : s.confirmSweep m body = Answer.refuse .noRight s := by
  unfold State.confirmSweep
  dsimp only
  split
  · exact absurd ‹_› some
  · simp [no]

theorem withdrawMessage_noRight {p : Posted} (low : 32 ≤ read1 body 0) (high : read1 body 0 ≤ 63)
    (posted : s.postedIn (read1 body 0) = some p) (owner : m ≠ p.owner) (centre : m ≠ .centre) :
    s.withdrawMessage m body = Answer.refuse .noRight s := by
  have within : ¬ (read1 body 0 < 32 ∨ 63 < read1 body 0) := by omega
  simp [State.withdrawMessage, within, posted, owner, centre]

theorem submitObservation_noRight {x : Channel} {feeder : Master} (low : read1 body 0 < 28) (flag : read1 body 3 ≤ 1)
    (channel : s.channel? (read1 body 0) = some x) (source : x.desc.source = .remote feeder) (other : m ≠ feeder) :
    s.submitObservation m body = Answer.refuse .noRight s := by
  have within : ¬ (28 ≤ read1 body 0 ∨ 1 < read1 body 3) := by omega
  simp [State.submitObservation, within, channel, source, other]

theorem clearPath_noRight {p : Path} (path : s.hazard.paths[read1 body 0]? = some p)
    (h : m = .crew ∨ (m = .centre ∧ ∃ k ∈ p.cfg.segments, s.hasRight k m overrideRight = false)) :
    s.clearPath m body = Answer.refuse .noRight s := by
  have no : s.mayClear m p = false := by
    obtain rfl | ⟨rfl, k, hk, no⟩ := h
    · rfl
    · simpa [State.mayClear] using ⟨k, hk, no⟩
  simp [State.clearPath, path, no]

end

/-- Settles O35: each owning block asks for the right of its command. -/
theorem sendersWithoutRightAreRefused : Obligations.SendersWithoutRightAreRefused := by
  intro s m c r rest w h
  refine refused (by decide) (exec_waiting w) ?_
  rcases h with centre | slope | crew | ⟨rfl, a, parsed, some, no⟩ | ⟨rfl, some, no⟩ | ⟨rfl, some, no⟩ |
    ⟨rfl, low, high, p, posted, owner, centre⟩ | ⟨rfl, low, flag, x, feeder, channel, source, other⟩ | ⟨rfl, p, path, no⟩
  · exact owning_noRight (.inl centre)
  · exact owning_noRight (.inr (.inl slope))
  · exact owning_noRight (.inr (.inr crew))
  · exact placeClaim_noRight parsed some no
  · exact releaseClaim_noRight some no
  · exact confirmSweep_noRight some no
  · exact withdrawMessage_noRight low high posted owner centre
  · exact submitObservation_noRight low flag channel source other
  · exact clearPath_noRight path no

/-! ### Reads -/

/-- Settles O30. -/
theorem readsRefuseWhatIsNotDescribed : Obligations.ReadsRefuseWhatIsNotDescribed := by
  intro s m c r rest w h
  refine refused (by decide) (exec_waiting w) ?_
  rcases h with ⟨rfl, none⟩ | ⟨rfl, none⟩ | ⟨rfl, none⟩ | ⟨rfl, none⟩ | ⟨rfl, none⟩
  · simp [owning, State.readSegment, State.takeQueued, none]
  · simp [owning, State.readGate, State.takeQueued, none]
  · simp [owning, State.readSign, State.takeQueued, none]
  · have none : (s.takeQueued m rest).channel? (read1 r.body 0) = Option.none := none
    simp [owning, State.readChannel, none]
  · simp [owning, State.readPath, State.takeQueued, none]

section
variable (n : Nat)

theorem length_bytes1 : (bytes1 n).length = 1 := by simp [bytes1]
theorem length_bytes2 (i : Int) : (bytes2 i).length = 2 := by simp [bytes2]
theorem length_bytes4 (i : Int) : (bytes4 i).length = 4 := by simp [bytes4]
theorem length_mark1 (b : Bool) : (mark1 b).length = 1 := by simp [mark1, bytes1]
theorem length_opt1 (x : Option Nat) : (opt1 x).length = 1 := by cases x <;> rfl
theorem length_opt2 (x : Option Int) : (opt2 x).length = 2 := by cases x <;> rfl
theorem length_opt4 (x : Option Nat) : (opt4 x).length = 4 := by cases x <;> rfl
theorem length_listField (l : List Nat) : (listField n l).length = 1 + n := by
  simp [listField, length_bytes1]

theorem length_shownBytes (x : Option Shown) : (shownBytes x).length = 13 := by
  cases x with
  | none => rfl
  | some a =>
    simp only [shownBytes, List.length_append, length_bytes1, List.length_take]
    have : 8 ≤ (a.params.flatMap bytes2).length + (List.replicate 4 (opt2 none)).flatten.length := Nat.le_add_left 8 _
    omega

theorem length_workingBytes (x : Option Working) : (workingBytes x).length = 23 := by
  cases x with
  | none => rfl
  | some w => simp only [workingBytes, List.length_append, length_bytes1, length_bytes2, length_bytes4, length_opt1, length_opt2]

theorem length_sourceBytes (x : Source) : x.bytes.length = 3 ∧ x.scaleBytes.length = 4 ∧ x.averagingBytes.length = 1 := by
  cases x <;> simp [Source.bytes, Source.scaleBytes, Source.averagingBytes, length_bytes1, length_bytes2, length_opt1, length_opt2]

theorem length_claimBytes (c : Claim) : c.bytes.length = 19 := by
  simp only [Claim.bytes, List.length_append, length_bytes1, length_bytes4, length_mark1, length_opt1, length_opt4]

end

section
variable (s : State) (n : Nat)

theorem length_segmentBody (x : Segment) : (s.segmentBody n x).length = 26 + 19 * (s.claimsOf n).length := by
  have claims : ((s.claimsOf n).flatMap Claim.bytes).length = 19 * (s.claimsOf n).length := by
    simp [List.length_flatMap, length_claimBytes, Nat.mul_comm]
  unfold State.segmentBody
  simp only [List.length_append, claims, length_bytes1, length_bytes2, length_bytes4, length_mark1,
    length_opt1, length_opt2, length_listField]

theorem length_gateBody (x : Gate) : (s.gateBody n x).length = 28 := by
  unfold State.gateBody
  simp only [List.length_append, length_bytes1, length_bytes2, length_mark1, length_opt1]

theorem length_signBody (x : Sign) : (s.signBody n x).length = 50 := by
  unfold State.signBody
  simp only [List.length_append, length_shownBytes, length_bytes1, length_mark1, length_opt1, length_opt4,
    length_listField]

theorem length_channelBody (x : Channel) : (channelBody n x).length = 48 := by
  obtain ⟨source, scale, averaging⟩ := length_sourceBytes x.desc.source
  simp only [channelBody, submissionBytes, List.length_append, source, scale, averaging, length_bytes1, length_bytes2,
    length_opt1, length_opt2, length_opt4]

theorem length_pathBody (x : Path) : (s.pathBody n x).length = 74 := by
  have calls : ((x.cfg.segments.map (fun _ => byteOf x.call.code) ++ List.replicate 2 0xFF#8).take 2).length = 2 := by
    simp
  unfold State.pathBody
  simp only [List.length_append, calls, length_workingBytes, length_bytes1, length_bytes2, length_bytes4,
    length_mark1, length_opt1, length_opt2, length_opt4, length_listField]

theorem length_powerBody : s.powerBody.length = 82 := by
  unfold State.powerBody PowerParams.bytes
  simp only [List.length_append, List.length_singleton, length_bytes1, length_bytes2,
    length_bytes4, length_mark1, length_opt1, length_opt2, length_opt4]

end

/-- Settles O29: each read answers its body, whose length is the sum of its fields'. -/
theorem readsAnswerTheRecord : Obligations.ReadsAnswerTheRecord := by
  refine ⟨fun s m r rest x w here => ?_, fun s m r rest x w here => ?_, fun s m r rest x w here => ?_,
    fun s m r rest x w here => ?_, fun s m r rest x w here => ?_, fun s m r rest w => ?_⟩
  · obtain ⟨t, runs, finishes⟩ := accepted_still (exec_waiting w) (body := s.segmentBody (read1 r.body 0) x)
      (by simp only [owning, State.readSegment, State.takeQueued, setPort_segs, here]; rfl)
    exact ⟨t, runs, finishes, length_segmentBody s _ x⟩
  · obtain ⟨t, runs, finishes⟩ := accepted_still (exec_waiting w) (body := s.gateBody (read1 r.body 0) x)
      (by simp only [owning, State.readGate, State.takeQueued, setPort_gates, here]; rfl)
    exact ⟨t, runs, finishes, length_gateBody s _ x⟩
  · obtain ⟨t, runs, finishes⟩ := accepted_still (exec_waiting w) (body := s.signBody (read1 r.body 0) x)
      (by simp only [owning, State.readSign, State.takeQueued, setPort_line, here]; rfl)
    exact ⟨t, runs, finishes, length_signBody s _ x⟩
  · have channel : (s.takeQueued m rest).channel? (read1 r.body 0) = some x := here
    obtain ⟨t, runs, finishes⟩ := accepted_still (exec_waiting w) (body := channelBody (read1 r.body 0) x)
      (by simp only [owning, State.readChannel, channel])
    exact ⟨t, runs, finishes, length_channelBody _ x⟩
  · obtain ⟨t, runs, finishes⟩ := accepted_still (exec_waiting w) (body := s.pathBody (read1 r.body 0) x)
      (by simp only [owning, State.readPath, State.takeQueued, setPort_hazard, here]; rfl)
    exact ⟨t, runs, finishes, length_pathBody s _ x⟩
  · obtain ⟨t, runs, finishes⟩ := accepted_still (exec_waiting w) (body := s.powerBody) rfl
    exact ⟨t, runs, finishes, length_powerBody s⟩

end Sys2Proof.Proofs
end

