-- ==== Sys2Proof/Proofs/StartAndReload.lean ====
section
/-! What resets, a load that ends in NO_CORRIDOR and RELOAD leave of every record (R159, R182, R183, R185). -/

namespace Sys2Proof.Proofs

open Sys2Proof.Machine Sys2Proof.Safety Sys2Proof.Laws

/-! ### Resets -/

theorem frame_holdReset (s : State) (cause : ResetCause) :
    Frame [.reset, .loader, .notices, .waiting, .drawn, .inputs, .round] State.reset (s.holdReset cause) := by
  intro p hp
  cases p <;> first
    | exact absurd (by decide) hp
    | (intro m; cases m <;> rfl)
    | simp [Part.same, State.holdReset]

theorem frame_restart (s : State) (cause : ResetCause) :
    Frame [.reset, .loader, .notices, .waiting, .drawn, .inputs] State.reset (s.restart cause) := by
  intro p hp
  cases p <;> first
    | exact absurd (by decide) hp
    | (intro m; cases m <;> rfl)
    | simp [Part.same, State.restart]

theorem holdReset_notices (s : State) (cause : ResetCause) (m : Master) : ((s.holdReset cause).port m).notices = [] := by
  cases m <;> rfl

/-- Settles O15: each of the rows is `holdReset` with its cause. -/
theorem resetsHoldEveryRecord : Obligations.ResetsHoldEveryRecord := by
  intro s c cause h
  have runs : exec c s = .next (s.holdReset cause) := by
    rcases h with ⟨rfl, rfl⟩ | ⟨rfl, held, rfl⟩ | ⟨rfl, held, rfl⟩ | ⟨rfl, held, rfl⟩ | ⟨rfl, held, rfl | rfl | rfl⟩
    · rfl
    all_goals simp [exec, execPinReset, execLowSupply, pinCause, lowSupplyCause, held]
  exact ⟨_, runs, rfl, rfl, fun m => ⟨holdReset_notices s cause m, attention_of_held rfl m⟩, fun _ => rfl, rfl, rfl, rfl, rfl,
    rfl, frame_holdReset s cause⟩

/-- Settles O16. -/
theorem resetEndBeginsLoading : Obligations.ResetEndBeginsLoading := by
  intro s cause held
  have runs : exec .resetEnd s = .next (s.restart cause) := by simp [exec, execResetEnd, held]
  exact ⟨_, runs, rfl, rfl, fun m => ⟨restart_notices s cause m, attention_of_notices rfl (restart_notices s cause m)⟩, rfl, rfl,
    rfl, frame_restart s cause⟩

/-! ### A load that ends in NO_CORRIDOR -/

/-- A header byte that cannot be read leaves the header group faulty (R178). -/
theorem readBytes_unreadable {image : List MemCell} {pos n i : Nat} {c : MemCell} (low : pos ≤ i) (high : i < pos + n)
    (at_i : image[i]? = some c) (nacks : 3 ≤ c.nacks) : readBytes image pos n = none := by
  have mem : c ∈ (image.drop pos).take n := by
    refine List.mem_iff_getElem?.2 ⟨i - pos, ?_⟩
    rw [List.getElem?_take_of_lt (by omega), List.getElem?_drop, Nat.add_sub_cancel' low]
    exact at_i
  have unreadable : Machine.MemCell.readable c = false := decide_eq_false (Nat.not_lt.2 nacks)
  have all : ((image.drop pos).take n).all Machine.MemCell.readable = false := by
    simpa using ⟨c, mem, unreadable⟩
  simp [readBytes, all]

theorem header_unreadable {image : List MemCell} {i : Nat} {c : MemCell} (low : i < 14) (at_i : image[i]? = some c)
    (nacks : 3 ≤ c.nacks) : ∃ fault next, readGroup image 0 10 = .failed fault next := by
  unfold readGroup
  split
  · exact ⟨_, _, rfl⟩
  · rename_i length read
    split
    · exact ⟨_, _, rfl⟩
    · have behind : 2 ≤ i := by
        by_contra before
        rw [readBytes_unreadable (Nat.zero_le i) (by omega) at_i nacks] at read
        cases read
      rw [readRecords, readBytes_unreadable (pos := 0 + 2) (n := 10 + 2) (by omega) (by omega) at_i nacks]
      exact ⟨_, _, rfl⟩

theorem evaluateMode_reserve (s : State) (silent : Bool) : (s.evaluateMode silent).power.reserve = s.power.reserve :=
  (effect_evaluateMode s silent).frame .reserve (by decide)

theorem updateReserve_reserve (s : State) : s.updateReserve.power.reserve = closureReserve s.gates := by
  unfold State.updateReserve
  dsimp only
  split
  · exact (‹_› : _ = _).symm
  · exact evaluateMode_reserve _ _

theorem frame_dropCorridor (s : State) (report : LoadReport) : Frame [.records, .claims, .authority, .gates, .priority, .tops,
    .signs, .transmit, .line, .channels, .paths, .loader] s (s.dropCorridor report) := by
  intro p hp
  cases p <;> first
    | exact absurd (by decide) hp
    | simp [Part.same, State.port, State.dropCorridor]

theorem channel?_range (s : State) (f : Nat → Option Channel) {c : Nat} (h : c < 32) :
    ({ s with scan := { s.scan with channels := (List.range 32).map f } } : State).channel? c = f c := by
  simp [State.channel?, h]

theorem channel?_of_same {s t : State} (same : t.scan.channels = s.scan.channels) (c : Nat) : t.channel? c = s.channel? c := by
  simp [State.channel?, same]

/-- R159: without a description every output is off. -/
theorem output_bare {s : State} (bare : s.described = false) (l : Nat) : s.output l = false := by simp [State.output, bare]

/-- What a load that gives no description leaves. -/
theorem endNoCorridor_leaves (s : State) (report : LoadReport) : ∃ u, u = (s.dropCorridor report).updateReserve ∧
    s.endNoCorridor report = { u with power := (u.power.takeParams none).loadAccount .reload } ∧
    Frame (.reserve :: .mode :: noticeParts) (s.dropCorridor report) u :=
  ⟨_, rfl, rfl, frame_updateReserve_bare rfl⟩

theorem loadAccount_reload (p : Power) : (p.loadAccount .reload).account = Nat.min p.account p.params.capacity := by
  unfold Power.loadAccount
  rw [if_pos rfl]
  split
  · rename_i above
    exact (Nat.min_eq_right above.le).symm
  · rename_i within
    exact (Nat.min_eq_left (Nat.le_of_not_lt within)).symm

/-- Settles O17: no group but the header need be read for the second part. -/
theorem faultyDescriptionEndsInNoCorridor : Obligations.FaultyDescriptionEndsInNoCorridor := by
  refine ⟨fun s image run loading nothing => ?_, fun image i c low at_i nacks => ?_⟩
  · obtain ⟨u, hu, ends, kept⟩ := endNoCorridor_leaves s (loadImage image).report
    have runs : exec (.descriptionLoadEnd image) s = .next (s.endNoCorridor (loadImage image).report) := by
      simp [exec, execDescriptionLoadEnd, run, loading, State.endLoad, nothing]
    have loader : u.loader = (s.dropCorridor (loadImage image).report).loader := kept .loader (by decide)
    have channels : u.scan.channels = (s.dropCorridor (loadImage image).report).scan.channels := kept .channels (by decide)
    obtain ⟨params, fromGroup, -⟩ := kept .parameters (by decide)
    obtain ⟨account, -⟩ := kept .account (by decide)
    obtain ⟨entries, flight, -⟩ := kept .transmit (by decide)
    have reserve : u.power.reserve = 0 := by rw [hu, updateReserve_reserve]; rfl
    have channel (c : Nat) (h : c < 32) : u.channel? c = s.channelAfter [] c := by
      rw [channel?_of_same channels]
      exact channel?_range (s.dropCorridor (loadImage image).report) _ h
    refine ⟨_, runs, ?_⟩
    rw [ends, loadAccount_keeps]
    refine ⟨loader, kept .records (by decide), kept .claims (by decide), kept .authority (by decide), kept .gates (by decide),
      kept .signs (by decide), entries, flight, kept .paths (by decide), kept .priority (by decide), fun c h => ?_,
      fun c h low => ?_, rfl, rfl, ?_, fromGroup, reserve, ?_, fun l => ?_, ?_⟩
    · refine (channel c (by omega)).trans ?_
      simp [State.channelAfter, Nat.not_le.2 h]
    · refine (channel c h).trans ?_
      simp [State.channelAfter, low]
    · simp [Power.takeParams, params, defaultParams, State.dropCorridor]
    · rw [← loadAccount_keeps, loadAccount_reload]
      simp [Power.takeParams, account, defaultParams, State.dropCorridor]
    · have bare : u.described = false := by
        rw [State.described, loader]
        rfl
      exact output_bare bare l
    · refine Moves.frame_trans (Moves.frame_mono (by decide) (frame_dropCorridor s (loadImage image).report))
        (Moves.frame_trans (Moves.frame_mono (by decide) kept) ?_)
      intro p hp
      cases p <;> simp [Part.same, State.port, Power.takeParams] at hp ⊢
  · obtain ⟨fault, next, failed⟩ := header_unreadable low at_i nacks
    have load : loadImage image = noCorridor [] fault := by rw [loadImage, failed]
    rw [load]
    exact ⟨rfl, rfl⟩

/-! ### RELOAD -/

theorem clear_eq (x : Slot) : x.clear = {
    content := none, generation := if x.content = none then x.generation else (x.generation + 1) % 256, posted := none } := by
  simp [Slot.clear, Slot.renew, nextGeneration, eq_comm]

theorem setLamp_false (x : Gate) : (x.setLamp false).flashing = false ∧
    { x.setLamp false with flashing := false, lampOn := false, lampLeft := 0 } =
      { x with flashing := false, lampOn := false, lampLeft := 0 } := by
  unfold Gate.setLamp
  split
  · exact ⟨‹_›, rfl⟩
  · exact ⟨rfl, rfl⟩

theorem frame_reloaded_named (s : State) : Frame [.records, .claims, .gates, .slots, .tops, .signs, .transmit, .line,
    .round, .paths, .notices, .overflow, .transfers, .loader] s s.reloaded := frame_reloaded s

/-- Settles O19. -/
theorem reloadClearsTheCorridor : Obligations.ReloadClearsTheCorridor := by
  intro s r rest w
  refine ⟨fun loading => refused (by decide) (exec_waiting w) ?_, fun described busy =>
    refused (by decide) (exec_waiting w) ?_, fun idle free => ?_⟩
  · have loading : (s.takeQueued .centre rest).loader.state = .loading := loading
    simp [owning, State.reload, loading]
  · have moving : (s.takeQueued .centre rest).described ∧ (s.takeQueued .centre rest).busy := ⟨described, busy⟩
    have idle : (s.takeQueued .centre rest).loader.state ≠ .loading := fun loading => by
      have : s.loader.state = .loading := loading
      simp [State.described, this] at described
    simp only [owning, State.reload, ne_eq, not_true_eq_false, if_false, idle, moving, and_self, if_true]
  · have moving : ¬ ((s.takeQueued .centre rest).described ∧ (s.takeQueued .centre rest).busy) := fun ⟨described, busy⟩ => by
      have still : s.busy = true := busy
      simp [free described] at still
    have idle : (s.takeQueued .centre rest).loader.state ≠ .loading := idle
    have answer : owning .reload .centre r.body (s.takeQueued .centre rest) =
        Answer.ok [] (s.takeQueued .centre rest).reloaded := by
      simp only [owning, State.reload, ne_eq, not_true_eq_false, if_false, idle, moving]
    have runs := exec_waiting w
    rw [answer] at runs
    have finished := finish_frame (s.takeQueued .centre rest).reloaded .centre (okTo r [])
    refine ⟨_, runs, rfl, fun m => ⟨?_, ?_⟩, rfl, rfl, rfl, rfl, fun n x at_n => ?_, rfl, rfl, rfl, rfl, rfl, rfl, ?_, ?_, rfl,
      rfl, rfl, ?_⟩
    · exact (finished .notices (by decide) m).trans (reloaded_notices _ m)
    · refine (finished .overflow (by decide) m).trans ?_
      cases m <;> rfl
    · show (s.store.slots.map Slot.clear)[n]? = _
      rw [List.getElem?_map, at_n, ← clear_eq]
      rfl
    · intro x hx
      obtain ⟨y, -, rfl⟩ := List.mem_map.1 (show x ∈ s.gates.map (fun g => g.setLamp false) from hx)
      exact (setLamp_false y).1
    · show (s.gates.map (fun g => g.setLamp false)).map _ = _
      rw [List.map_map]
      exact List.map_congr_left (fun x _ => (setLamp_false x).2)
    · refine finishes_of _ (frame_reloaded_named _) (fun k => ?_) (fun k => ?_)
      · cases k <;> rfl
      · cases k <;> rfl

end Sys2Proof.Proofs
end

