-- ==== Sys2Proof/Proofs/PortRows.lean ====
section
/-! The ports: request frames read back, the two ends of a transfer (R164, R166, R168), and the commands of the port block
itself (R171 to R174). -/

namespace Sys2Proof.Proofs

open Sys2Proof.Machine Sys2Proof.Safety Sys2Proof.Laws

/-! ### Frames -/

theorem read1_byteOf {n : Nat} (h : n < 256) : (byteOf n).toNat = n := by
  simpa [byteOf] using h

/-- Settles O20: the body length of the header cuts the covered bytes and their check out of the frame again. -/
theorem requestFramesReadBack : Obligations.RequestFramesReadBack := by
  intro r padding short
  have length : read1 (requestFrame r ++ padding) 3 = r.body.length := read1_byteOf (by omega)
  have frame : requestFrame r ++ padding = ([requestLead, r.tag, r.code, byteOf r.body.length] ++ r.body) ++
      (crcBytes ([requestLead, r.tag, r.code, byteOf r.body.length] ++ r.body) ++ padding) := List.append_assoc _ _ _
  have covered : ([requestLead, r.tag, r.code, byteOf r.body.length] ++ r.body).length = 4 + r.body.length := by
    rw [List.length_append]
    rfl
  have long : (requestFrame r ++ padding).length = 6 + r.body.length + padding.length := by
    rw [frame, List.length_append, covered, List.length_append]
    simp only [crcBytes, List.length_cons, List.length_nil]
    omega
  have consistent : lengthInconsistent (requestFrame r ++ padding) = false := by
    simp only [lengthInconsistent, length, long, Bool.or_eq_false_iff, decide_eq_false_iff_not]
    omega
  have agrees : frameCheckOk (requestFrame r ++ padding) r.body.length = true := by
    have lead : byteAt (requestFrame r ++ padding) 0 = requestLead := rfl
    rw [frameCheckOk, lead, frame, ← covered, List.drop_left, List.take_left]
    simp [crcBytes]
  have body : ((requestFrame r ++ padding).drop 4).take r.body.length = r.body := by
    have rest : (requestFrame r ++ padding).drop 4 = r.body ++
        (crcBytes ([requestLead, r.tag, r.code, byteOf r.body.length] ++ r.body) ++ padding) := by
      rw [frame, List.append_assoc]
      rfl
    rw [rest, List.take_left]
  have first : (requestFrame r ++ padding).head? ≠ some 0#8 := by
    have : (requestFrame r ++ padding).head? = some requestLead := rfl
    rw [this]
    decide
  simp only [parseIncoming, if_neg first, length, consistent, agrees, body]
  rfl

/-! ### Transfers -/

/-- Settles O21. -/
theorem transferStartSendsTheOldestResponse : Obligations.TransferStartSendsTheOldestResponse := by
  intro s m run idle
  have runs : exec (.transferStart m) s = .next (s.setPort m ((s.port m).startTransfer s.loader.state)) := by
    show execTransferStart m s = _
    simp [execTransferStart, run, idle]
  refine ⟨_, _, runs, by rw [port_setPort]; rfl, fun a rest done => ?_, fun done => ?_,
    fun n other => port_setPort_ne s other _, ?_⟩
  · rw [done]
    exact ⟨rfl, by simp [Port.free, done, Config.requestSlots]⟩
  · rw [done]
    exact ⟨rfl, by simp [Port.free, done, Config.requestSlots, emptyResponse]⟩
  · exact frame_setPort s m _ _ (fun _ => rfl) (fun _ => rfl) (fun _ => rfl) (fun _ => rfl) (fun _ => rfl)
      (fun _ => rfl) (by simp)

section
variable (p : Port) (x : Transfer) (n : Nat)

theorem endOutgoing_transfer : (p.endOutgoing x n).transfer = none := by
  unfold Port.endOutgoing
  split <;> rfl

theorem endOutgoing_queued : (p.endOutgoing x n).queued = p.queued := by
  unfold Port.endOutgoing
  split <;> rfl

theorem endOutgoing_done : (p.endOutgoing x n).done =
    if x.response = true ∧ x.frame.length ≤ n then p.done.tail else p.done := by
  unfold Port.endOutgoing
  split
  · next whole => simp only [whole, and_true]
  · next cut => simp only [cut, and_false, if_false]

theorem endOutgoing_overrun : (p.endOutgoing x n).overrun = true ↔
    p.overrun = true ∧ ¬ (x.overrun = true ∧ x.frame.length ≤ n) := by
  unfold Port.endOutgoing
  split
  · next whole => simp [whole]
  · next cut => simp [cut]

theorem endOutgoing_overflow : (p.endOutgoing x n).overflow =
    if x.overflow = true ∧ x.frame.length ≤ n then x.overflowAgain else p.overflow := by
  unfold Port.endOutgoing
  split
  · next whole => simp only [whole, and_true]
  · next cut => simp only [cut, and_false, if_false]

end

section
variable {p : Port} {bytes : List Byte}

theorem parseIncoming_null (h : bytes.head? = some 0#8) : parseIncoming bytes = .null := by
  rw [parseIncoming, if_pos h]

theorem parseIncoming_frame (h : bytes.head? ≠ some 0#8) :
    (∃ tag, parseIncoming bytes = .bad tag) ∨ ∃ r, parseIncoming bytes = .request r := by
  rw [parseIncoming, if_neg h]
  split
  · exact .inl ⟨_, rfl⟩
  · exact .inr ⟨_, rfl⟩

theorem free_eq_zero : p.free = 0 ↔ 8 ≤ p.queued.length + p.done.length := by
  simp only [Port.free, Config.requestSlots]
  omega

theorem takeIncoming_null (h : bytes.head? = some 0#8) : p.takeIncoming bytes = p := by
  rw [Port.takeIncoming, parseIncoming_null h]

theorem takeIncoming_full (h : bytes.head? ≠ some 0#8) (full : 8 ≤ p.queued.length + p.done.length) :
    p.takeIncoming bytes = { p with overrun := true } := by
  obtain ⟨tag, bad⟩ | ⟨r, request⟩ := parseIncoming_frame h
  · simp only [Port.takeIncoming, bad, if_pos (free_eq_zero.2 full)]
  · simp only [Port.takeIncoming, request, if_pos (free_eq_zero.2 full)]

theorem takeIncoming_bad {tag : Byte} (bad : parseIncoming bytes = .bad tag) (room : p.queued.length + p.done.length < 8) :
    p.takeIncoming bytes = { p with done := p.done ++ [{ tag := tag, code := .badFrame, body := [] }] } := by
  simp only [Port.takeIncoming, bad, if_neg (mt free_eq_zero.1 (Nat.not_le.2 room))]

theorem takeIncoming_request {r : Request} (request : parseIncoming bytes = .request r)
    (room : p.queued.length + p.done.length < 8) : p.takeIncoming bytes = { p with queued := p.queued ++ [r] } := by
  simp only [Port.takeIncoming, request, if_neg (mt free_eq_zero.1 (Nat.not_le.2 room))]

/-- R166: what taking a frame in leaves of the transfer and the overflow mark, and when it sets the overrun mark. -/
theorem takeIncoming_marks : (p.takeIncoming bytes).transfer = p.transfer ∧ (p.takeIncoming bytes).overflow = p.overflow ∧
    ((p.takeIncoming bytes).overrun = true ↔
      (bytes.head? ≠ some 0#8 ∧ 8 ≤ p.queued.length + p.done.length) ∨ p.overrun = true) := by
  by_cases null : bytes.head? = some 0#8
  · rw [takeIncoming_null null]
    simp [null]
  by_cases full : 8 ≤ p.queued.length + p.done.length
  · rw [takeIncoming_full null full]
    simp [null, full]
  obtain ⟨tag, bad⟩ | ⟨r, request⟩ := parseIncoming_frame null
  · rw [takeIncoming_bad bad (Nat.not_le.1 full)]
    simp [full]
  · rw [takeIncoming_request request (Nat.not_le.1 full)]
    simp [full]

end

/-- Settles O22: the outgoing frame ends, then the port as it then stands takes the incoming one. -/
theorem transferEndTakesTheFrame : Obligations.TransferEndTakesTheFrame := by
  intro s m x bytes done run under delivered
  have runs : exec (.transferEnd m bytes) s =
      .next (s.setPort m (((s.port m).endOutgoing x bytes.length).takeIncoming bytes)) := by
    show execTransferEnd m bytes s = _
    simp [execTransferEnd, run, under]
  refine ⟨_, runs, ?_⟩
  have queuedAfter := endOutgoing_queued (s.port m) x bytes.length
  have doneAfter := (endOutgoing_done (s.port m) x bytes.length).trans delivered.symm
  obtain ⟨transfer, overflow, overrun⟩ :=
    takeIncoming_marks (p := (s.port m).endOutgoing x bytes.length) (bytes := bytes)
  rw [port_setPort, transfer, overflow, overrun, endOutgoing_overrun, endOutgoing_overflow, endOutgoing_transfer,
    queuedAfter, doneAfter]
  refine ⟨rfl, fun null => ?_, fun frame full => ?_, fun tag bad room => ?_, fun r request room => ?_, Iff.rfl, rfl,
    fun n other => port_setPort_ne s other _, frame_transferEnd s m x bytes⟩
  · rw [takeIncoming_null null]
    exact ⟨queuedAfter, doneAfter⟩
  · rw [takeIncoming_full frame (by rwa [queuedAfter, doneAfter])]
    exact ⟨queuedAfter, doneAfter, .inl ⟨frame, full⟩⟩
  · rw [takeIncoming_bad bad (by rwa [queuedAfter, doneAfter])]
    exact ⟨queuedAfter, by rw [doneAfter]⟩
  · rw [takeIncoming_request request (by rwa [queuedAfter, doneAfter])]
    exact ⟨by rw [queuedAfter], doneAfter⟩

/-! ### The commands of the port block -/

theorem takeQueued_port (s : State) (m : Master) (rest : List Request) :
    (s.takeQueued m rest).port m = { s.port m with queued := rest } := port_setPort s m _

theorem takeQueued_port_ne (s : State) {m n : Master} (h : n ≠ m) (rest : List Request) :
    (s.takeQueued m rest).port n = s.port n := port_setPort_ne s h _

theorem finish_port (s : State) (m : Master) (x : Response) :
    (s.finish m x).port m = { s.port m with done := (s.port m).done ++ [x] } := port_setPort s m _

theorem finish_port_ne (s : State) {m n : Master} (h : n ≠ m) (x : Response) : (s.finish m x).port n = s.port n :=
  port_setPort_ne s h _

/-- R171: the counts formed before the slot of the STATUS becomes DONE are those of the state after it. -/
theorem counts_finish (s : State) (m n : Master) (rest : List Request) (x : Response) :
    ((s.takeQueued m rest).port n).counts (if n = m then 1 else 0) =
      [byteOf (((s.takeQueued m rest).finish m x).port n).free,
        byteOf (((s.takeQueued m rest).finish m x).port n).queued.length,
        byteOf (((s.takeQueued m rest).finish m x).port n).done.length,
        byteOf (((s.takeQueued m rest).finish m x).port n).notices.length] := by
  obtain rfl | other := eq_or_ne n m
  · rw [finish_port, takeQueued_port, if_pos rfl]
    simp [Port.counts, Port.free, bytes1, Nat.add_assoc, Nat.sub_sub]
  · rw [finish_port_ne _ other, takeQueued_port_ne s other, if_neg other]
    rfl

/-- Settles O24. -/
theorem statusCountsThePorts : Obligations.StatusCountsThePorts := by
  intro s m r rest w nine
  obtain ⟨runs, finishes⟩ := accepted (exec_waiting w) (body := (s.takeQueued m rest).statusBody m) rfl (.refl [] [] _)
  refine ⟨_, _, runs, finishes, ?_, rfl, fun i n port => ?_, ?_⟩
  · have ports : ([Master.centre, .slope, .crew].flatMap
        (fun x => ((s.takeQueued m rest).port x).counts (if x = m then 1 else 0))).length = 12 := rfl
    have report : (s.takeQueued m rest).loader.report.bytes.length = 11 := by
      simp [LoadReport.bytes, bytes1, State.takeQueued, nine]
    rw [State.statusBody, List.length_append, List.length_append, ports, report]
    rfl
  · rw [← counts_finish]
    match i, port with
    | 0, rfl => rfl
    | 1, rfl => rfl
    | 2, rfl => rfl
  · exact List.append_assoc (s.loader.report.outcomes.map (fun o => byteOf o.code)) _ _

/-- An accepted command whose owning block writes ports, but no request slot. -/
theorem accepted_frame {s : State} {m : Master} {c : Command} {r : Request} {rest : List Request} {l : List Part}
    {body : List Byte} {u : State} (w : Waits s m c r rest)
    (h : owning c m r.body (s.takeQueued m rest) = Answer.ok body u) (frame : Frame l (s.takeQueued m rest) u)
    (queued : .queued ∉ l := by decide) (done : .done ∉ l := by decide) :
    exec (c.row m r.body) s = .next (u.finish m (okTo r body)) ∧
      Finishes s (u.finish m (okTo r body)) m rest (okTo r body) l := by
  have runs := exec_waiting w
  rw [h] at runs
  exact ⟨runs, finishes_of _ frame (frame .queued queued) (frame .done done)⟩

/-- Settles O25. -/
theorem fetchNoticeTakesTheOldest : Obligations.FetchNoticeTakesTheOldest := by
  intro s m r rest w
  refine ⟨fun none => ?_, fun n more head => ?_⟩
  · refine accepted_still (exec_waiting w) ?_
    simp only [owning, State.fetchNotice, takeQueued_port, none]
    rfl
  · have fetched : owning .fetchNotice m r.body (s.takeQueued m rest) =
        Answer.ok ([1#8] ++ noticeBytes n (s.port m).overflow ++ [byteOf more.length])
          ((s.takeQueued m rest).setPort m { s.port m with queued := rest, notices := more }) := by
      simp only [owning, State.fetchNotice, takeQueued_port, head]
      rfl
    have frame := frame_fetchNotice (s.takeQueued m rest) m
    rw [show (s.takeQueued m rest).fetchNotice m = _ from fetched] at frame
    obtain ⟨runs, finishes⟩ := accepted_frame w fetched frame
    refine ⟨_, runs, ?_, fun k other => ?_, finishes⟩
    · rw [finish_port, port_setPort]
    · rw [finish_port_ne _ other, port_setPort_ne _ other, takeQueued_port_ne s other]

theorem setMask_bits (n : Nat) (h : n < 65536) :
    ((BitVec.ofNat 16 n).getLsbD 14 || (BitVec.ofNat 16 n).getLsbD 15) = decide (16384 ≤ n) := by
  simp only [BitVec.getLsbD_ofNat, Nat.testBit_eq_decide_div_mod_eq]
  by_cases large : 16384 ≤ n
  · simp [large]; omega
  · simp [large]; omega

theorem read2_lt (bytes : List Byte) (i : Nat) : read2 bytes i < 65536 := by
  have high := (byteAt bytes i).isLt
  have low := (byteAt bytes (i + 1)).isLt
  simp only [read2, read1]
  omega

theorem admits_fullMask {p : Port} (h : p.mask = fullMask) (k : NoticeKind) : p.admits k = true := by
  rw [Port.admits, h]
  cases k <;> rfl

/-- Settles O26. -/
theorem portsTakeAMaskAndAReset : Obligations.PortsTakeAMaskAndAReset := by
  refine ⟨fun s m r rest w => ⟨fun known => ?_, fun unknown => ?_⟩, fun s m r rest w => ?_⟩
  · have set : owning .setNoticeMask m r.body (s.takeQueued m rest) = Answer.ok [] ((s.takeQueued m rest).setPort m
        { (s.takeQueued m rest).port m with mask := BitVec.ofNat 16 (read2 r.body 0) }) := by
      rw [owning, State.setMask, setMask_bits _ (read2_lt _ _), if_neg (by simpa using known)]
    have frame := frame_setMask (s.takeQueued m rest) m (BitVec.ofNat 16 (read2 r.body 0))
    rw [show (s.takeQueued m rest).setMask m _ = _ from set] at frame
    obtain ⟨runs, finishes⟩ := accepted_frame w set frame
    refine ⟨_, runs, by rw [finish_port, port_setPort], fun k other => ?_, finishes⟩
    rw [finish_port_ne _ other, port_setPort_ne _ other, takeQueued_port_ne s other]
  · refine refused (by decide) (exec_waiting w) ?_
    rw [owning, State.setMask, setMask_bits _ (read2_lt _ _), if_pos (by simpa using unknown)]
  · have runs := exec_waiting w
    have port : (((s.takeQueued m rest).setPort m ((s.takeQueued m rest).port m).cutOff).finish m (okTo r [])).port m =
        { ({ s.port m with queued := rest } : Port).cutOff with
          done := (s.port m).done ++ rest.map (fun q => refusalOf q .notReady) ++ [okTo r []] } := by
      rw [finish_port, port_setPort, takeQueued_port]
      rfl
    have others (k : Master) (other : k ≠ m) :
        (((s.takeQueued m rest).setPort m ((s.takeQueued m rest).port m).cutOff).finish m (okTo r [])).port k = s.port k := by
      rw [finish_port_ne _ other, port_setPort_ne _ other, takeQueued_port_ne s other]
    refine ⟨_, runs, congrArg Port.queued port, congrArg Port.done port, congrArg Port.notices port,
      attention_of_notices_nil (congrArg Port.notices port), admits_fullMask (congrArg Port.mask port),
      congrArg Port.overflow port, (congrArg Port.overrun port).trans rfl, others, ?_⟩
    exact Moves.frame_trans (Moves.frame_mono (by decide) (takeQueued_frame s m rest))
      (Moves.frame_trans (frame_cutOff _ m) (Moves.frame_mono (by decide) (finish_frame _ m _)))

end Sys2Proof.Proofs
end

