-- ==== Sys2Proof/Proofs/Notices.lean ====
section
/-! What a raised notice does to a port (R169), and that a notice once told is not lost to notices of other kinds: it is in
the queue, or the overflow mark says that it did not fit. -/

namespace Sys2Proof.Proofs

open Sys2Proof.Machine Sys2Proof.Safety Sys2Proof.Laws

theorem take_of_masked {p : Port} {n : Notice} (h : p.admits n.kind = false) : p.take n = p := by
  simp [Port.take, h]

theorem take_of_present {p : Port} {n : Notice} (admits : p.admits n.kind = true)
    (h : ∃ e ∈ p.notices, e.kind = n.kind ∧ e.object = n.object) :
    p.take n = { p with notices := p.notices.map (fun e => if e.kind = n.kind ∧ e.object = n.object then n else e) } := by
  have present : p.notices.any (fun e => e.sameKey n) = true := by
    simpa only [List.any_eq_true, sameKey_iff] using h
  simp only [Port.take, admits, present, sameKey_iff, Bool.not_true, Bool.false_eq_true, if_false, if_true]

theorem take_of_new {p : Port} {n : Notice} (admits : p.admits n.kind = true)
    (h : ∀ e ∈ p.notices, ¬ (e.kind = n.kind ∧ e.object = n.object)) :
    p.take n = if 16 ≤ p.notices.length then p.setOverflow else { p with notices := p.notices ++ [n] } := by
  have new : p.notices.any (fun e => e.sameKey n) = false := by
    rw [← Bool.not_eq_true, List.any_eq_true]
    rintro ⟨e, he, same⟩
    exact h e he ((sameKey_iff e n).1 same)
  simp only [Port.take, admits, new, Bool.not_true, Bool.false_eq_true, if_false]
  rfl

/-- Settles O27: the four cases of R169 at the port, and the other ports. -/
theorem noticesUpdateJoinOrDrop : Obligations.NoticesUpdateJoinOrDrop := by
  intro s m n
  refine ⟨fun masked => ?_, fun admits present => ?_, fun admits new => ⟨fun room => ?_, fun full => ?_⟩,
    fun k other => port_tell_ne s other n⟩
  · rw [port_tell, take_of_masked masked]
  · rw [port_tell, take_of_present admits present]
    exact ⟨rfl, rfl⟩
  · rw [port_tell, take_of_new admits new, if_neg (by omega)]
    exact ⟨rfl, rfl⟩
  · rw [port_tell, take_of_new admits new, if_pos full]
    exact ⟨rfl, rfl⟩

/-! ### A notice told is kept -/

/-- The port holds the notice, or it is full without one of the kind and object and its overflow mark is set. -/
def HoldsNotice (p : Port) (n : Notice) : Prop :=
  (p.overflow = true ∧ 16 ≤ p.notices.length ∧ ∀ e ∈ p.notices, ¬ (e.kind = n.kind ∧ e.object = n.object)) ∨
    n ∈ p.notices

theorem holds_take {p : Port} {n : Notice} (admits : p.admits n.kind = true) : HoldsNotice (p.take n) n := by
  by_cases present : ∃ e ∈ p.notices, e.kind = n.kind ∧ e.object = n.object
  · rw [take_of_present admits present]
    obtain ⟨e, he, same⟩ := present
    exact .inr (List.mem_map.2 ⟨e, he, if_pos same⟩)
  · have new : ∀ e ∈ p.notices, ¬ (e.kind = n.kind ∧ e.object = n.object) := fun e he same => present ⟨e, he, same⟩
    rw [take_of_new admits new]
    split
    · next full => exact .inl ⟨rfl, full, new⟩
    · exact .inr (by simp)

theorem holds_take_other {p : Port} {n x : Notice} (h : HoldsNotice p n) (other : ¬ (x.kind = n.kind ∧ x.object = n.object)) :
    HoldsNotice (p.take x) n := by
  by_cases admits : p.admits x.kind = true
  · by_cases present : ∃ e ∈ p.notices, e.kind = x.kind ∧ e.object = x.object
    · rw [take_of_present admits present]
      obtain ⟨mark, full, none⟩ | here := h
      · refine .inl ⟨mark, by simpa using full, fun e he => ?_⟩
        obtain ⟨old, hold, rfl⟩ := List.mem_map.1 he
        split
        · exact other
        · exact none old hold
      · exact .inr (List.mem_map.2 ⟨n, here, if_neg (fun same => other ⟨same.1.symm, same.2.symm⟩)⟩)
    · rw [take_of_new admits (fun e he same => present ⟨e, he, same⟩)]
      obtain ⟨mark, full, none⟩ | here := h
      · rw [if_pos full]
        exact .inl ⟨rfl, full, none⟩
      · split
        · exact .inr here
        · exact .inr (List.mem_append_left _ here)
  · rwa [take_of_masked (by simpa using admits)]

/-- R169: a notice told to port m between s and t is held in t, if the mask of s admits it. -/
def Heard (s t : State) (m : Master) (n : Notice) : Prop := (s.port m).admits n.kind = true → HoldsNotice (t.port m) n

section
variable {s t u : State} {m : Master} {n : Notice} {l : List Part} {K : List NoticeKind}

theorem heard_tell (s : State) (m : Master) (n : Notice) : Heard s (s.tell m n) m n := fun admits => by
  rw [port_tell]
  exact holds_take admits

theorem Heard.after (h : Heard s t m n) (e : Effect l K t u) (other : n.kind ∉ K := by decide) : Heard s u m n :=
  fun admits => by
    obtain ⟨ns, kinds, port⟩ := e.heard m
    rw [port]
    refine List.foldlRecOn (motive := fun p => HoldsNotice p n) ns Port.take (h admits)
      (fun p hold x hx => holds_take_other hold ?_)
    rintro ⟨same, -⟩
    exact other (same ▸ kinds x hx)

theorem Heard.before (e : Effect l K s t) (h : Heard t u m n) : Heard s u m n := fun admits =>
  h (by rwa [Port.admits, e.mask m])

/-- A notice told to a port, and then others told to other ports. -/
theorem Heard.apart {k : Master} {x : Notice} (h : Heard s t m n) (other : m ≠ k) : Heard s (t.tell k x) m n :=
  fun admits => by
    rw [port_tell_ne t other]
    exact h admits

theorem heard_tellAll (s : State) (m : Master) (n : Notice) : Heard s (s.tellAll n) m n := by
  have mask {u : State} (t : State) (k : Master) (h : Heard (t.tell k n) u m n) : Heard t u m n :=
    Heard.before (effect_tell t k n n.kind) h
  cases m with
  | centre => exact ((heard_tell s .centre n).apart (k := .slope) (by decide)).apart (k := .crew) (by decide)
  | slope => exact mask s .centre ((heard_tell _ .slope n).apart (k := .crew) (by decide))
  | crew => exact mask s .centre (mask _ .slope (heard_tell _ .crew n))

theorem Heard.finish (h : Heard s t m n) (k : Master) (x : Response) : Heard s (t.finish k x) m n := fun admits => by
  obtain hold := h admits
  have notices : ((t.finish k x).port m).notices = (t.port m).notices := finish_frame t k x .notices (by decide) m
  have overflow : ((t.finish k x).port m).overflow = (t.port m).overflow := finish_frame t k x .overflow (by decide) m
  rwa [HoldsNotice, notices, overflow]

theorem Heard.taken {rest : List Request} {k : Master} (h : Heard (s.takeQueued k rest) t m n) : Heard s t m n :=
  fun admits => h (by
    have mask : ((s.takeQueued k rest).port m).mask = (s.port m).mask := takeQueued_frame s k rest .masks (by decide) m
    rwa [Port.admits, mask])

theorem Heard.told {kind : NoticeKind} {object : Nat} {first second third : Word16}
    (h : Heard s t m (s.notice kind object first second third)) : Told s t m kind object first second third := h

end

end Sys2Proof.Proofs
end

