-- ==== Sys2Proof/Proofs/SlotRows.lean ====
section
/-! The slot store (chapter 3): what a write leaves in the slots, and the rows of the posted slots, the priority map and the
display clock. -/

namespace Sys2Proof.Proofs

open Sys2Proof.Machine Sys2Proof.Safety Sys2Proof.Laws

/-! ### Written slots (R59) -/

section
variable {s : State} {n : Nat} {f : Slot → Slot} {old : Slot}

theorem writeSlot_slots (h : s.store.slots[n]? = some old) :
    (s.writeSlot n f).store.slots = s.store.slots.set n (old.renew (f old)) := by
  unfold State.writeSlot
  rw [h]
  dsimp only
  split
  · rfl
  · exact (effect_reselect _).frame .slots (by decide)

theorem writeSlot_self (h : s.store.slots[n]? = some old) :
    (s.writeSlot n f).store.slots[n]? = some (old.renew (f old)) := by
  obtain ⟨inside, -⟩ := List.getElem?_eq_some_iff.1 h
  rw [writeSlot_slots h, List.getElem?_set_self inside]

theorem writeSlot_apart {j : Nat} (other : j ≠ n) : (s.writeSlot n f).store.slots[j]? = s.store.slots[j]? := by
  cases h : s.store.slots[n]? with
  | none => simp [State.writeSlot, h]
  | some old => rw [writeSlot_slots h, List.getElem?_set_ne other.symm]

theorem formSlot_content {c : Option Content} (h : s.store.slots[n]? = some old) :
    ∃ y, (s.formSlot n c).store.slots[n]? = some y ∧ y.content = c :=
  ⟨_, writeSlot_self h, rfl⟩

end

theorem renew_new {old new : Slot} (h : new.content ≠ old.content) :
    old.renew new = { new with generation := (old.generation + 1) % 256 } := by
  rw [Slot.renew, if_neg h, nextGeneration]

/-! ### POST MESSAGE (R75, R76) -/

section
variable {s : State} {m : Master}

theorem freeSlot_none (full : ∀ j, (postedRange m).1 ≤ j → j < (postedRange m).1 + (postedRange m).2 →
    ∃ x, s.store.slots[j]? = some x ∧ x.content ≠ none) : s.freeSlot m = none := by
  rw [State.freeSlot, List.find?_range'_eq_none]
  intro j low high
  obtain ⟨x, here, valid⟩ := full j low high
  simpa [here, Option.isSome_iff_ne_none] using valid

theorem freeSlot_lowest {n : Nat} {old : Slot} (low : (postedRange m).1 ≤ n)
    (high : n < (postedRange m).1 + (postedRange m).2) (here : s.store.slots[n]? = some old) (invalid : old.content = none)
    (below : ∀ j, (postedRange m).1 ≤ j → j < n → ∃ x, s.store.slots[j]? = some x ∧ x.content ≠ none) :
    s.freeSlot m = some n := by
  rw [State.freeSlot, List.find?_range'_eq_some]
  refine ⟨by simp [here, invalid], List.mem_range'_1.2 ⟨low, high⟩, fun j first before => ?_⟩
  obtain ⟨x, there, valid⟩ := below j first before
  simpa [there, Option.isSome_iff_ne_none] using valid

end

/-- Settles O42. -/
theorem postMessageTakesTheLowestSlot : Obligations.PostMessageTakesTheLowestSlot := by
  intro s m r rest a w parsed good
  subst parsed
  have ok : (s.takeQueued m rest).postOk (parsePost r.body) = true := good
  refine ⟨fun full => ?_, fun n old low high here invalid below => ?_⟩
  · have free : (s.takeQueued m rest).freeSlot m = none := freeSlot_none full
    refine refused (by decide) (exec_waiting w) ?_
    simp [owning, State.postMessage, ok, free]
  · have free : (s.takeQueued m rest).freeSlot m = some n := freeSlot_lowest low high here invalid below
    have slot : (s.takeQueued m rest).store.slots[n]? = some old := here
    have new : ((s.takeQueued m rest).postedSlot m (parsePost r.body) old).content ≠ old.content := by
      simp [State.postedSlot, invalid]
    have written := writeSlot_self (f := (s.takeQueued m rest).postedSlot m (parsePost r.body)) slot
    rw [renew_new new] at written
    have generation : ((s.takeQueued m rest).writeSlot n ((s.takeQueued m rest).postedSlot m (parsePost r.body))).generation n =
        (old.generation + 1) % 256 := by
      simp [State.generation, written]
    obtain ⟨runs, finishes⟩ := accepted (exec_waiting w) (body := [byteOf n, byteOf ((old.generation + 1) % 256)])
      (by simp only [owning, State.postMessage, ok, free, generation]; rfl) (effect_writeSlot _ n _)
    exact ⟨_, runs, written, fun j other => writeSlot_apart other, finishes⟩

/-! ### Posted slots that end (R67, R77) -/

/-- The claims with the link of a posted slot's claim cleared. -/
theorem unlinkClaim_claims (s : State) (k : Nat) (m : Master) : (s.unlinkClaim k m).segs.claims =
    s.segs.claims.map (fun d => if some k = some d.segment ∧ d.holder = .master m then { d with link := none } else d) := by
  refine List.map_congr_left (fun d _ => ?_)
  simp only [isOf_iff, Option.some.injEq, eq_comm (a := k)]

section
variable {s : State} {n : Nat} {x : Slot} {c : Content} {p : Posted}

/-- R67: a posted slot ends, but for its notice. -/
theorem endPosted_of (cause : SlotEndCause) (tell : Bool) (here : s.store.slots[n]? = some x) (content : x.content = some c)
    (posted : x.posted = some p) :
    ∃ u, Effect (.claims :: contentParts) [] s u ∧
      u.store.slots[n]? = some { content := none, generation := (x.generation + 1) % 256, posted := none } ∧
      u.segs.claims = s.segs.claims.map (fun d =>
        if p.link = some d.segment ∧ d.holder = .master p.owner then { d with link := none } else d) ∧
      s.endPosted n cause tell = if tell then u.tell p.owner (u.slotNotice n cause c.catalogue p.link) else u := by
  have written (t : State) (slot : t.store.slots[n]? = some x) :
      (t.writeSlot n (fun y => { y with content := none, posted := none })).store.slots[n]? =
        some { content := none, generation := (x.generation + 1) % 256, posted := none } := by
    rw [writeSlot_self slot, renew_new (by simp [content])]
  have kept (t : State) : (t.writeSlot n (fun y => { y with content := none, posted := none })).segs.claims =
      t.segs.claims := (effect_writeSlot t n _).frame .claims (by decide)
  cases link : p.link with
  | none =>
    refine ⟨_, (effect_writeSlot s n _).mono, written s here, ?_, by simp only [State.endPosted, here, content, posted, link]⟩
    rw [kept]
    simp
  | some k =>
    refine ⟨_, Effect.seq (effect_unlinkClaim s k p.owner) (effect_writeSlot _ n _), written _ here, ?_,
      by simp only [State.endPosted, here, content, posted, link]⟩
    rw [kept, unlinkClaim_claims]

theorem postedIn_of (here : s.store.slots[n]? = some x) (content : x.content = some c) (posted : x.posted = some p) :
    s.postedIn n = some p := by
  simp [State.postedIn, here, content, posted]

/-- R80: SLOT_ENDED as it is told at the end of a posted slot. -/
theorem heard_slotEnded {u : State} (before : Effect (.claims :: contentParts) [] s u) (cause : SlotEndCause) (link : Option Nat)
    (catalogue : Nat) (m : Master) :
    Heard s (u.tell m (u.slotNotice n cause catalogue link)) m
      (s.notice .slotEnded n (packed 0 cause.code) (packed 0 catalogue) (value16 ((link.map Int.ofNat).getD 32767))) := by
  have now : u.now = s.now := (before.frame .clock (by decide)).1
  have same : u.slotNotice n cause catalogue link =
      s.notice .slotEnded n (packed 0 cause.code) (packed 0 catalogue) (value16 ((link.map Int.ofNat).getD 32767)) := by
    rw [State.slotNotice, State.notice, State.notice, now]
    rfl
  rw [same]
  exact .before before (heard_tell u m _)

end

/-- Settles O43. -/
theorem postedSlotsEnd : Obligations.PostedSlotsEnd := by
  intro s n x c p here content posted
  refine ⟨fun m r rest w named low high may => ?_, fun last run ends due => ?_⟩
  · subst named
    obtain ⟨u, effect, slot, claims, ended⟩ := endPosted_of (s := s.takeQueued m rest) .withdrawn (m != p.owner) here content posted
    have answer : owning .withdrawMessage m r.body (s.takeQueued m rest) =
        Answer.ok [] ((s.takeQueued m rest).endPosted (read1 r.body 0) .withdrawn (m != p.owner)) := by
      have within : ¬ (read1 r.body 0 < 32 ∨ 63 < read1 r.body 0) := by omega
      have allowed : ¬ (m ≠ p.owner ∧ m ≠ .centre) := fun ⟨other, outside⟩ => may.elim other outside
      have valid : (s.takeQueued m rest).postedIn (read1 r.body 0) = some p := postedIn_of here content posted
      simp only [owning, State.withdrawMessage, valid, if_neg within, if_neg allowed]
    obtain ⟨runs, finishes⟩ := accepted (exec_waiting w) answer (effect_endPosted _ _ .withdrawn (m != p.owner))
    refine ⟨_, runs, ?_, ?_, fun other => ?_, fun own => ?_, finishes⟩
    · show ((s.takeQueued m rest).endPosted _ _ _).store.slots[_]? = _
      rw [ended]
      split <;> exact slot
    · show ((s.takeQueued m rest).endPosted _ _ _).segs.claims = _
      rw [ended]
      split <;> exact claims
    · rw [ended, if_pos (by simpa using other)]
      exact ((heard_slotEnded effect .withdrawn p.link c.catalogue p.owner).finish m _).taken.told
    · intro k
      have silent : ((s.takeQueued m rest).endPosted (read1 r.body 0) .withdrawn (m != p.owner)).port k =
          (s.takeQueued m rest).port k := by
        rw [ended, if_neg (by simpa using own)]
        obtain ⟨ns, kinds, port⟩ := effect.heard k
        obtain rfl : ns = [] := List.eq_nil_iff_forall_not_mem.2 (fun x hx => by simpa using kinds x hx)
        exact port
      rw [finish_frame _ m _ .notices (by decide) k, silent, takeQueued_frame s m rest .notices (by decide) k]
  · obtain ⟨u, effect, slot, claims, ended⟩ := endPosted_of (s := s) .expired true here content posted
    have runs : exec (.slotExpiry n) s = .next (s.endPosted n .expired true) := by
      show execSlotExpiry n s = _
      simp [execSlotExpiry, State.whenRunning, run.1, run.2, State.expireSlot, postedIn_of here content posted, ends, due]
    refine ⟨_, runs, ?_, ?_, ?_, effect_endPosted s n .expired true |>.frame⟩
    · rw [ended]
      exact slot
    · rw [ended]
      exact claims
    · rw [ended]
      exact (heard_slotEnded effect .expired p.link c.catalogue p.owner).told

/-! ### The priority map (R65, R78) -/

theorem writePriority_length (map : List Nat) (e : Nat × Nat) : (writePriority map e).length = map.length := by
  unfold writePriority
  split
  · rfl
  · exact List.length_set

theorem writePriority_apart {map : List Nat} {e : Nat × Nat} {o : Nat} (h : e.1 ≠ o ∨ o = 3 ∨ o = 4) :
    (writePriority map e)[o]? = map[o]? := by
  unfold writePriority
  split
  · rfl
  · next fixed => exact List.getElem?_set_ne (by omega)

theorem foldl_writePriority_length (l : List (Nat × Nat)) (map : List Nat) :
    (l.foldl writePriority map).length = map.length :=
  foldl_keeps (fun a b : List Nat => b.length = a.length) (fun _ => rfl) (fun h k => k.trans h) _ writePriority_length l map

theorem foldl_writePriority_apart {l : List (Nat × Nat)} {o : Nat} (h : ∀ e ∈ l, e.1 ≠ o ∨ o = 3 ∨ o = 4) (map : List Nat) :
    (l.foldl writePriority map)[o]? = map[o]? := by
  induction l generalizing map with
  | nil => rfl
  | cons e l ih =>
    rw [List.foldl_cons, ih (fun d hd => h d (List.mem_cons_of_mem _ hd)), writePriority_apart (h e List.mem_cons_self)]

theorem foldl_writePriority_last {before after : List (Nat × Nat)} {o c : Nat} {map : List Nat}
    (last : ∀ e ∈ after, e.1 ≠ o) (three : o ≠ 3) (four : o ≠ 4) (inside : o < map.length) :
    ((before ++ (o, c) :: after).foldl writePriority map)[o]? = some c := by
  rw [List.foldl_append, List.foldl_cons, foldl_writePriority_apart (fun e he => .inl (last e he)), writePriority,
    if_neg (by omega), List.getElem?_set_self (by rwa [foldl_writePriority_length])]

section
variable (s : State) (entries : List (Nat × Nat))

theorem writePriorityMap_priority :
    (s.writePriorityMap entries).store.priority = entries.foldl writePriority s.store.priority :=
  (effect_reselect _).frame .priority (by decide)

theorem writePriorityMap_slots : (s.writePriorityMap entries).store.slots =
    s.store.slots.map (fun x => x.reclass (entries.foldl writePriority s.store.priority)) :=
  (effect_reselect _).frame .slots (by decide)

end

/-- Settles O44. -/
theorem priorityMapReclassesTheSlots : Obligations.PriorityMapReclassesTheSlots := by
  intro s r rest w small
  have answer : owning .setPriorityMap .centre r.body (s.takeQueued .centre rest) =
      Answer.ok [] ((s.takeQueued .centre rest).writePriorityMap (parsePriority r.body)) := by
    have none : ¬ (parsePriority r.body).any (fun e => decide (3 < e.2)) = true := by
      simpa using fun a b h => small (a, b) h
    simp only [owning, State.setPriorityMap, if_neg none]
    rfl
  obtain ⟨runs, finishes⟩ := accepted (exec_waiting w) answer (effect_writePriorityMap _ _)
  have priority := writePriorityMap_priority (s.takeQueued .centre rest) (parsePriority r.body)
  have slots := writePriorityMap_slots (s.takeQueued .centre rest) (parsePriority r.body)
  refine ⟨_, runs, ?_, ?_, ?_, fun o absent => ?_, fun before o c after cut last three four inside => ?_,
    fun n x here => ?_, finishes⟩
  · exact (congrArg List.length priority).trans (foldl_writePriority_length _ _)
  · exact (congrArg (·[3]?) priority).trans (foldl_writePriority_apart (fun _ _ => .inr (.inl rfl)) _)
  · exact (congrArg (·[4]?) priority).trans (foldl_writePriority_apart (fun _ _ => .inr (.inr rfl)) _)
  · exact (congrArg (·[o]?) priority).trans (foldl_writePriority_apart (fun e he => .inl (absent e he)) _)
  · refine (congrArg (·[o]?) priority).trans ?_
    rw [cut]
    exact foldl_writePriority_last last three four inside
  · refine ⟨x.reclass ((parsePriority r.body).foldl writePriority s.store.priority), (congrArg (·[n]?) slots).trans ?_,
      rfl, ?_, rfl⟩
    · rw [List.getElem?_map]
      exact congrArg _ here
    · show x.content.map _ = x.content.map (fun c => { c with
        cls := ((s.takeQueued .centre rest).writePriorityMap (parsePriority r.body)).classOf c.origin })
      simp only [State.classOf, priority]
      rfl

/-! ### The display clock (R68, R79) -/

/-- What a segment slot shows is formed from the claims, the priority map, the path levels and the display clock. -/
theorem segmentContent_same {l : List Part} {s t : State} (h : Frame l s t) (claims : .claims ∉ l := by decide)
    (priority : .priority ∉ l := by decide) (paths : .paths ∉ l := by decide) (display : .display ∉ l := by decide) (k : Nat)
    (x : Segment) : t.segmentContent k x = s.segmentContent k x := by
  have sameClaims : t.segs.claims = s.segs.claims := h .claims claims
  have samePriority : t.store.priority = s.store.priority := h .priority priority
  have samePaths : t.hazard.paths = s.hazard.paths := h .paths paths
  have sameDisplay : t.clocks.display = s.clocks.display := h .display display
  simp only [State.segmentContent, State.claimsOf, State.content, State.classOf, State.scheduledMinute, State.dangerLevel,
    sameClaims, samePriority, samePaths, sameDisplay]

/-- R79: one segment slot formed anew, if it shows CLOSURE SCHEDULED. -/
def formScheduled (t : State) (k : Nat) : State := if t.showsScheduled k then t.formSegmentSlot k else t

theorem effect_formScheduled (t : State) (k : Nat) : Effect contentParts [] t (formScheduled t k) :=
  effect_ite _ (effect_formSegmentSlot t k)

/-- The slot of segment k shows what its segment's standing gives. -/
def ShowsSegment (t : State) (k : Nat) (x : Segment) : Prop :=
  ∃ z, t.store.slots[k]? = some z ∧ z.content = t.segmentContent k x

section
variable {t : State} {k : Nat} {x : Segment}

theorem showsSegment_formed {y : Slot} (record : t.segs.records[k]? = some x) (slot : t.store.slots[k]? = some y) :
    ShowsSegment (t.formSegmentSlot k) k x := by
  have kept := segmentContent_same (effect_formSegmentSlot t k).frame (k := k) (x := x)
  rw [ShowsSegment, kept]
  simp only [State.formSegmentSlot, record]
  exact formSlot_content slot

theorem formScheduled_slot {j : Nat} (other : j ≠ k) : (formScheduled t j).store.slots[k]? = t.store.slots[k]? := by
  unfold formScheduled State.formSegmentSlot
  split
  · split
    · rfl
    · exact writeSlot_apart other.symm
  · rfl

theorem formScheduled_records (j : Nat) : (formScheduled t j).segs.records = t.segs.records :=
  (effect_formScheduled t j).frame .records (by decide)

theorem showsSegment_step (record : t.segs.records[k]? = some x) (shows : ShowsSegment t k x) (j : Nat) :
    ShowsSegment (formScheduled t j) k x := by
  obtain rfl | other := eq_or_ne j k
  · unfold formScheduled
    split
    · obtain ⟨z, slot, -⟩ := shows
      exact showsSegment_formed record slot
    · exact shows
  · rwa [ShowsSegment, formScheduled_slot other, segmentContent_same (effect_formScheduled t j).frame]

theorem showsSegment_fold (l : List Nat) (record : t.segs.records[k]? = some x) (shows : ShowsSegment t k x) :
    ShowsSegment (l.foldl formScheduled t) k x := by
  induction l generalizing t with
  | nil => exact shows
  | cons j l ih => exact ih (by rw [formScheduled_records, record]) (showsSegment_step record shows j)

theorem showsSegment_scheduled {l : List Nat} {y : Slot} {c : Content} (mem : k ∈ l) (record : t.segs.records[k]? = some x)
    (slot : t.store.slots[k]? = some y) (content : y.content = some c) (scheduled : c.catalogue = 6) :
    ShowsSegment (l.foldl formScheduled t) k x := by
  induction l generalizing t with
  | nil => cases mem
  | cons j l ih =>
    have record' : (formScheduled t j).segs.records[k]? = some x := by rw [formScheduled_records, record]
    obtain rfl | other := eq_or_ne j k
    · have shown : t.showsScheduled j = true := by simp [State.showsScheduled, slot, content, scheduled]
      refine showsSegment_fold l record' ?_
      rw [formScheduled, if_pos shown]
      exact showsSegment_formed record slot
    · exact ih ((List.mem_cons.1 mem).resolve_left other.symm) record' (by rw [formScheduled_slot other, slot])

end

/-- Settles O45: after the clock is set each slot that shows CLOSURE SCHEDULED is formed once, and no later one undoes it. -/
theorem setClockSetsTheDisplay : Obligations.SetClockSetsTheDisplay := by
  intro s r rest minute w named
  subst named
  refine ⟨fun large => ?_, fun small => ?_⟩
  · refine refused (by decide) (exec_waiting w) ?_
    simp only [owning, State.setClock, if_pos (show 1439 < read2 r.body 0 from large)]
    rfl
  · have answer : owning .setClock .centre r.body (s.takeQueued .centre rest) =
        Answer.ok [] ((s.takeQueued .centre rest).setDisplay (read2 r.body 0)) := by
      simp only [owning, State.setClock, if_neg (show ¬ 1439 < read2 r.body 0 by omega)]
      rfl
    obtain ⟨runs, finishes⟩ := accepted (exec_waiting w) answer (effect_setDisplay _ _)
    refine ⟨_, runs, fun later after => ?_, fun k x y c record slot content scheduled => ?_, finishes⟩
    · have display : ((s.takeQueued .centre rest).setDisplay (read2 r.body 0)).clocks.display =
          some { minute := read2 r.body 0, setAt := s.now } :=
        (Effect.fold formScheduled effect_formScheduled _ _).frame .display (by decide)
      show (((s.takeQueued .centre rest).setDisplay (read2 r.body 0)).clocks.display.map _) = _
      rw [display]
      rfl
    · obtain ⟨inside, -⟩ := List.getElem?_eq_some_iff.1 record
      have shows := showsSegment_scheduled (t := { s.takeQueued .centre rest with
          clocks := { s.clocks with display := some { minute := read2 r.body 0, setAt := s.now } } })
        (List.mem_range.2 inside) record slot content scheduled
      exact shows

end Sys2Proof.Proofs
end

