-- ==== Sys2Proof/Proofs/ScanRows.lean ====
section
/-! The scan block (chapter 5): input lines, readings, publication, the rows of a scan round short of its end, and the
channel timers. -/

namespace Sys2Proof.Proofs

open Sys2Proof.Machine Sys2Proof.Safety Sys2Proof.Laws

theorem modify_of_getElem? {α : Type} {l : List α} {n : Nat} {x : α} (h : l[n]? = some x) (f : α → α) :
    l.modify n f = l.set n (f x) := by
  rw [List.modify_eq_set_getElem?, h]
  rfl

theorem foldl_unmoved {α σ : Type} {f : σ → α → σ} {s : σ} {l : List α} (h : ∀ a ∈ l, f s a = s) : l.foldl f s = s := by
  induction l with
  | nil => rfl
  | cons a l ih =>
    rw [List.foldl_cons, h a List.mem_cons_self]
    exact ih (fun b hb => h b (List.mem_cons_of_mem _ hb))

/-! ### Input lines (R113, R114) -/

section
variable {s : State} {l : Nat} {b : Bool}

theorem deliverGate_unnamed {g : Nat} (h : ∀ y, s.gates[g]? = some y → l ∉ y.cfg.inputs) : s.deliverGate g l b = s := by
  unfold State.deliverGate
  split
  · rfl
  · next y here =>
    have none := h y here
    simp only [GateConfig.inputs, List.mem_cons, List.not_mem_nil, or_false, not_or] at none
    obtain ⟨up, down, obstruction, key⟩ := none
    simp only [State.gateLine, if_neg (Ne.symm up), if_neg (Ne.symm down), if_neg (Ne.symm obstruction), if_neg (Ne.symm key)]

theorem deliverGates_unnamed (h : ∀ y ∈ s.gates, l ∉ y.cfg.inputs) : s.deliverGates l b = s :=
  foldl_unmoved (fun _ _ => deliverGate_unnamed (fun y here => h y (List.mem_of_getElem? here)))

theorem deliverPaths_unnamed (h : ∀ p ∈ s.hazard.paths, p.cfg.trip ≠ some l) : s.deliverPaths l b = s := by
  refine foldl_unmoved (fun n _ => ?_)
  split
  · next p here => rw [if_neg (fun named => h p (List.mem_of_getElem? here) named.1)]
  · rfl

theorem deliver_unnamed (h : s.described = false ∨
    ((∀ y ∈ s.gates, l ∉ y.cfg.inputs) ∧ ∀ p ∈ s.hazard.paths, p.cfg.trip ≠ some l)) : s.deliver l b = s := by
  unfold State.deliver
  split
  · next described =>
    obtain ⟨gates, paths⟩ := h.resolve_left (by simp [described])
    rw [deliverGates_unnamed gates, deliverPaths_unnamed paths]
  · rfl

end

/-- DEBOUNCE_EXPIRY of a line at the end of its stability time. -/
theorem exec_debounceExpiry {s : State} {l : Nat} {x : InputLine} (run : s.held = none) (here : s.scan.lines[l]? = some x)
    (ended : x.stability = some 0) :
    exec (.debounceExpiry l) s = .next ((s.updLine l InputLine.settle).deliver l x.present) := by
  show execDebounceExpiry l s = _
  simp [execDebounceExpiry, here, run, ended]

/-- Settles O40. -/
theorem inputLinesAreDebounced : Obligations.InputLinesAreDebounced := by
  refine ⟨fun s l b x run here => ?_, fun s l x run here ended unnamed => ?_⟩
  · have runs : exec (.inputEdge l b) s = .next (s.updLine l (fun x => x.edge b)) := by
      show execInputEdge l b s = _
      simp [execInputEdge, run]
    have lines := modify_of_getElem? here (fun x => x.edge b)
    refine ⟨_, runs, fun same => ?_, fun moved => ?_, (effect_updLine s l _).frame⟩
    · rw [updLine_lines, lines, InputLine.edge, if_pos same]
      obtain ⟨inside, rfl⟩ := List.getElem?_eq_some_iff.1 here
      exact List.set_getElem_self inside
    · rw [updLine_lines, lines, InputLine.edge, if_neg moved]
      rfl
  · have delivered : (s.updLine l InputLine.settle).deliver l x.present = s.updLine l InputLine.settle :=
      deliver_unnamed unnamed
    refine ⟨_, exec_debounceExpiry run here ended, ?_, ?_⟩
    · rw [delivered]
      exact modify_of_getElem? here _
    · rw [delivered]
      exact (effect_updLine s l _).frame

/-! ### Readings (R110) -/

section
variable (x : Channel) (v : Int) (now : Nat)

theorem take_good : x.take v true now =
    { x with lastReading := some now, quality := .good, value := some v, badCount := 0, heldSince := none, cause := none } :=
  rfl

/-- R110: a reading out of range or suspect, by the quality it finds; the value stays. -/
theorem take_bad : (x.take v false now).lastReading = some now ∧ (x.take v false now).value = x.value ∧
    (x.take v false now).quality ≠ .good ∧
    (x.quality = .good → (x.take v false now).quality = .held ∧ (x.take v false now).badCount = 1 ∧
      (x.take v false now).heldSince = some now) ∧
    (x.quality = .held ∨ x.quality = .never →
      (x.badCount < 2 → (x.take v false now).quality = x.quality ∧ (x.take v false now).badCount = x.badCount + 1) ∧
      (2 ≤ x.badCount → (x.take v false now).quality = .failed ∧ (x.take v false now).cause = some .badCount)) ∧
    (x.quality = .failed → (x.take v false now).quality = .failed) := by
  have third : 3 ≤ ({ x with lastReading := some now } : Channel).oneMoreBad ↔ 2 ≤ x.badCount := by
    simp only [Channel.oneMoreBad, Nat.min_def]
    split <;> omega
  have count (few : x.badCount < 2) : ({ x with lastReading := some now } : Channel).oneMoreBad = x.badCount + 1 := by
    simp only [Channel.oneMoreBad, Nat.min_def]
    split <;> omega
  have again (stays : x.quality = .held ∨ x.quality = .never) : x.take v false now =
      ({ x with lastReading := some now } : Channel).badReading { x with
        lastReading := some now, badCount := ({ x with lastReading := some now } : Channel).oneMoreBad } := by
    obtain q | q := stays <;> simp only [Channel.take, q] <;> rfl
  have turned (stays : x.quality = .held ∨ x.quality = .never) :
      (x.badCount < 2 ∧ x.take v false now = { x with lastReading := some now, badCount := x.badCount + 1 }) ∨
      (2 ≤ x.badCount ∧ x.take v false now = { x with
        lastReading := some now, quality := .failed, cause := some .badCount, heldSince := none,
        badCount := ({ x with lastReading := some now } : Channel).oneMoreBad }) := by
    rw [again stays, Channel.badReading]
    obtain few | many := Nat.lt_or_ge x.badCount 2
    · rw [if_neg (by omega), count few]
      exact .inl ⟨few, rfl⟩
    · rw [if_pos (third.2 many)]
      exact .inr ⟨many, rfl⟩
  cases q : x.quality with
  | good => simp [Channel.take, q]
  | failed => simp [Channel.take, q]
  | held =>
    obtain ⟨few, taken⟩ | ⟨many, taken⟩ := turned (.inl q) <;> simp [taken, q] <;> omega
  | never =>
    obtain ⟨few, taken⟩ | ⟨many, taken⟩ := turned (.inr q) <;> simp [taken, q] <;> omega

theorem take_desc (good : Bool) : (x.take v good now).desc = x.desc ∧ (x.take v good now).lastRaw = x.lastRaw ∧
    (x.take v good now).submission = x.submission ∧ (x.take v good now).silenceFrom = x.silenceFrom ∧
    (x.take v good now).lastReading = some now := by
  unfold Channel.take Channel.badReading
  dsimp only
  split
  · exact ⟨rfl, rfl, rfl, rfl, rfl⟩
  · split
    · split <;> exact ⟨rfl, rfl, rfl, rfl, rfl⟩
    · exact ⟨rfl, rfl, rfl, rfl, rfl⟩
    · split <;> exact ⟨rfl, rfl, rfl, rfl, rfl⟩
    · exact ⟨rfl, rfl, rfl, rfl, rfl⟩

end

/-! ### Publication (R112, R118) -/

section
variable {s : State} {c : Nat} {x y : Channel} {before : Quality}

theorem publish_channels : (s.publish c x before).scan.channels = s.scan.channels.set c (some x) := by
  have formed : ((s.setChannel c x).formWeatherFrom c x).scan.channels = s.scan.channels.set c (some x) :=
    (effect_formWeatherFrom (s.setChannel c x) c x).frame .channels (by decide)
  unfold State.publish
  dsimp only
  split <;> exact formed

theorem channel?_publish (here : s.channel? c = some y) : (s.publish c x before).channel? c = some x := by
  obtain ⟨inside, -⟩ := List.getElem?_eq_some_iff.1 (Option.join_eq_some_iff.1 here)
  rw [State.channel?, publish_channels, List.getElem?_set_self inside]
  rfl

theorem channel?_publish_apart {d : Nat} (other : d ≠ c) : (s.publish c x before).channel? d = s.channel? d := by
  rw [State.channel?, publish_channels, List.getElem?_set_ne other.symm]
  rfl

/-- R118: a channel that leaves or enters FAILED is told to every port. -/
theorem heard_publish (turned : ¬ ((before = .failed) = (x.quality = .failed))) (m : Master) :
    Heard s (s.publish c x before) m (s.channelNotice c x) := by
  have formed : Effect (.channels :: contentParts) [] s ((s.setChannel c x).formWeatherFrom c x) :=
    .seq (effect_setChannel s c x) (effect_formWeatherFrom _ c x)
  have now : ((s.setChannel c x).formWeatherFrom c x).now = s.now := (formed.frame .clock (by decide)).1
  have notice : ((s.setChannel c x).formWeatherFrom c x).channelNotice c x = s.channelNotice c x := by
    simp only [State.channelNotice, State.notice, now]
  rw [State.publish, if_neg turned, notice]
  exact .before formed (heard_tellAll _ m _)

end

/-! ### The channel timers (R111) -/

/-- Settles O55: either timer publishes the channel FAILED with its cause. -/
theorem channelTimersFailTheChannel : Obligations.ChannelTimersFailTheChannel := by
  intro s c x start run timed here due
  have acts : s.timesChannel c = true := by
    obtain described | high := timed
    · simp [State.timesChannel, run, described]
    · simp [State.timesChannel, run, high]
  have fails (cause : FailCause) (alive : x.quality ≠ .failed) {t : State}
      (published : t = s.publish c (x.failBy cause) x.quality) :
      t.channel? c = some { x with quality := .failed, cause := some cause, heldSince := none } ∧
        (∀ m, Told s t m .channelState c (packed 3 (failCauseCode (some cause))) (value16 (x.value.getD 32767))
          (packed 0 x.badCount)) ∧
        (∀ d, d ≠ c → t.channel? d = s.channel? d) ∧ Frame (.channels :: contentParts ++ noticeParts) s t := by
    subst published
    exact ⟨channel?_publish here, fun m => (heard_publish (by simp [Channel.failBy, alive]) m).told,
      fun d other => channel?_publish_apart other, (effect_publish s c _ _).frame⟩
  refine ⟨fun since held => ⟨_, ?_, fails .holdAge (by simp [held]) rfl⟩, fun since alive =>
    ⟨_, ?_, fails .noSubmission alive rfl⟩⟩
  · show execHoldAgeExpiry c s = _
    simp [execHoldAgeExpiry, acts, State.expireHold, here, Channel.holdAgeDue, since, held, due]
  · show execSilenceExpiry c s = _
    simp [execSilenceExpiry, acts, State.expireSilence, here, Channel.silenceDue, since, alive, due]

/-! ### SUBMIT OBSERVATION (R117) -/

/-- R117: the channel with the submission of v, clamped to w, recorded, and its silence timer set. -/
def withSubmission (x : Channel) (v w : Int) (suspect : Bool) (now : Nat) : Channel :=
  { x with
    submission := some { value := w, suspect := suspect, clamped := decide (w ≠ v), time := now }, silenceFrom := some now }

theorem clamp_of {d : ChannelDesc} (ordered : d.lo ≤ d.hi) (v : Int) : d.clamp v = max d.lo (min d.hi v) := by
  unfold ChannelDesc.clamp
  split
  · omega
  · split <;> omega

/-- Settles O51: the submission is recorded beside the reading that the clamped value gives. -/
theorem submissionsAreTaken : Obligations.SubmissionsAreTaken := by
  intro s m r rest c x v w waits named low here source flag ordered wrapped clamped
  subst named
  have wrap : wrapDirection x.desc.kind (readInt2 r.body 1) = v := wrapped.symm
  have clamp : x.desc.clamp v = w := (clamp_of ordered v).trans clamped.symm
  have submits : x.submit (readInt2 r.body 1) (read1 r.body 3 == 1) s.now =
      (withSubmission x v w (read1 r.body 3 == 1) s.now).take w (!decide (w ≠ v) && !(read1 r.body 3 == 1)) s.now := by
    have differs : (w != v) = decide (w ≠ v) := by by_cases same : w = v <;> simp [same]
    rw [Channel.submit, wrap, clamp, differs]
    rfl
  have answer : owning .submitObservation m r.body (s.takeQueued m rest) =
      Answer.ok (bytes1 (x.submit (readInt2 r.body 1) (read1 r.body 3 == 1) s.now).quality.code ++
          opt2 (x.submit (readInt2 r.body 1) (read1 r.body 3 == 1) s.now).value)
        ((s.takeQueued m rest).publish (read1 r.body 0) (x.submit (readInt2 r.body 1) (read1 r.body 3 == 1) s.now)
          x.quality) := by
    have fits : ¬ (28 ≤ read1 r.body 0 ∨ 1 < read1 r.body 3) := by omega
    have channel : (s.takeQueued m rest).channel? (read1 r.body 0) = some x := here
    simp only [owning, State.submitObservation, channel, source, if_neg fits, ne_eq, not_true_eq_false, if_false]
    rfl
  obtain ⟨runs, finishes⟩ := accepted (exec_waiting waits) answer (effect_publish _ _ _ _)
  obtain ⟨desc, -, submission, silence, lastReading⟩ :=
    take_desc (withSubmission x v w (read1 r.body 3 == 1) s.now) w s.now (!decide (w ≠ v) && !(read1 r.body 3 == 1))
  refine ⟨_, x.submit (readInt2 r.body 1) (read1 r.body 3 == 1) s.now, runs,
    channel?_publish (s := s.takeQueued m rest) here, ?_⟩
  rw [submits] at finishes ⊢
  refine ⟨desc, submission, silence, lastReading, fun same clear => ?_, fun bad => ?_,
    fun d other => channel?_publish_apart (s := s.takeQueued m rest) other, finishes⟩
  · have good : (!decide (w ≠ v) && !(read1 r.body 3 == 1)) = true := by simp [same, clear]
    rw [good, take_good]
    exact ⟨rfl, same ▸ rfl, rfl⟩
  · have refused : (!decide (w ≠ v) && !(read1 r.body 3 == 1)) = false := by
      obtain moved | suspect := bad
      · simp [moved]
      · simp [suspect]
    rw [refused]
    obtain ⟨-, value, -, found⟩ := take_bad (withSubmission x v w (read1 r.body 3 == 1) s.now) w s.now
    exact ⟨value, found⟩

/-! ### A scan round (R107 to R109) -/

theorem converts_of {s t : State} {c : Nat} (channel : t.channel? c = s.channel? c) (described : t.described = s.described) :
    t.converts c = s.converts c := by
  simp only [State.converts, channel, described]

theorem nextConverted_some {s : State} {c n : Nat} (low : c ≤ n) (high : n < 32) (yes : s.converts n = true)
    (none : ∀ j, c ≤ j → j < n → s.converts j = false) : s.nextConverted c = some n := by
  rw [State.nextConverted, List.find?_range'_eq_some]
  refine ⟨yes, List.mem_range'_1.2 ⟨low, by omega⟩, fun j first before => by simp [none j first before]⟩

theorem nextConverted_none {s : State} {c : Nat} (none : ∀ j, c ≤ j → j < 32 → s.converts j = false) :
    s.nextConverted c = .none := by
  rw [State.nextConverted, List.find?_range'_eq_none]
  exact fun j low high => by simp [none j low (by omega)]

section
variable {s : State} {raws : List Raw} {c count : Nat} {x : Channel} {input : Option Nat} {span offset : Int}

/-- R109: the conversions of the channel in hand are published and the next channel is looked for. -/
theorem exec_channelConversionDone (run : s.held = none) (hand : s.scan.converting = some c) (here : s.channel? c = some x)
    (source : x.desc.source = .wired input span offset count) (enough : count ≤ raws.length) :
    exec (.channelConversionDone raws) s =
      .next ((s.publish c (x.convert raws span offset count s.now) x.quality).advanceRound c) := by
  show execChannelConversionDone raws s = _
  have complete : ¬ raws.length < count := by omega
  simp [execChannelConversionDone, hand, run, State.conversionDone, here, source, complete]

theorem converts_publish {j : Nat} {y : Channel} (other : j ≠ c) : (s.publish c y x.quality).converts j = s.converts j := by
  refine converts_of (channel?_publish_apart other) ?_
  have loader : (s.publish c y x.quality).loader = s.loader := (effect_publish s c y _).frame .loader (by decide)
  simp only [State.described, loader]

end

/-- Settles O52. -/
theorem scanRoundsConvertInOrder : Obligations.ScanRoundsConvertInOrder := by
  refine ⟨fun s start run idle next due => ?_, ?_⟩
  · have runs : exec .scanRoundStart s = .next (s.startRound start) := by
      show execScanRoundStart s = _
      simp [execScanRoundStart, next, run, idle, due]
    refine ⟨_, runs, rfl, rfl, fun c first => ?_, fun none j small => ?_, (effect_startRound s start).frame⟩
    · obtain ⟨yes, -, below⟩ := List.find?_range'_eq_some.1 (show s.nextConverted 0 = some c from first)
      exact ⟨yes, fun j before => by simpa using below j (Nat.zero_le j) before⟩
    · have no := List.find?_range'_eq_none.1 (show s.nextConverted 0 = .none from none) j (Nat.zero_le j) (by omega)
      simpa using no
  · intro s raws c n x input span offset v count raw run hand here source enough low high yes none averaged scaled
    obtain rfl : raw = averageRaw raws count := averaged
    have next : (s.publish c (x.convert raws span offset count s.now) x.quality).nextConverted (c + 1) = some n :=
      nextConverted_some low high (by rw [converts_publish (by omega), yes])
        (fun j first before => by rw [converts_publish (by omega), none j first before])
    have advanced : (s.publish c (x.convert raws span offset count s.now) x.quality).advanceRound c =
        { s.publish c (x.convert raws span offset count s.now) x.quality with
          scan := { (s.publish c (x.convert raws span offset count s.now) x.quality).scan with converting := some n } } := by
      simp only [State.advanceRound, next]
      rfl
    have runs := exec_channelConversionDone run hand here source enough
    rw [advanced] at runs
    subst scaled
    obtain ⟨-, lastRaw, -, -, lastReading⟩ := take_desc { x with lastRaw := some (averageRaw raws count) }
      (scaledValue x.desc.kind span offset (averageRaw raws count)) s.now
      (x.desc.inRange (scaledValue x.desc.kind span offset (averageRaw raws count)))
    refine ⟨_, x.convert raws span offset count s.now, runs, channel?_publish here, rfl, lastRaw, lastReading,
      fun within => ?_, fun outside => ?_, fun d other => channel?_publish_apart other, ?_⟩
    · have good : x.desc.inRange (scaledValue x.desc.kind span offset (averageRaw raws count)) = true := by
        simpa [ChannelDesc.inRange] using within
      rw [Channel.convert, good, take_good]
      exact ⟨rfl, rfl, rfl⟩
    · have bad : x.desc.inRange (scaledValue x.desc.kind span offset (averageRaw raws count)) = false := by
        simpa [ChannelDesc.inRange] using outside
      rw [Channel.convert, bad]
      obtain ⟨-, value, other, -⟩ := take_bad { x with lastRaw := some (averageRaw raws count) }
        (scaledValue x.desc.kind span offset (averageRaw raws count)) s.now
      exact ⟨other, value⟩
    · exact Moves.frame_trans (Moves.frame_mono (by decide) (effect_publish s c _ _).frame)
        (Moves.frame_mono (by decide) (frame_round _ _ _ _))

end Sys2Proof.Proofs
end

