-- ==== Sys2Proof/Proofs/PowerRows.lean ====
section
/-! The power controller (chapter 7): each stage of an update in figures, and what the end of a round does with it. -/

namespace Sys2Proof.Proofs

open Sys2Proof.Machine Sys2Proof.Safety Sys2Proof.Laws

/-! ### The stages of an update -/

section
variable (p : Power) (r : PowerReadings) (now : Nat)

/-- R152: the account and remainder carried forward. -/
theorem carry_figures (i : Int) : ((p.carry i now).account, (p.carry i now).remainder) =
    if p.account + p.total i now / 3600 < 0 then (0, 0)
    else if (p.params.capacity : Int) < p.account + p.total i now / 3600 then (p.params.capacity, 0)
    else ((p.account + p.total i now / 3600).toNat, (p.total i now % 3600).toNat) := by
  unfold Power.carry
  dsimp only
  split
  · rfl
  · split <;> rfl

/-- R153: the account and remainder after the charge state is taken. -/
theorem enterCharge_figures (c : ChargeState) :
    ((p.enterCharge c now).account, (p.enterCharge c now).remainder) =
      if c = .float ∧ p.charge ≠ .float then (p.params.capacity, 0) else (p.account, p.remainder) := by
  unfold Power.enterCharge
  split
  · next same =>
    subst same
    rw [if_neg (fun both => both.2 both.1)]
  · next other =>
    by_cases float : c = .float
    · simp [float, float ▸ Ne.symm other]
    · simp [float]

theorem enterCharge_times (c : ChargeState) :
    (c = p.charge → (p.enterCharge c now).entered = p.entered ∧ (p.enterCharge c now).absorbSince = p.absorbSince) ∧
      (c ≠ p.charge → (p.enterCharge c now).entered = now ∧
        (p.enterCharge c now).absorbSince = if c = .absorb then some now else none) := by
  refine ⟨fun same => ?_, fun other => ?_⟩
  · rw [Power.enterCharge, if_pos same]
    exact ⟨rfl, rfl⟩
  · rw [Power.enterCharge, if_neg other]
    dsimp only
    split <;> exact ⟨rfl, rfl⟩

/-- R153: the low-voltage recalibration of the account. -/
theorem recalibrate_figures : ((p.recalibrate r).account, (p.recalibrate r).remainder) =
    if r.voltage < 22000 ∧ r.current < 0 ∧ p.params.capacity / 10 < p.account then (p.params.capacity / 10, 0)
    else (p.account, p.remainder) := by
  unfold Power.recalibrate
  split <;> rfl

/-- R151: the figures presented to the charge stage by the charge state. -/
theorem setPoint_presents :
    (p.charge = .noSource ∨ p.charge = .lockout →
      (p.setPoint r).enable = false ∧ (p.setPoint r).target = p.target ∧ (p.setPoint r).limit = p.limit) ∧
    (p.charge = .recover ∨ p.charge = .bulk ∨ p.charge = .absorb →
      (p.setPoint r).enable = true ∧ (p.setPoint r).target = (p.params.compensate r.temperature).absorb ∧
        (p.setPoint r).limit = if p.charge = .recover then p.params.recoverCurrent else p.params.bulkCurrent) ∧
    (p.charge = .float → (p.setPoint r).enable = true ∧ (p.setPoint r).target = (p.params.compensate r.temperature).float ∧
      (p.setPoint r).limit = p.params.bulkCurrent) := by
  unfold Power.setPoint Power.present
  cases p.charge <;> simp

theorem sumBytes_append (a b : List Byte) : sumBytes (a ++ b) = b.foldl (· + ·) (sumBytes a) := List.foldl_append

/-- R188, R189: the set-point word ends in a check that brings its sum to 0. -/
theorem setPointWord_check (target : Int) (limit : Nat) : ∃ check, setPointWord target limit =
    bytes2 target ++ bytes2 limit ++ [check] ∧ sumBytes (bytes2 target ++ bytes2 limit ++ [check]) = 0#8 := by
  refine ⟨sumCheck (bytes2 target ++ bytes2 limit), rfl, ?_⟩
  rw [sumBytes_append, sumCheck]
  exact BitVec.add_right_neg _

end

/-! ### The charge state (R148, R149) -/

section
variable {p : Power} {r : PowerReadings} {now : Nat}

theorem nextCharge_noSource (h : r.source < r.voltage + 500) : p.nextCharge r now = .noSource := by
  simp [Power.nextCharge, PowerParams.stops, h]

theorem nextCharge_lockout (h : r.voltage + 500 ≤ r.source) {t : Int} (known : r.temperature = some t)
    (outside : t < p.params.coldLockout ∨ (p.params.hotLockout : Int) < t) : p.nextCharge r now = .lockout := by
  have source : ¬ r.source < r.voltage + 500 := by omega
  simp [Power.nextCharge, PowerParams.stops, source, known, outside]

theorem stops_none {q : PowerParams} (h : r.voltage + 500 ≤ r.source)
    (within : ∀ t, r.temperature = some t → q.coldLockout ≤ t ∧ t ≤ q.hotLockout) : q.stops r = none := by
  have source : ¬ r.source < r.voltage + 500 := by omega
  cases known : r.temperature with
  | none => simp [PowerParams.stops, source, known]
  | some t =>
    obtain ⟨cold, hot⟩ := within t known
    have inside : ¬ (t < q.coldLockout ∨ (q.hotLockout : Int) < t) := by omega
    simp [PowerParams.stops, source, known, inside]

/-- R149: an evaluation without a stopping condition, by the charge state as it stood. -/
theorem nextCharge_moves (free : p.params.stops r = none) :
    (p.charge = .noSource ∨ p.charge = .lockout →
      p.nextCharge r now = if r.voltage < p.params.recoverThreshold then .recover else .bulk) ∧
    (p.charge = .recover → p.nextCharge r now = if (p.params.recoverThreshold : Int) ≤ r.voltage then .bulk else .recover) ∧
    (p.charge = .bulk → p.nextCharge r now = if p.bulkExit ≤ r.voltage then .absorb else .bulk) ∧
    (p.charge = .absorb →
      p.nextCharge r now = if r.current < p.params.cutoffCurrent ∨ p.absorbed now then .float else .absorb) ∧
    (p.charge = .float → p.nextCharge r now = if r.voltage < p.params.rebulkThreshold then .bulk else .float) := by
  unfold Power.nextCharge
  rw [free]
  cases p.charge <;> simp

theorem absorbed_iff {since : Nat} (known : p.absorbSince = some since) (some : 0 < p.params.absorbLimit) :
    p.absorbed now = true ↔ (p.params.absorbLimit : Int) ≤ (now : Int) - since := by
  simp only [Power.absorbed, known, Option.any_some, decide_eq_true_iff]
  omega

end

/-! ### The update as a whole (R147) -/

section
variable (p : Power) (r : PowerReadings) (now : Nat)

/-- What the carried account leaves of the parameters taken and of the state before the update. -/
theorem carried_keeps : (p.adopt.carry r.current now).params = p.taken ∧ (p.adopt.carry r.current now).charge = p.charge ∧
    (p.adopt.carry r.current now).targets = p.targets ∧ (p.adopt.carry r.current now).absorbSince = p.absorbSince ∧
    (p.adopt.carry r.current now).entered = p.entered ∧ (p.adopt.carry r.current now).target = p.target ∧
    (p.adopt.carry r.current now).limit = p.limit := by
  rw [carry_keeps]
  exact ⟨rfl, rfl, rfl, rfl, rfl, rfl, rfl⟩

/-- The record between the account carried forward and the set-point presented. -/
def settled (p : Power) (r : PowerReadings) (now : Nat) : Power :=
  ((p.adopt.carry r.current now).enterCharge (p.update r now).charge now).recalibrate r

theorem update_settled : p.update r now = (settled p r now).setPoint r := by
  obtain ⟨-, -, -, -, -, -, -, charge⟩ := update_keeps p r now
  rw [settled, charge]
  rfl

theorem settled_keeps : (settled p r now).params = p.taken ∧ (settled p r now).charge = (p.update r now).charge ∧
    (settled p r now).target = p.target ∧ (settled p r now).limit = p.limit := by
  obtain ⟨params, -, -, -, -, target, limit⟩ := carried_keeps p r now
  rw [settled, recalibrate_keeps, enterCharge_keeps]
  exact ⟨params, rfl, target, limit⟩

/-- The set-point presented leaves the times and the account. -/
theorem setPoint_leaves : (p.setPoint r).entered = p.entered ∧ (p.setPoint r).absorbSince = p.absorbSince ∧
    (p.setPoint r).account = p.account ∧ (p.setPoint r).remainder = p.remainder := by
  rw [setPoint_keeps]
  exact ⟨rfl, rfl, rfl, rfl⟩

theorem settled_times : (settled p r now).entered =
      ((p.adopt.carry r.current now).enterCharge (p.update r now).charge now).entered ∧
    (settled p r now).absorbSince =
      ((p.adopt.carry r.current now).enterCharge (p.update r now).charge now).absorbSince := by
  rw [settled, recalibrate_keeps]
  exact ⟨rfl, rfl⟩

theorem update_times : (p.update r now).entered =
      ((p.adopt.carry r.current now).enterCharge (p.update r now).charge now).entered ∧
    (p.update r now).absorbSince =
      ((p.adopt.carry r.current now).enterCharge (p.update r now).charge now).absorbSince := by
  obtain ⟨entered, absorb, -⟩ := setPoint_leaves (settled p r now) r
  rw [← update_settled] at entered absorb
  obtain ⟨enteredIn, absorbIn⟩ := settled_times p r now
  exact ⟨entered.trans enteredIn, absorb.trans absorbIn⟩

/-- R152, R153: the account and remainder after an update. -/
theorem update_figures {A R B Q : Nat}
    (carried : ((p.adopt.carry r.current now).account, (p.adopt.carry r.current now).remainder) = (A, R))
    (entered : (B, Q) = if (p.update r now).charge = .float ∧ p.charge ≠ .float then (p.taken.capacity, 0) else (A, R)) :
    ((p.update r now).account, (p.update r now).remainder) =
      if r.voltage < 22000 ∧ r.current < 0 ∧ p.taken.capacity / 10 < B then (p.taken.capacity / 10, 0) else (B, Q) := by
  obtain ⟨params, charge, -⟩ := carried_keeps p r now
  have figures := enterCharge_figures (p.adopt.carry r.current now) now (p.update r now).charge
  rw [params, charge, carried, ← entered] at figures
  have kept : ((p.adopt.carry r.current now).enterCharge (p.update r now).charge now).params = p.taken := by
    rw [enterCharge_keeps]
    exact params
  have last := recalibrate_figures ((p.adopt.carry r.current now).enterCharge (p.update r now).charge now) r
  obtain ⟨account, -⟩ := Prod.mk.inj figures
  rw [figures, kept, account] at last
  obtain ⟨-, -, accountOut, remainderOut⟩ := setPoint_leaves (settled p r now) r
  rw [← update_settled] at accountOut remainderOut
  rw [accountOut, remainderOut]
  exact last

end

/-- Settles O53: each clause is what one stage of the update gives. -/
theorem chargeFollowsTheReadings : Obligations.ChargeFollowsTheReadings := by
  intro p r now A R B Q a tc u q updated taken total carried entered temperature
  subst updated taken total
  obtain ⟨params, fromGroup, takenAfter, takenFromGroup, reserve, mode, updated, charge⟩ := update_keeps p r now
  obtain ⟨paramsIn, chargeIn, targetsIn, absorbIn, enteredIn, -⟩ := carried_keeps p r now
  obtain ⟨paramsOut, chargeOut, targetOut, limitOut⟩ := settled_keeps p r now
  have figures := carry_figures p.adopt now r.current
  have comp : p.taken.compensate r.temperature = {
      absorb := p.taken.absorbVoltage + (p.taken.coefficient * (tc - 250)).tdiv 10,
      float := p.taken.floatVoltage + (p.taken.coefficient * (tc - 250)).tdiv 10,
      temperature := tc, substitute := r.temperature.isNone } := by
    subst temperature
    cases r.temperature <;> rfl
  obtain ⟨off, on, float⟩ := setPoint_presents (settled p r now) r
  rw [← update_settled, paramsOut, chargeOut, comp] at on float
  rw [← update_settled, chargeOut, targetOut, limitOut] at off
  obtain ⟨stays, turns⟩ := enterCharge_times (p.adopt.carry r.current now) now (p.update r now).charge
  obtain ⟨enteredOut, absorbOut⟩ := update_times p r now
  rw [← enteredOut, ← absorbOut, chargeIn, enteredIn, absorbIn] at stays
  rw [← enteredOut, ← absorbOut, chargeIn] at turns
  have targets : (p.update r now).targets = some (p.taken.compensate r.temperature) := by
    rw [update_settled, setPoint_keeps, paramsOut]
  refine ⟨params, fromGroup, updated, update_figures p r now (figures.trans carried.symm) entered, fun low => ?_,
    fun source => ⟨fun t known outside => ?_, fun within => ?_⟩, stays, turns, targets.trans (congrArg _ comp), off, on, float,
    ?_, takenAfter, takenFromGroup, reserve, mode⟩
  · rw [charge, nextCharge_noSource low]
  · rw [charge, nextCharge_lockout source known (paramsIn ▸ outside)]
  · have free : (p.adopt.carry r.current now).params.stops r = none := by
      rw [paramsIn]
      exact stops_none source within
    obtain ⟨stopped, recover, bulk, absorb, float⟩ := nextCharge_moves (now := now) free
    rw [← charge, paramsIn, chargeIn] at stopped recover absorb float
    rw [← charge, chargeIn, Power.bulkExit, targetsIn, paramsIn] at bulk
    refine ⟨stopped, recover, fun was => ⟨fun none => ?_, fun x known => ?_⟩, fun was => ⟨fun low => ?_,
      fun since known some => ⟨fun long => ?_, fun high short => ?_⟩⟩, float⟩
    · rw [bulk was, none]
      rfl
    · rw [bulk was, known]
      rfl
    · rw [absorb was, if_pos (.inl low)]
    · have lasted := (absorbed_iff (now := now) (absorbIn.trans known) (by rw [paramsIn]; exact some)).2
        (by rw [paramsIn]; exact long)
      rw [absorb was, if_pos (.inr lasted)]
    · have lasted := mt (absorbed_iff (now := now) (absorbIn.trans known) (by rw [paramsIn]; exact some)).1
        (by rw [paramsIn]; omega)
      rw [absorb was, if_neg (fun ends => ends.elim (by omega) lasted)]
  · obtain ⟨check, word, sum⟩ := setPointWord_check (p.update r now).target (p.update r now).limit
    refine ⟨check, ?_, sum⟩
    rw [← word, update_settled]
    rfl

end Sys2Proof.Proofs
end

