-- ==== Sys2Proof/Proofs/ArmMoves.lean ====
section
/-! The gate sequencer (chapter 2): what an operation makes of one gate's record. A change of a gate is reported, and the
report may complete a reopening, which records demand NONE and stops the lamps of a list (R18); all that an arm's travel
depends on is then as the change made it (`SameArm`). -/

namespace Sys2Proof.Proofs

open Sys2Proof.Machine Sys2Proof.Safety Sys2Proof.Laws

/-- Two records of a gate that differ in lamp, raise held and demand alone; the demand is the same or has become NONE, and
raise held is not set anew. -/
structure SameArm (x y : Gate) : Prop where
  cfg : y.cfg = x.cfg
  state : y.state = x.state
  sub : y.sub = x.sub
  position : y.position = x.position
  travel : y.travel = x.travel
  pause : y.pause = x.pause
  reason : y.reason = x.reason
  holdOff : y.holdOff = x.holdOff
  demand : y.demand = x.demand ∨ y.demand = .noDemand
  held : y.raiseHeld = true → x.raiseHeld = true

namespace SameArm

theorem refl (x : Gate) : SameArm x x := ⟨rfl, rfl, rfl, rfl, rfl, rfl, rfl, rfl, .inl rfl, id⟩

theorem trans {x y z : Gate} (h : SameArm x y) (k : SameArm y z) : SameArm x z := by
  refine ⟨k.cfg.trans h.cfg, k.state.trans h.state, k.sub.trans h.sub, k.position.trans h.position, k.travel.trans h.travel,
    k.pause.trans h.pause, k.reason.trans h.reason, k.holdOff.trans h.holdOff, ?_, h.held ∘ k.held⟩
  obtain same | none := k.demand
  · rw [same]
    exact h.demand
  · exact .inr none

theorem released (x : Gate) : SameArm x ((x.setLamp false).record .noDemand) := by
  unfold Gate.setLamp
  split <;> exact ⟨rfl, rfl, rfl, rfl, rfl, rfl, rfl, rfl, .inr rfl, by simp [Gate.record]⟩

/-! Changes of an arm, made alike in two records. -/

section
variable {x y : Gate} (h : SameArm x y)
include h

theorem position_set (p : Position) : SameArm { x with position := p } { y with position := p } :=
  ⟨h.cfg, h.state, h.sub, rfl, h.travel, h.pause, h.reason, h.holdOff, h.demand, h.held⟩

theorem rest (state : GateState) : SameArm (x.rest state) (y.rest state) :=
  ⟨h.cfg, rfl, rfl, h.position, rfl, rfl, rfl, rfl, h.demand, h.held⟩

theorem toFault (reason : FaultReason) : SameArm (x.toFault reason) (y.toFault reason) :=
  ⟨h.cfg, rfl, rfl, h.position, rfl, rfl, rfl, rfl, h.demand, h.held⟩

theorem halt : SameArm x.halt y.halt :=
  ⟨h.cfg, rfl, rfl, h.position, h.travel, h.pause, h.reason, rfl, h.demand, h.held⟩

theorem holdOff_set (n : Option Nat) : SameArm { x with holdOff := n } { y with holdOff := n } :=
  ⟨h.cfg, h.state, h.sub, h.position, h.travel, h.pause, h.reason, rfl, h.demand, h.held⟩

theorem toManual : SameArm x.toManual y.toManual :=
  ⟨h.cfg, rfl, rfl, h.position, rfl, rfl, rfl, rfl, h.demand, id⟩

theorem lowerDrive : y.lowerDrive = x.lowerDrive := by simp only [Gate.lowerDrive, h.state, h.sub]
theorem raiseDrive : y.raiseDrive = x.raiseDrive := by simp only [Gate.raiseDrive, h.state]

end

/-- A demand other than LOWER or RAISE stays other. -/
theorem demand_ne {x y : Gate} (h : SameArm x y) {d : Demand} (other : x.demand ≠ d) (some : d ≠ .noDemand := by decide) :
    y.demand ≠ d := by
  obtain same | none := h.demand
  · rwa [same]
  · rw [none]
    exact some.symm

end SameArm

/-- Gate g has in t the arm of record x. -/
def HasArm (t : State) (g : Nat) (x : Gate) : Prop := ∃ y, t.gates[g]? = some y ∧ SameArm x y

/-- Every arm but those of these gates is in t as it is in s. -/
def ArmsKept (moved : List Nat) (s t : State) : Prop := ∀ g ∉ moved, ∀ x, s.gates[g]? = some x → HasArm t g x

namespace ArmsKept

variable {l : List Nat} {s t u : State}

theorem same (h : t.gates = s.gates) : ArmsKept l s t := fun g _ x here => ⟨x, by rw [h, here], .refl x⟩

theorem trans (h : ArmsKept l s t) (k : ArmsKept l t u) : ArmsKept l s u := fun g other x here => by
  obtain ⟨y, at_t, first⟩ := h g other x here
  obtain ⟨z, at_u, second⟩ := k g other y at_t
  exact ⟨z, at_u, first.trans second⟩

theorem mono {l' : List Nat} (h : ArmsKept l s t) (sub : ∀ g ∈ l, g ∈ l' := by simp) : ArmsKept l' s t :=
  fun g other => h g (fun mem => other (sub g mem))

theorem fold {α : Type} {f : State → α → State} {as : List α} (h : ∀ s, ∀ a ∈ as, ArmsKept l s (f s a)) (s : State) :
    ArmsKept l s (as.foldl f s) := by
  induction as generalizing s with
  | nil => exact .same rfl
  | cons a as ih =>
    exact (h s a List.mem_cons_self).trans (ih (fun s b hb => h s b (List.mem_cons_of_mem _ hb)) _)

/-- A step for each gate of a list moves at most the arms of the list. -/
theorem each {f : State → Nat → State} (h : ∀ s j, ArmsKept [j] s (f s j)) (as : List Nat) (s : State) :
    ArmsKept as s (as.foldl f s) :=
  fold (fun s j hj => (h s j).mono (by simpa using hj)) s

/-- An operation that leaves the gates. -/
theorem of_effect {parts : List Part} {K : List NoticeKind} (e : Effect parts K s t) (away : .gates ∉ parts := by decide) :
    ArmsKept l s t := .same (e.frame .gates away)

end ArmsKept

theorem HasArm.then {l : List Nat} {s t : State} {g : Nat} {x : Gate} (h : HasArm s g x) (k : ArmsKept l s t)
    (other : g ∉ l := by simp) : HasArm t g x := by
  obtain ⟨y, at_s, first⟩ := h
  obtain ⟨z, at_t, second⟩ := k g other y at_s
  exact ⟨z, at_t, first.trans second⟩

/-! ### Tests and reports -/

/-- R16 to R18: a test leaves the gates, but where it completes a reopening, whose gates are all up. -/
theorem testGates_gates (s : State) (k : Nat) : (s.testGates k).gates = s.gates ∨
    ∃ x, s.segs.records[k]? = some x ∧ x.state = .reopening ∧ s.allUp x.cfg.gates = true ∧
      ∀ j, (s.testGates k).gates[j]? =
        (s.gates[j]?).map (fun y => if j ∈ x.cfg.gates then (y.setLamp false).record .noDemand else y) := by
  unfold State.testGates
  split
  · exact .inl rfl
  · next x here =>
    split
    · split
      · exact .inl ((effect_formSegmentSlot _ k).frame .gates (by decide))
      · exact .inl rfl
    · exact .inl rfl
    · next reopening =>
      split
      · next done =>
        refine .inr ⟨x, here, reopening, done.2, fun j => ?_⟩
        have formed (t : State) : (t.formSegmentSlot k).gates = t.gates :=
          (effect_formSegmentSlot t k).frame .gates (by decide)
        rw [formed, recordDemand_gate, handLamps_gate, Option.map_map, updSegment_gates]
        refine congrArg (fun f => Option.map f _) (funext fun y => ?_)
        dsimp only [Function.comp]
        split <;> rfl
      · exact .inl rfl
    · exact .inl rfl

theorem armsKept_testGates (l : List Nat) (s : State) (k : Nat) : ArmsKept l s (s.testGates k) := by
  obtain same | ⟨x, -, -, -, gates⟩ := testGates_gates s k
  · exact .same same
  · intro g _ y here
    refine ⟨_, by rw [gates, here]; rfl, ?_⟩
    split
    · exact .released y
    · exact .refl y

/-- A gate that is not up, and any gate of a segment that is not REOPENING, is left by the test as it is. -/
theorem testGates_gate {s : State} {k g : Nat} {y : Gate} (here : s.gates[g]? = some y)
    (h : y.isUp = false ∨ ∀ x, s.segs.records[k]? = some x → x.state ≠ .reopening) :
    (s.testGates k).gates[g]? = some y := by
  obtain same | ⟨x, record, reopening, allUp, gates⟩ := testGates_gates s k
  · rw [same, here]
  · have down := h.resolve_right (fun none => none x record reopening)
    have apart : g ∉ x.cfg.gates := fun mem => by
      have up : y.isUp = true :=
        List.all_eq_true.1 allUp y (List.mem_filterMap.2 ⟨g, mem, here⟩)
      simp [down] at up
    rw [gates, here]
    simp [apart]

theorem armsKept_gateReport (l : List Nat) (s : State) (g : Nat) : ArmsKept l s (s.gateReport g) := by
  unfold State.gateReport
  split
  · exact .same rfl
  · exact ((armsKept_testGates l s _).trans (.of_effect (effect_updateReserve _))).trans
      (.of_effect (effect_tellAll _ _ .gateState))

theorem gateReport_gate {s : State} {g : Nat} {y : Gate} (here : s.gates[g]? = some y)
    (h : y.isUp = false ∨ ∀ x, s.segs.records[y.cfg.segment]? = some x → x.state ≠ .reopening) :
    (s.gateReport g).gates[g]? = some y := by
  have tested := testGates_gate here h
  have reserve : (s.testGates y.cfg.segment).updateReserve.gates = (s.testGates y.cfg.segment).gates :=
    (effect_updateReserve _).frame .gates (by decide)
  simp only [State.gateReport, here, tellAll_gates, reserve, tested]

section
variable {s : State} {g : Nat} {x : Gate} {f : Gate → Gate}

theorem updGate_gate (here : s.gates[g]? = some x) : (s.updGate g f).gates[g]? = some (f x) := by
  simp [State.updGate, here]

theorem armsKept_updGate : ArmsKept [g] s (s.updGate g f) := fun j other y there => by
  have apart : g ≠ j := fun same => other (by simp [same])
  exact ⟨y, by rw [updGate_gates, List.getElem?_modify, there]; simp [apart], .refl y⟩

theorem changeGate_arm (here : s.gates[g]? = some x) : HasArm (s.changeGate g f) g (f x) :=
  HasArm.then (l := []) ⟨f x, updGate_gate here, .refl _⟩ (armsKept_gateReport [] _ g)

/-- A change that leaves the gate not up, or its segment not REOPENING, is the gate's record afterwards. -/
theorem changeGate_gate (here : s.gates[g]? = some x)
    (h : (f x).isUp = false ∨ ∀ y, s.segs.records[(f x).cfg.segment]? = some y → y.state ≠ .reopening) :
    (s.changeGate g f).gates[g]? = some (f x) := gateReport_gate (updGate_gate here) h

theorem armsKept_changeGate : ArmsKept [g] s (s.changeGate g f) :=
  armsKept_updGate.trans (armsKept_gateReport _ _ g)

end

/-! ### Demands applied (R37 to R40) -/

section
variable {s : State} {g : Nat} {x : Gate}

theorem applyLower_up (here : s.gates[g]? = some x) (up : x.state = .up) : (s.applyLower g).gates[g]? =
    some (if s.asserted x.cfg.obstructionLine then x.startStopped else x.startLowering) := by
  simp only [State.applyLower, here, up]
  split
  · exact changeGate_gate here (.inl rfl)
  · exact changeGate_gate here (.inl rfl)

theorem applyLower_still (here : s.gates[g]? = some x) (up : x.state ≠ .up) (raising : x.state ≠ .raising) :
    s.applyLower g = s := by
  simp only [State.applyLower, here]
  split <;> first | contradiction | rfl

theorem applyRaise_down (here : s.gates[g]? = some x) (down : x.state = .down) :
    (s.power.admits x.cfg = true → (s.applyRaise g).gates[g]? = some x.startRaising) ∧
      (s.power.admits x.cfg = false → (s.applyRaise g).gates[g]? = some { x with raiseHeld := true }) := by
  refine ⟨fun admitted => ?_, fun refused => ?_⟩
  · have raises : s.applyRaise g = s.changeGate g Gate.startRaising := by
      simp only [State.applyRaise, here, down, if_pos admitted]
    rw [raises]
    exact changeGate_gate here (.inl rfl)
  · cases held : x.raiseHeld with
    | true =>
      have still : s.applyRaise g = s := by simp [State.applyRaise, here, down, refused, held]
      rw [still, here, ← held]
    | false =>
      have holds : (s.applyRaise g).gates = (s.updGate g (fun y => { y with raiseHeld := true })).gates := by
        simp [State.applyRaise, here, down, refused, held]
      rw [holds]
      exact updGate_gate here

theorem applyRaise_still (here : s.gates[g]? = some x) (down : x.state ≠ .down) : s.applyRaise g = s := by
  simp only [State.applyRaise, here]
  split <;> first | contradiction | rfl

theorem applyRecorded_lower (here : s.gates[g]? = some x) (d : x.demand = .lower) : s.applyRecorded g = s.applyLower g := by
  simp only [State.applyRecorded, here, d]

theorem applyRecorded_raise (here : s.gates[g]? = some x) (d : x.demand = .raise) : s.applyRecorded g = s.applyRaise g := by
  simp only [State.applyRecorded, here, d]

theorem applyRecorded_still (here : s.gates[g]? = some x) (lower : x.demand ≠ .lower) (raise : x.demand ≠ .raise) :
    s.applyRecorded g = s := by
  simp only [State.applyRecorded, here]
  split <;> first | contradiction | rfl

end

section
variable (s : State) (g : Nat)

theorem armsKept_applyLower : ArmsKept [g] s (s.applyLower g) := by
  unfold State.applyLower
  split
  · exact .same rfl
  · split
    · split <;> exact armsKept_changeGate
    · exact armsKept_changeGate
    all_goals exact .same rfl

theorem armsKept_applyRaise : ArmsKept [g] s (s.applyRaise g) := by
  unfold State.applyRaise
  split
  · exact .same rfl
  · split
    · split
      · exact armsKept_changeGate
      · split
        · exact .same rfl
        · exact armsKept_updGate.trans (.of_effect (effect_tellAll _ _ .gateHeld))
    all_goals exact .same rfl

theorem armsKept_applyRecorded : ArmsKept [g] s (s.applyRecorded g) := by
  unfold State.applyRecorded
  split
  · exact .same rfl
  · split
    · exact armsKept_applyLower s g
    · exact armsKept_applyRaise s g
    all_goals exact .same rfl

theorem armsKept_arrive (state : GateState) : ArmsKept [g] s (s.arrive g state) :=
  armsKept_changeGate.trans (armsKept_applyRecorded _ g)

end

/-! ### Arrivals (R40, R45, R55) -/

section
variable {s : State} {g : Nat} {x : Gate}

/-- A gate that arrives where its demand leaves it stays there. -/
theorem arrive_rests {state : GateState} (here : s.gates[g]? = some x)
    (h : (state = .up ∧ x.demand ≠ .lower) ∨ (state = .down ∧ x.demand ≠ .raise)) :
    HasArm (s.arrive g state) g (x.rest state) := by
  obtain ⟨y, there, arm⟩ := changeGate_arm (f := fun x => x.rest state) here
  have stays : (s.changeGate g (fun x => x.rest state)).applyRecorded g = s.changeGate g (fun x => x.rest state) := by
    by_cases lower : y.demand = .lower
    · obtain ⟨-, other⟩ | ⟨rfl, -⟩ := h
      · exact absurd lower (arm.demand_ne (x := x.rest state) other)
      · rw [applyRecorded_lower there lower, applyLower_still there (by simp [arm.state, Gate.rest])
          (by simp [arm.state, Gate.rest])]
    by_cases raise : y.demand = .raise
    · obtain ⟨rfl, -⟩ | ⟨-, other⟩ := h
      · rw [applyRecorded_raise there raise, applyRaise_still there (by simp [arm.state, Gate.rest])]
      · exact absurd raise (arm.demand_ne (x := x.rest state) other)
    exact applyRecorded_still there lower raise
  rw [State.arrive, stays]
  exact ⟨y, there, arm⟩

/-- A gate of a segment not REOPENING that arrives UP under demand LOWER begins to lower, or waits by the obstruction. -/
theorem arrive_lowers (here : s.gates[g]? = some x) (demand : x.demand = .lower)
    (settled : ∀ y, s.segs.records[x.cfg.segment]? = some y → y.state ≠ .reopening) :
    (s.arrive g .up).gates[g]? = some
      (if s.asserted x.cfg.obstructionLine then (x.rest .up).startStopped else (x.rest .up).startLowering) := by
  have there := changeGate_gate (f := fun x => x.rest .up) here (.inr settled)
  have lines : (s.changeGate g (fun x => x.rest .up)).scan.lines = s.scan.lines :=
    (effect_changeGate s g _).frame .inputs (by decide)
  have lowered := applyLower_up there rfl
  rw [State.asserted, lines] at lowered
  rw [State.arrive, applyRecorded_lower there demand]
  exact lowered

/-- A gate that arrives DOWN under demand RAISE raises, or is held. -/
theorem arrive_raises (here : s.gates[g]? = some x) (demand : x.demand = .raise) :
    (s.arrive g .down).gates[g]? = some (x.rest .down).startRaising ∨
      (s.arrive g .down).gates[g]? = some { x.rest .down with raiseHeld := true } := by
  have there := changeGate_gate (f := fun x => x.rest .down) here (.inl rfl)
  obtain ⟨admitted, refused⟩ := applyRaise_down there rfl
  rw [State.arrive, applyRecorded_raise there demand]
  cases admits : (s.changeGate g (fun x => x.rest .down)).power.admits (x.rest .down).cfg with
  | true => exact .inl (admitted admits)
  | false => exact .inr (refused admits)

end

/-! ### Events of a gate -/

section
variable {s : State} {g k : Nat} {f : State → State}

theorem withSegmentNotice_gates : (s.withSegmentNotice k f).gates = (f s).gates := by
  unfold State.withSegmentNotice
  dsimp only
  split
  · split <;> rfl
  · rfl

theorem gateEvent_gates {x : Gate} (here : s.gates[g]? = some x) : (s.gateEvent g f).gates = (f s).gates := by
  simp only [State.gateEvent, here]
  exact withSegmentNotice_gates

theorem armsKept_gateEvent {l : List Nat} (h : ArmsKept l s (f s)) : ArmsKept l s (s.gateEvent g f) := by
  cases here : s.gates[g]? with
  | none => simpa only [State.gateEvent, here] using ArmsKept.same rfl
  | some x => exact h.trans (.same (gateEvent_gates here))

end

/-- The numbers below n in ascending order, cut at one of them. -/
theorem range_split {n g : Nat} (h : g < n) :
    List.range n = List.range g ++ g :: List.range' (g + 1) (n - (g + 1)) := by
  have cut : List.range' 0 g ++ List.range' (0 + g) (n - (g + 1) + 1) = List.range' 0 (g + (n - (g + 1) + 1)) :=
    List.range'_append_1
  rw [Nat.zero_add, show g + (n - (g + 1) + 1) = n by omega, List.range'_succ] at cut
  rw [List.range_eq_range', List.range_eq_range', cut]

end Sys2Proof.Proofs
end

