-- ==== Sys2Proof/Proofs/GateRows.lean ====
section
/-! The rows of the gate sequencer: RESET GATE (R55), the timers of a gate (R43, R44, R48), and the taken changes of its
input lines (R45 to R51). -/

namespace Sys2Proof.Proofs

open Sys2Proof.Machine Sys2Proof.Safety Sys2Proof.Laws

/-! ### What a demand applied leaves -/

/-- A demand applied to a gate moves neither its limits nor its fault reason. -/
theorem applyRecorded_leaves {s : State} {g : Nat} {x : Gate} (here : s.gates[g]? = some x) :
    ∃ y, (s.applyRecorded g).gates[g]? = some y ∧ y.position = x.position ∧ y.reason = x.reason := by
  by_cases lower : x.demand = .lower
  · rw [applyRecorded_lower here lower]
    by_cases up : x.state = .up
    · rw [applyLower_up here up]
      split <;> exact ⟨_, rfl, rfl, rfl⟩
    by_cases raising : x.state = .raising
    · have reverses : s.applyLower g = s.changeGate g Gate.reverse := by simp only [State.applyLower, here, raising]
      rw [reverses, changeGate_gate here (.inl rfl)]
      exact ⟨_, rfl, rfl, rfl⟩
    · rw [applyLower_still here up raising]
      exact ⟨x, here, rfl, rfl⟩
  by_cases raise : x.demand = .raise
  · rw [applyRecorded_raise here raise]
    by_cases down : x.state = .down
    · obtain ⟨admitted, refused⟩ := applyRaise_down here down
      cases admits : s.power.admits x.cfg with
      | true => exact ⟨_, admitted admits, rfl, rfl⟩
      | false => exact ⟨_, refused admits, rfl, rfl⟩
    · rw [applyRaise_still here down]
      exact ⟨x, here, rfl, rfl⟩
  · rw [applyRecorded_still here lower raise]
    exact ⟨x, here, rfl, rfl⟩

theorem arrive_leaves {s : State} {g : Nat} {x : Gate} (state : GateState) (here : s.gates[g]? = some x) :
    ∃ y, (s.arrive g state).gates[g]? = some y ∧ y.position = x.position ∧ y.reason = none := by
  obtain ⟨y, there, arm⟩ := changeGate_arm (f := fun x => x.rest state) here
  obtain ⟨z, last, position, reason⟩ := applyRecorded_leaves there
  exact ⟨z, last, position.trans arm.position, reason.trans arm.reason⟩

/-! ### RESET GATE -/

/-- Settles O38. -/
theorem resetGateRestsAtTheLimit : Obligations.ResetGateRestsAtTheLimit := by
  intro s r rest g x w named here fault
  subst named
  have accepts (state : GateState) (limit : x.position.restState = some state) :
      owning .resetGate .crew r.body (s.takeQueued .crew rest) = Answer.ok []
        ((s.takeQueued .crew rest).withSegmentNotice x.cfg.segment (fun s => s.arrive (read1 r.body 0) state)) := by
    have gate : (s.takeQueued .crew rest).gates[read1 r.body 0]? = some x := here
    simp only [owning, State.resetGate, gate, fault, limit, ne_eq, not_true_eq_false, if_false]
  have effect (state : GateState) := effect_withSegmentNotice (s.takeQueued .crew rest) x.cfg.segment
    (fun s => s.arrive (read1 r.body 0) state) (effect_arrive _ (read1 r.body 0) state)
  refine ⟨fun up => ?_, fun down => ?_, fun away => ?_⟩
  · obtain ⟨runs, finishes⟩ := accepted (exec_waiting w) (accepts .up (by rw [up]; rfl)) (effect .up)
    obtain ⟨y, there, -, reason⟩ := arrive_leaves (s := s.takeQueued .crew rest) .up here
    refine ⟨_, y, runs, (congrArg (·[read1 r.body 0]?) withSegmentNotice_gates).trans there, reason, fun other => ?_,
      fun lower settled => ?_, finishes⟩
    · obtain ⟨z, at_z, arm⟩ := arrive_rests (s := s.takeQueued .crew rest) here (.inl ⟨rfl, other⟩)
      obtain rfl : z = y := Option.some.inj (at_z.symm.trans there)
      exact ⟨arm.state, arm.travel⟩
    · have lowers := arrive_lowers (s := s.takeQueued .crew rest) here lower settled
      obtain rfl := Option.some.inj (lowers.symm.trans there)
      have lines : (s.takeQueued .crew rest).asserted x.cfg.obstructionLine = s.asserted x.cfg.obstructionLine := rfl
      rw [lines]
      cases s.asserted x.cfg.obstructionLine with
      | true => exact ⟨rfl, fun _ => ⟨rfl, rfl⟩, nofun⟩
      | false => exact ⟨rfl, nofun, fun _ => ⟨rfl, rfl⟩⟩
  · obtain ⟨runs, finishes⟩ := accepted (exec_waiting w) (accepts .down (by rw [down]; rfl)) (effect .down)
    obtain ⟨y, there, -, reason⟩ := arrive_leaves (s := s.takeQueued .crew rest) .down here
    refine ⟨_, y, runs, (congrArg (·[read1 r.body 0]?) withSegmentNotice_gates).trans there, reason, fun other => ?_,
      fun raise => ?_, finishes⟩
    · obtain ⟨z, at_z, arm⟩ := arrive_rests (s := s.takeQueued .crew rest) here (.inr ⟨rfl, other⟩)
      obtain rfl : z = y := Option.some.inj (at_z.symm.trans there)
      exact ⟨arm.state, arm.travel⟩
    · obtain raises | holds := arrive_raises (s := s.takeQueued .crew rest) here raise
      · obtain rfl := Option.some.inj (raises.symm.trans there)
        exact .inl ⟨rfl, rfl⟩
      · obtain rfl := Option.some.inj (holds.symm.trans there)
        exact .inr ⟨rfl, rfl⟩
  · refine refused (by decide) (exec_waiting w) ?_
    have gate : (s.takeQueued .crew rest).gates[read1 r.body 0]? = some x := here
    have none : x.position.restState = none := by obtain at_x | at_x := away <;> rw [at_x] <;> rfl
    simp only [owning, State.resetGate, gate, fault, none, ne_eq, not_true_eq_false, if_false]

/-! ### The timers of a gate -/

theorem exec_whenRunning {s : State} (run : Running s) (f : State → State) : s.whenRunning f = f s := by
  simp [State.whenRunning, run.1, run.2]

/-- Settles O39. -/
theorem gateTimersRunOut : Obligations.GateTimersRunOut := by
  refine ⟨fun s g x run here driven out => ?_, fun s g x run here lowering reversing pause => ?_,
    fun s g x run here stopped holdOff => ?_, fun s g x run here flashing half => ?_⟩
  · have runs : exec (.travelTimeout g) s =
        .next (s.gateEvent g (fun s => s.changeGate g (fun y => y.toFault .travelTimeout))) := by
      show Host.Outcome.next (s.whenRunning _) = _
      rw [exec_whenRunning run]
      simp [State.travelTimeout, here, Gate.travelling, driven, out]
    refine ⟨_, x.toFault .travelTimeout, runs, ?_, rfl, rfl, rfl, rfl, rfl, (effect_gateEvent s g _ (effect_changeGate s g _).mono).frame⟩
    rw [gateEvent_gates here]
    exact changeGate_gate here (.inl rfl)
  · have runs : exec (.reversalPauseEnd g) s = .next (s.gateEvent g (fun s => s.endPause g x)) := by
      show Host.Outcome.next (s.whenRunning _) = _
      rw [exec_whenRunning run]
      simp [State.reversalPauseEnd, here, lowering, reversing, pause]
    have frame := (effect_gateEvent s g (fun s => s.endPause g x) (effect_endPause s g x)).frame
    have gates := gateEvent_gates (f := fun s => s.endPause g x) here
    by_cases down : x.position = .atDown
    · have ends : s.endPause g x = s.arrive g .down := if_pos down
      obtain ⟨y, there, -, -⟩ := arrive_leaves .down here
      refine ⟨_, y, runs, by rw [gates, ends, there], fun _ other => ?_, fun away => absurd down away, frame⟩
      obtain ⟨z, at_z, arm⟩ := arrive_rests here (.inr ⟨rfl, other⟩)
      obtain rfl : z = y := Option.some.inj (at_z.symm.trans there)
      exact ⟨arm.state, arm.travel⟩
    cases obstruction : s.asserted x.cfg.obstructionLine with
    | true =>
      have ends : s.endPause g x = s.changeGate g Gate.startStopped := by simp [State.endPause, down, obstruction]
      exact ⟨_, x.startStopped, runs, by rw [gates, ends]; exact changeGate_gate here (.inl rfl), fun there => absurd there down,
        fun _ => ⟨rfl, rfl, fun _ => ⟨rfl, rfl⟩, nofun⟩, frame⟩
    | false =>
      have ends : s.endPause g x = s.changeGate g Gate.startLowering := by simp [State.endPause, down, obstruction]
      exact ⟨_, x.startLowering, runs, by rw [gates, ends]; exact changeGate_gate here (.inl rfl), fun there => absurd there down,
        fun _ => ⟨rfl, rfl, nofun, fun _ => ⟨rfl, rfl⟩⟩, frame⟩
  · have runs : exec (.holdOffEnd g) s = .next (s.gateEvent g (fun s => s.changeGate g Gate.resume)) := by
      show Host.Outcome.next (s.whenRunning _) = _
      rw [exec_whenRunning run]
      simp [State.holdOffEnd, here, stopped, holdOff]
    refine ⟨_, x.resume, runs, ?_, rfl, rfl, rfl, rfl, (effect_gateEvent s g _ (effect_changeGate s g _).mono).frame⟩
    rw [gateEvent_gates here]
    exact changeGate_gate here (.inl rfl)
  · have runs : exec (.lampToggle g) s = .next (s.updGate g Gate.toggle) := by
      show Host.Outcome.next (s.whenRunning _) = _
      rw [exec_whenRunning run]
    refine ⟨_, runs, ?_, (effect_updGate s g _).frame⟩
    rw [updGate_gates, modify_of_getElem? here, Gate.toggle, if_pos ⟨flashing, half⟩]
    rfl

end Sys2Proof.Proofs
end

