-- ==== Sys2Proof/Proofs/TakenLines.lean ====
section
/-! A taken change of an input line delivered to the gates (R45 to R51): the gate that names the line in one role moves by
that role, and the deliveries to the other gates leave its arm. -/

namespace Sys2Proof.Proofs

open Sys2Proof.Machine Sys2Proof.Safety Sys2Proof.Laws

/-! ### Limit changes (R45 to R47) -/

/-- What a taken limit change of this effect makes of the arm of gate x, whose new position is p. -/
def LimitOutcome (x : Gate) (p : Position) (z : Gate) : LimitEffect → Prop
  | .held => SameArm { x with position := p } z
  | .reported => SameArm { x with position := p } z
  | .rests state => z.position = p ∧
      ((state = .up ∧ x.demand ≠ .lower) ∨ (state = .down ∧ x.demand ≠ .raise) →
        SameArm (({ x with position := p } : Gate).rest state) z)
  | .faults reason => z.position = p ∧ z.state = .fault ∧ z.reason = some reason ∧
      (x.state ≠ .fault → SameArm (({ x with position := p } : Gate).toFault reason) z)

/-- The outcome seen from a record of the same arm before the change and after it. -/
theorem LimitOutcome.transport {x x' z y : Gate} {p : Position} {e : LimitEffect} (h : LimitOutcome x' p z e)
    (before : SameArm x x') (after : SameArm z y) : LimitOutcome x p y e := by
  cases e with
  | held => exact ((before.position_set p).trans h).trans after
  | reported => exact ((before.position_set p).trans h).trans after
  | rests state =>
    obtain ⟨position, rests⟩ := h
    refine ⟨after.position.trans position, fun stays => (((before.position_set p).rest state).trans (rests ?_)).trans after⟩
    obtain ⟨up, other⟩ | ⟨down, other⟩ := stays
    · exact .inl ⟨up, before.demand_ne other⟩
    · exact .inr ⟨down, before.demand_ne other⟩
  | faults reason =>
    obtain ⟨position, state, why, fault⟩ := h
    exact ⟨after.position.trans position, after.state.trans state, after.reason.trans why,
      fun other => (((before.position_set p).toFault reason).trans (fault (by rwa [before.state]))).trans after⟩

theorem limitChange_outcome {s : State} {g : Nat} {x : Gate} (here : s.gates[g]? = some x) (limit : Limit) (b : Bool) :
    ∃ z, (s.limitChange g limit b).gates[g]? = some z ∧
      LimitOutcome x (s.positionOf x.cfg) z (limitEffect x.state (s.positionOf x.cfg) limit b) := by
  have held : (s.holdPosition g (s.positionOf x.cfg)).gates[g]? = some { x with position := s.positionOf x.cfg } :=
    updGate_gate here
  unfold State.limitChange
  simp only [here]
  cases limitEffect x.state (s.positionOf x.cfg) limit b with
  | held => exact ⟨_, held, .refl _⟩
  | reported =>
    dsimp only
    split
    · next same =>
      refine ⟨x, here, ?_⟩
      rw [LimitOutcome, same]
      exact .refl x
    · exact armsKept_gateReport [] _ g g (by simp) _ held
  | rests state =>
    by_cases rests : (state = .up ∧ x.demand ≠ .lower) ∨ (state = .down ∧ x.demand ≠ .raise)
    · obtain ⟨z, there, arm⟩ := arrive_rests held rests
      exact ⟨z, there, arm.position, fun _ => arm⟩
    · obtain ⟨z, there, position, -⟩ := arrive_leaves state held
      exact ⟨z, there, position, fun stays => absurd stays rests⟩
  | faults reason =>
    dsimp only
    split
    · next already => exact ⟨_, held, rfl, already.1, already.2, fun other => absurd already.1 other⟩
    · exact ⟨_, changeGate_gate held (.inl rfl), rfl, rfl, rfl, fun _ => .refl _⟩

/-! The effect by the state, the two limits and the line that changed. -/

section
variable {state : GateState} (limit : Limit)

theorem limitEffect_manual (p : Position) (b : Bool) : limitEffect .manual p limit b = .reported := rfl

theorem limitEffect_conflict (h : state ≠ .manual) (b : Bool) : limitEffect state .conflict limit b = .faults .limitConflict := by
  cases state <;> first | rfl | contradiction

theorem limitEffect_upTaken : limitEffect .raising .atUp .up true = .rests .up ∧
    limitEffect .lowering .atUp .up true = .faults .limitConflict ∧
    (state = .up ∨ state = .down ∨ state = .stopped ∨ state = .fault → limitEffect state .atUp .up true = .held) := by
  refine ⟨rfl, rfl, ?_⟩
  rintro (rfl | rfl | rfl | rfl) <;> rfl

theorem limitEffect_downTaken : limitEffect .raising .atDown .down true = .faults .limitConflict ∧
    (state = .lowering ∨ state = .stopped → limitEffect state .atDown .down true = .rests .down) ∧
    (state = .up ∨ state = .down ∨ state = .fault → limitEffect state .atDown .down true = .held) := by
  refine ⟨rfl, ?_, ?_⟩
  · rintro (rfl | rfl) <;> rfl
  · rintro (rfl | rfl | rfl) <;> rfl

theorem limitEffect_released {p : Position} (h : p ≠ .conflict) :
    limitEffect .up p .up false = .faults .leftPosition ∧ limitEffect .down p .down false = .faults .leftPosition ∧
    (state ≠ .up → state ≠ .manual → limitEffect state p .up false = .held) ∧
    (state ≠ .down → state ≠ .manual → limitEffect state p .down false = .held) := by
  refine ⟨by simp [limitEffect, h], by simp [limitEffect, h], ?_, ?_⟩
  · cases state <;> simp [limitEffect, h]
  · cases state <;> simp [limitEffect, h]

end

/-! ### The obstruction and key lines (R48, R50, R51) -/

section
variable {s : State} {g : Nat} {x : Gate}

theorem obstructionChange_outcome (here : s.gates[g]? = some x) (b : Bool) :
    ∃ z, HasArm (s.obstructionChange g b) g z ∧ (x.lowerDrive = true → b = true → z = x.halt) ∧
      (x.state = .stopped → z = { x with holdOff := if b then none else some 50 }) ∧
      (x.lowerDrive = false ∨ b = false → x.state ≠ .stopped → z = x) := by
  unfold State.obstructionChange
  simp only [here]
  have driven (stopped : x.state = .stopped) : x.lowerDrive = false := by simp [Gate.lowerDrive, stopped]
  cases b with
  | true =>
    by_cases lowering : x.lowerDrive = true
    · refine ⟨x.halt, ?_, fun _ _ => rfl, fun stopped => ?_, fun off => ?_⟩
      · rw [if_pos rfl, if_pos lowering]
        exact ⟨_, changeGate_gate here (.inl rfl), .refl _⟩
      · simp [driven stopped] at lowering
      · simp [lowering] at off
    by_cases stopped : x.state = .stopped
    · refine ⟨{ x with holdOff := none }, ?_, fun on => absurd on lowering, fun _ => rfl, fun _ other => absurd stopped other⟩
      rw [if_pos rfl, if_neg lowering, if_pos stopped]
      exact ⟨_, updGate_gate here, .refl _⟩
    · refine ⟨x, ?_, fun on => absurd on lowering, fun there => absurd there stopped, fun _ _ => rfl⟩
      rw [if_pos rfl, if_neg lowering, if_neg stopped]
      exact ⟨x, here, .refl x⟩
  | false =>
    by_cases stopped : x.state = .stopped
    · refine ⟨{ x with holdOff := some 50 }, ?_, nofun, fun _ => rfl, fun _ other => absurd stopped other⟩
      rw [if_neg (by decide), if_pos stopped]
      exact ⟨_, updGate_gate here, .refl _⟩
    · refine ⟨x, ?_, nofun, fun there => absurd there stopped, fun _ _ => rfl⟩
      rw [if_neg (by decide), if_neg stopped]
      exact ⟨x, here, .refl x⟩

theorem keyChange_taken (here : s.gates[g]? = some x) (state : x.state ≠ .manual) :
    HasArm (s.keyChange g true) g x.toManual := by
  have manual : s.keyChange g true = s.changeGate g Gate.toManual := by simp [State.keyChange, here, state]
  rw [manual]
  exact changeGate_arm here

theorem keyChange_still (here : s.gates[g]? = some x) {b : Bool} (h : b = true ∧ x.state = .manual ∨ b = false ∧ x.state ≠ .manual) :
    s.keyChange g b = s := by
  obtain ⟨rfl, state⟩ | ⟨rfl, state⟩ := h <;> simp [State.keyChange, here, state]

theorem keyChange_released (here : s.gates[g]? = some x) (manual : x.state = .manual) :
    (∀ state, x.position.restState = some state → s.keyChange g false = s.arrive g state) ∧
      (x.position.restState = none → s.keyChange g false = s.changeGate g (fun y => y.toFault .positionUnknown)) := by
  refine ⟨fun state at_limit => ?_, fun away => ?_⟩
  · simp [State.keyChange, here, manual, State.leaveManual, at_limit]
  · simp [State.keyChange, here, manual, State.leaveManual, away]

end

/-! ### What a limit change says of the arm -/

section
variable {x y : Gate} {p : Position}

theorem LimitOutcome.position {e : LimitEffect} (h : LimitOutcome x p y e) : y.position = p := by
  cases e with
  | held => exact SameArm.position h
  | reported => exact SameArm.position h
  | rests state => exact h.1
  | faults reason => exact h.1

/-- Both limits asserted: LIMIT_CONFLICT unless MANUAL, and no timer left of an arm that was not in FAULT. -/
theorem conflict_claims {limit : Limit} {b : Bool} (h : LimitOutcome x p y (limitEffect x.state p limit b)) :
    (x.state = .manual → y.state = .manual) ∧
    (x.state ≠ .manual → p = .conflict → y.state = .fault ∧ y.reason = some .limitConflict) ∧
    (x.state ≠ .manual → x.state ≠ .fault → p = .conflict → y.travel = 0 ∧ y.pause = none ∧ y.holdOff = none) := by
  refine ⟨fun manual => ?_, fun state conflict => ?_, fun state working conflict => ?_⟩
  · rw [manual, limitEffect_manual] at h
    exact (SameArm.state h).trans manual
  · rw [conflict, limitEffect_conflict limit state] at h
    obtain ⟨-, fault, reason, -⟩ := h
    exact ⟨fault, reason⟩
  · rw [conflict, limitEffect_conflict limit state] at h
    obtain ⟨-, -, -, arm⟩ := h
    exact ⟨(arm working).travel, (arm working).pause, (arm working).holdOff⟩

/-- The position held and nothing else of the arm moved. -/
theorem SameArm.held_still (h : SameArm { x with position := p } y) : y.state = x.state ∧ y.sub = x.sub ∧ y.reason = x.reason ∧
    y.travel = x.travel ∧ y.pause = x.pause ∧ y.holdOff = x.holdOff :=
  ⟨h.state, h.sub, h.reason, h.travel, h.pause, h.holdOff⟩

theorem upTaken_claims (h : LimitOutcome x .atUp y (limitEffect x.state .atUp .up true)) :
    (x.state = .raising → x.demand ≠ .lower → y.state = .up ∧ y.travel = 0) ∧
    (x.state = .lowering → y.state = .fault ∧ y.reason = some .limitConflict) ∧
    (x.state = .up ∨ x.state = .down ∨ x.state = .stopped ∨ x.state = .fault →
      y.state = x.state ∧ y.reason = x.reason ∧ y.travel = x.travel ∧ y.holdOff = x.holdOff) := by
  obtain ⟨raising, lowering, held⟩ := limitEffect_upTaken (state := x.state)
  refine ⟨fun state other => ?_, fun state => ?_, fun state => ?_⟩
  · rw [state, raising] at h
    obtain ⟨-, rests⟩ := h
    have arm := rests (.inl ⟨rfl, other⟩)
    exact ⟨arm.state, arm.travel⟩
  · rw [state, lowering] at h
    obtain ⟨-, fault, reason, -⟩ := h
    exact ⟨fault, reason⟩
  · rw [held state] at h
    obtain ⟨same, -, reason, travel, -, holdOff⟩ := SameArm.held_still h
    exact ⟨same, reason, travel, holdOff⟩

theorem downTaken_claims (h : LimitOutcome x .atDown y (limitEffect x.state .atDown .down true)) :
    (x.state = .lowering ∨ x.state = .stopped → x.demand ≠ .raise → y.state = .down ∧ y.travel = 0 ∧ y.pause = none ∧
      y.holdOff = none) ∧
    (x.state = .raising → y.state = .fault ∧ y.reason = some .limitConflict) ∧
    (x.state = .up ∨ x.state = .down ∨ x.state = .fault →
      y.state = x.state ∧ y.reason = x.reason ∧ y.travel = x.travel) := by
  obtain ⟨raising, lowering, held⟩ := limitEffect_downTaken (state := x.state)
  refine ⟨fun state other => ?_, fun state => ?_, fun state => ?_⟩
  · rw [lowering state] at h
    obtain ⟨-, rests⟩ := h
    have arm := rests (.inr ⟨rfl, other⟩)
    exact ⟨arm.state, arm.travel, arm.pause, arm.holdOff⟩
  · rw [state, raising] at h
    obtain ⟨-, fault, reason, -⟩ := h
    exact ⟨fault, reason⟩
  · rw [held state] at h
    obtain ⟨same, -, reason, travel, -, -⟩ := SameArm.held_still h
    exact ⟨same, reason, travel⟩

/-- A limit released: the arm at rest there has LEFT_POSITION, any other holds the position alone. -/
theorem released_claims {rest : GateState} {limit : Limit} (of : rest = .up ∧ limit = .up ∨ rest = .down ∧ limit = .down)
    (free : p ≠ .conflict) (h : LimitOutcome x p y (limitEffect x.state p limit false)) :
    (x.state = rest → y.state = .fault ∧ y.reason = some .leftPosition) ∧
    (x.state ≠ rest → x.state ≠ .manual → y.state = x.state ∧ y.sub = x.sub ∧ y.reason = x.reason ∧
      y.travel = x.travel ∧ y.pause = x.pause ∧ y.holdOff = x.holdOff) := by
  obtain ⟨up, down, fromUp, fromDown⟩ := limitEffect_released (state := x.state) free
  obtain ⟨rfl, rfl⟩ | ⟨rfl, rfl⟩ := of
  · refine ⟨fun state => ?_, fun state manual => ?_⟩
    · rw [state, up] at h
      obtain ⟨-, fault, reason, -⟩ := h
      exact ⟨fault, reason⟩
    · rw [fromUp state manual] at h
      exact SameArm.held_still h
  · refine ⟨fun state => ?_, fun state manual => ?_⟩
    · rw [state, down] at h
      obtain ⟨-, fault, reason, -⟩ := h
      exact ⟨fault, reason⟩
    · rw [fromDown state manual] at h
      exact SameArm.held_still h

end

/-! ### Delivery (R114) -/

section
variable (s : State) (g : Nat)

theorem armsKept_limitChange (limit : Limit) (b : Bool) : ArmsKept [g] s (s.limitChange g limit b) := by
  have held (p : Position) : ArmsKept [g] s (s.holdPosition g p) := armsKept_updGate
  unfold State.limitChange
  split
  · exact .same rfl
  · dsimp only
    split
    · exact held _
    · split
      · exact .same rfl
      · exact (held _).trans (armsKept_gateReport _ _ g)
    · exact (held _).trans (armsKept_arrive _ g _)
    · split
      · exact held _
      · exact (held _).trans armsKept_changeGate

theorem armsKept_obstructionChange (b : Bool) : ArmsKept [g] s (s.obstructionChange g b) := by
  unfold State.obstructionChange
  split
  · exact .same rfl
  · split
    · split
      · exact armsKept_changeGate
      · split
        · exact armsKept_updGate
        · exact .same rfl
    · split
      · exact armsKept_updGate
      · exact .same rfl

theorem armsKept_keyChange (b : Bool) : ArmsKept [g] s (s.keyChange g b) := by
  unfold State.keyChange
  split
  · exact .same rfl
  · split
    · split
      · exact .same rfl
      · exact armsKept_changeGate
    · split
      · unfold State.leaveManual
        split
        · exact armsKept_arrive s g _
        · exact armsKept_changeGate
      · exact .same rfl

theorem armsKept_gateLine {l : List Nat} {f : State → State} (own line : Nat) (h : ArmsKept l s (f s)) :
    ArmsKept l s (s.gateLine g own line f) := by
  unfold State.gateLine
  split
  · exact armsKept_gateEvent h
  · exact .same rfl

theorem armsKept_deliverGate (line : Nat) (b : Bool) : ArmsKept [g] s (s.deliverGate g line b) := by
  unfold State.deliverGate
  split
  · exact .same rfl
  · exact (((armsKept_gateLine s g _ line (armsKept_limitChange s g .up b)).trans
      (armsKept_gateLine _ g _ line (armsKept_limitChange _ g .down b))).trans
      (armsKept_gateLine _ g _ line (armsKept_obstructionChange _ g b))).trans
      (armsKept_gateLine _ g _ line (armsKept_keyChange _ g b))

end

section
variable {s : State} {g l : Nat} {b : Bool} {x : Gate}

/-- The delivery cut at gate g: the deliveries before it and after it leave its arm, and do nothing where no other gate
names the line. -/
theorem deliverGates_at (here : s.gates[g]? = some x) : ∃ u, HasArm u g x ∧ u.scan.lines = s.scan.lines ∧
    (∃ others, g ∉ others ∧ ArmsKept others (u.deliverGate g l b) (s.deliverGates l b)) ∧
    ((∀ h w, s.gates[h]? = some w → h ≠ g → l ∉ w.cfg.inputs) → u = s ∧ s.deliverGates l b = s.deliverGate g l b) := by
  obtain ⟨inside, -⟩ := List.getElem?_eq_some_iff.1 here
  have step (s : State) (j : Nat) : ArmsKept [j] s (s.deliverGate j l b) := armsKept_deliverGate s j l b
  have cut : s.deliverGates l b = (List.range' (g + 1) (s.gates.length - (g + 1))).foldl (fun s j => s.deliverGate j l b)
      (((List.range g).foldl (fun s j => s.deliverGate j l b) s).deliverGate g l b) := by
    rw [State.deliverGates, range_split inside, List.foldl_append, List.foldl_cons]
  refine ⟨(List.range g).foldl (fun s j => s.deliverGate j l b) s, ArmsKept.each step _ s g (by simp) x here, ?_,
    ⟨List.range' (g + 1) (s.gates.length - (g + 1)), by simp, ?_⟩, fun alone => ?_⟩
  · exact (Effect.fold (l := roadParts) (K := roadKinds) _ (fun s j => effect_deliverGate s j l b) _ s).frame .inputs (by decide)
  · rw [cut]
    exact ArmsKept.each step _ _
  · have first : (List.range g).foldl (fun s j => s.deliverGate j l b) s = s :=
      foldl_unmoved (fun j hj => deliverGate_unnamed (fun w there => alone j w there (by simp at hj; omega)))
    refine ⟨first, ?_⟩
    rw [cut, first]
    refine foldl_unmoved (fun j hj => deliverGate_unnamed (fun w there => ?_))
    obtain ⟨low, high⟩ := List.mem_range'_1.1 hj
    obtain ⟨v, before⟩ : ∃ v, s.gates[j]? = some v := ⟨_, List.getElem?_eq_getElem (by omega)⟩
    obtain ⟨w', after, arm⟩ := step s g j (by simp; omega) v before
    obtain rfl := Option.some.inj (after.symm.trans there)
    rw [arm.cfg]
    exact alone j v before (by omega)

end

/-! ### The one role of the line (R114) -/

/-- A line named once is named in one role. -/
theorem one_role {c : GateConfig} {l : Nat} (one : c.inputs.count l = 1) :
    (c.upLine = l ∧ c.downLine ≠ l ∧ c.obstructionLine ≠ l ∧ c.keyLine ≠ l) ∨
    (c.downLine = l ∧ c.upLine ≠ l ∧ c.obstructionLine ≠ l ∧ c.keyLine ≠ l) ∨
    (c.obstructionLine = l ∧ c.upLine ≠ l ∧ c.downLine ≠ l ∧ c.keyLine ≠ l) ∨
    (c.keyLine = l ∧ c.upLine ≠ l ∧ c.downLine ≠ l ∧ c.obstructionLine ≠ l) := by
  simp only [GateConfig.inputs, List.count_cons, List.count_nil, beq_iff_eq] at one
  by_cases up : c.upLine = l <;> by_cases down : c.downLine = l <;> by_cases obstruction : c.obstructionLine = l <;>
    by_cases key : c.keyLine = l <;> simp [up, down, obstruction, key] at one ⊢

section
variable {s : State} {g l : Nat} {x : Gate} (b : Bool) (here : s.gates[g]? = some x)
include here

theorem deliverGate_up (own : x.cfg.upLine = l) (down : x.cfg.downLine ≠ l) (obstruction : x.cfg.obstructionLine ≠ l)
    (key : x.cfg.keyLine ≠ l) : (s.deliverGate g l b).gates = (s.limitChange g .up b).gates := by
  simp only [State.deliverGate, here, State.gateLine, if_neg down, if_neg obstruction, if_neg key, if_pos own,
    gateEvent_gates here]

theorem deliverGate_down (own : x.cfg.downLine = l) (up : x.cfg.upLine ≠ l) (obstruction : x.cfg.obstructionLine ≠ l)
    (key : x.cfg.keyLine ≠ l) : (s.deliverGate g l b).gates = (s.limitChange g .down b).gates := by
  simp only [State.deliverGate, here, State.gateLine, if_neg up, if_neg obstruction, if_neg key, if_pos own,
    gateEvent_gates here]

theorem deliverGate_obstruction (own : x.cfg.obstructionLine = l) (up : x.cfg.upLine ≠ l) (down : x.cfg.downLine ≠ l)
    (key : x.cfg.keyLine ≠ l) : (s.deliverGate g l b).gates = (s.obstructionChange g b).gates := by
  simp only [State.deliverGate, here, State.gateLine, if_neg up, if_neg down, if_neg key, if_pos own, gateEvent_gates here]

theorem deliverGate_key (own : x.cfg.keyLine = l) (up : x.cfg.upLine ≠ l) (down : x.cfg.downLine ≠ l)
    (obstruction : x.cfg.obstructionLine ≠ l) : (s.deliverGate g l b).gates = (s.keyChange g b).gates := by
  simp only [State.deliverGate, here, State.gateLine, if_neg up, if_neg down, if_neg obstruction, if_pos own,
    gateEvent_gates here]

end

/-- The levels after the line has taken its present input. -/
theorem asserted_settled {s : State} {l : Nat} {z : InputLine} (here : s.scan.lines[l]? = some z) (k : Nat) :
    (s.updLine l InputLine.settle).asserted k = if k = l then z.present else s.asserted k := by
  simp only [State.asserted, updLine_lines, List.getElem?_modify]
  obtain rfl | other := eq_or_ne k l
  · simp [here, InputLine.settle]
  · simp [other, Ne.symm other]

theorem positionOf_conflict {up down : Bool} : positionOf up down = .conflict ↔ up = true ∧ down = true := by
  cases up <;> cases down <;> decide

/-- R50, R51: a taken change of the key line of gate g. -/
theorem deliverGates_key {s : State} {g l : Nat} {x : Gate} (b : Bool) (here : s.gates[g]? = some x) (own : x.cfg.keyLine = l)
    (o1 : x.cfg.upLine ≠ l) (o2 : x.cfg.downLine ≠ l) (o3 : x.cfg.obstructionLine ≠ l) :
    ∃ y, (s.deliverGates l b).gates[g]? = some y ∧
      (b = true → x.state ≠ .manual → y.state = .manual ∧ y.travel = 0 ∧ y.reason = none ∧ y.raiseHeld = false ∧
        y.lowerDrive = false ∧ y.raiseDrive = false) ∧
      (b = true ∧ x.state = .manual ∨ b = false ∧ x.state ≠ .manual →
        y.state = x.state ∧ y.sub = x.sub ∧ y.travel = x.travel ∧ y.pause = x.pause ∧ y.holdOff = x.holdOff) ∧
      (b = false → x.state = .manual →
        (x.position = .between ∨ x.position = .conflict → y.state = .fault ∧ y.reason = some .positionUnknown) ∧
        (x.position = .atUp → x.demand ≠ .lower → y.state = .up ∧ y.travel = 0) ∧
        (x.position = .atUp → x.demand = .lower → (∀ h w, s.gates[h]? = some w → h ≠ g → l ∉ w.cfg.inputs) →
          (∀ k, s.segs.records[x.cfg.segment]? = some k → k.state ≠ .reopening) → y.travel = x.cfg.timeout ∧
          (s.asserted x.cfg.obstructionLine = true → y.state = .stopped) ∧
          (s.asserted x.cfg.obstructionLine = false → y.state = .lowering ∧ y.sub = some .driving)) ∧
        (x.position = .atDown → x.demand ≠ .raise → y.state = .down ∧ y.travel = 0) ∧
        (x.position = .atDown → x.demand = .raise → (∀ h w, s.gates[h]? = some w → h ≠ g → l ∉ w.cfg.inputs) →
          (y.state = .raising ∧ y.travel = x.cfg.timeout) ∨ (y.state = .down ∧ y.raiseHeld = true))) := by
  obtain ⟨u, ⟨x', at_u, before⟩, -, ⟨others, apart, after⟩, alone⟩ := deliverGates_at (l := l) (b := b) here
  have gates := deliverGate_key b at_u (before.cfg ▸ own) (before.cfg ▸ o1) (before.cfg ▸ o2) (before.cfg ▸ o3)
  have only (none : ∀ h w, s.gates[h]? = some w → h ≠ g → l ∉ w.cfg.inputs) :
      (s.deliverGates l b).gates = (s.keyChange g b).gates := by
    rw [(alone none).2, deliverGate_key b here own o1 o2 o3]
  have moved {v : Gate} (h : HasArm (u.keyChange g b) g v) : HasArm (s.deliverGates l b) g v := by
    obtain ⟨w, there, first⟩ := h
    obtain ⟨y, last, second⟩ := after g apart w (by rw [gates, there])
    exact ⟨y, last, first.trans second⟩
  cases b with
  | true =>
    by_cases manual : x.state = .manual
    · have still : u.keyChange g true = u := keyChange_still at_u (.inl ⟨rfl, before.state.trans manual⟩)
      obtain ⟨y, last, arm⟩ := moved (v := x') (by rw [still]; exact ⟨x', at_u, .refl x'⟩)
      have arm := before.trans arm
      exact ⟨y, last, fun _ other => absurd manual other, fun _ => ⟨arm.state, arm.sub, arm.travel, arm.pause, arm.holdOff⟩,
        nofun⟩
    · obtain ⟨y, last, arm⟩ := moved (keyChange_taken at_u (before.state.symm ▸ manual))
      have arm := before.toManual.trans arm
      refine ⟨y, last, fun _ _ => ⟨arm.state, arm.travel, arm.reason, ?_, arm.lowerDrive, arm.raiseDrive⟩, fun h => ?_, nofun⟩
      · exact Bool.eq_false_iff.2 (fun held => nomatch arm.held held)
      · obtain ⟨-, other⟩ | ⟨no, -⟩ := h
        · exact absurd other manual
        · cases no
  | false =>
    by_cases manual : x.state = .manual
    · obtain ⟨rests, faults⟩ := keyChange_released at_u (before.state.trans manual)
      obtain ⟨restsHere, -⟩ := keyChange_released here manual
      rw [before.position] at rests faults
      cases position : x.position with
      | atUp =>
        have released := rests .up (by rw [position]; rfl)
        obtain ⟨v, there, -, -⟩ := arrive_leaves .up at_u
        obtain ⟨y, last, -⟩ := moved ⟨v, by rw [released, there], .refl v⟩
        refine ⟨y, last, nofun, by simp [manual], fun _ _ => ⟨nofun, fun _ other => ?_, fun _ lower none settled => ?_, nofun, nofun⟩⟩
        · obtain ⟨y', last', arm⟩ := moved (by rw [released]; exact arrive_rests at_u (.inl ⟨rfl, before.demand_ne other⟩))
          obtain rfl : y' = y := Option.some.inj (last'.symm.trans last)
          exact ⟨arm.state, arm.travel⟩
        · have lowers := arrive_lowers here lower settled
          rw [← restsHere .up (by rw [position]; rfl), ← only none, last] at lowers
          obtain rfl := Option.some.inj lowers
          cases s.asserted x.cfg.obstructionLine with
          | true => exact ⟨rfl, fun _ => rfl, nofun⟩
          | false => exact ⟨rfl, nofun, fun _ => ⟨rfl, rfl⟩⟩
      | atDown =>
        have released := rests .down (by rw [position]; rfl)
        obtain ⟨v, there, -, -⟩ := arrive_leaves .down at_u
        obtain ⟨y, last, -⟩ := moved ⟨v, by rw [released, there], .refl v⟩
        refine ⟨y, last, nofun, by simp [manual], fun _ _ => ⟨nofun, nofun, nofun, fun _ other => ?_, fun _ raise none => ?_⟩⟩
        · obtain ⟨y', last', arm⟩ := moved (by rw [released]; exact arrive_rests at_u (.inr ⟨rfl, before.demand_ne other⟩))
          obtain rfl : y' = y := Option.some.inj (last'.symm.trans last)
          exact ⟨arm.state, arm.travel⟩
        · have raises := arrive_raises here raise
          rw [← restsHere .down (by rw [position]; rfl), ← only none, last] at raises
          obtain raises | holds := raises
          · obtain rfl := Option.some.inj raises
            exact .inl ⟨rfl, rfl⟩
          · obtain rfl := Option.some.inj holds
            exact .inr ⟨rfl, rfl⟩
      | between =>
        have released := faults (by rw [position]; rfl)
        obtain ⟨y, last, arm⟩ := moved (by rw [released]; exact changeGate_arm at_u)
        exact ⟨y, last, nofun, by simp [manual], fun _ _ => ⟨fun _ => ⟨arm.state, arm.reason⟩, nofun, nofun, nofun, nofun⟩⟩
      | conflict =>
        have released := faults (by rw [position]; rfl)
        obtain ⟨y, last, arm⟩ := moved (by rw [released]; exact changeGate_arm at_u)
        exact ⟨y, last, nofun, by simp [manual], fun _ _ => ⟨fun _ => ⟨arm.state, arm.reason⟩, nofun, nofun, nofun, nofun⟩⟩
    · have still : u.keyChange g false = u := keyChange_still at_u (.inr ⟨rfl, before.state.symm ▸ manual⟩)
      obtain ⟨y, last, arm⟩ := moved (v := x') (by rw [still]; exact ⟨x', at_u, .refl x'⟩)
      have arm := before.trans arm
      exact ⟨y, last, nofun, fun _ => ⟨arm.state, arm.sub, arm.travel, arm.pause, arm.holdOff⟩, fun _ other => absurd other manual⟩

/-- Settles O41: the deliveries to other gates leave the arm, and the one role of the line moves it. -/
theorem takenLinesMoveTheGate : Obligations.TakenLinesMoveTheGate := by
  intro s l g z x up down run line ended here untripped one upLevel downLevel
  have settledHere : (s.updLine l InputLine.settle).gates[g]? = some x := here
  have runs : exec (.debounceExpiry l) s = .next ((s.updLine l InputLine.settle).deliverGates l z.present) := by
    have described : (s.updLine l InputLine.settle).described = true := run.2
    have paths : ((s.updLine l InputLine.settle).deliverGates l z.present).hazard.paths = s.hazard.paths :=
      (effect_deliverGates (s.updLine l InputLine.settle) l z.present).frame .paths (by decide)
    rw [exec_debounceExpiry run.1 line ended, State.deliver, if_pos described,
      deliverPaths_unnamed (by rw [paths]; exact untripped)]
  have inputs : ((s.updLine l InputLine.settle).deliverGates l z.present).scan.lines =
      s.scan.lines.set l { present := z.present, level := z.present, stability := none } :=
    ((effect_deliverGates (s.updLine l InputLine.settle) l z.present).frame .inputs (by decide)).trans
      (modify_of_getElem? line InputLine.settle)
  have frame : Frame (.inputs :: roadParts) s ((s.updLine l InputLine.settle).deliverGates l z.present) :=
    Moves.frame_trans (Moves.frame_mono (by decide) (effect_updLine s l _).frame)
      (Moves.frame_mono (by decide) (effect_deliverGates _ l z.present).frame)
  obtain ⟨u, ⟨x', at_u, before⟩, lines, ⟨others, apart, after⟩, alone⟩ :=
    deliverGates_at (l := l) (b := z.present) settledHere
  have asserted (k : Nat) : u.asserted k = if k = l then z.present else s.asserted k := by
    rw [← asserted_settled line k, State.asserted, lines, State.asserted]
  have position : u.positionOf x'.cfg = positionOf up down := by
    rw [State.positionOf, before.cfg, asserted, asserted, ← upLevel, ← downLevel]
  obtain ⟨own, o1, o2, o3⟩ | ⟨own, o1, o2, o3⟩ | ⟨own, o1, o2, o3⟩ | ⟨own, o1, o2, o3⟩ := one_role one
  · obtain ⟨w, there, outcome⟩ := limitChange_outcome at_u .up z.present
    rw [← deliverGate_up z.present at_u (before.cfg ▸ own) (before.cfg ▸ o1) (before.cfg ▸ o2) (before.cfg ▸ o3)] at there
    obtain ⟨y, last, arm⟩ := after g apart w there
    have outcome := outcome.transport before arm
    rw [position, before.state] at outcome
    obtain ⟨manual, conflict, timers⟩ := conflict_claims outcome
    rw [if_pos own] at upLevel
    refine ⟨_, y, runs, last, inputs, fun _ => ⟨outcome.position, manual, fun state a b => conflict state
      (positionOf_conflict.2 ⟨a, b⟩), fun state working a b => timers state working (positionOf_conflict.2 ⟨a, b⟩)⟩,
      fun _ on off => ?_, fun _ off => ?_, fun at_l => absurd at_l o1, fun at_l => absurd at_l o1, fun at_l => absurd at_l o2,
      fun at_l => absurd at_l o3, fun at_l => absurd at_l o3, fun at_l => absurd at_l o3, frame⟩
    · rw [on] at upLevel outcome
      rw [upLevel, off] at outcome
      exact upTaken_claims outcome
    · rw [off] at upLevel outcome
      rw [upLevel] at outcome
      exact released_claims (.inl ⟨rfl, rfl⟩) (by simp [positionOf_conflict]) outcome
  · obtain ⟨w, there, outcome⟩ := limitChange_outcome at_u .down z.present
    rw [← deliverGate_down z.present at_u (before.cfg ▸ own) (before.cfg ▸ o1) (before.cfg ▸ o2) (before.cfg ▸ o3)] at there
    obtain ⟨y, last, arm⟩ := after g apart w there
    have outcome := outcome.transport before arm
    rw [position, before.state] at outcome
    obtain ⟨manual, conflict, timers⟩ := conflict_claims outcome
    rw [if_pos own] at downLevel
    refine ⟨_, y, runs, last, inputs, fun _ => ⟨outcome.position, manual, fun state a b => conflict state
      (positionOf_conflict.2 ⟨a, b⟩), fun state working a b => timers state working (positionOf_conflict.2 ⟨a, b⟩)⟩,
      fun at_l => absurd at_l o1, fun at_l => absurd at_l o1, fun _ on off => ?_, fun _ off => ?_, fun at_l => absurd at_l o2,
      fun at_l => absurd at_l o3, fun at_l => absurd at_l o3, fun at_l => absurd at_l o3, frame⟩
    · rw [on] at downLevel outcome
      rw [downLevel, off] at outcome
      exact downTaken_claims outcome
    · rw [off] at downLevel outcome
      rw [downLevel] at outcome
      exact released_claims (.inr ⟨rfl, rfl⟩) (by simp [positionOf_conflict]) outcome
  · obtain ⟨w, ⟨v, there, first⟩, halted, waits, still⟩ := obstructionChange_outcome at_u z.present
    rw [← deliverGate_obstruction z.present at_u (before.cfg ▸ own) (before.cfg ▸ o1) (before.cfg ▸ o2) (before.cfg ▸ o3)]
      at there
    obtain ⟨y, last, second⟩ := after g apart v there
    have arm := first.trans second
    refine ⟨_, y, runs, last, inputs, fun at_l => absurd at_l (by simp [o1, o2]), fun at_l => absurd at_l o1,
      fun at_l => absurd at_l o1, fun at_l => absurd at_l o2, fun at_l => absurd at_l o2, fun _ => ⟨fun drive on => ?_,
      fun stopped => ?_, fun off state => ?_⟩, fun at_l => absurd at_l o3, fun at_l => absurd at_l o3,
      fun at_l => absurd at_l o3, frame⟩
    · have arm := before.halt.trans (halted (before.lowerDrive.trans drive) on ▸ arm)
      exact ⟨arm.state, arm.travel, arm.holdOff⟩
    · have arm := (before.holdOff_set _).trans (waits (before.state.trans stopped) ▸ arm)
      exact ⟨arm.state.trans stopped, arm.travel, arm.holdOff⟩
    · have arm := before.trans (still (before.lowerDrive.symm ▸ off) (before.state.symm ▸ state) ▸ arm)
      exact ⟨arm.state, arm.sub, arm.travel, arm.pause, arm.holdOff⟩
  · obtain ⟨y, last, taken, still, released⟩ := deliverGates_key z.present settledHere own o1 o2 o3
    rw [asserted_settled line, if_neg o3] at released
    exact ⟨_, y, runs, last, inputs, fun at_l => absurd at_l (by simp [o1, o2]), fun at_l => absurd at_l o1,
      fun at_l => absurd at_l o1, fun at_l => absurd at_l o2, fun at_l => absurd at_l o2, fun at_l => absurd at_l o3,
      fun _ => taken, fun _ => still, fun _ => released, frame⟩

end Sys2Proof.Proofs
end

