-- ==== Sys2Proof/Proofs/RoundEnd.lean ====
section
/-! The end of a round (R41, R109, R147): the update of the power controller, the mode it finds, the next round fixed, and
the raises held asked again in ascending gate number. -/

namespace Sys2Proof.Proofs

open Sys2Proof.Machine Sys2Proof.Safety Sys2Proof.Laws

/-! ### The power record by its parts -/

/-- A power record whose parts but reserve and mode are as they were. -/
theorem power_same {l : List Part} {s t : State} (h : Frame l s t) (parameters : .parameters ∉ l := by decide)
    (charge : .charge ∉ l := by decide) (account : .account ∉ l := by decide) :
    t.power = { s.power with reserve := t.power.reserve, mode := t.power.mode } := by
  obtain ⟨p1, p2, p3, p4⟩ := h .parameters parameters
  obtain ⟨c1, c2, c3, c4, c5, c6, c7, c8⟩ := h .charge charge
  obtain ⟨a1, a2, a3⟩ := h .account account
  cases ht : t.power
  cases hs : s.power
  simp only [ht, hs] at *
  simp only [*]

theorem power_kept {l : List Part} {s t : State} (h : Frame l s t) (parameters : .parameters ∉ l := by decide)
    (charge : .charge ∉ l := by decide) (account : .account ∉ l := by decide) (reserve : .reserve ∉ l := by decide)
    (mode : .mode ∉ l := by decide) : t.power = s.power := by
  have kept := power_same h parameters charge account
  rwa [show t.power.reserve = s.power.reserve from h .reserve reserve,
    show t.power.mode = s.power.mode from h .mode mode] at kept

/-! ### The mode (R155, R156) -/

theorem evaluateMode_mode (s : State) (silent : Bool) : (s.evaluateMode silent).power.mode = s.power.nextMode := by
  unfold State.evaluateMode
  dsimp only
  split
  · next same => exact same.symm
  · refine ((effect_handMode _ s.power.mode).frame .mode (by decide)).trans ?_
    split <;> rfl

theorem nextMode_figures {p : Power} {h : Int} (headroom : h = (p.account : Int) - p.reserve) :
    (p.mode = .normal →
      p.nextMode = if h < (p.params.capacity * p.params.economyPercent / 100 : Nat) then .economy else .normal) ∧
    (p.mode = .economy →
      p.nextMode = if h < (p.params.capacity * p.params.reservePercent / 100 : Nat) then .reserve
        else if (p.params.capacity * p.params.economyPercent / 100 + p.params.capacity * 5 / 100 : Nat) ≤ h then .normal
        else .economy) ∧
    (p.mode = .reserve →
      p.nextMode = if (p.params.capacity * p.params.reservePercent / 100 + p.params.capacity * 5 / 100 : Nat) ≤ h
        then .economy else .reserve) := by
  subst headroom
  unfold Power.nextMode
  cases p.mode
  · exact ⟨fun _ => rfl, nofun, nofun⟩
  · exact ⟨nofun, fun _ => rfl, nofun⟩
  · exact ⟨nofun, nofun, fun _ => rfl⟩

theorem admits_iff (p : Power) (g : GateConfig) : p.admits g = true ↔
    (p.mode = .normal ∨ p.mode = .economy) ∧ p.reserve + g.raiseCost + g.lowerCost ≤ p.account := by
  have covers : (p.reserve : Int) ≤ (p.account : Int) - g.raiseCost - g.lowerCost ↔
      p.reserve + g.raiseCost + g.lowerCost ≤ p.account := by omega
  simp [Power.admits, covers]

/-! ### Raises asked again (R41) -/

theorem armsKept_retryRaise (s : State) (g : Nat) : ArmsKept [g] s (s.retryRaise g) := by
  unfold State.retryRaise
  split
  · exact .same rfl
  · split
    · exact armsKept_gateEvent (armsKept_applyRaise s g)
    · exact .same rfl

theorem retryRaise_unheld {s : State} {g : Nat} (h : ∀ x, s.gates[g]? = some x → ¬ (x.raiseHeld = true ∧ x.demand = .raise)) :
    s.retryRaise g = s := by
  unfold State.retryRaise
  split
  · rfl
  · next x here => exact if_neg (h x here)

/-- The lowest-numbered gate held is asked on the power record as the update left it. -/
theorem retryRaises_first {s : State} {g : Nat} {y : Gate} (here : s.gates[g]? = some y) (down : y.state = .down)
    (held : y.raiseHeld = true) (raise : y.demand = .raise)
    (first : ∀ j < g, ∀ z, s.gates[j]? = some z → ¬ (z.raiseHeld = true ∧ z.demand = .raise)) :
    ∃ z, s.retryRaises.gates[g]? = some z ∧
      (s.power.admits y.cfg = true → z.state = .raising ∧ z.travel = y.cfg.timeout) ∧
      (s.power.admits y.cfg = false → z.state = .down) := by
  obtain ⟨inside, -⟩ := List.getElem?_eq_some_iff.1 here
  have before : (List.range g).foldl State.retryRaise s = s :=
    foldl_unmoved (fun j hj => retryRaise_unheld (first j (List.mem_range.1 hj)))
  have asked : (s.retryRaise g).gates = (s.applyRaise g).gates := by
    simp only [State.retryRaise, here, if_pos (And.intro held raise), gateEvent_gates here]
  have cut : s.retryRaises = (List.range' (g + 1) (s.gates.length - (g + 1))).foldl State.retryRaise (s.retryRaise g) := by
    rw [State.retryRaises, range_split inside, List.foldl_append, List.foldl_cons, before]
  have after : ArmsKept (List.range' (g + 1) (s.gates.length - (g + 1))) (s.retryRaise g) s.retryRaises := by
    rw [cut]
    exact ArmsKept.each armsKept_retryRaise _ _
  obtain ⟨admitted, refused⟩ := applyRaise_down here down
  cases admits : s.power.admits y.cfg with
  | true =>
    obtain ⟨z, last, arm⟩ := after g (by simp) _ ((congrArg (·[g]?) asked).trans (admitted admits))
    exact ⟨z, last, fun _ => ⟨arm.state, arm.travel⟩, nofun⟩
  | false =>
    obtain ⟨z, last, arm⟩ := after g (by simp) _ ((congrArg (·[g]?) asked).trans (refused admits))
    exact ⟨z, last, nofun, fun _ => arm.state.trans down⟩

/-! ### The end of a round -/

section
variable (s : State)

theorem powerUpdate_power : s.powerUpdate.power =
    { s.power.update s.powerReadings s.now with mode := (s.power.update s.powerReadings s.now).nextMode } := by
  unfold State.powerUpdate
  dsimp only
  split
  · have same := power_same (effect_evaluateMode { s with power := s.power.update s.powerReadings s.now } false).frame
    have reserve := (effect_evaluateMode { s with power := s.power.update s.powerReadings s.now } false).frame .reserve (by decide)
    rw [same, evaluateMode_mode, reserve]
  · have same (n : Notice) := power_same
      (effect_evaluateMode (({ s with power := s.power.update s.powerReadings s.now } : State).tellAll n) false).frame
    have reserve (n : Notice) :=
      (effect_evaluateMode (({ s with power := s.power.update s.powerReadings s.now } : State).tellAll n) false).frame .reserve
        (by decide)
    rw [same, evaluateMode_mode, reserve]
    rfl

theorem fixRound_nextRound : s.powerUpdate.fixRound.scan.nextRound = some (s.scan.roundStart +
    scanInterval (s.power.update s.powerReadings s.now).nextMode) := by
  obtain ⟨-, start, -⟩ := (effect_powerUpdate s).frame .round (by decide)
  rw [State.fixRound, start, powerUpdate_power]

theorem endRound_of : s.endRound = if s.described then s.powerUpdate.fixRound.retryRaises else s.powerUpdate.fixRound := by
  have loader : s.powerUpdate.fixRound.loader = s.loader := (effect_powerUpdate s).frame .loader (by decide)
  simp only [State.endRound, State.described, loader]
  rfl

end

/-- The state at the end of a round: the update's record, the gates as they were or asked again. -/
theorem endRound_outcome (s : State) : ∃ w, s.endRound = (if s.described then w.retryRaises else w) ∧
    Frame ([.round, .parameters, .charge, .account] ++ roadParts) s w ∧ w.gates = s.gates ∧
    w.scan.converting = s.scan.converting ∧
    w.power = { s.power.update s.powerReadings s.now with
      mode := (s.power.update s.powerReadings s.now).nextMode } ∧
    w.scan.nextRound = some (s.scan.roundStart + scanInterval (s.power.update s.powerReadings s.now).nextMode) := by
  have updated := effect_powerUpdate s
  obtain ⟨converting, -, -⟩ := updated.frame .round (by decide)
  refine ⟨s.powerUpdate.fixRound, endRound_of s, ?_, updated.frame .gates (by decide), converting, powerUpdate_power s,
    fixRound_nextRound s⟩
  exact Moves.frame_trans (Moves.frame_mono (by decide) updated.frame) (Moves.frame_mono (by decide) (effect_fixRound _).frame)

/-- R41: the raises asked again leave the round and the power record's update. -/
theorem retried (w : State) (b : Bool) : Effect roadParts roadKinds w (if b then w.retryRaises else w) :=
  effect_ite _ (effect_retryRaises w)

/-- Settles O54. -/
theorem roundEndUpdatesThePower : Obligations.RoundEndUpdatesThePower := by
  intro s raws c x input span offset count u p run hand here source enough last published updated
  have publishEffect := effect_publish s c (x.convert raws span offset count s.now) x.quality
  have own := channel?_publish (x := x.convert raws span offset count s.now) (before := x.quality) here
  have others (d : Nat) (other : d ≠ c) :=
    channel?_publish_apart (s := s) (x := x.convert raws span offset count s.now) (before := x.quality) other
  have next : u.nextConverted (c + 1) = none := by
    rw [published]
    exact nextConverted_none (fun j low high => by rw [converts_publish (by omega)]; exact last j (by omega) high)
  rw [← published] at publishEffect own others
  obtain ⟨v, between⟩ : ∃ v, v = ({ u with scan := { u.scan with converting := none } } : State) := ⟨_, rfl⟩
  have advanced : u.advanceRound c = v.endRound := by
    simp only [State.advanceRound, next, between]
    rfl
  have runs := exec_channelConversionDone run hand here source enough
  rw [← published, advanced] at runs
  have frameOf : Frame ([.channels, .round] ++ contentParts ++ noticeParts) s v := by
    rw [between]
    exact Moves.frame_trans (Moves.frame_mono (by decide) publishEffect.frame)
      (Moves.frame_mono (by decide) (frame_round u _ _ _))
  have power : v.power = s.power := power_kept frameOf
  have readings : v.powerReadings = u.powerReadings := by rw [between]; rfl
  have now : v.now = s.now := (frameOf .clock (by decide)).1
  have start : v.scan.roundStart = s.scan.roundStart := by
    rw [between]
    exact (publishEffect.frame .round (by decide)).2.1
  have described : v.described = s.described := by
    rw [State.described, show v.loader = s.loader from frameOf .loader (by decide), State.described]
  have gatesBefore : v.gates = s.gates := frameOf .gates (by decide)
  obtain ⟨w, ends, frame, gates, converting, powerAfter, nextRound⟩ := endRound_outcome v
  rw [power, readings, now, ← updated] at powerAfter nextRound
  rw [ends, described] at runs
  have asked := retried w s.described
  obtain ⟨idle, -, fixed⟩ := asked.frame .round (by decide)
  have channels : (if s.described then w.retryRaises else w).scan.channels = u.scan.channels :=
    ((asked.frame .channels (by decide)).trans (frame .channels (by decide))).trans (by rw [between])
  have channel (d : Nat) := channel?_of_same channels d
  have reading (d : Nat) : (if s.described then w.retryRaises else w).reading d = u.reading d := by
    rw [State.reading, channel, State.reading]
  have powerLast := power_same asked.frame
  obtain ⟨-, -, -, -, reserve, mode, -, -⟩ := update_keeps s.power u.powerReadings s.now
  rw [← updated] at reserve mode
  refine ⟨_, runs, ?_, ?_, ?_, ?_, ?_, fun h headroom => nextMode_figures headroom, fun bare => ?_,
    fun lit g y at_g down held raise first => ?_, fun d other => ?_, ?_⟩
  · rw [idle, converting, between]
  · rw [channel, own]
  · simp only [reading]
    rfl
  · rw [powerLast, powerAfter, ← reserve, ← mode]
  · rw [fixed, nextRound, start]
    cases p.nextMode <;> rfl
  · rw [bare]
    simp [powerAfter]
  · rw [lit]
    obtain ⟨z, there, admitted, refused⟩ := retryRaises_first (s := w) (by rw [gates, gatesBefore, at_g]) down held raise
      (by rw [gates, gatesBefore]; exact first)
    refine ⟨z, there, fun may => admitted ?_, fun may => refused ?_⟩
    · rw [admits_iff, powerAfter]
      exact may
    · rw [← Bool.not_eq_true, admits_iff, powerAfter]
      exact may
  · rw [channel, others d other]
  · exact Moves.frame_trans (Moves.frame_mono (by decide) frameOf)
      (Moves.frame_trans (Moves.frame_mono (by decide) frame) (Moves.frame_mono (by decide) asked.frame))

end Sys2Proof.Proofs
end

