-- ==== Sys2Proof/Proofs/PeriodStages.lean ====
section
/-! The stages of a hazard period in the figures of the rules (R123 to R133). -/

namespace Sys2Proof.Proofs

open Sys2Proof.Machine Sys2Proof.Safety Sys2Proof.Laws

/-! ### Wind (R125, R127) -/

theorem angularDistance_eq (theta centre : Int) :
    angularDistance theta centre = min |theta - centre| (360 - |theta - centre|) := by
  unfold angularDistance
  rw [Int.natCast_natAbs]
  dsimp only
  split <;> omega

theorem driftRate_le (v : Int) : driftRate v ≤ 50 := by
  unfold driftRate
  split_ifs <;> omega

section
variable (c : PathConfig) (q : Readings) (period : Nat)

theorem inSector_known {v theta : Int} (speed : q.speed = some v) (direction : q.direction = some theta) :
    q.inSector c = some (decide (min |theta - c.centre| (360 - |theta - c.centre|) ≤ (c.halfWidth : Int))) := by
  simp only [Readings.inSector, speed, direction, angularDistance_eq]

theorem inSector_unknown (h : q.speed = none ∨ q.direction = none) : q.inSector c = none := by
  unfold Readings.inSector
  obtain none | none := h
  · simp [none]
  · cases q.speed <;> simp [none]

theorem drift_eq {v d : Int} (speed : q.speed = some v) (depth : q.depth = some d) (sector : q.inSector c = some true) :
    q.drift c period = if d < 20 then 0 else driftRate v * period * c.sensitivity / 360000 := by
  simp only [Readings.drift, sector, speed, depth]

theorem drift_zero (h : q.inSector c ≠ some true ∨ (∀ v, q.speed = some v → v < 70) ∨ (∀ d, q.depth = some d → d < 20)) :
    q.drift c period = 0 := by
  unfold Readings.drift
  split
  · next v d sector speed depth =>
    split
    · rfl
    · next thick =>
      obtain outside | slow | thin := h
      · exact absurd sector outside
      · simp [driftRate, slow v speed]
      · exact absurd (thin d depth) thick
  · rfl

theorem drift_most (hour : period ≤ 3600) (sensitive : c.sensitivity ≤ 400) : q.drift c period ≤ 200 := by
  unfold Readings.drift
  split
  · next v d _ _ _ =>
    split
    · omega
    · have product : driftRate v * period * c.sensitivity ≤ 50 * 3600 * 400 :=
        Nat.mul_le_mul (Nat.mul_le_mul (driftRate_le v) hour) sensitive
      omega
  · omega

/-- R125, R127. -/
theorem windStages (p : Path) (now : Nat) : WindStages p.cfg q period (p.figures q period now) where
  sector v theta speed direction := inSector_known p.cfg q speed direction
  noSector none := inSector_unknown p.cfg q none
  factor v speed sector := by
    have known : q.inSector p.cfg = some true := sector
    simp only [Path.figures, Readings.windFactor, known, speed, speedFactor]
  outside sector := by
    have known : q.inSector p.cfg = some false := sector
    simp only [Path.figures, Readings.windFactor, known]
  noFactor sector := by
    have known : q.inSector p.cfg = none := sector
    simp only [Path.figures, Readings.windFactor, known]
  drift v d speed depth sector fast thick := by
    refine (drift_eq p.cfg q period speed depth sector).trans ?_
    rw [if_neg (by omega), driftRate, if_neg (by omega)]
  noDrift none := drift_zero p.cfg q period none
  most hour sensitive := drift_most p.cfg q period hour sensitive

end

/-! ### Snow, level and substitutes (R124, R130 to R133) -/

section
variable (p : Path) (q : Readings) (period now : Nat)

/-- R124. -/
theorem snowStage : SnowStage p q (p.figures q period now) (p.period q period now) where
  snow d ref depth known := by
    simp only [Path.figures, newSnow, depth, known, maxNewSnow, Nat.min_def]
    split <;> omega
  noSnow h := by
    simp only [Path.figures, newSnow]
    obtain none | none := h
    · simp [none]
    · cases q.depth <;> simp [none]
  ref := by
    simp only [Path.period, refAfter]
    cases q.depth <;> simp

/-- R131: the level's threshold. -/
theorem threshold_of {c : PathConfig} {level threshold : Nat}
    (h : (level = 2 ∧ threshold = c.t1) ∨ (level = 3 ∧ threshold = c.t2) ∨ (level = 4 ∧ threshold = c.t3) ∨
      (level = 5 ∧ threshold = c.t4)) : c.threshold level = threshold := by
  obtain ⟨rfl, rfl⟩ | ⟨rfl, rfl⟩ | ⟨rfl, rfl⟩ | ⟨rfl, rfl⟩ := h <;> rfl

theorem hysteresis_rise {raw loading : Nat} (h : p.level < raw) : p.hysteresis raw loading = (raw, 0) := by
  rw [Path.hysteresis, if_pos h]

theorem hysteresis_drop {raw loading : Nat} (h : raw < p.level) (clear : p.cfg.clearBelow p.level loading = true)
    (dwelt : p.cfg.minDwell ≤ p.dwell) : p.hysteresis raw loading = (p.level - 1, 0) := by
  rw [Path.hysteresis, if_neg (by omega), if_pos ⟨h, clear, dwelt⟩]

theorem hysteresis_hold {raw loading : Nat} (h : raw ≤ p.level)
    (stays : ¬ (raw < p.level ∧ p.cfg.clearBelow p.level loading = true ∧ p.cfg.minDwell ≤ p.dwell)) :
    p.hysteresis raw loading = (p.level, min 255 (p.dwell + 1)) := by
  rw [Path.hysteresis, if_neg (by omega), if_neg stays]

/-- The level and dwell of a period are what hysteresis gives, lifted to the floor. -/
theorem period_level {level dwell : Nat}
    (h : p.hysteresis (p.figures q period now).rawAfter (p.figures q period now).newLoading = (level, dwell)) :
    (p.period q period now).level = max level ((p.floor.map (·.level)).getD 0) ∧ (p.period q period now).dwell = dwell := by
  simp only [Path.period, h]
  exact ⟨rfl, trivial⟩

/-- R130: the wet adjustment applies from 10 tenths of a degree and a loading of 2000 on. -/
theorem isWet_iff (air : Option Int) (loading : Nat) :
    isWet air loading = true ↔ (∃ t, air = some t ∧ 10 ≤ t) ∧ 2000 ≤ loading := by
  cases air <;> simp [isWet]

/-- R130 to R132. -/
theorem levelStages : LevelStages p q (p.figures q period now) (p.period q period now) where
  raw := rfl
  wet ta air warm heavy := if_pos ((isWet_iff _ _).2 ⟨⟨ta, air, warm⟩, heavy⟩)
  dry h := if_neg (fun wet => by
    obtain ⟨⟨ta, air, warm⟩, heavy⟩ := (isWet_iff _ _).1 wet
    obtain none | ⟨cold, known, below⟩ | light := h
    · simp [none] at air
    · obtain rfl := Option.some.inj (known.symm.trans air)
      omega
    · exact absurd heavy (Nat.not_le.2 light))
  rise h := period_level p q period now (hysteresis_rise p h)
  drop threshold level below := by
    have clear : p.cfg.clearBelow p.level (p.figures q period now).newLoading = true ↔
        ((p.figures q period now).newLoading : Int) < 10 * ((threshold : Int) - p.cfg.band) := by
      simp [PathConfig.clearBelow, threshold_of level]
    refine ⟨fun ⟨low, dwelt⟩ => period_level p q period now (hysteresis_drop p below (clear.2 low) dwelt), fun stays =>
      period_level p q period now (hysteresis_hold p (by omega) (fun ⟨_, low, dwelt⟩ => stays ⟨clear.1 low, dwelt⟩))⟩
  hold same := period_level p q period now (hysteresis_hold p (by omega) (by omega))

/-- R133. -/
theorem substituteStage : SubstituteStage q (p.period q period now) where
  depth := by simp [Path.period, Readings.substitutes]
  wind := by simp [Path.period, Readings.substitutes]
  temperature := by simp [Path.period, Readings.substitutes]
  degraded := by simp [Path.period, Readings.substitutes, Substitutes.any, or_assoc]

theorem periodStages : PeriodStages p q period (p.figures q period now) (p.period q period now) where
  working := rfl
  loading := rfl
  snow := snowStage p q period now
  wind := windStages q period p now
  level := levelStages p q period now
  substitutes := substituteStage p q period now
  kept := ⟨rfl, rfl, rfl, rfl⟩

end

end Sys2Proof.Proofs
end

