-- ==== Sys2Proof/Proofs/HazardRows.lean ====
section
/-! The hazard engine over the state (R121, R132, R136 to R143): a path record written and its calls handed over, the paths
carried through a period one by one, and the commands of SLOPE. -/

namespace Sys2Proof.Proofs

open Sys2Proof.Machine Sys2Proof.Safety Sys2Proof.Laws

/-! ### One path written and handed over -/

section
variable {s : State} {n j : Nat} {p : Path} {f : Path → Path}

theorem updPath_set (here : s.hazard.paths[n]? = some p) : (s.updPath n f).hazard.paths = s.hazard.paths.set n (f p) := by
  rw [updPath_paths, modify_of_getElem? here]

theorem set_there {l : List Path} (here : l[n]? = some p) (q : Path) : (l.set n q)[n]? = some q := by
  obtain ⟨inside, -⟩ := List.getElem?_eq_some_iff.1 here
  exact List.getElem?_set_self inside

theorem updPath_at (here : s.hazard.paths[n]? = some p) : (s.updPath n f).hazard.paths[n]? = some (f p) := by
  rw [updPath_set here, set_there here]

theorem handOver_paths (s : State) (n : Nat) : (s.handOver n).hazard.paths = s.hazard.paths :=
  (effect_handOver s n).frame .paths (by decide)

theorem tellPath_paths (s : State) (n : Nat) (old : Path) : (s.tellPath n old).hazard.paths = s.hazard.paths :=
  (effect_tellPath s n old).frame .paths (by decide)

theorem tellInput_paths (s : State) (n : Nat) (old : Path) : (s.tellInput n old).hazard.paths = s.hazard.paths :=
  (effect_tellInput s n old).frame .paths (by decide)

theorem tellPath_claim? (s : State) (n : Nat) (old : Path) (k : Nat) (h : Holder) :
    (s.tellPath n old).claim? k h = s.claim? k h :=
  claim?_of_same ((effect_tellPath s n old).frame .claims (by decide)) k h

theorem tellInput_claim? (s : State) (n : Nat) (old : Path) (k : Nat) (h : Holder) :
    (s.tellInput n old).claim? k h = s.claim? k h :=
  claim?_of_same ((effect_tellInput s n old).frame .claims (by decide)) k h

theorem handOver_claim?_apart (s : State) (other : n ≠ j) (k : Nat) :
    (s.handOver j).claim? k (.hazard n) = s.claim? k (.hazard n) := by
  cases at_j : s.hazard.paths[j]? with
  | none => rw [State.handOver, at_j]
  | some q => exact (handOver_handed at_j).others k _ (fun h => absurd (by simpa using h) other)

theorem handOver_called (here : s.hazard.paths[n]? = some p) : ∀ k ∈ p.cfg.segments,
    Calls ((s.handOver n).claim? k (.hazard n)) p.call := (handOver_handed here).called

end

/-- R134: a latched path calls for CLOSE urgent. -/
theorem Path.call_of_latch {p : Path} (h : p.latch ≠ .clear) : p.call = { level := .close, urgent := true } := by
  rw [Path.call, if_pos (.inl h)]

/-! ### One path left alone -/

/-- Path n and its claims are as they were. -/
structure PathKept (n : Nat) (s t : State) : Prop where
  path : t.hazard.paths[n]? = s.hazard.paths[n]?
  claims : ∀ k, t.claim? k (.hazard n) = s.claim? k (.hazard n)

section
variable {n : Nat} {s t u : State}

theorem PathKept.refl (n : Nat) (s : State) : PathKept n s s := ⟨rfl, fun _ => rfl⟩

theorem PathKept.trans (h : PathKept n s t) (k : PathKept n t u) : PathKept n s u :=
  ⟨k.path.trans h.path, fun j => (k.claims j).trans (h.claims j)⟩

theorem pathKept_of_frame {l : List Part} (h : Frame l s t) (paths : .paths ∉ l := by decide)
    (claims : .claims ∉ l := by decide) : PathKept n s t :=
  ⟨congrArg (fun l : List Path => l[n]?) (h .paths paths), fun k => claim?_of_same (h .claims claims) k _⟩

theorem pathKept_fold {f : State → Nat → State} (l : List Nat) (s : State)
    (h : ∀ j ∈ l, ∀ s, PathKept n s (f s j)) : PathKept n s (l.foldl f s) :=
  List.foldlRecOn (motive := PathKept n s) l f (.refl n s) (fun t kept j hj => kept.trans (h j hj t))

theorem pathKept_updPath {j : Nat} (other : n ≠ j) (f : Path → Path) : PathKept n s (s.updPath j f) :=
  ⟨by simp [updPath_paths, other.symm], fun _ => rfl⟩

theorem pathKept_handOver {j : Nat} (other : n ≠ j) : PathKept n s (s.handOver j) :=
  ⟨by rw [handOver_paths], handOver_claim?_apart s other⟩

theorem pathKept_tellPath (j : Nat) (old : Path) : PathKept n s (s.tellPath j old) :=
  pathKept_of_frame (effect_tellPath s j old).frame

theorem pathKept_tellInput (j : Nat) (old : Path) : PathKept n s (s.tellInput j old) :=
  pathKept_of_frame (effect_tellInput s j old).frame

theorem pathKept_computePath {j : Nat} (other : n ≠ j) : PathKept n s (s.computePath j) := by
  unfold State.computePath
  split
  · exact .refl n s
  · dsimp only
    refine PathKept.trans ?_ ((pathKept_tellPath j _).trans (pathKept_tellInput j _))
    split
    · exact pathKept_updPath other _
    · exact (pathKept_updPath other _).trans (pathKept_handOver other)

theorem pathKept_detection {j : Nat} (other : n ≠ j) (kind : DetectionKind) : PathKept n s (s.detection j kind) := by
  unfold State.detection State.takeDetection
  split
  · exact .refl n s
  · refine PathKept.trans ?_ (pathKept_tellPath j _)
    dsimp only
    split
    · exact pathKept_updPath other _
    · exact (pathKept_updPath other _).trans (pathKept_handOver other)

/-- A fold over the path numbers, each of which moves its own path alone: path n before its own step, and after it. -/
theorem fold_at_path {f : State → Nat → State} (apart : ∀ s j, n ≠ j → PathKept n s (f s j))
    {l : List Part} {K : List NoticeKind} (effect : ∀ s j, Effect l K s (f s j)) {p : Path}
    (here : s.hazard.paths[n]? = some p) :
    ∃ u, Effect l K s u ∧ PathKept n s u ∧ PathKept n (f u n) ((List.range s.hazard.paths.length).foldl f s) := by
  obtain ⟨inside, -⟩ := List.getElem?_eq_some_iff.1 here
  rw [range_split inside, List.foldl_append, List.foldl_cons]
  refine ⟨_, .fold f effect _ s, pathKept_fold _ _ (fun j hj s => apart s j ?_), pathKept_fold _ _ (fun j hj s => apart s j ?_)⟩
  · exact (List.mem_range.1 hj).ne'
  · exact Nat.ne_of_lt (List.mem_range'_1.1 hj).1

end

/-! ### HAZARD_PERIOD_EXPIRY (R121) -/

theorem readings_of_same {s t : State} (same : t.scan.channels = s.scan.channels) (c : PathConfig) :
    t.readings c = s.readings c := by
  simp only [State.readings, State.reading, channel?_of_same same]

theorem now_of_frame {s t : State} {l : List Part} (h : Frame l s t) (clock : .clock ∉ l := by decide) : t.now = s.now :=
  (h .clock clock).1

/-- R121: what one path's own computation leaves of it and its claims. -/
theorem computePath_at {s : State} {n : Nat} {p q : Path} (here : s.hazard.paths[n]? = some p)
    (next : p.period (s.readings p.cfg) s.hazard.period s.now = q) :
    (s.computePath n).hazard.paths[n]? = some q ∧ (q.level ≠ p.level → ∀ k ∈ p.cfg.segments,
      Calls ((s.computePath n).claim? k (.hazard n)) q.call) := by
  have at_n : (s.updPath n (fun _ => q)).hazard.paths[n]? = some q := updPath_at here
  have cfg : q.cfg = p.cfg := by rw [← next]; rfl
  unfold State.computePath
  rw [here]
  dsimp only
  rw [next]
  refine ⟨?_, fun moved k hk => ?_⟩
  · rw [tellInput_paths, tellPath_paths]
    split
    · exact at_n
    · rw [handOver_paths, at_n]
  · rw [tellInput_claim?, tellPath_claim?, if_neg moved]
    exact handOver_called at_n k (cfg ▸ hk)

theorem computePaths_at {s : State} {n : Nat} {p : Path} (here : s.hazard.paths[n]? = some p) :
    s.computePaths.hazard.paths[n]? = some (p.period (s.readings p.cfg) s.hazard.period s.now) ∧
      ((p.period (s.readings p.cfg) s.hazard.period s.now).level ≠ p.level → ∀ k ∈ p.cfg.segments,
        Calls (s.computePaths.claim? k (.hazard n)) (p.period (s.readings p.cfg) s.hazard.period s.now).call) := by
  obtain ⟨u, before, kept, after⟩ := fold_at_path (f := State.computePath)
    (fun s j other => pathKept_computePath other) effect_computePath here
  have readings : u.readings p.cfg = s.readings p.cfg := readings_of_same (before.frame .channels (by decide)) _
  have period : u.hazard.period = s.hazard.period := (before.frame .period (by decide)).1
  obtain ⟨path, called⟩ := computePath_at (kept.path.trans here) (by rw [readings, period, now_of_frame before.frame])
  exact ⟨after.path.trans path, fun moved k hk => by rw [State.computePaths, after.claims]; exact called moved k hk⟩

theorem computePaths_length (s : State) : s.computePaths.hazard.paths.length = s.hazard.paths.length := by
  refine foldl_keeps (fun s t : State => t.hazard.paths.length = s.hazard.paths.length) (fun _ => rfl)
    (fun a b => b.trans a) _ (fun s n => ?_) _ s
  unfold State.computePath
  split
  · rfl
  · dsimp only
    rw [tellInput_paths, tellPath_paths]
    split
    · rw [updPath_paths, List.length_modify]
    · rw [handOver_paths, updPath_paths, List.length_modify]

/-- R120: the next expiry one period on. -/
def periodMoved (s : State) : State :=
  { s with hazard := { s.hazard with nextExpiry := s.hazard.nextExpiry + s.hazard.period } }

/-- Settles O58. -/
theorem hazardPeriodComputesEveryPath : Obligations.HazardPeriodComputesEveryPath := by
  refine ⟨periodStages, fun s held due => ?_⟩
  have runs : exec .hazardPeriodExpiry s = .next s.expirePeriod := by
    show execHazardPeriodExpiry s = _
    simp [execHazardPeriodExpiry, held, due]
  by_cases described : s.described = true
  · have expired : s.expirePeriod = (periodMoved s).computePaths := by
      rw [State.expirePeriod, if_pos described, periodMoved]
    have computed := effect_computePaths (periodMoved s)
    rw [← expired] at computed
    have period := computed.frame .period (by decide)
    refine ⟨_, runs, period.1, period.2, fun bare => absurd described (by simp [bare]), fun _ => ⟨?_, fun n p here => ?_,
      fun n p q k here there level hk => ?_, Moves.frame_mono (by decide) (effect_expirePeriod s).frame⟩⟩
    · rw [expired, computePaths_length, periodMoved]
    · rw [expired]
      exact (computePaths_at (s := periodMoved s) here).1
    · rw [expired] at there ⊢
      obtain ⟨path, called⟩ := computePaths_at (s := periodMoved s) here
      obtain rfl := Option.some.inj (path.symm.trans there)
      exact called level k hk
  · have expired : s.expirePeriod = periodMoved s := by rw [State.expirePeriod, if_neg described, periodMoved]
    refine ⟨_, runs, ?_, ?_, fun _ => ?_, fun described' => absurd described' described⟩
    · rw [expired, periodMoved]
    · rw [expired, periodMoved]
    · rw [expired]
      exact frame_period s s.hazard.period (s.hazard.nextExpiry + s.hazard.period)

/-! ### Floors and seeds (R132, R142, R143) -/

theorem pathLevel_at {s : State} {n : Nat} {p : Path} (here : s.hazard.paths[n]? = some p) : s.pathLevel n = p.level := by
  rw [State.pathLevel, here]
  rfl

theorem setFloor_removes (p : Path) (level now : Nat) : p.setFloor level 0 now = { p with floor := none } := rfl

theorem setFloor_sets (p : Path) (level now : Nat) {duration : Nat} (some : 1 ≤ duration) :
    p.setFloor level duration now = { p with
      floor := .some { level := level, endsAt := now + Nat.min duration 172800 },
      level := Nat.max p.level level, dwell := if p.level < level then 0 else p.dwell } := by
  have most : Config.maxFloorDuration = 172800 := rfl
  rw [Path.setFloor, if_neg (by omega), most]
  split
  · next lifts => rw [show Nat.max p.level level = level from Nat.max_eq_right (Nat.le_of_lt lifts)]
  · next stays => rw [show Nat.max p.level level = p.level from Nat.max_eq_left (Nat.le_of_not_lt stays)]

theorem placeFloor_paths {s : State} {n : Nat} {p : Path} (here : s.hazard.paths[n]? = some p) (level duration : Nat) :
    (s.placeFloor n level duration p).hazard.paths = s.hazard.paths.set n (p.setFloor level duration s.now) := by
  rw [State.placeFloor, tellPath_paths, handOver_paths, updPath_set here]

theorem applySeed_paths {s : State} {n : Nat} {p : Path} (here : s.hazard.paths[n]? = some p) (loading : Nat) :
    (s.applySeed n loading p).hazard.paths = s.hazard.paths.set n (p.seed (s.readings p.cfg) loading) := by
  rw [State.applySeed, tellInput_paths, tellPath_paths, handOver_paths, updPath_set here]

theorem clampLoading_eq (i : Int) : (clampLoading i : Int) = max 0 (min 9999 i) := by
  simp only [clampLoading, maxLoading, Nat.min_def]
  split <;> omega

theorem answer_at {s t : State} {n : Nat} {p q : Path} (here : s.hazard.paths[n]? = some p)
    (set : t.hazard.paths = s.hazard.paths.set n q) : t.hazard.paths[n]? = some q := by
  rw [set, set_there here]

/-- Settles O59. -/
theorem floorsAndSeedsWriteThePath : Obligations.FloorsAndSeedsWriteThePath := by
  refine ⟨fun s r rest n level duration p w number here byte least most field => ?_,
    fun s r rest n p loading w number here field => ?_, fun s n p f run here floor ended => ?_⟩
  · have paths := placeFloor_paths (s := s.takeQueued .slope rest) here level duration
    have answer : owning .setPathFloor .slope r.body (s.takeQueued .slope rest) =
        Answer.ok [byteOf (p.setFloor level duration s.now).level]
          ((s.takeQueued .slope rest).placeFloor n level duration p) := by
      have at_n : (s.takeQueued .slope rest).hazard.paths[read1 r.body 0]? = some p := number ▸ here
      rw [owning, State.setPathFloor]
      dsimp only
      rw [if_neg (by decide), at_n]
      dsimp only
      rw [← number, ← byte, ← field, if_neg (by omega), pathLevel_at (answer_at here paths)]
      rfl
    obtain ⟨runs, finishes⟩ := accepted (exec_waiting w) answer (effect_placeFloor _ n level duration p)
    refine ⟨_, _, runs, paths, fun zero => ?_, fun some => setFloor_sets p level s.now some, finishes⟩
    rw [zero]
    exact setFloor_removes p level _
  · have paths := applySeed_paths (s := s.takeQueued .slope rest) here (clampLoading loading)
    have answer : owning .seedPath .slope r.body (s.takeQueued .slope rest) =
        Answer.ok [byteOf (p.seed (s.readings p.cfg) (clampLoading loading)).level]
          ((s.takeQueued .slope rest).applySeed n (clampLoading loading) p) := by
      have at_n : (s.takeQueued .slope rest).hazard.paths[read1 r.body 0]? = some p := number ▸ here
      rw [owning, State.seedPath]
      dsimp only
      rw [if_neg (by decide), at_n]
      dsimp only
      rw [← number, ← field, pathLevel_at (answer_at here paths)]
      rfl
    obtain ⟨runs, finishes⟩ := accepted (exec_waiting w) answer (effect_applySeed _ n _ p)
    exact ⟨_, _, runs, paths, clampLoading_eq loading, rfl, rfl, rfl, rfl, rfl, rfl, rfl, finishes⟩
  · have runs : exec (.floorEnd n) s = .next ((s.updPath n (fun p => { p with floor := none })).handOver n) := by
      show Host.Outcome.next (s.whenRunning (fun s => s.endFloor n)) = _
      rw [State.whenRunning, if_pos (by simp [run.1, run.2]), State.endFloor, here, Option.bind_some, floor]
      dsimp only
      rw [if_pos ended]
    have effect := effect_endFloor s n
    rw [State.endFloor, here, Option.bind_some, floor] at effect
    dsimp only at effect
    rw [if_pos ended] at effect
    exact ⟨_, runs, by rw [handOver_paths, updPath_set here], effect.frame⟩

/-! ### Detections (R136, R137, R140, R141) -/

theorem detect_eq (p : Path) (kind : DetectionKind) : p.detect kind = { p with
    latch := (match kind with
      | .release => .release
      | .deposit => .deposit
      | .controlled => p.latch),
    loading := if kind = .deposit then p.loading else p.loading * p.cfg.residual / 100 } := by
  cases kind <;> rfl

/-- R136: a detection that moves the latch latches the path. -/
theorem detect_latches {p : Path} {kind : DetectionKind} (h : (p.detect kind).latch ≠ p.latch) :
    (p.detect kind).latch ≠ .clear := by
  cases kind with
  | release => exact nofun
  | deposit => exact nofun
  | controlled => exact absurd rfl h

theorem detection_at {s : State} {n : Nat} {p : Path} (here : s.hazard.paths[n]? = some p) (kind : DetectionKind) :
    (s.detection n kind).hazard.paths = s.hazard.paths.set n (p.detect kind) ∧
      ((p.detect kind).latch ≠ p.latch → ∀ k ∈ p.cfg.segments, ∃ c,
        (s.detection n kind).claim? k (.hazard n) = some c ∧ c.level = .close ∧ c.urgent = true) := by
  have at_n : (s.updPath n (fun _ => p.detect kind)).hazard.paths[n]? = some (p.detect kind) := updPath_at here
  have cfg : (p.detect kind).cfg = p.cfg := by cases kind <;> rfl
  simp only [State.detection, State.takeDetection, here]
  refine ⟨?_, fun moved k hk => ?_⟩
  · rw [tellPath_paths, ← updPath_set (f := fun _ => p.detect kind) here]
    split
    · rfl
    · exact handOver_paths _ n
  · rw [tellPath_claim?, if_neg moved]
    obtain ⟨-, called⟩ := handOver_called at_n k (cfg ▸ hk)
    rw [Path.call_of_latch (detect_latches moved)] at called
    exact called nofun

/-- R137: a taken change of a line delivered to one path. -/
def deliverPath (line : Nat) (asserted : Bool) (s : State) (n : Nat) : State :=
  match s.hazard.paths[n]? with
  | some p => if p.cfg.trip = some line ∧ asserted then s.detection n .release else s
  | none => s

theorem deliverPaths_fold (s : State) (line : Nat) (asserted : Bool) :
    s.deliverPaths line asserted = (List.range s.hazard.paths.length).foldl (deliverPath line asserted) s := rfl

theorem effect_deliverPath (line : Nat) (asserted : Bool) (s : State) (n : Nat) :
    Effect pathParts pathKinds s (deliverPath line asserted s n) := by
  unfold deliverPath
  split
  · split
    · exact effect_detection s n _
    · exact .refl _ _ s
  · exact .refl _ _ s

theorem pathKept_deliverPath {s : State} {n j line : Nat} {asserted : Bool} (other : n ≠ j) :
    PathKept n s (deliverPath line asserted s j) := by
  unfold deliverPath
  split
  · split
    · exact pathKept_detection other _
    · exact .refl n s
  · exact .refl n s

/-- R137: the path whose trip line is taken as asserted detects a release; no other delivery touches it. -/
theorem deliverPaths_at {s : State} {n l : Nat} {p : Path} (here : s.hazard.paths[n]? = some p)
    (trip : p.cfg.trip = some l) :
    (s.deliverPaths l true).hazard.paths[n]? = some (p.detect .release) ∧
      (p.latch ≠ .release → ∀ k ∈ p.cfg.segments, ∃ c,
        (s.deliverPaths l true).claim? k (.hazard n) = some c ∧ c.level = .close ∧ c.urgent = true) := by
  obtain ⟨u, -, kept, after⟩ := fold_at_path (s := s) (f := deliverPath l true)
    (fun s j other => pathKept_deliverPath other) (effect_deliverPath l true) here
  rw [← deliverPaths_fold] at after
  have at_u := kept.path.trans here
  have delivered : deliverPath l true u n = u.detection n .release := by
    rw [deliverPath, at_u]
    exact if_pos ⟨trip, rfl⟩
  rw [delivered] at after
  obtain ⟨paths, claims⟩ := detection_at at_u .release
  have path := after.path
  rw [answer_at at_u paths] at path
  refine ⟨path, fun moved k hk => ?_⟩
  obtain ⟨c, found, call⟩ := claims (fun same => moved same.symm) k hk
  exact ⟨c, (after.claims k).trans found, call⟩

theorem detectionBody_at {s : State} {n : Nat} {p : Path} (here : s.hazard.paths[n]? = some p) :
    s.detectionBody n = [byteOf p.latch.code] ++ bytes2 p.loading := by
  rw [State.detectionBody, here]
  rfl

theorem reportDetectionLatches {s : State} {r : Request} {rest : List Request} {p : Path} {kind : DetectionKind}
    (w : Waits s .slope .reportDetection r rest) (here : s.hazard.paths[read1 r.body 0]? = some p)
    (code : detectionOfCode (read1 r.body 1) = some kind) :
    ∃ t, exec (.reportDetection .slope) s = .next t ∧
      t.hazard.paths = s.hazard.paths.set (read1 r.body 0) (p.detect kind) ∧
      ((p.detect kind).latch ≠ p.latch → ∀ k ∈ p.cfg.segments, ∃ c, t.claim? k (.hazard (read1 r.body 0)) = some c ∧
        c.level = .close ∧ c.urgent = true) ∧
      Finishes s t .slope rest (okTo r ([byteOf (p.detect kind).latch.code] ++ bytes2 (p.detect kind).loading))
        pathParts := by
  have here' : (s.takeQueued .slope rest).hazard.paths[read1 r.body 0]? = some p := here
  obtain ⟨paths, claims⟩ := detection_at here' kind
  have answer : owning .reportDetection .slope r.body (s.takeQueued .slope rest) =
      Answer.ok ([byteOf (p.detect kind).latch.code] ++ bytes2 (p.detect kind).loading)
        ((s.takeQueued .slope rest).detection (read1 r.body 0) kind) := by
    rw [owning, State.reportDetection, if_neg (by decide), here', code]
    dsimp only
    rw [detectionBody_at (answer_at here' paths)]
  obtain ⟨runs, finishes⟩ := accepted (exec_waiting w) answer (effect_detection _ _ kind)
  exact ⟨_, runs, paths, claims, finishes⟩

theorem tripLineLatches {s : State} {l n : Nat} {z : InputLine} {p : Path} (run : Running s)
    (line : s.scan.lines[l]? = some z) (ended : z.stability = some 0) (present : z.present = true)
    (here : s.hazard.paths[n]? = some p) (trip : p.cfg.trip = some l) :
    ∃ t, exec (.debounceExpiry l) s = .next t ∧ t.hazard.paths[n]? = some (p.detect .release) ∧
      (p.latch ≠ .release → ∀ k ∈ p.cfg.segments, ∃ c, t.claim? k (.hazard n) = some c ∧ c.level = .close ∧
        c.urgent = true) ∧ Frame (.inputs :: pathParts) s t := by
  have settled := effect_updLine s l InputLine.settle
  have described : (s.updLine l InputLine.settle).described = true := run.2
  have runs := exec_debounceExpiry run.1 line ended
  rw [State.deliver, if_pos described, present] at runs
  have gates := effect_deliverGates (s.updLine l InputLine.settle) l true
  have kept : PathKept n (s.updLine l InputLine.settle) ((s.updLine l InputLine.settle).deliverGates l true) :=
    pathKept_of_frame gates.frame
  obtain ⟨path, claims⟩ := deliverPaths_at (kept.path.trans here) trip
  refine ⟨_, runs, path, claims, ?_⟩
  have both := gates.seq (l := pathParts) (K := pathKinds) (effect_deliverPaths _ l true)
  exact (settled.seq (l := .inputs :: pathParts) (K := pathKinds) both).frame

theorem mayClear_iff (s : State) (m : Master) (p : Path) : s.mayClear m p = true ↔
    m = .slope ∨ (m = .centre ∧ ∀ k ∈ p.cfg.segments, s.hasRight k m overrideRight = true) := by
  simp [State.mayClear]

theorem clearLatch_paths {s : State} {n : Nat} {p : Path} (here : s.hazard.paths[n]? = some p) :
    (s.clearLatch n p).hazard.paths = s.hazard.paths.set n { p with latch := .clear } := by
  unfold State.clearLatch
  split
  · next clear =>
    obtain ⟨inside, rfl⟩ := List.getElem?_eq_some_iff.1 here
    rw [← clear]
    exact (List.set_getElem_self inside).symm
  · rw [tellPath_paths, handOver_paths, updPath_set here]

theorem effect_clearLatch (s : State) (n : Nat) (p : Path) : Effect pathParts pathKinds s (s.clearLatch n p) := by
  unfold State.clearLatch
  split
  · exact .refl _ _ s
  · exact .seq (.seq (l := pathParts) (K := pathKinds) (effect_updPath s n _) (effect_handOver _ n)) (effect_tellPath _ n p)

/-- Settles O60; its last clause is `callsOk_step`. -/
theorem detectionsLatchUntilCleared : Obligations.DetectionsLatchUntilCleared := by
  refine ⟨fun s r rest n p kind w number here code => ?_, fun s l n z p run line ended present here trip =>
    tripLineLatches run line ended present here trip, fun s m r rest n p w number here may => ?_, callsOk_step⟩
  · subst number
    obtain ⟨t, runs, paths, claims, finishes⟩ := reportDetectionLatches w here code
    exact ⟨t, _, runs, paths, detect_eq p kind, claims, finishes⟩
  · subst number
    have here' : (s.takeQueued m rest).hazard.paths[read1 r.body 0]? = some p := here
    have may' : (s.takeQueued m rest).mayClear m p = true := (mayClear_iff _ m p).2 may
    refine ⟨fun l trip on => ?_, fun off => ?_⟩
    · have asserted : (s.takeQueued m rest).asserted l = true := on
      refine refused (by decide) (exec_waiting w) ?_
      simp [owning, State.clearPath, here', may', trip, asserted]
    · have released : (p.cfg.trip.any fun l => (s.takeQueued m rest).asserted l) = false := by
        cases trip : p.cfg.trip with
        | none => rfl
        | some l => exact off l trip
      have answer : owning .clearPath m r.body (s.takeQueued m rest) =
          Answer.ok [] ((s.takeQueued m rest).clearLatch (read1 r.body 0) p) := by
        simp [owning, State.clearPath, here', may', released]
      obtain ⟨runs, finishes⟩ := accepted (exec_waiting w) answer (effect_clearLatch _ _ p)
      exact ⟨_, runs, clearLatch_paths here', finishes⟩

end Sys2Proof.Proofs
end

