-- ==== Sys2Proof/Proofs/SegmentMoves.lean ====
section
/-! What the tests of R16 to R18 make of one segment's record, and the follow-up of a segment: its lamps, the demand its
standing calls for applied to its gates, and the test after it (R8 steps 3 and 4, R36). -/

namespace Sys2Proof.Proofs

open Sys2Proof.Machine Sys2Proof.Safety Sys2Proof.Laws

/-- R16 to R18: what tests make of a record: a CLOSED segment's secured mark set anew, a lowering that is done, or a
reopening that is complete. -/
inductive Tested (now : Nat) (x : Segment) : Segment → Prop
  | still (b : Bool) (same : x.state ≠ .closed → b = x.secured) : Tested now x { x with secured := b }
  | closed (b : Bool) (state : x.state = .closing) (phase : x.phase = some .lowering) : Tested now x { x with
      state := .closed, phase := none, since := now, remaining := 0, confirmDue := none, secured := b }
  | opened (state : x.state = .reopening) (swept : x.swept = true) : Tested now x { x with
      state := openState x.level, since := now, swept := false, demand := .noDemand }

namespace Tested

variable {now : Nat} {x y z : Segment}

theorem refl (now : Nat) (x : Segment) : Tested now x x := .still x.secured (fun _ => rfl)

/-- A segment whose gates no test decides stays as it is. -/
theorem rests (h : Tested now x y) (shut : x.state ≠ .closed)
    (lowering : ¬ (x.state = .closing ∧ x.phase = some .lowering)) (rising : ¬ (x.state = .reopening ∧ x.swept = true)) :
    y = x := by
  cases h with
  | still b same => rw [same shut]
  | closed b state phase => exact absurd ⟨state, phase⟩ lowering
  | opened state swept => exact absurd ⟨state, swept⟩ rising

theorem trans (h : Tested now x y) (k : Tested now y z) : Tested now x z := by
  have opened := openState_cases x.level
  cases h with
  | still b same =>
    by_cases shut : x.state = .closed
    · cases k with
      | still c _ => exact .still c (fun none => absurd shut none)
      | closed c state _ => exact absurd (shut.symm.trans state) (by decide)
      | opened state _ => exact absurd (shut.symm.trans state) (by decide)
    · rwa [same shut] at k
  | closed b state phase =>
    cases k with
    | still c _ => exact .closed c state phase
    | closed c state _ => exact absurd state (show SegState.closed ≠ .closing by decide)
    | opened state _ => exact absurd state (show SegState.closed ≠ .reopening by decide)
  | opened state swept =>
    obtain rfl : z = _ := k.rests
      (show openState x.level ≠ .closed by obtain e | e := opened <;> simp [e])
      (fun both => absurd (show openState x.level = .closing from both.1) (by obtain e | e := opened <;> simp [e]))
      (fun both => absurd (show openState x.level = .reopening from both.1) (by obtain e | e := opened <;> simp [e]))
    exact .opened state swept

theorem kept (h : Tested now x y) : y.cfg = x.cfg ∧ y.level = x.level ∧ y.urgent = x.urgent ∧ y.deciding = x.deciding ∧
    y.unwarned = x.unwarned := by
  cases h <;> exact ⟨rfl, rfl, rfl, rfl, rfl⟩

theorem since (h : Tested now x y) : y.since = if y.state = x.state then x.since else now := by
  cases h with
  | still b _ => exact (if_pos rfl).symm
  | closed b state _ => rw [state]; rfl
  | opened state _ =>
    rw [state]
    exact (if_neg (by obtain e | e := openState_cases x.level <;> simp [e])).symm

/-- A segment in phase LOWERING lowers on or is CLOSED. -/
theorem lowering (h : Tested now x y) (state : x.state = .closing) (phase : x.phase = some .lowering) :
    (y.state = .closing ∧ y.phase = some .lowering ∧ y.remaining = x.remaining ∨ y.state = .closed ∧ y.remaining = 0) ∧
      y.demand = x.demand ∧ y.swept = x.swept := by
  cases h with
  | still b _ => exact ⟨.inl ⟨state, phase, rfl⟩, rfl, rfl⟩
  | closed b _ _ => exact ⟨.inr ⟨rfl, rfl⟩, rfl, rfl⟩
  | opened other _ => exact absurd (state.symm.trans other) (by decide)

end Tested

/-! ### One segment's record under tests -/

/-- Nothing but tests has moved the record of segment k. -/
structure TestsOnly (k : Nat) (s t : State) : Prop where
  now : t.now = s.now
  record : ∀ x, s.segs.records[k]? = some x → ∃ y, t.segs.records[k]? = some y ∧ Tested s.now x y

namespace TestsOnly

variable {k : Nat} {s t u : State}

theorem refl (k : Nat) (s : State) : TestsOnly k s s := ⟨rfl, fun x here => ⟨x, here, .refl _ x⟩⟩

theorem trans (h : TestsOnly k s t) (j : TestsOnly k t u) : TestsOnly k s u :=
  ⟨j.now.trans h.now, fun x here => by
    obtain ⟨y, at_t, first⟩ := h.record x here
    obtain ⟨z, at_u, second⟩ := j.record y at_t
    exact ⟨z, at_u, first.trans (h.now ▸ second)⟩⟩

theorem of_frame {l : List Part} (h : Frame l s t) (records : .records ∉ l := by decide) (clock : .clock ∉ l := by decide) :
    TestsOnly k s t := by
  have same : t.segs.records = s.segs.records := h .records records
  exact ⟨(h .clock clock).1, fun x here => ⟨x, by rw [same, here], .refl _ x⟩⟩

end TestsOnly

/-- R16 to R18: a test of segment k leaves the records, or writes that of k. -/
theorem testGates_records (s : State) (k : Nat) : (s.testGates k).segs.records = s.segs.records ∨
    ∃ x y, s.segs.records[k]? = some x ∧ Tested s.now x y ∧ (s.testGates k).segs.records = s.segs.records.set k y := by
  have formed (t : State) : (t.formSegmentSlot k).segs.records = t.segs.records :=
    (effect_formSegmentSlot t k).frame .records (by decide)
  unfold State.testGates
  split
  · exact .inl rfl
  · next x here =>
    have set (f : Segment → Segment) : (s.updSegment k f).segs.records = s.segs.records.set k (f x) :=
      modify_of_getElem? here f
    split
    · next closing =>
      split
      · next done => exact .inr ⟨x, _, here, .closed _ closing done.1, by rw [formed, set]⟩
      · exact .inl rfl
    · next closed => exact .inr ⟨x, _, here, .still _ (fun shut => absurd closed shut), set _⟩
    · next reopening =>
      split
      · next done =>
        refine .inr ⟨x, _, here, .opened reopening done.1, ?_⟩
        have recorded (t : State) (l : List Nat) (d : Demand) : (t.recordDemand l d).segs.records = t.segs.records :=
          (effect_recordDemand t l d).frame .records (by decide)
        rw [formed, recorded, handLamps_records, set]
      · exact .inl rfl
    · exact .inl rfl

theorem effect_testGates_clock (s : State) (k : Nat) : (s.testGates k).now = s.now :=
  now_of_frame (effect_testGates s k).frame

theorem testGates_apart {s : State} {j k : Nat} (other : j ≠ k) :
    (s.testGates j).segs.records[k]? = s.segs.records[k]? := by
  obtain same | ⟨x, y, -, -, set⟩ := testGates_records s j
  · rw [same]
  · rw [set, List.getElem?_set_ne other]

theorem testsOnly_testGates (k : Nat) (s : State) (j : Nat) : TestsOnly k s (s.testGates j) := by
  refine ⟨effect_testGates_clock s j, fun x here => ?_⟩
  obtain rfl | other := eq_or_ne j k
  · obtain same | ⟨x', y, here', tested, set⟩ := testGates_records s j
    · exact ⟨x, by rw [same, here], .refl _ x⟩
    · obtain rfl := Option.some.inj (here.symm.trans here')
      obtain ⟨inside, -⟩ := List.getElem?_eq_some_iff.1 here
      exact ⟨y, by rw [set, List.getElem?_set_self inside], tested⟩
  · exact ⟨x, by rw [testGates_apart other, here], .refl _ x⟩

theorem gateReport_records {s : State} {g : Nat} {z : Gate} (here : s.gates[g]? = some z) :
    (s.gateReport g).segs.records = (s.testGates z.cfg.segment).segs.records := by
  have reserve : (s.testGates z.cfg.segment).updateReserve.segs.records = (s.testGates z.cfg.segment).segs.records :=
    (effect_updateReserve _).frame .records (by decide)
  simp only [State.gateReport, here]
  exact reserve

theorem testsOnly_gateReport (k : Nat) (s : State) (g : Nat) : TestsOnly k s (s.gateReport g) := by
  cases here : s.gates[g]? with
  | none =>
    rw [State.gateReport, here]
    exact .refl k s
  | some z =>
    refine ⟨now_of_frame (effect_gateReport s g).frame, fun x at_k => ?_⟩
    rw [gateReport_records here]
    exact (testsOnly_testGates k s _).record x at_k

section
variable (k : Nat) (s : State) (g : Nat)

theorem testsOnly_changeGate (f : Gate → Gate) : TestsOnly k s (s.changeGate g f) :=
  (TestsOnly.of_frame (effect_updGate s g f).frame).trans (testsOnly_gateReport k _ g)

theorem testsOnly_applyLower : TestsOnly k s (s.applyLower g) := by
  unfold State.applyLower
  split
  · exact .refl k s
  · split
    · split
      · exact testsOnly_changeGate k s g _
      · exact testsOnly_changeGate k s g _
    · exact testsOnly_changeGate k s g _
    all_goals exact .refl k s

theorem testsOnly_applyRaise : TestsOnly k s (s.applyRaise g) := by
  unfold State.applyRaise
  split
  · exact .refl k s
  · split
    · split
      · exact testsOnly_changeGate k s g _
      · split
        · exact .refl k s
        · exact (TestsOnly.of_frame (effect_updGate s g _).frame).trans
            (.of_frame (effect_tellAll _ _ .gateHeld).frame)
    all_goals exact .refl k s

theorem testsOnly_applyRecorded : TestsOnly k s (s.applyRecorded g) := by
  unfold State.applyRecorded
  split
  · exact .refl k s
  · split
    · exact testsOnly_applyLower k s g
    · exact testsOnly_applyRaise k s g
    · exact .refl k s
    · exact .refl k s

theorem testsOnly_applyAll (list : List Nat) : TestsOnly k s (list.foldl State.applyRecorded s) :=
  List.foldlRecOn (motive := TestsOnly k s) list _ (.refl k s)
    (fun t h g _ => h.trans (testsOnly_applyRecorded k t g))

theorem testsOnly_handDemand (list : List Nat) (d : Demand) : TestsOnly k s (s.handDemand k list d) :=
  ((TestsOnly.of_frame (effect_recordDemand s list d).frame).trans (testsOnly_applyAll k _ list)).trans
    (testsOnly_testGates k _ k)

end

/-- A gate described after a move was described before it. -/
theorem Moves.gate_before {s t : State} (h : Moves s t) {g : Nat} {x : Gate} (there : t.gates[g]? = some x) :
    ∃ y, s.gates[g]? = some y := by
  have same : (t.gates.map (·.cfg))[g]? = (s.gates.map (·.cfg))[g]? := by rw [h.gates]
  rw [List.getElem?_map, List.getElem?_map, there] at same
  obtain ⟨y, here, -⟩ := Option.map_eq_some_iff.1 same.symm
  exact ⟨y, here⟩

/-! ### Demand LOWER handed to a list (R16, R37) -/

theorem loweringDone_iff (s : State) (list : List Nat) : s.loweringDone list = true ↔
    ∀ g ∈ list, ∀ z, s.gates[g]? = some z → z.state ≠ .lowering ∧ z.state ≠ .stopped := by
  simp only [State.loweringDone, State.gatesOf, List.all_eq_true, List.mem_filterMap, Gate.lowers]
  constructor
  · exact fun h g mem z here => by simpa using h z ⟨g, mem, here⟩
  · rintro h z ⟨g, mem, here⟩
    simpa using h g mem z here

/-- R16: the test of a segment in phase LOWERING. -/
theorem testGates_lowering {s : State} {k : Nat} {x : Segment} (here : s.segs.records[k]? = some x)
    (state : x.state = .closing) (phase : x.phase = some .lowering) :
    ∃ y, (s.testGates k).segs.records[k]? = some y ∧ (y.state = .closed ↔ s.loweringDone x.cfg.gates = true) ∧
      (s.testGates k).gates = s.gates ∧ (s.loweringDone x.cfg.gates = false → y = x) := by
  have formed (t : State) : (t.formSegmentSlot k).segs.records = t.segs.records ∧ (t.formSegmentSlot k).gates = t.gates :=
    ⟨(effect_formSegmentSlot t k).frame .records (by decide), (effect_formSegmentSlot t k).frame .gates (by decide)⟩
  simp only [State.testGates, here, state, phase, true_and]
  split
  · next done =>
    rw [(formed _).1, (formed _).2]
    have set := modify_of_getElem? here (fun y : Segment => { y with
      state := .closed, phase := none, since := s.now, remaining := 0, confirmDue := none,
      secured := s.allDown x.cfg.gates })
    rw [updSegment_records, set, List.getElem?_set_self (List.getElem?_eq_some_iff.1 here).1]
    exact ⟨_, rfl, by simp [done], rfl, fun no => absurd done (by simp [no])⟩
  · next no => exact ⟨x, here, by simp [state, no], rfl, fun _ => rfl⟩

/-! ### A demand applied to a list (R36) -/

/-- While demand d is applied to the list of segment k: its record stands, and no gate of the list holds another demand. -/
structure Applying (k : Nat) (x : Segment) (d : Demand) (s : State) : Prop where
  record : s.segs.records[k]? = some x
  demand : ∀ g ∈ x.cfg.gates, ∀ z, s.gates[g]? = some z → z.demand = d ∨ z.demand = .noDemand

/-- Gate g with record w keeps the test of segment k, with record x, from moving it. -/
def Blocks (k : Nat) (x : Segment) (g : Nat) (w : Gate) : Prop :=
  ∀ u : State, u.segs.records[k]? = some x → u.gates[g]? = some w → (u.testGates k).segs.records[k]? = some x

namespace Applying

variable {k : Nat} {x : Segment} {d : Demand} {s : State}

theorem recorded (here : s.segs.records[k]? = some x) (d : Demand) : Applying k x d (s.recordDemand x.cfg.gates d) := by
  refine ⟨((effect_recordDemand s _ _).frame .records (by decide)).symm ▸ here, fun g mem z there => .inl ?_⟩
  rw [recordDemand_gate] at there
  obtain ⟨w, -, rfl⟩ := Option.map_eq_some_iff.1 there
  rw [if_pos mem]
  rfl

/-- A gate that is changed so that it blocks the test of its segment. -/
theorem changeGate (h : Applying k x d s) {g : Nat} {z : Gate} {f : Gate → Gate} (mem : g ∈ x.cfg.gates)
    (here : s.gates[g]? = some z) (blocks : Blocks k x g (f z)) (demand : (f z).demand = z.demand)
    (cfg : ∀ z, (f z).cfg = z.cfg := by exact fun _ => rfl) : Applying k x d (s.changeGate g f) := by
  have there : (s.updGate g f).gates[g]? = some (f z) := updGate_gate here
  have record : (s.updGate g f).segs.records[k]? = some x := h.record
  refine ⟨?_, fun j hj w at_j => ?_⟩
  · rw [State.changeGate, gateReport_records there]
    obtain same | other := eq_or_ne (f z).cfg.segment k
    · rw [same]
      exact blocks _ record there
    · rw [testGates_apart other, record]
  · obtain rfl | other := eq_or_ne j g
    · obtain ⟨w', at_j', arm⟩ := changeGate_arm (f := f) here
      obtain rfl := Option.some.inj (at_j.symm.trans at_j')
      obtain same | none := arm.demand
      · rw [same, demand]
        exact h.demand j hj z here
      · exact .inr none
    · have outside : j ∉ [g] := by simpa using other
      obtain ⟨v, before⟩ := Moves.gate_before (moves_changeGate s g f cfg) at_j
      obtain ⟨w', at_j', arm⟩ := armsKept_changeGate (f := f) j outside v before
      obtain rfl := Option.some.inj (at_j.symm.trans at_j')
      obtain same | none := arm.demand
      · rw [same]
        exact h.demand j hj v before
      · exact .inr none

/-- The recorded demand applied to one gate of the list, which holds it or none. -/
theorem applyRecorded (h : Applying k x d s) {g : Nat} (mem : g ∈ x.cfg.gates)
    (held : ∀ z, s.gates[g]? = some z → z.demand = d → Applying k x d (s.applyRecorded g)) :
    Applying k x d (s.applyRecorded g) := by
  cases here : s.gates[g]? with
  | none =>
    rw [State.applyRecorded, here]
    exact h
  | some z =>
    obtain same | none := h.demand g mem z here
    · exact held z here same
    · rw [applyRecorded_still here (by simp [none]) (by simp [none])]
      exact h

end Applying

section
variable {k : Nat} {x : Segment} {s : State} (state : x.state = .closing) (phase : x.phase = some .lowering)
include state phase

/-- A gate of the list that lowers or waits to lower keeps its segment in phase LOWERING. -/
theorem blocks_lowering {g : Nat} {w : Gate} (mem : g ∈ x.cfg.gates) (lowers : w.lowers = true) : Blocks k x g w :=
  fun u record there => by
    have notDone : u.loweringDone x.cfg.gates = false := by
      rw [← Bool.not_eq_true, loweringDone_iff]
      intro done
      obtain ⟨low, stop⟩ := done g mem w there
      simp [Gate.lowers, low, stop] at lowers
    obtain ⟨y, at_k, -, -, kept⟩ := testGates_lowering record state phase
    rw [at_k, kept notDone]

theorem applying_lower {g : Nat} (h : Applying k x .lower s) (mem : g ∈ x.cfg.gates) :
    Applying k x .lower (s.applyRecorded g) := h.applyRecorded mem fun z here demand => by
  rw [applyRecorded_lower here demand]
  by_cases up : z.state = .up
  · simp only [State.applyLower, here, up]
    split
    · exact h.changeGate mem here (blocks_lowering state phase mem rfl) rfl
    · exact h.changeGate mem here (blocks_lowering state phase mem rfl) rfl
  · by_cases raising : z.state = .raising
    · simp only [State.applyLower, here, raising]
      exact h.changeGate mem here (blocks_lowering state phase mem rfl) rfl
    · rw [applyLower_still here up raising]
      exact h

/-- R16, R36: after demand LOWER the segment is CLOSED exactly when no gate of its list is left to lower. -/
theorem handDemand_lower (here : s.segs.records[k]? = some x) :
    ∃ y, (s.handDemand k x.cfg.gates .lower).segs.records[k]? = some y ∧
      (y.state = .closed ↔ (s.handDemand k x.cfg.gates .lower).loweringDone x.cfg.gates = true) := by
  have applied := List.foldlRecOn (motive := Applying k x .lower) x.cfg.gates State.applyRecorded (.recorded here .lower)
    (fun _ h _ mem => applying_lower state phase h mem)
  obtain ⟨y, at_k, closed, gates, -⟩ := testGates_lowering applied.record state phase
  refine ⟨y, at_k, closed.trans ?_⟩
  rw [State.handDemand, State.loweringDone, State.loweringDone, State.gatesOf, State.gatesOf, gates]

end

/-! ### The follow-up (R8 steps 3 and 4) -/

/-- What the follow-up of a segment makes of its record z: its demand is the one its standing calls for, and a demand that
was handed over is tested. -/
structure FollowedUp (now : Nat) (t : State) (z y : Segment) : Prop where
  tested : Tested now { z with demand := z.wantedDemand } y
  still : z.demand = z.wantedDemand → y = z
  lowered : z.state = .closing → z.phase = some .lowering → z.demand ≠ .lower →
    (y.state = .closed ↔ ∀ g ∈ z.cfg.gates, ∀ w, t.gates[g]? = some w → w.state ≠ .lowering ∧ w.state ≠ .stopped)

theorem followUp_record {s : State} {k : Nat} {z : Segment} (here : s.segs.records[k]? = some z) :
    ∃ y, (s.followUp k).segs.records[k]? = some y ∧ FollowedUp s.now (s.followUp k) z y := by
  have formed (t : State) : (t.formSegmentSlot k).segs.records = t.segs.records ∧ (t.formSegmentSlot k).gates = t.gates :=
    ⟨(effect_formSegmentSlot t k).frame .records (by decide), (effect_formSegmentSlot t k).frame .gates (by decide)⟩
  have lamps : (s.handLamps z.cfg.gates z.wantedLamps).segs.records[k]? = some z := by rw [handLamps_records, here]
  have clock : (s.handLamps z.cfg.gates z.wantedLamps).now = s.now := now_of_frame (effect_handLamps s _ _).frame
  simp only [State.followUp, here]
  rw [(formed _).1]
  split
  · next same =>
    have equal : z = { z with demand := z.wantedDemand } := by rw [← same]
    exact ⟨z, lamps, equal ▸ .refl _ z, fun _ => rfl, fun state phase other =>
      absurd (same.trans (by simp [Segment.wantedDemand, state, phase])) other⟩
  · next moved =>
    have set : ((s.handLamps z.cfg.gates z.wantedLamps).updSegment k
        (fun y => { y with demand := z.wantedDemand })).segs.records[k]? =
          some { z with demand := z.wantedDemand } := by
      rw [updSegment_records, List.getElem?_modify, lamps]
      simp
    obtain ⟨y, at_k, tested⟩ := (testsOnly_handDemand k _ z.cfg.gates z.wantedDemand).record _ set
    refine ⟨y, at_k, clock ▸ tested, fun same => absurd same moved, fun state phase other => ?_⟩
    have wanted : z.wantedDemand = .lower := by simp [Segment.wantedDemand, state, phase]
    obtain ⟨y', at_k', closed⟩ := handDemand_lower (x := { z with demand := z.wantedDemand }) state phase set
    rw [wanted] at at_k at_k' closed ⊢
    obtain rfl := Option.some.inj (at_k.symm.trans at_k')
    rw [closed, loweringDone_iff, (formed _).2]

theorem withSegmentNotice_records (s : State) (k : Nat) (f : State → State) :
    (s.withSegmentNotice k f).segs.records = (f s).segs.records := by
  unfold State.withSegmentNotice
  dsimp only
  split
  · split <;> rfl
  · rfl

namespace FollowedUp

variable {now : Nat} {t : State} {z y : Segment} (h : FollowedUp now t z y)
include h

theorem kept : y.cfg = z.cfg ∧ y.level = z.level ∧ y.urgent = z.urgent ∧ y.deciding = z.deciding ∧ y.unwarned = z.unwarned :=
  h.tested.kept

/-- A segment with no gate to wait for. -/
theorem rests (shut : z.state ≠ .closed) (lowering : ¬ (z.state = .closing ∧ z.phase = some .lowering))
    (rising : ¬ (z.state = .reopening ∧ z.swept = true)) : y = { z with demand := z.wantedDemand } :=
  h.tested.rests shut lowering rising

/-- A segment that has entered phase LOWERING. -/
theorem enters {x : Segment} (state : z.state = .closing) (phase : z.phase = some .lowering) (remaining : z.remaining = 0)
    (cfg : z.cfg = x.cfg) (demand : z.demand = x.demand) : EntersLowering t x y := by
  obtain ⟨stands, sameDemand, -⟩ := h.tested.lowering state phase
  refine ⟨sameDemand.trans (by simp [Segment.wantedDemand, state, phase]), ?_, ?_, fun other => ?_⟩
  · obtain ⟨-, -, left⟩ | ⟨-, left⟩ := stands
    · exact left.trans remaining
    · exact left
  · exact stands.imp (fun ⟨a, b, _⟩ => ⟨a, b⟩) And.left
  · rw [← cfg]
    exact h.lowered state phase (demand ▸ other)

theorem swept (state : z.state = .closing) (phase : z.phase = some .lowering) : y.swept = z.swept :=
  (h.tested.lowering state phase).2.2

end FollowedUp

end Sys2Proof.Proofs
end

