-- ==== Sys2Proof/Proofs/Recomputation.lean ====
section
/-! The recomputation of a segment (R8): the entry test of R12 in its own words, the state rule by the state it starts from
(R11 to R18), and what the follow-up then makes of the record. -/

namespace Sys2Proof.Proofs

open Sys2Proof.Machine Sys2Proof.Safety Sys2Proof.Laws

/-! ### Warning content (R12) -/

theorem takeWhile_before {l : List Nat} {k o : Nat} :
    ((l.takeWhile (fun j => j != k)).contains o && l.contains k) = true ↔
      ∃ before after, l = before ++ k :: after ∧ k ∉ before ∧ o ∈ before := by
  simp only [Bool.and_eq_true, List.contains_iff_mem]
  constructor
  · rintro ⟨early, mem⟩
    obtain ⟨before, after, rfl, first⟩ := List.eq_append_cons_of_mem mem
    refine ⟨before, after, rfl, first, ?_⟩
    rwa [List.takeWhile_append_of_pos (fun a ha => by simpa using fun same : a = k => first (same ▸ ha)),
      List.takeWhile_cons_of_neg (by simp), List.append_nil] at early
  · rintro ⟨before, after, rfl, first, mem⟩
    refine ⟨?_, by simp⟩
    rw [List.takeWhile_append_of_pos (fun a ha => by simpa using fun same : a = k => first (same ▸ ha))]
    exact List.mem_append_left _ mem

/-- R12: the test on one sign, made with segment k counted as CLOSING. -/
theorem confirms_closing {s : State} {k : Nat} {x : Segment} (here : s.segs.records[k]? = some x) (y : Sign) :
    (s.updSegment k (fun x => { x with state := .closing })).confirms k y = true ↔ Warns s k y := by
  have owner (o : Nat) : (s.updSegment k (fun x => { x with state := .closing })).ownerWarns k o y.cfg.lookahead = true ↔
      o = k ∨ ∃ before after z, y.cfg.lookahead = before ++ k :: after ∧ k ∉ before ∧ o ∈ before ∧
        s.segs.records[o]? = some z ∧ (z.state = .closing ∨ z.state = .closed ∨ z.state = .reopening) := by
    rw [State.ownerWarns, updSegment_records, List.getElem?_modify]
    obtain rfl | other := eq_or_ne o k
    · simp [here]
    · simp only [other.symm, if_false]
      cases at_o : s.segs.records[o]? with
      | none => simp [other]
      | some z =>
        simp only [Option.map_eq_map, Option.map_some, other, if_false, false_or]
        rw [Bool.and_eq_true, takeWhile_before]
        simp only [Bool.or_eq_true, beq_iff_eq, or_assoc, Option.some.injEq]
        constructor
        · rintro ⟨⟨before, after, split, first, mem⟩, state⟩
          exact ⟨before, after, z, split, first, mem, rfl, state⟩
        · rintro ⟨before, after, z', split, first, mem, rfl, state⟩
          exact ⟨⟨before, after, split, first, mem⟩, state⟩
  unfold State.confirms Warns
  cases ack : y.ack with
  | none => simp
  | some a => simp [owner, and_assoc]

theorem entryConfirmed_iff {s : State} {k : Nat} {x : Segment} (here : s.segs.records[k]? = some x) :
    (s.updSegment k (fun x => { x with state := .closing })).entryConfirmed k x.cfg.approach = true ↔
      WarnedAtEntry s k x := by
  simp only [State.entryConfirmed, WarnedAtEntry, List.any_eq_true]
  refine exists_congr fun n => and_congr_right fun _ => ?_
  have signs : (s.updSegment k (fun x => { x with state := .closing })).line.signs = s.line.signs := rfl
  rw [signs]
  cases s.line.signs[n]? with
  | none => simp
  | some y => simp [← confirms_closing here]

/-! ### The state rule (R11 to R18) -/

section
variable {x : Segment} {now : Nat} {b : Bool}

theorem step_open (h : Open x) : x.step now b = if x.level = .close then
    (if x.urgent then { x.toClosingLowering now with unwarned := false } else x.toClosing now b) else x.toOpen now := by
  obtain state | state := h <;> simp only [Segment.step, state]

theorem step_warning (h : Warning x) : x.step now b =
    if x.level = .close then (if x.urgent then x.toLowering else x) else x.toOpen now := by
  obtain ⟨state, phase⟩ := h
  have waits : x.phase ≠ some .lowering := by obtain phase | phase := phase <;> simp [phase]
  simp only [Segment.step, state, waits, if_false]

theorem step_lowering (state : x.state = .closing) (phase : x.phase = some .lowering) :
    x.step now b = if x.level = .close then x else x.toReopening now := by
  simp only [Segment.step, state, phase, if_true]

theorem step_closed (state : x.state = .closed) : x.step now b = if x.level = .close then x else x.toReopening now := by
  simp only [Segment.step, state]

theorem step_reopening (state : x.state = .reopening) :
    x.step now b = if x.level = .close then x.toClosingLowering now else x := by
  simp only [Segment.step, state]

theorem toOpen_eq : ∃ since swept, x.toOpen now = { x with
      state := openState x.level, phase := none, since := since, remaining := 0, confirmDue := none, swept := swept } ∧
    since = if openState x.level = x.state then x.since else now := by
  unfold Segment.toOpen
  split
  · next same => exact ⟨x.since, x.swept, by rw [← same], by rw [if_pos same.symm]⟩
  · next moved => exact ⟨now, false, rfl, by rw [if_neg (Ne.symm moved)]⟩

theorem toClosing_waits (signs : x.cfg.approach ≠ []) : x.toClosing now false = { x with
    state := .closing, since := now, unwarned := false, remaining := x.cfg.interval, phase := some .confirming,
    confirmDue := some (now + 60) } := by
  simp [Segment.toClosing, signs, Config.confirmingLimit]

theorem toClosing_counts (h : x.cfg.approach = [] ∨ b = true) : x.toClosing now b =
    ({ x with state := .closing, since := now, unwarned := false, remaining := x.cfg.interval } : Segment).toPrewarn := by
  have : (x.cfg.approach.isEmpty || b) = true := by simpa using h
  simp only [Segment.toClosing, this, if_true]

end

theorem wantedDemand_open {x : Segment} (h : Open x) : x.wantedDemand = .noDemand := by
  obtain state | state := h <;> simp [Segment.wantedDemand, state]

theorem openState_open (l : Level) : openState l = .opened ∨ openState l = .restricted := openState_cases l

/-! ### Followed up -/

namespace FollowedUp

variable {now : Nat} {t : State} {z y : Segment} (h : FollowedUp now t z y)
include h

theorem since : y.since = if y.state = z.state then z.since else now := h.tested.since

/-- A segment that is open keeps what the state rule gave it. -/
theorem opens (h' : Open z) : y = { z with demand := .noDemand } := by
  rw [h.rests ?_ ?_ ?_, wantedDemand_open h']
  all_goals obtain state | state := h' <;> simp [state]

/-- A segment that waits or counts keeps what the state rule gave it. -/
theorem waits (h' : Warning z) : y = { z with demand := .noDemand } := by
  obtain ⟨state, phase⟩ := h'
  have waits : z.phase ≠ some .lowering := by obtain phase | phase := phase <;> simp [phase]
  rw [h.rests (by simp [state]) (by simp [waits]) (by simp [state])]
  simp [Segment.wantedDemand, state, waits]

/-- A segment that begins to reopen. -/
theorem reopens (state : z.state = .reopening) (swept : z.swept = false) : y = { z with demand := .hold } := by
  rw [h.rests (by simp [state]) (by simp [state]) (by simp [swept])]
  simp [Segment.wantedDemand, state, swept]

end FollowedUp

/-! ### The recomputation -/

theorem step_cfg (x : Segment) (now : Nat) (b : Bool) : (x.step now b).cfg = x.cfg := by
  obtain ⟨_, _, opens, -⟩ := toOpen_eq (x := x) (now := now)
  have closes : (x.toClosing now b).cfg = x.cfg := by
    unfold Segment.toClosing Segment.toPrewarn
    dsimp only
    repeat' split
    all_goals rfl
  unfold Segment.step
  repeat' split
  all_goals first
    | exact closes
    | rfl
    | rw [opens]

theorem toPrewarn_eq (x : Segment) : ∃ phase, x.toPrewarn = { x with phase := phase, confirmDue := none } := by
  unfold Segment.toPrewarn
  split
  · exact ⟨_, rfl⟩
  · exact ⟨_, rfl⟩

theorem toOpen_state (x : Segment) (now : Nat) : (x.toOpen now).state = openState x.level ∧
    (x.toOpen now).since = if openState x.level = x.state then x.since else now := by
  obtain ⟨_, _, opens, since⟩ := toOpen_eq (x := x) (now := now)
  rw [opens]
  exact ⟨rfl, since⟩

theorem toClosing_state (x : Segment) (now : Nat) (b : Bool) :
    (x.toClosing now b).state = .closing ∧ (x.toClosing now b).since = now := by
  obtain ⟨_, counts⟩ := toPrewarn_eq
    ({ x with state := .closing, since := now, unwarned := false, remaining := x.cfg.interval } : Segment)
  unfold Segment.toClosing
  dsimp only
  split
  · rw [counts]
    exact ⟨rfl, rfl⟩
  · exact ⟨rfl, rfl⟩

/-- R1, R11 to R18: since of z is the entry to its state, after x; CLOSING is not entered from CLOSED, nor REOPENING from an
open state. -/
structure Enters (now : Nat) (x z : Segment) : Prop where
  since : z.since = if z.state = x.state then x.since else now
  closing : z.state = .closing → x.state ≠ .closed
  reopening : z.state = .reopening → ¬ Open x

theorem step_enters (x : Segment) (now : Nat) (b : Bool) : Enters now x (x.step now b) := by
  obtain ⟨opened, openSince⟩ := toOpen_state x now
  have toOpen : Enters now x (x.toOpen now) := by
    refine ⟨opened ▸ openSince, fun h => ?_, fun h => ?_⟩
    all_goals
      rw [opened] at h
      obtain e | e := openState_cases x.level <;> simp [e] at h
  obtain ⟨closing, closingSince⟩ := toClosing_state x now b
  have entered {z : Segment} (state : z.state = .closing) (since : z.since = now)
      (before : x.state ≠ .closing ∧ x.state ≠ .closed) : Enters now x z := by
    refine ⟨?_, fun _ => before.2, fun h => absurd (state.symm.trans h) (by decide)⟩
    rw [state, since, if_neg before.1.symm]
  have stayed {z : Segment} (state : z.state = x.state) (since : z.since = x.since) (shut : ¬ Open x) : Enters now x z := by
    refine ⟨?_, fun h => by simp [← state, h], fun _ => shut⟩
    rw [state, since, if_pos rfl]
  have reopened (before : x.state = .closing ∨ x.state = .closed) : Enters now x (x.toReopening now) := by
    refine ⟨?_, nofun, fun _ => ?_⟩
    all_goals obtain e | e := before <;> simp [Segment.toReopening, e, Open]
  by_cases h : Open x
  · have before : x.state ≠ .closing ∧ x.state ≠ .closed := by obtain e | e := h <;> simp [e]
    rw [step_open h]
    split_ifs
    · exact entered rfl rfl before
    · exact entered closing closingSince before
    · exact toOpen
  · unfold Segment.step
    split
    · next e => exact absurd (.inl e) h
    · next e => exact absurd (.inr e) h
    · next e =>
      split_ifs
      · exact stayed rfl rfl h
      · exact reopened (.inl e)
      · exact stayed rfl rfl h
      · exact stayed rfl rfl h
      · exact toOpen
    · next e =>
      split_ifs
      · exact stayed rfl rfl h
      · exact reopened (.inr e)
    · next e =>
      split_ifs
      · exact entered rfl rfl (by simp [e])
      · exact stayed rfl rfl h

/-- A test that moves a segment to another state leads from CLOSING to CLOSED, or from REOPENING to an open state. -/
theorem Tested.moved {now : Nat} {x y : Segment} (h : Tested now x y) (other : y.state ≠ x.state) :
    (x.state = .closing ∧ y.state = .closed) ∨ (x.state = .reopening ∧ Open y) := by
  cases h with
  | still b _ => exact absurd rfl other
  | closed b state _ => exact .inl ⟨state, rfl⟩
  | opened state _ => exact .inr ⟨state, openState_cases x.level⟩

/-- What the recomputation makes of a record whose level and urgency are derived from these claims. -/
theorem recomputed_of_step {s t : State} {k : Nat} {x y : Segment} {claims : List Claim} {b : Bool}
    (warned : b = true ↔ WarnedAtEntry s k x) (f : FollowedUp s.now t ((x.derive claims).step s.now b) y) :
    Recomputed s t k x y := by
  have level : y.level = (x.derive claims).level := f.kept.2.1.trans (step_levels _ _ _).1
  have urgent : y.urgent = (x.derive claims).urgent := f.kept.2.2.1.trans (step_levels _ _ _).2.1
  have byLevel {z : Segment} (h : y = { z with demand := .noDemand })
      (opened : ∃ since swept, z = { x.derive claims with
        state := openState (x.derive claims).level, phase := none, since := since, remaining := 0, confirmDue := none,
        swept := swept }) : OpenByLevel y := by
    obtain ⟨_, _, rfl⟩ := opened
    rw [h]
    exact ⟨rfl, rfl, rfl⟩
  have toOpen (opened : (x.derive claims).step s.now b = (x.derive claims).toOpen s.now) : OpenByLevel y := by
    obtain ⟨since, swept, eq, -⟩ := toOpen_eq (x := x.derive claims) (now := s.now)
    rw [opened, eq] at f
    exact byLevel (f.opens (openState_open _)) ⟨since, swept, rfl⟩
  have isOpen (h : Open x) : Open (x.derive claims) := h
  have isWarning (h : Warning x) : Warning (x.derive claims) := h
  have stands {σ : SegState} (h : x.state = σ) : (x.derive claims).state = σ := h
  have phases {φ : Option Phase} (h : x.phase = φ) : (x.derive claims).phase = φ := h
  constructor
  case cfg => exact f.kept.1.trans (step_cfg _ _ _)
  case since =>
    obtain ⟨since, closing, reopening⟩ := step_enters (x.derive claims) s.now b
    rw [f.since]
    split
    · next same => rw [since, same]; rfl
    · next moved =>
      refine (if_neg (fun back => ?_)).symm
      obtain ⟨from_, to_⟩ | ⟨from_, to_⟩ := f.tested.moved moved
      · exact closing from_ (back.symm.trans to_)
      · exact reopening from_ (to_.imp back.symm.trans back.symm.trans)
  case opens => exact fun h other => toOpen (by rw [step_open (isOpen h), if_neg (level ▸ other)])
  case callsOff => exact fun h other => toOpen (by rw [step_warning (isWarning h), if_neg (level ▸ other)])
  case closesAtOnce =>
    intro h close fast
    rw [step_open (isOpen h), if_pos (level ▸ close), if_pos (urgent ▸ fast)] at f
    exact ⟨f.enters rfl rfl rfl rfl rfl, f.kept.2.2.2.2⟩
  case confirming =>
    intro h close slow signs unwarned
    have no : b = false := by rw [← Bool.not_eq_true, warned]; exact unwarned
    rw [step_open (isOpen h), if_pos (level ▸ close), if_neg (by rw [← urgent, slow]; decide), no, toClosing_waits (x := x.derive claims) signs] at f
    rw [f.waits ⟨rfl, .inl rfl⟩]
    exact ⟨rfl, rfl, rfl, rfl, rfl, rfl⟩
  case prewarn =>
    intro h close slow counts
    rw [step_open (isOpen h), if_pos (level ▸ close), if_neg (by rw [← urgent, slow]; decide),
      toClosing_counts (x := x.derive claims) (counts.imp id warned.2)] at f
    by_cases none : (x.derive claims).cfg.interval = 0
    · rw [Segment.toPrewarn, if_pos none] at f
      exact ⟨f.kept.2.2.2.2, fun _ => f.enters rfl rfl none rfl rfl, fun some => absurd none some⟩
    · rw [Segment.toPrewarn, if_neg none] at f
      refine ⟨f.kept.2.2.2.2, fun zero => absurd zero none, fun _ => ?_⟩
      rw [f.waits ⟨rfl, .inr rfl⟩]
      exact ⟨rfl, rfl, rfl, rfl⟩
  case turnsUrgent =>
    intro h close fast
    rw [step_warning (isWarning h), if_pos (level ▸ close), if_pos (urgent ▸ fast)] at f
    exact ⟨f.enters h.1 rfl rfl rfl rfl, f.kept.2.2.2.2⟩
  case goesOn =>
    intro h close slow
    rw [step_warning (isWarning h), if_pos (level ▸ close), if_neg (by rw [← urgent, slow]; decide)] at f
    rw [f.waits h]
    exact ⟨h.1, rfl, rfl, rfl⟩
  case reopens =>
    intro h other
    have reopened : (x.derive claims).step s.now b = (x.derive claims).toReopening s.now := by
      obtain ⟨state, phase⟩ | state := h
      · rw [step_lowering (stands state) (phases phase), if_neg (level ▸ other)]
      · rw [step_closed (stands state), if_neg (level ▸ other)]
    rw [reopened] at f
    rw [f.reopens rfl rfl]
    exact ⟨rfl, rfl, rfl, rfl⟩
  case lowersOn =>
    intro state phase demand close
    rw [step_lowering (stands state) (phases phase), if_pos (level ▸ close)] at f
    rw [f.still (demand.trans (by simp [Segment.wantedDemand, Segment.derive, state, phase]))]
    exact ⟨state, phase⟩
  case staysClosed =>
    intro state demand close
    rw [step_closed (stands state), if_pos (level ▸ close)] at f
    rw [f.still (demand.trans (by simp [Segment.wantedDemand, Segment.derive, state]))]
    exact ⟨state, rfl⟩
  case closesAgain =>
    intro state close
    rw [step_reopening (stands state), if_pos (level ▸ close)] at f
    exact ⟨f.enters rfl rfl rfl rfl rfl, f.swept rfl rfl⟩
  case reopensOn =>
    intro state demand other
    rw [step_reopening (stands state), if_neg (level ▸ other)] at f
    rw [f.still (demand.trans (by simp [Segment.wantedDemand, Segment.derive, state]))]
    exact ⟨state, rfl⟩

/-- The record that the state rule gives segment k on the claims as they stand. -/
def stepped (s : State) (k : Nat) (x : Segment) : Segment := (x.derive (s.claimsOf k)).step s.now
  ((s.updSegment k (fun y => { y with state := .closing })).entryConfirmed k x.cfg.approach)

theorem stepSegment_record {s : State} {k : Nat} {x : Segment} (here : s.segs.records[k]? = some x) :
    (s.stepSegment k).segs.records[k]? = some (stepped s k x) := by
  simp [State.stepSegment, here, stepped]

theorem recompute_record {s : State} {k : Nat} {x : Segment} (here : s.segs.records[k]? = some x) :
    ∃ y, (s.recompute k).segs.records[k]? = some y ∧ FollowedUp s.now (s.recompute k) (stepped s k x) y := by
  have clock : (s.stepSegment k).now = s.now := now_of_frame (effect_stepSegment s k).frame
  obtain ⟨y, at_k, f⟩ := followUp_record (stepSegment_record here)
  have gates : (s.recompute k).gates = ((s.stepSegment k).followUp k).gates := withSegmentNotice_gates
  refine ⟨y, (withSegmentNotice_records s k _).symm ▸ at_k, clock ▸ f.tested, f.still, ?_⟩
  rw [gates]
  exact f.lowered

theorem recompute_follows (s : State) (k : Nat) : SegmentFollows s (s.recompute k) k := by
  intro x here
  obtain ⟨y, at_k, f⟩ := recompute_record here
  have claims : (s.recompute k).claimsOf k = s.claimsOf k := by
    rw [State.claimsOf, State.claimsOf, (effect_recompute s k).frame .claims (by decide)]
  refine ⟨y, at_k, ?_, recomputed_of_step (claims := s.claimsOf k) (entryConfirmed_iff here) f⟩
  obtain ⟨-, level, urgent, deciding, -⟩ := f.kept
  obtain ⟨level', urgent', deciding'⟩ := step_levels (x.derive (s.claimsOf k)) s.now
    ((s.updSegment k (fun y => { y with state := .closing })).entryConfirmed k x.cfg.approach)
  rw [FollowsClaims, claims]
  exact ⟨level.trans level', urgent.trans urgent', deciding.trans deciding'⟩

/-! ### What else a command or timer does before and after it -/

theorem warnedAtEntry_of_same {s t : State} {k : Nat} {x : Segment} (h : WarnedAtEntry s k x)
    (records : t.segs.records = s.segs.records) (signs : t.line.signs = s.line.signs) : WarnedAtEntry t k x := by
  obtain ⟨n, mem, y, sign, state, a, ack, cls, slot, warns⟩ := h
  exact ⟨n, mem, y, signs ▸ sign, state, a, ack, cls, slot, records ▸ warns⟩

theorem recomputed_before {s s' t : State} {k : Nat} {x y : Segment} (h : Recomputed s t k x y) (now : s.now = s'.now)
    (warned : WarnedAtEntry s k x ↔ WarnedAtEntry s' k x) : Recomputed s' t k x y where
  cfg := h.cfg
  since := now ▸ h.since
  opens := h.opens
  closesAtOnce := h.closesAtOnce
  confirming a b c d e := now ▸ h.confirming a b c d (fun w => e (warned.1 w))
  prewarn a b c d := h.prewarn a b c (d.imp id warned.2)
  turnsUrgent := h.turnsUrgent
  goesOn := h.goesOn
  callsOff := h.callsOff
  reopens := h.reopens
  lowersOn := h.lowersOn
  staysClosed := h.staysClosed
  closesAgain := h.closesAgain
  reopensOn := h.reopensOn

theorem entersLowering_after {t u : State} {x y : Segment} (h : EntersLowering t x y) (gates : u.gates = t.gates) :
    EntersLowering u x y := ⟨h.demand, h.remaining, h.state, gates ▸ h.closed⟩

theorem recomputed_after {s t u : State} {k : Nat} {x y : Segment} (h : Recomputed s t k x y) (gates : u.gates = t.gates) :
    Recomputed s u k x y where
  cfg := h.cfg
  since := h.since
  opens := h.opens
  closesAtOnce a b c := (h.closesAtOnce a b c).imp (entersLowering_after · gates) id
  confirming := h.confirming
  prewarn a b c d := (h.prewarn a b c d).imp id (And.imp (fun f e => entersLowering_after (f e) gates) id)
  turnsUrgent a b c := (h.turnsUrgent a b c).imp (entersLowering_after · gates) id
  goesOn := h.goesOn
  callsOff := h.callsOff
  reopens := h.reopens
  lowersOn := h.lowersOn
  staysClosed := h.staysClosed
  closesAgain a b := (h.closesAgain a b).imp (entersLowering_after · gates) id
  reopensOn := h.reopensOn

section

variable {s t u : State} {k : Nat} {l : List Part}

/-- An operation before the recomputation that leaves the segments, the signs and the clock. -/
theorem segmentFollows_before (frame : Frame l s t) (h : SegmentFollows t u k) (records : .records ∉ l := by decide)
    (signs : .signs ∉ l := by decide) (clock : .clock ∉ l := by decide) : SegmentFollows s u k := fun x here => by
  have sameRecords : t.segs.records = s.segs.records := frame .records records
  have sameSigns : t.line.signs = s.line.signs := frame .signs signs
  obtain ⟨y, there, follows, recomputed⟩ := h x (sameRecords.symm ▸ here)
  exact ⟨y, there, follows, recomputed_before recomputed (now_of_frame frame clock)
    ⟨fun w => warnedAtEntry_of_same w sameRecords.symm sameSigns.symm, fun w => warnedAtEntry_of_same w sameRecords sameSigns⟩⟩

/-- An operation after it that leaves the segments and the gates, and what the claims weigh. -/
theorem segmentFollows_after (h : SegmentFollows s t k) (frame : Frame l t u) (weighs : ∀ y, FollowsClaims t k y → FollowsClaims u k y)
    (records : .records ∉ l := by decide) (gates : .gates ∉ l := by decide) : SegmentFollows s u k := fun x here => by
  obtain ⟨y, there, follows, recomputed⟩ := h x here
  exact ⟨y, (frame .records records).symm ▸ there, weighs y follows, recomputed_after recomputed (frame .gates gates)⟩

/-- An operation after it that leaves the claims too. -/
theorem segmentFollows_afterAll (h : SegmentFollows s t k) (frame : Frame l t u) (records : .records ∉ l := by decide)
    (gates : .gates ∉ l := by decide) (claims : .claims ∉ l := by decide) : SegmentFollows s u k := by
  have same : u.segs.claims = t.segs.claims := frame .claims claims
  refine segmentFollows_after h frame (fun y follows => ?_) records gates
  rw [FollowsClaims, State.claimsOf, same]
  exact follows

end

end Sys2Proof.Proofs
end

