-- ==== Sys2Proof/Proofs/ClaimRows.lean ====
section
/-! The commands and timers of claims (R4 to R6, R22 to R25, R27): the claim placed, changed, started or removed, its linked
slot, and the segment that then follows its claims. -/

namespace Sys2Proof.Proofs

open Sys2Proof.Machine Sys2Proof.Safety Sys2Proof.Laws

/-! ### SET AUTHORITY (R27) -/

theorem masterCode_le (m : Master) : masterCode m ≤ 2 := by cases m <;> decide

theorem masterCode_inj {m n : Master} (h : masterCode m = masterCode n) : m = n := by
  cases m <;> cases n <;> first | rfl | cases h

theorem masterOfCode_le {n : Nat} {m : Master} (h : masterOfCode n = some m) : n ≤ 2 := by
  match n, h with
  | 0, _ | 1, _ | 2, _ => decide

/-- Settles O34. -/
theorem setAuthorityReplacesOneEntry : Obligations.SetAuthorityReplacesOneEntry := by
  intro s r rest k x w number described code small inside
  subst number
  obtain ⟨y, here⟩ := Option.ne_none_iff_exists'.1 described
  have here' : (s.takeQueued .centre rest).segs.records[read1 r.body 0]? = some y := here
  have answer : owning .setAuthority .centre r.body (s.takeQueued .centre rest) = Answer.ok []
      ((s.takeQueued .centre rest).setAuthorityEntry (read1 r.body 0) x (BitVec.ofNat 5 (read1 r.body 2))) := by
    simp [owning, State.setAuthority, here', code, Nat.not_le.2 small]
  obtain ⟨runs, finishes⟩ := accepted (l := [.authority]) (K := []) (exec_waiting w) answer
    (.silent (frame_authority _ _) rfl)
  have inside' : 3 * read1 r.body 0 + masterCode x < (s.takeQueued .centre rest).segs.authority.length := inside
  refine ⟨_, runs, fun right five => ?_, fun j m right other => ?_, finishes⟩
  · show State.hasRight (State.setAuthorityEntry _ _ _ _) _ _ _ = _
    rw [State.hasRight, State.setAuthorityEntry, List.getElem?_set_self inside']
    have whole : (byteAt r.body 2).toNat % 32 = (byteAt r.body 2).toNat := Nat.mod_eq_of_lt small
    simp [read1, BitVec.getLsbD, whole]
  · show State.hasRight (State.setAuthorityEntry _ _ _ _) _ _ _ = _
    have apart : 3 * read1 r.body 0 + masterCode x ≠ 3 * j + masterCode m := fun same => by
      have := masterCode_le x
      have := masterCode_le m
      exact other ⟨by omega, masterCode_inj (by omega)⟩
    rw [State.hasRight, State.setAuthorityEntry, List.getElem?_set_ne apart]
    rfl

/-! ### What a slot posts -/

/-- A predicate that rests neither on segments nor on gates, kept by what the report of a gate does and by the forming of a
segment slot, is kept by the follow-up of a segment. -/
theorem ArmKept.followUp {parts : List Part} {P : State → Prop} {s : State} (kept : ArmKept parts P)
    (away : apart parts [.records, .gates] = true) (slot : ∀ s k, P s → P (s.formSegmentSlot k)) (k : Nat) (ok : P s) :
    P (s.followUp k) := by
  have still {t u : State} {l : List Part} {K : List NoticeKind} (ok : P t) (h : Effect l K t u)
      (sub : inside l [.records, .gates] = true := by rfl) : P u := kept.rests.keep_effect ok h (apart_of_inside away sub)
  unfold State.followUp
  split
  · exact ok
  · rename_i x _
    have lamps := still ok (effect_handLamps s x.cfg.gates x.wantedLamps)
    refine slot _ k (keep_cases _ (fun _ => lamps) (fun _ => ?_))
    exact kept.test _ k (keep_fold _ (fun _ g ok => kept.applyRecorded g ok) _
      (still (still lamps (effect_updSegment _ k _)) (effect_recordDemand _ _ _)))

/-- Slot n, if any, posts this. -/
def Posts (n : Nat) (v : Option (Option Posted)) (s : State) : Prop := (s.store.slots[n]?).map (·.posted) = v

section
variable {n : Nat} {v : Option (Option Posted)} {s : State}

theorem posts_rests : RestsOn [.slots] (Posts n v) := fun s t same ok => by
  have slots : t.store.slots = s.store.slots := same .slots (by simp)
  rw [Posts, slots]
  exact ok

theorem posts_still {t : State} {l : List Part} {K : List NoticeKind} (ok : Posts n v s) (h : Effect l K s t)
    (away : apart [.slots] l = true := by rfl) : Posts n v t := posts_rests.keep_effect ok h away

theorem posts_formSlot (k : Nat) (c : Option Content) (ok : Posts n v s) : Posts n v (s.formSlot k c) := by
  obtain rfl | other := eq_or_ne n k
  · cases here : s.store.slots[n]? with
    | none =>
      rw [State.formSlot, State.writeSlot, here]
      exact ok
    | some old =>
      rw [Posts, here] at ok
      rw [Posts, State.formSlot, writeSlot_self here]
      exact ok
  · rw [Posts, State.formSlot, writeSlot_apart other]
    exact ok

theorem posts_formSegmentSlot (k : Nat) (ok : Posts n v s) : Posts n v (s.formSegmentSlot k) := by
  unfold State.formSegmentSlot
  split
  · exact ok
  · exact posts_formSlot _ _ ok

theorem posts_testGates (k : Nat) (ok : Posts n v s) : Posts n v (s.testGates k) := by
  unfold State.testGates
  split
  · exact ok
  · split
    · exact keep_ite _ ok (fun _ => posts_formSegmentSlot k (posts_still ok (effect_updSegment s k _)))
    · exact posts_still ok (effect_updSegment s k _)
    · exact keep_ite _ ok (fun _ => posts_formSegmentSlot k (posts_still (posts_still
        (posts_still ok (effect_updSegment s k _)) (effect_handLamps _ _ _)) (effect_recordDemand _ _ _)))
    · exact ok

theorem posts_arms : ArmKept [.slots] (Posts n v) where
  rests := posts_rests
  notices := rfl
  reserve s ok := posts_still ok (effect_updateReserve s)
  test _ k ok := posts_testGates k ok
  move s g _ f ok _ _ := posts_still ok (effect_updGate s g f)
  start s g _ ok _ _ _ := posts_still ok (effect_updGate s g _)

theorem posts_followUp (k : Nat) (ok : Posts n v s) : Posts n v (s.followUp k) :=
  posts_arms.followUp rfl (fun _ k ok => posts_formSegmentSlot k ok) k ok

/-- A segment recomputed forms the content of slots, never what they post. -/
theorem posts_recompute (k : Nat) (ok : Posts n v s) : Posts n v (s.recompute k) :=
  posts_arms.withSegmentNotice k _ (posts_followUp k (posts_still ok (effect_stepSegment s k)))

theorem posts_of_postedIn {p : Posted} (h : s.postedIn n = some p) :
    ∃ x c, s.store.slots[n]? = some x ∧ x.content = some c ∧ x.posted = some p := by
  unfold State.postedIn at h
  split at h
  · cases h
  · next x here =>
    split at h
    · next valid =>
      obtain ⟨c, content⟩ := Option.isSome_iff_exists.1 valid
      exact ⟨x, c, here, content, h⟩
    · cases h

theorem postedIn_none (ok : Posts n (some none) s) : s.postedIn n = none := by
  cases h : s.postedIn n with
  | none => rfl
  | some p =>
    obtain ⟨x, c, here, -, posted⟩ := posts_of_postedIn h
    simp [Posts, here, posted] at ok

end

/-! ### Claims that end (R6, R67) -/

/-- R6, R67: a slot that ends leaves the claims but for their links. -/
theorem unlinked_unlinkClaim (s : State) (k : Nat) (m : Master) :
    unlinked (s.unlinkClaim k m).segs.claims = unlinked s.segs.claims := by
  rw [unlinkClaim_claims, unlinked, unlinked, List.map_map]
  refine List.map_congr_left (fun c _ => ?_)
  dsimp only [Function.comp]
  split <;> rfl

theorem unlinked_endPosted (s : State) (n : Nat) (cause : SlotEndCause) (tell : Bool) :
    unlinked (s.endPosted n cause tell).segs.claims = unlinked s.segs.claims := by
  refine keep_endPosted (P := fun t => unlinked t.segs.claims = unlinked s.segs.claims) (parts := [.claims])
    (fun t u same ok => ?_) n cause tell rfl (fun t k m ok => (unlinked_unlinkClaim t k m).trans ok)
  have claims : u.segs.claims = t.segs.claims := same .claims (by simp)
  exact (congrArg unlinked claims).trans ok

theorem unlinked_withdrawLinked (s : State) (c : Claim) :
    unlinked (s.withdrawLinked c).segs.claims = unlinked s.segs.claims := by
  unfold State.withdrawLinked
  split
  · rfl
  · exact unlinked_endPosted s _ _ _

theorem follows_withdrawLinked {s : State} {k : Nat} {y : Segment} (c : Claim) (ok : FollowsClaims s k y) :
    FollowsClaims (s.withdrawLinked c) k y := by
  unfold State.withdrawLinked
  split
  · exact ok
  · refine keep_endPosted (P := fun t => FollowsClaims t k y) (parts := [.claims]) (fun t u same ok => ?_) _ _ _ ok
      (fun t j m ok => follows_unlink j m ok)
    have claims : u.segs.claims = t.segs.claims := same .claims (by simp)
    exact follows_of_same ok (by rw [State.claimsOf, State.claimsOf, claims]) rfl rfl rfl

/-- A claim that the claims of t, their links left out, do not hold is not found there. -/
theorem claim?_of_unlinked {s t : State} {k : Nat} {h : Holder}
    (same : unlinked t.segs.claims = unlinked (s.segs.claims.filter (fun d => !d.isOf k h))) : t.claim? k h = none := by
  refine List.find?_eq_none.2 (fun c mem own => ?_)
  have there : ({ c with link := none } : Claim) ∈ unlinked t.segs.claims := List.mem_map.2 ⟨c, mem, rfl⟩
  rw [same] at there
  obtain ⟨d, kept, eq⟩ := List.mem_map.1 there
  obtain ⟨segment, holder⟩ := (isOf_iff c k h).1 own
  have ownD : d.isOf k h = true := (isOf_iff d k h).2
    ⟨(congrArg Claim.segment eq).trans segment, (congrArg Claim.holder eq).trans holder⟩
  have := (List.mem_filter.1 kept).2
  simp [ownD] at this

/-- R67: a posted slot that ends posts nothing. -/
theorem posts_withdrawLinked {s : State} {c : Claim} {n : Nat} {p : Posted} (link : c.link = some n)
    (posted : s.postedIn n = some p) : Posts n (some none) (s.withdrawLinked c) := by
  obtain ⟨x, d, here, content, posts⟩ := posts_of_postedIn posted
  obtain ⟨u, effect, slot, -, ended⟩ := endPosted_of (s := s) .claimEnded true here content posts
  rw [State.withdrawLinked, link]
  dsimp only
  rw [ended, if_pos rfl]
  exact posts_still (s := u) (by rw [Posts, slot]; rfl) (effect_tell u _ _ .slotEnded)

theorem postedIn_endPosted (s : State) (n : Nat) (cause : SlotEndCause) (tell : Bool) :
    (s.endPosted n cause tell).postedIn n = none := by
  cases h : s.postedIn n with
  | none =>
    have still : s.endPosted n cause tell = s := by
      unfold State.endPosted
      split
      · rfl
      · next x here =>
        split
        · next c p content posted => simp [postedIn_of here content posted] at h
        · rfl
    rw [still, h]
  | some p =>
    obtain ⟨x, d, here, content, posts⟩ := posts_of_postedIn h
    obtain ⟨u, -, slot, -, ended⟩ := endPosted_of (s := s) cause tell here content posts
    rw [ended]
    have none : Posts n (some none) u := by rw [Posts, slot]; rfl
    exact postedIn_none (keep_ite _ none (fun _ => posts_still none (effect_tell u _ _ .slotEnded)))

/-- R29: CLAIM_ENDED is told to the holder and to CENTRE. -/
theorem heard_claimEnded (s : State) (k : Nat) (h m : Master) (reason cause : Nat) (to_ : m = h ∨ m = .centre) :
    Heard s (s.tellClaimEnded k h reason cause) m
      (s.notice .claimEnded k (packed 0 (masterCode h)) (packed 0 reason) (packed 0 cause)) := by
  unfold State.tellClaimEnded
  dsimp only
  split
  · next centre =>
    obtain rfl : m = .centre := to_.elim (fun own => own.trans centre) id
    exact heard_tell s .centre _
  · next other =>
    obtain rfl | rfl := to_
    · exact (heard_tell s m _).apart other
    · exact .before (effect_tell s h _ .claimEnded) (heard_tell _ .centre _)

/-! ### PLACE CLAIM (R22 to R24) -/

theorem filter_of_claim?_none {s : State} {k : Nat} {h : Holder} (gone : s.claim? k h = none) :
    s.segs.claims.filter (fun d => !d.isOf k h) = s.segs.claims :=
  List.filter_eq_self.2 (fun c mem => by simpa using List.find?_eq_none.1 gone c mem)

theorem relink_claims (s : State) (k : Nat) (old new : Option Nat) : (s.relink k old new).segs.claims = s.segs.claims :=
  (effect_relink s k old new).frame .claims (by decide)

theorem linkSlot_slot (s : State) (n j : Nat) (link : Option Nat) : (s.linkSlot n link).store.slots[j]? =
    (s.store.slots[j]?).map (fun x => if n = j then { x with posted := x.posted.map (fun p => { p with link := link }) } else x) := by
  rw [State.linkSlot, List.getElem?_modify]
  cases s.store.slots[j]? with
  | none => rfl
  | some x =>
    by_cases same : n = j <;> simp [same]

/-- R6: the slot that a claim linked before, and links no more, loses the link. -/
def linkCleared (s : State) (old new : Option Nat) : State :=
  match old with
  | some n => if new = some n then s else s.linkSlot n none
  | none => s

theorem relink_some (s : State) (k n : Nat) (old : Option Nat) :
    s.relink k old (some n) = (linkCleared s old (some n)).linkSlot n (some k) := rfl

theorem linkCleared_slot (s : State) (old : Option Nat) (n : Nat) :
    (linkCleared s old (some n)).store.slots[n]? = s.store.slots[n]? := by
  unfold linkCleared
  split
  · next m =>
    split
    · rfl
    · next other =>
      have apart : m ≠ n := fun same => other (congrArg some same.symm)
      rw [linkSlot_slot]
      simp [apart]
  · rfl

/-- R6: a slot that posts and is linked anew records the segment. -/
theorem relink_slot {s : State} {k n : Nat} {old : Option Nat} {x : Slot} {p : Posted} (here : s.store.slots[n]? = some x)
    (posted : x.posted = some p) :
    ∃ y, (s.relink k old (some n)).store.slots[n]? = some y ∧ y.posted = some { p with link := some k } := by
  rw [relink_some, linkSlot_slot, linkCleared_slot, here]
  exact ⟨_, rfl, by simp [posted]⟩

theorem putClaim_slot {s : State} {m : Master} {a : PlaceArgs} {n : Nat} {x : Slot} {p : Posted} (link : a.link = some n)
    (here : s.store.slots[n]? = some x) (posted : x.posted = some p) :
    Posts n (some (some { p with link := some a.segment })) (s.putClaim m a) := by
  have relinked (t : State) (old : Option Nat) (same : t.store.slots = s.store.slots) :
      Posts n (some (some { p with link := some a.segment })) (t.relink a.segment old a.link) := by
    obtain ⟨y, there, posts⟩ := relink_slot (s := t) (k := a.segment) (old := old) (same ▸ here) posted
    rw [link, Posts, there, ← posts]
    rfl
  unfold State.putClaim
  split
  · exact relinked _ none rfl
  · refine relinked _ _ ?_
    split <;> rfl

theorem linkAllowed_posts {s : State} {m : Master} {k n : Nat} (h : s.linkAllowed m k n = true) :
    ∃ x p, s.store.slots[n]? = some x ∧ x.posted = some p := by
  unfold State.linkAllowed at h
  split at h
  · cases h
  · next x here =>
    split at h
    · next p content posted => exact ⟨x, p, here, posted⟩
    · cases h

/-- Settles O31. -/
theorem placeClaimPlacesOrChanges : Obligations.PlaceClaimPlacesOrChanges := by
  intro s m r rest a w parsed described right links
  have right' : (s.takeQueued m rest).hasRight a.segment m (levelRight a.level) = true := right
  have described' : (s.takeQueued m rest).segs.records[a.segment]? ≠ none := described
  have links' : (a.link.any fun n => !(s.takeQueued m rest).linkAllowed m a.segment n) = false := by
    cases link : a.link with
    | none => rfl
    | some n =>
      have allowed : (s.takeQueued m rest).linkAllowed m a.segment n = true := links n link
      simp [allowed]
  have answer : owning .placeClaim m r.body (s.takeQueued m rest) =
      Answer.ok [] (((s.takeQueued m rest).putClaim m a).recompute a.segment) := by
    simp only [owning, State.placeClaim, parsed, if_neg described', right', links', Bool.not_true, Bool.false_eq_true, if_false]
  have put := effect_putClaim (s.takeQueued m rest) m a
  obtain ⟨runs, finishes⟩ := accepted (exec_waiting w) answer
    (.seq (l := .claims :: roadParts) (K := roadKinds) put (effect_recompute _ a.segment))
  have claims : (((s.takeQueued m rest).putClaim m a).recompute a.segment).segs.claims =
      ((s.takeQueued m rest).putClaim m a).segs.claims := (effect_recompute _ _).frame .claims (by decide)
  refine ⟨_, runs, fun gone => ?_, fun c found => ⟨fun rises => ?_, fun stays => ?_⟩, fun n link => ?_, ?_, finishes⟩
  · show (((s.takeQueued m rest).putClaim m a).recompute a.segment).segs.claims = _
    have gone' : (s.takeQueued m rest).claim? a.segment (.master m) = none := gone
    rw [claims, State.putClaim, gone']
    simp only [relink_claims]
    rw [State.tailClaim, filter_of_claim?_none gone']
    rfl
  · show (((s.takeQueued m rest).putClaim m a).recompute a.segment).segs.claims = _
    have found' : (s.takeQueued m rest).claim? a.segment (.master m) = some c := found
    have rises' : c.counted.code < (a.claim m (s.takeQueued m rest).now (s.takeQueued m rest).now).counted.code := rises
    rw [claims, State.putClaim, found']
    dsimp only
    rw [relink_claims, if_pos rises']
    rfl
  · show (((s.takeQueued m rest).putClaim m a).recompute a.segment).segs.claims = _
    have found' : (s.takeQueued m rest).claim? a.segment (.master m) = some c := found
    have stays' : ¬ c.counted.code < (a.claim m (s.takeQueued m rest).now (s.takeQueued m rest).now).counted.code :=
      Nat.not_lt.2 stays
    rw [claims, State.putClaim, found']
    dsimp only
    rw [relink_claims, if_neg stays']
    rfl
  · obtain ⟨x, p, here, posted⟩ := linkAllowed_posts (links n link)
    have posts := posts_recompute a.segment (putClaim_slot (s := s.takeQueued m rest) (m := m) link here posted)
    obtain ⟨y, slot, posted'⟩ := Option.map_eq_some_iff.1 posts
    show ((((s.takeQueued m rest).putClaim m a).recompute a.segment).store.slots[n]?.bind _).map _ = _
    rw [slot, Option.bind_some, posted']
    rfl
  · refine segmentFollows_before (takeQueued_frame s m rest) (segmentFollows_before put.frame ?_)
    exact segmentFollows_afterAll (recompute_follows _ _) (finish_frame _ m _)

/-! ### RELEASE CLAIM (R25) -/

/-- R25: the claim removed and its linked slot withdrawn, and CLAIM_ENDED raised when another master released it. -/
def released (s : State) (sender h : Master) (k : Nat) (c : Claim) : State :=
  if sender = h then (s.dropClaim k (.master h)).withdrawLinked c
  else ((s.dropClaim k (.master h)).withdrawLinked c).tellClaimEnded k h c.reason 1

theorem effect_released_told (s : State) (sender h : Master) (k : Nat) (c : Claim) :
    Effect noticeParts [.claimEnded] ((s.dropClaim k (.master h)).withdrawLinked c) (released s sender h k c) := by
  unfold released
  split
  · exact .refl _ _ _
  · exact effect_tellClaimEnded _ _ _ _ _

/-- Settles O32. -/
theorem releaseClaimRemovesTheClaim : Obligations.ReleaseClaimRemovesTheClaim := by
  intro s m h r rest k c w number described code may found
  subst number
  have dropped := effect_dropClaim (s.takeQueued m rest) (read1 r.body 0) (.master h)
  have withdrawn := effect_withdrawLinked ((s.takeQueued m rest).dropClaim (read1 r.body 0) (.master h)) c
  have before : Effect (.claims :: contentParts ++ noticeParts) (.claimEnded :: lossKinds) (s.takeQueued m rest)
      (released (s.takeQueued m rest) m h (read1 r.body 0) c) := by
    exact (dropped.seq (l := .claims :: contentParts ++ noticeParts) (K := .claimEnded :: lossKinds) withdrawn).seq
      (effect_released_told _ _ _ _ _)
  have answer : owning .releaseClaim m r.body (s.takeQueued m rest) =
      Answer.ok [] ((released (s.takeQueued m rest) m h (read1 r.body 0) c).recompute (read1 r.body 0)) := by
    have some : ¬ ((s.takeQueued m rest).segs.records[read1 r.body 0]? = none ∨ 3 < read1 r.body 1) := by
      have := masterOfCode_le code
      rintro (none | large)
      · exact described none
      · omega
    have allowed : ¬ (m ≠ h ∧ !(s.takeQueued m rest).hasRight (read1 r.body 0) m overrideRight) := by
      rintro ⟨other, no⟩
      have right : (s.takeQueued m rest).hasRight (read1 r.body 0) m overrideRight = true := may.resolve_left other
      simp [right] at no
    have found' : (s.takeQueued m rest).claim? (read1 r.body 0) (.master h) = .some c := found
    simp only [owning, State.releaseClaim, if_neg some, code, State.releaseMasterClaim, if_neg allowed, found']
    rfl
  obtain ⟨runs, finishes⟩ := accepted (exec_waiting w) answer
    (.seq (l := .claims :: roadParts) (K := .claimEnded :: lossKinds) before (effect_recompute _ (read1 r.body 0)))
  have claims : unlinked ((released (s.takeQueued m rest) m h (read1 r.body 0) c).recompute (read1 r.body 0)).segs.claims =
      unlinked (s.segs.claims.filter (fun d => !d.isOf (read1 r.body 0) (.master h))) := by
    have recomputed := (effect_recompute (released (s.takeQueued m rest) m h (read1 r.body 0) c) (read1 r.body 0)).frame
      .claims (by decide)
    have told : (released (s.takeQueued m rest) m h (read1 r.body 0) c).segs.claims =
        (((s.takeQueued m rest).dropClaim (read1 r.body 0) (.master h)).withdrawLinked c).segs.claims :=
      (effect_released_told _ _ _ _ _).frame .claims (by decide)
    rw [recomputed, told, unlinked_withdrawLinked]
    rfl
  refine ⟨_, runs, claim?_of_unlinked claims, claims, fun n p link posted => ?_, ?_, fun other n to_ => ?_, finishes⟩
  · have ended : Posts n (some none) (((s.takeQueued m rest).dropClaim (read1 r.body 0) (.master h)).withdrawLinked c) :=
      posts_withdrawLinked link posted
    exact postedIn_none (posts_recompute _ (posts_still ended (effect_released_told _ _ _ _ _)))
  · refine segmentFollows_before (takeQueued_frame s m rest) (segmentFollows_before before.frame ?_)
    exact segmentFollows_afterAll (recompute_follows _ _) (finish_frame _ m _)
  · have heard : Heard (s.takeQueued m rest) (released (s.takeQueued m rest) m h (read1 r.body 0) c) n
        (s.notice .claimEnded (read1 r.body 0) (packed 0 (masterCode h)) (packed 0 c.reason) (packed 0 1)) := by
      have gone := dropped.seq (l := .claims :: contentParts ++ noticeParts) (K := lossKinds) withdrawn
      have told := heard_claimEnded (((s.takeQueued m rest).dropClaim (read1 r.body 0) (.master h)).withdrawLinked c)
        (read1 r.body 0) h n c.reason 1 to_
      rw [State.notice, now_of_frame gone.frame] at told
      rw [released, if_neg other]
      exact .before gone told
    exact ((heard.after (effect_recompute _ _) (show NoticeKind.claimEnded ∉ roadKinds by decide)).finish m _).taken.told

/-! ### The claim timers (R4, R5) -/

/-- Settles O36. -/
theorem claimTimersStartAndEndClaims : Obligations.ClaimTimersStartAndEndClaims := by
  refine ⟨fun s k h c start run found begins pending due => ?_, fun s k h c last run found ends due => ?_⟩
  · have started := effect_startClaim s k h
    have runs : exec (.claimStart k h) s = .next (s.startClaim k h) :=
      congrArg Host.Outcome.next (exec_whenRunning run (fun s => s.startClaim k h))
    have now : s.startClaim k h = (s.tailClaim k h { c with pending := false, since := start }).recompute k := by
      simp [State.startClaim, found, begins, pending, due]
    rw [now] at runs started
    refine ⟨_, runs, ?_, ?_, started.frame⟩
    · exact (effect_recompute _ k).frame .claims (by decide)
    · exact segmentFollows_before (effect_tailClaim s k h _).frame (recompute_follows _ k)
  · have expired := effect_expireClaim s k (.master h)
    have runs : exec (.claimExpiry k (.master h)) s = .next (s.expireClaim k (.master h)) :=
      congrArg Host.Outcome.next (exec_whenRunning run (fun s => s.expireClaim k (.master h)))
    have now : s.expireClaim k (.master h) =
        (((s.dropClaim k (.master h)).recompute k).withdrawLinked c).tellClaimEnded k h c.reason 0 := by
      simp [State.expireClaim, found, ends, due]
    rw [now] at runs expired
    have dropped := effect_dropClaim s k (.master h)
    have recomputed := effect_recompute (s.dropClaim k (.master h)) k
    have withdrawn := effect_withdrawLinked ((s.dropClaim k (.master h)).recompute k) c
    have told := effect_tellClaimEnded (((s.dropClaim k (.master h)).recompute k).withdrawLinked c) k h c.reason 0
    have claims : unlinked ((((s.dropClaim k (.master h)).recompute k).withdrawLinked c).tellClaimEnded
        k h c.reason 0).segs.claims = unlinked (s.segs.claims.filter (fun d => !d.isOf k (.master h))) := by
      have same : ((((s.dropClaim k (.master h)).recompute k).withdrawLinked c).tellClaimEnded k h c.reason 0).segs.claims =
        (((s.dropClaim k (.master h)).recompute k).withdrawLinked c).segs.claims := told.frame .claims (by decide)
      have kept : ((s.dropClaim k (.master h)).recompute k).segs.claims = (s.dropClaim k (.master h)).segs.claims :=
        recomputed.frame .claims (by decide)
      rw [same, unlinked_withdrawLinked, kept]
      rfl
    refine ⟨_, runs, claim?_of_unlinked claims, claims, fun n p link posted => ?_, ?_, fun n to_ => ?_, expired.frame⟩
    · have slots : ((((s.dropClaim k (.master h)).recompute k).withdrawLinked c).tellClaimEnded
          k h c.reason 0).store.slots = (((s.dropClaim k (.master h)).recompute k).withdrawLinked c).store.slots :=
        told.frame .slots (by decide)
      rw [State.postedIn, slots, State.withdrawLinked, link]
      exact postedIn_endPosted _ n _ _
    · refine segmentFollows_before dropped.frame ?_
      refine segmentFollows_afterAll ?_ told.frame
      exact segmentFollows_after (recompute_follows _ k) withdrawn.frame (fun _ ok => follows_withdrawLinked c ok)
    · have gone := (dropped.seq (l := .claims :: roadParts) (K := lossKinds) recomputed).seq
        (l := .claims :: roadParts) (K := lossKinds) withdrawn
      have heard := heard_claimEnded (((s.dropClaim k (.master h)).recompute k).withdrawLinked c) k h n c.reason 0 to_
      rw [State.notice, now_of_frame gone.frame] at heard
      exact (Heard.before gone heard).told

end Sys2Proof.Proofs
end

