-- ==== Sys2Proof/Proofs/PhaseRows.lean ====
section
/-! The timers of the closing phases (R12, R13) and CONFIRM SWEEP (R18, R26, R38). -/

namespace Sys2Proof.Proofs

open Sys2Proof.Machine Sys2Proof.Safety Sys2Proof.Laws

/-! ### A segment written and followed up -/

section
variable {s : State} {k : Nat} {x : Segment} {f : Segment → Segment}

theorem updSegment_at (here : s.segs.records[k]? = some x) : (s.updSegment k f).segs.records[k]? = some (f x) := by
  rw [updSegment_records, List.getElem?_modify, here]
  simp

/-- An event that writes the record of a segment and follows it up, with its SEGMENT_STATE. -/
def segmentEvent (s : State) (k : Nat) (f : Segment → Segment) : State :=
  s.withSegmentNotice k (fun s => (s.updSegment k f).followUp k)

theorem effect_segmentEvent (s : State) (k : Nat) (f : Segment → Segment) :
    Effect roadParts roadKinds s (segmentEvent s k f) :=
  effect_withSegmentNotice s k _ (.seq (effect_updSegment s k f) (effect_followUp _ k))

theorem segmentEvent_record (here : s.segs.records[k]? = some x) :
    ∃ y, (segmentEvent s k f).segs.records[k]? = some y ∧ FollowedUp s.now (segmentEvent s k f) (f x) y := by
  obtain ⟨y, at_k, followed⟩ := followUp_record (updSegment_at (f := f) here)
  have gates : (segmentEvent s k f).gates = ((s.updSegment k f).followUp k).gates := withSegmentNotice_gates
  refine ⟨y, (withSegmentNotice_records s k _).symm ▸ at_k, followed.tested, followed.still, ?_⟩
  rw [gates]
  exact followed.lowered

end

/-! ### The closing phases (R12, R13) -/

theorem confirmingRunsOut {s : State} {k : Nat} {x : Segment} {due : Nat} (run : Running s)
    (here : s.segs.records[k]? = some x) (state : x.state = .closing) (phase : x.phase = some .confirming)
    (set : x.confirmDue = some due) (come : due ≤ s.now) :
    ∃ t y, exec (.confirmingExpiry k) s = .next t ∧ t.segs.records[k]? = some y ∧ y.unwarned = true ∧
      (x.remaining ≠ 0 → y.state = .closing ∧ y.phase = some .prewarn ∧ y.remaining = x.remaining) ∧
      (x.remaining = 0 → (y.state = .closing ∧ y.phase = some .lowering) ∨ y.state = .closed) ∧
      (∀ m, Told s t m .unwarned k (value16 x.cfg.approach.length) (value16 x.cfg.interval) 0#16) ∧
      Frame roadParts s t := by
  have event := effect_segmentEvent s k (fun y => { y.toPrewarn with unwarned := true })
  have runs : exec (.confirmingExpiry k) s =
      .next ((segmentEvent s k (fun y => { y.toPrewarn with unwarned := true })).tellAll
        ((segmentEvent s k (fun y => { y.toPrewarn with unwarned := true })).unwarnedNotice k x)) := by
    show Host.Outcome.next (s.whenRunning (fun s => s.expireConfirming k)) = _
    rw [exec_whenRunning run]
    simp [State.expireConfirming, here, state, phase, set, come, segmentEvent]
  have effect := effect_expireConfirming s k
  have notice : (segmentEvent s k (fun y => { y.toPrewarn with unwarned := true })).unwarnedNotice k x =
      s.notice .unwarned k (value16 x.cfg.approach.length) (value16 x.cfg.interval) 0#16 := by
    rw [State.unwarnedNotice, State.notice, State.notice, now_of_frame event.frame]
  obtain ⟨y, at_k, followed⟩ := segmentEvent_record (f := fun y => { y.toPrewarn with unwarned := true }) here
  have told (m : Master) := heard_tellAll (segmentEvent s k (fun y => { y.toPrewarn with unwarned := true })) m
    (s.notice .unwarned k (value16 x.cfg.approach.length) (value16 x.cfg.interval) 0#16)
  refine ⟨_, y, runs, at_k, followed.kept.2.2.2.2, fun some => ?_, fun zero => ?_, fun m => ?_, ?_⟩
  · have counts : x.toPrewarn = { x with phase := .some .prewarn, confirmDue := none } := if_neg some
    rw [followed.waits ⟨by rw [counts]; exact state, .inr (by rw [counts])⟩, counts]
    exact ⟨state, rfl, rfl⟩
  · have lowers : x.toPrewarn = { x with phase := some .lowering, confirmDue := none } := if_pos zero
    obtain ⟨stands, -⟩ := followed.tested.lowering
      (show ({ x.toPrewarn with unwarned := true } : Segment).state = .closing by rw [lowers]; exact state)
      (show ({ x.toPrewarn with unwarned := true } : Segment).phase = some .lowering by rw [lowers])
    exact stands.imp (fun ⟨a, b, _⟩ => ⟨a, b⟩) And.left
  · rw [notice]
    exact (Heard.before event (told m)).told
  · exact (event.seq (l := roadParts) (K := .unwarned :: roadKinds)
      (effect_tellAll _ _ .unwarned)).frame

theorem prewarnRunsOut {s : State} {k : Nat} {x : Segment} (run : Running s) (here : s.segs.records[k]? = some x)
    (state : x.state = .closing) (phase : x.phase = some .prewarn) (zero : x.remaining = 0) :
    ∃ t y, exec (.prewarnEnd k) s = .next t ∧ t.segs.records[k]? = some y ∧ y.demand = .lower ∧ y.remaining = 0 ∧
      ((y.state = .closing ∧ y.phase = some .lowering) ∨ y.state = .closed) ∧ Frame roadParts s t := by
  have runs : exec (.prewarnEnd k) s = .next (segmentEvent s k Segment.toLowering) := by
    show Host.Outcome.next (s.whenRunning (fun s => s.endPrewarn k)) = _
    rw [exec_whenRunning run]
    simp [State.endPrewarn, here, state, phase, zero, segmentEvent]
  obtain ⟨y, at_k, followed⟩ := segmentEvent_record (f := Segment.toLowering) here
  have enters : EntersLowering (segmentEvent s k Segment.toLowering) x y := followed.enters state rfl rfl rfl rfl
  exact ⟨_, y, runs, at_k, enters.demand, enters.remaining, enters.state, (effect_segmentEvent s k _).frame⟩

/-- Settles O37. -/
theorem closingPhasesRunOut : Obligations.ClosingPhasesRunOut := by
  refine ⟨fun s k x due run here state phase set come => confirmingRunsOut run here state phase set come,
    fun s k x run here state phase zero => prewarnRunsOut run here state phase zero,
    fun s k x old run here state phase slot => ?_⟩
  have formed : s.formSegmentSlot k = s.formSlot k (s.segmentContent k x) := by rw [State.formSegmentSlot, here]
  have runs : exec (.prewarnMinuteChange k) s = .next (s.formSlot k (s.segmentContent k x)) := by
    show Host.Outcome.next (s.whenRunning (fun s => s.changeMinute k)) = _
    rw [exec_whenRunning run, ← formed]
    simp [State.changeMinute, here, state, phase]
  refine ⟨_, _, runs, writeSlot_self slot, ?_, rfl, rfl, fun n other => writeSlot_apart other,
    (effect_formSlot s k _).frame⟩
  show s.segmentContent k x = _
  simp only [State.segmentContent, state]
  rfl

/-! ### Demand RAISE handed to a list (R18, R38) -/

theorem allUp_iff (s : State) (list : List Nat) : s.allUp list = true ↔
    ∀ g ∈ list, ∀ z, s.gates[g]? = some z → z.isUp = true := by
  simp only [State.allUp, State.gatesOf, List.all_eq_true, List.mem_filterMap]
  exact ⟨fun h g mem z here => h z ⟨g, mem, here⟩, fun h z ⟨g, mem, here⟩ => h g mem z here⟩

theorem isUp_iff (z : Gate) : z.isUp = true ↔ z.state = .up ∨ (z.state = .manual ∧ z.position = .atUp) := by
  simp [Gate.isUp]

theorem SameArm.isUp {x y : Gate} (h : SameArm x y) : y.isUp = x.isUp := by
  rw [Gate.isUp, Gate.isUp, h.state, h.position]

/-- The gates of a list are up in t as they are in s. -/
def UpAlike (list : List Nat) (s t : State) : Prop :=
  ∀ g ∈ list, (t.gates[g]?).map Gate.isUp = (s.gates[g]?).map Gate.isUp

namespace UpAlike

variable {list : List Nat} {s t u : State}

theorem trans (h : UpAlike list s t) (k : UpAlike list t u) : UpAlike list s u := fun g mem => (k g mem).trans (h g mem)

theorem allUp (h : UpAlike list s t) : t.allUp list = s.allUp list := by
  rw [Bool.eq_iff_iff, allUp_iff, allUp_iff]
  refine forall₂_congr fun g mem => ?_
  have same := h g mem
  cases here : s.gates[g]? with
  | none =>
    rw [here] at same
    simp [Option.map_eq_none_iff.1 same]
  | some z =>
    rw [here] at same
    obtain ⟨w, there, up⟩ := Option.map_eq_some_iff.1 same
    simp [there, up]

theorem of_map {f : Nat → Gate → Gate} (gates : ∀ j, t.gates[j]? = (s.gates[j]?).map (f j))
    (up : ∀ j z, (f j z).isUp = z.isUp) : UpAlike list s t := fun g _ => by
  rw [gates, Option.map_map]
  exact congrArg (fun h => Option.map h _) (funext fun z => up g z)

/-- A move that changes the arm of gate g alone, and not whether it is up. -/
theorem of_arms {g : Nat} (moves : Moves s t) (others : ArmsKept [g] s t)
    (own : ∀ z, s.gates[g]? = some z → ∃ w, t.gates[g]? = some w ∧ w.isUp = z.isUp) : UpAlike list s t := fun j _ => by
  cases here : s.gates[j]? with
  | none =>
    cases there : t.gates[j]? with
    | none => rfl
    | some w =>
      obtain ⟨z, before⟩ := Moves.gate_before moves there
      simp [here] at before
  | some z =>
    obtain rfl | other := eq_or_ne j g
    · obtain ⟨w, there, up⟩ := own z here
      rw [there, Option.map_some, Option.map_some, up]
    · obtain ⟨w, there, arm⟩ := others j (by simpa using other) z here
      rw [there, Option.map_some, Option.map_some, arm.isUp]

end UpAlike

theorem isUp_setLamp (z : Gate) (b : Bool) : (z.setLamp b).isUp = z.isUp := by
  unfold Gate.setLamp
  split <;> rfl

theorem upAlike_handLamps (s : State) (list l : List Nat) (b : Bool) : UpAlike list s (s.handLamps l b) :=
  .of_map (f := fun j x => if j ∈ l then x.setLamp b else x) (fun j => handLamps_gate s l b j) (fun j z => by
    split
    · exact isUp_setLamp z b
    · rfl)

theorem upAlike_recordDemand (s : State) (list l : List Nat) (d : Demand) : UpAlike list s (s.recordDemand l d) :=
  .of_map (f := fun j x => if j ∈ l then x.record d else x) (fun j => recordDemand_gate s l d j) (fun j z => by
    split <;> rfl)

/-- R38: demand RAISE makes no gate up. -/
theorem upAlike_applyRaise (s : State) (list : List Nat) (g : Nat) : UpAlike list s (s.applyRaise g) := by
  refine .of_arms (g := g) (moves_applyRaise s g) (armsKept_applyRaise s g) (fun z here => ?_)
  by_cases down : z.state = .down
  · have before : z.isUp = false := by simp [Gate.isUp, down]
    obtain ⟨raises, holds⟩ := applyRaise_down here down
    cases may : s.power.admits z.cfg with
    | true => exact ⟨_, raises may, before.symm⟩
    | false => exact ⟨_, holds may, rfl⟩
  · exact ⟨z, by rw [applyRaise_still here down, here], rfl⟩

section
variable {k : Nat} {x : Segment} {s : State} (state : x.state = .reopening) (swept : x.swept = true)
include state swept

/-- R18: the test of a segment in REOPENING with its sweep confirmed. -/
theorem testGates_reopening (here : s.segs.records[k]? = some x) :
    ∃ y, (s.testGates k).segs.records[k]? = some y ∧ (y.state ≠ .reopening ↔ s.allUp x.cfg.gates = true) ∧
      (s.allUp x.cfg.gates = false → y = x) := by
  have formed (t : State) : (t.formSegmentSlot k).segs.records = t.segs.records :=
    (effect_formSegmentSlot t k).frame .records (by decide)
  have recorded (t : State) (l : List Nat) (d : Demand) : (t.recordDemand l d).segs.records = t.segs.records :=
    (effect_recordDemand t l d).frame .records (by decide)
  simp only [State.testGates, here, state, swept, true_and]
  split
  · next done =>
    rw [formed, recorded, handLamps_records, updSegment_at here]
    refine ⟨_, rfl, ⟨fun _ => done, fun _ => ?_⟩, fun no => absurd done (by simp [no])⟩
    obtain e | e := openState_cases x.level <;> simp [e]
  · next no => exact ⟨x, here, ⟨fun moved => absurd state moved, fun done => absurd done no⟩, fun _ => rfl⟩

theorem blocks_reopening {g : Nat} {w : Gate} (mem : g ∈ x.cfg.gates) (notUp : w.isUp = false) : Blocks k x g w :=
  fun u record there => by
    have notAll : u.allUp x.cfg.gates = false := by
      rw [← Bool.not_eq_true, allUp_iff]
      exact fun all => absurd (all g mem w there) (by simp [notUp])
    obtain ⟨y, at_k, -, kept⟩ := testGates_reopening state swept record
    rw [at_k, kept notAll]

theorem applying_raise {g : Nat} (h : Applying k x .raise s) (mem : g ∈ x.cfg.gates) :
    Applying k x .raise (s.applyRecorded g) := h.applyRecorded mem fun z here demand => by
  rw [applyRecorded_raise here demand]
  by_cases down : z.state = .down
  · simp only [State.applyRaise, here, down]
    split
    · exact h.changeGate mem here (blocks_reopening state swept mem rfl) rfl
    · split
      · exact h
      · refine ⟨h.record, fun j hj w there => ?_⟩
        rw [tellAll_gates, updGate_gates, List.getElem?_modify] at there
        obtain ⟨v, at_j, rfl⟩ := Option.map_eq_some_iff.1 there
        have same := h.demand j hj v at_j
        split <;> exact same
  · rw [applyRaise_still here down]
    exact h

omit state swept in
theorem upAlike_applying {g : Nat} (h : Applying k x .raise s) (mem : g ∈ x.cfg.gates) :
    UpAlike x.cfg.gates s (s.applyRecorded g) := by
  cases here : s.gates[g]? with
  | none =>
    rw [State.applyRecorded, here]
    exact fun _ _ => rfl
  | some z =>
    obtain raise | none := h.demand g mem z here
    · rw [applyRecorded_raise here raise]
      exact upAlike_applyRaise s _ g
    · rw [applyRecorded_still here (by simp [none]) (by simp [none])]
      exact fun _ _ => rfl

/-- R18, R36: after demand RAISE the reopening is complete exactly when every gate of the list was up. -/
theorem handDemand_raise (here : s.segs.records[k]? = some x) :
    ∃ y, (s.handDemand k x.cfg.gates .raise).segs.records[k]? = some y ∧
      (y.state ≠ .reopening ↔ s.allUp x.cfg.gates = true) := by
  obtain ⟨applied, alike⟩ := List.foldlRecOn
    (motive := fun t => Applying k x .raise t ∧ UpAlike x.cfg.gates s t) x.cfg.gates State.applyRecorded
    ⟨.recorded here .raise, upAlike_recordDemand s _ _ _⟩
    (fun _ ⟨h, alike⟩ _ mem => ⟨applying_raise state swept h mem, alike.trans (upAlike_applying h mem)⟩)
  obtain ⟨y, at_k, opened, -⟩ := testGates_reopening state swept applied.record
  exact ⟨y, at_k, opened.trans (by rw [alike.allUp])⟩

end

/-! ### A notice that others do not disturb (R169) -/

/-- Each port that holds n in s holds it in t. -/
def Spares (n : Notice) (s t : State) : Prop := ∀ m, HoldsNotice (s.port m) n → HoldsNotice (t.port m) n

namespace Spares

variable {n : Notice} {s t u : State}

theorem refl (n : Notice) (s : State) : Spares n s s := fun _ => id

theorem trans (h : Spares n s t) (k : Spares n t u) : Spares n s u := fun m => k m ∘ h m

theorem of_effect {l : List Part} {K : List NoticeKind} (e : Effect l K s t) (other : n.kind ∉ K) : Spares n s t :=
  fun m hold => by
    obtain ⟨ns, kinds, port⟩ := e.heard m
    rw [port]
    exact List.foldlRecOn (motive := fun p => HoldsNotice p n) ns Port.take hold
      (fun p hold x hx => holds_take_other hold (fun same => other (same.1 ▸ kinds x hx)))

theorem tell (s : State) (m : Master) {x : Notice} (other : ¬ (x.kind = n.kind ∧ x.object = n.object)) :
    Spares n s (s.tell m x) := fun k hold => by
  obtain rfl | away := eq_or_ne k m
  · rw [port_tell]
    exact holds_take_other hold other
  · rwa [port_tell_ne s away]

theorem tellAll (s : State) {x : Notice} (other : ¬ (x.kind = n.kind ∧ x.object = n.object)) :
    Spares n s (s.tellAll x) := ((tell s .centre other).trans (tell _ .slope other)).trans (tell _ .crew other)

end Spares

/-- A demand applied to another gate tells nothing of the raise held at this one. -/
theorem spares_applyRecorded {n : Notice} (kind : n.kind = .gateHeld) (s : State) {j : Nat} (other : j ≠ n.object) :
    Spares n s (s.applyRecorded j) := by
  unfold State.applyRecorded
  split
  · exact .refl n s
  · split
    · exact .of_effect (effect_applyLower s j) (by rw [kind]; decide)
    · unfold State.applyRaise
      split
      · exact .refl n s
      · split
        · split
          · exact .of_effect (effect_changeGate s j _) (by rw [kind]; decide)
          · split
            · exact .refl n s
            · exact (Spares.of_effect (effect_updGate s j _) (by simp)).trans (.tellAll _ (fun same => other same.2))
        all_goals exact .refl n s
    · exact .refl n s
    · exact .refl n s

/-! ### CONFIRM SWEEP (R26) -/

/-- The state in which a follow-up hands a new demand over. -/
def demanded (s : State) (k : Nat) (z : Segment) : State :=
  (s.handLamps z.cfg.gates z.wantedLamps).updSegment k (fun y => { y with demand := z.wantedDemand })

section
variable {s : State} {k : Nat} {z : Segment}

theorem followUp_handed (here : s.segs.records[k]? = some z) (moved : z.demand ≠ z.wantedDemand) : s.followUp k =
    ((demanded s k z).handDemand k z.cfg.gates z.wantedDemand).formSegmentSlot k := by
  simp only [State.followUp, here, if_neg moved]
  rfl

theorem effect_demanded (s : State) (k : Nat) (z : Segment) : Effect [.records, .gates] [] s (demanded s k z) :=
  .seq (effect_handLamps s _ _) (effect_updSegment _ k _)

theorem demanded_record (here : s.segs.records[k]? = some z) :
    (demanded s k z).segs.records[k]? = some { z with demand := z.wantedDemand } :=
  updSegment_at (by rw [handLamps_records, here])

/-- R18: a reopening whose sweep is confirmed is complete exactly when every gate of its list is up. -/
theorem followUp_raised (here : s.segs.records[k]? = some z) (state : z.state = .reopening) (swept : z.swept = true)
    (moved : z.demand ≠ .raise) :
    ∃ y, (s.followUp k).segs.records[k]? = some y ∧ (y.state ≠ .reopening ↔ s.allUp z.cfg.gates = true) := by
  have wanted : z.wantedDemand = .raise := by simp [Segment.wantedDemand, state, swept]
  have formed (t : State) : (t.formSegmentSlot k).segs.records = t.segs.records :=
    (effect_formSegmentSlot t k).frame .records (by decide)
  obtain ⟨y, at_k, complete⟩ := handDemand_raise (x := { z with demand := z.wantedDemand }) state swept (demanded_record here)
  have lamps : UpAlike z.cfg.gates s (demanded s k z) := upAlike_handLamps s _ _ _
  rw [followUp_handed here (wanted ▸ moved), formed, wanted]
  exact ⟨y, at_k, complete.trans (by rw [lamps.allUp])⟩

end

/-- R38, R57: a raise refused, in a gate not yet held, tells GATE_HELD. -/
theorem heard_applyRaise {s : State} {g : Nat} {z : Gate} (here : s.gates[g]? = some z) (down : z.state = .down)
    (refused : s.power.admits z.cfg = false) (held : z.raiseHeld = false) (m : Master) :
    Heard s (s.applyRaise g) m (s.heldNotice g z) := by
  have told : s.applyRaise g = (s.updGate g (fun y => { y with raiseHeld := true })).tellAll (s.heldNotice g z) := by
    simp only [State.applyRaise, here, down, refused, held, Bool.false_eq_true, if_false]
    rfl
  rw [told]
  exact .before (effect_updGate s g _) (heard_tellAll _ m _)

/-- What demand RAISE makes of the gate that it is applied to first, and what it tells. -/
theorem handDemand_raise_first {s : State} {k g : Nat} {more : List Nat} {z : Gate} (alone : g ∉ more)
    (here : s.gates[g]? = some z) (down : z.state = .down) :
    (s.power.admits z.cfg = true →
      HasArm (s.handDemand k (g :: more) .raise) g ((z.record .raise).startRaising)) ∧
    (s.power.admits z.cfg = false → HasArm (s.handDemand k (g :: more) .raise) g { z.record .raise with raiseHeld := true } ∧
      (z.raiseHeld = false → ∀ m, Heard s (s.handDemand k (g :: more) .raise) m (s.heldNotice g z))) := by
  have recorded : (s.recordDemand (g :: more) .raise).gates[g]? = some (z.record .raise) := by
    rw [recordDemand_gate, here]
    simp
  have effect := effect_recordDemand s (g :: more) .raise
  have power : (s.recordDemand (g :: more) .raise).power = s.power := power_kept effect.frame
  have kept : ArmsKept more ((s.recordDemand (g :: more) .raise).applyRecorded g)
      (s.handDemand k (g :: more) .raise) :=
    (ArmsKept.each armsKept_applyRecorded more _).trans (armsKept_testGates more _ k)
  rw [applyRecorded_raise recorded rfl] at kept
  obtain ⟨raises, holds⟩ := applyRaise_down recorded down
  rw [power] at raises holds
  refine ⟨fun may => HasArm.then ⟨_, raises may, .refl _⟩ kept alone,
    fun no => ⟨HasArm.then ⟨_, holds no, .refl _⟩ kept alone, fun held m admits => ?_⟩⟩
  have heard := heard_applyRaise recorded down (by rw [power]; exact no) (by simp [Gate.record, held]) m
  have notice : (s.recordDemand (g :: more) .raise).heldNotice g (z.record .raise) = s.heldNotice g z := by
    rw [State.heldNotice, State.heldNotice, power, State.notice, State.notice, now_of_frame effect.frame]
    rfl
  rw [notice] at heard
  have more_ : Spares (s.heldNotice g z) ((s.recordDemand (g :: more) .raise).applyRaise g)
      (more.foldl State.applyRecorded ((s.recordDemand (g :: more) .raise).applyRaise g)) :=
    List.foldlRecOn (motive := Spares _ _) more _ (.refl _ _)
      (fun t h j mem => h.trans (spares_applyRecorded rfl t (fun same : j = g => alone (same ▸ mem))))
  have tested := Spares.of_effect (n := s.heldNotice g z) (effect_testGates
    (more.foldl State.applyRecorded ((s.recordDemand (g :: more) .raise).applyRaise g)) k) (by simp)
  rw [State.handDemand, List.foldl_cons, applyRecorded_raise recorded rfl]
  exact tested m (more_ m ((Heard.before effect heard) admits))

/-- The state of a segment's record in which its sweep is confirmed. -/
def sweptBy (x : Segment) : Segment := { x with swept := true }

/-- R26, R38: what the confirmed sweep makes of the first gate of the list, and what it tells. -/
theorem sweep_first {s : State} {k g : Nat} {more : List Nat} {x : Segment} {z : Gate}
    (record : s.segs.records[k]? = some x) (state : x.state = .reopening) (demand : x.demand = .hold)
    (list : x.cfg.gates = g :: more) (alone : g ∉ more) (here : s.gates[g]? = some z) (down : z.state = .down) :
    ∃ w, (segmentEvent s k sweptBy).gates[g]? = some w ∧
      (s.power.admits z.cfg = true → w.state = .raising ∧ w.travel = z.cfg.timeout ∧ w.raiseHeld = false) ∧
      (s.power.admits z.cfg = false → w.state = .down ∧ (z.raiseHeld = false → ∀ m,
        Heard s (segmentEvent s k sweptBy) m (s.heldNotice g z))) := by
  have swept : (s.updSegment k sweptBy).segs.records[k]? = some (sweptBy x) := updSegment_at record
  have wanted : (sweptBy x).wantedDemand = .raise := by simp [Segment.wantedDemand, sweptBy, state]
  have event : (s.updSegment k sweptBy).followUp k =
      ((demanded (s.updSegment k sweptBy) k (sweptBy x)).handDemand k (g :: more) .raise).formSegmentSlot k := by
    rw [followUp_handed swept (by rw [wanted]; simp [sweptBy, demand]), wanted, show (sweptBy x).cfg.gates = g :: more from list]
  have effect : Effect [.records, .gates] [] s (demanded (s.updSegment k sweptBy) k (sweptBy x)) :=
    .seq (effect_updSegment s k sweptBy) (effect_demanded _ k _)
  have lamp : (demanded (s.updSegment k sweptBy) k (sweptBy x)).gates[g]? =
      some (z.setLamp (sweptBy x).wantedLamps) := by
    have gates := handLamps_gate (s.updSegment k sweptBy) (sweptBy x).cfg.gates (sweptBy x).wantedLamps g
    rw [show (s.updSegment k sweptBy).gates[g]? = some z from here, show (sweptBy x).cfg.gates = g :: more from list] at gates
    simpa [demanded, sweptBy, list] using gates
  have cfg : (z.setLamp (sweptBy x).wantedLamps).cfg = z.cfg := by unfold Gate.setLamp; split <;> rfl
  have held : (z.setLamp (sweptBy x).wantedLamps).raiseHeld = z.raiseHeld := by unfold Gate.setLamp; split <;> rfl
  obtain ⟨raises, holds⟩ := handDemand_raise_first (k := k) alone lamp ((setLamp_state z _).trans down)
  rw [cfg, power_kept effect.frame] at raises holds
  have gates : (segmentEvent s k sweptBy).gates =
      ((demanded (s.updSegment k sweptBy) k (sweptBy x)).handDemand k (g :: more) .raise).gates := by
    rw [segmentEvent, withSegmentNotice_gates, event]
    exact (effect_formSegmentSlot _ k).frame .gates (by decide)
  cases may : s.power.admits z.cfg with
  | true =>
    obtain ⟨w, there, arm⟩ := raises may
    refine ⟨w, gates ▸ there, fun _ => ⟨arm.state, arm.travel.trans (congrArg GateConfig.timeout cfg), ?_⟩, nofun⟩
    exact Bool.eq_false_iff.2 (fun on => absurd (arm.held on) (by simp [Gate.startRaising]))
  | false =>
    obtain ⟨⟨w, there, arm⟩, told⟩ := holds may
    refine ⟨w, gates ▸ there, nofun, fun _ => ⟨arm.state.trans ((setLamp_state z _).trans down), fun free m => ?_⟩⟩
    have notice : (demanded (s.updSegment k sweptBy) k (sweptBy x)).heldNotice g (z.setLamp (sweptBy x).wantedLamps) =
        s.heldNotice g z := by
      rw [State.heldNotice, State.heldNotice, cfg, power_kept effect.frame, State.notice, State.notice,
        now_of_frame effect.frame]
    have heard := told (held.trans free) m
    rw [notice] at heard
    have formed := (Heard.before effect heard).after (effect_formSegmentSlot _ k) (by simp)
    rw [← event] at formed
    refine fun admits => ?_
    have shown := formed admits
    rw [segmentEvent, State.withSegmentNotice]
    split
    · split
      · exact shown
      · exact Spares.tellAll (n := s.heldNotice g z) _ (fun same => absurd same.1 (show NoticeKind.segmentState ≠ .gateHeld by decide)) m shown
    · exact shown

/-- Settles O33. -/
theorem confirmSweepRaisesOrCompletes : Obligations.ConfirmSweepRaisesOrCompletes := by
  intro s m r rest k x w number record right state
  subst number
  have record' : (s.takeQueued m rest).segs.records[read1 r.body 0]? = some x := record
  have right' : (s.takeQueued m rest).hasRight (read1 r.body 0) m sweepRight = true := right
  refine ⟨fun swept => ?_, fun unswept => ?_⟩
  · refine accepted_still (exec_waiting w) ?_
    simp [owning, State.confirmSweep, record', right', state, swept]
  · have answer : owning .confirmSweep m r.body (s.takeQueued m rest) =
        Answer.ok [] (segmentEvent (s.takeQueued m rest) (read1 r.body 0) sweptBy) := by
      simp [owning, State.confirmSweep, record', right', state, unswept]
      rfl
    obtain ⟨runs, finishes⟩ := accepted (exec_waiting w) answer (effect_segmentEvent _ _ sweptBy)
    have swept : ((s.takeQueued m rest).updSegment (read1 r.body 0) sweptBy).segs.records[read1 r.body 0]? =
        some (sweptBy x) := updSegment_at record'
    obtain ⟨y, at_k, followed⟩ := segmentEvent_record (f := sweptBy) record'
    have wanted : (sweptBy x).wantedDemand = .raise := by simp [Segment.wantedDemand, sweptBy, state]
    refine ⟨_, y, runs, at_k, followed.kept.2.1, ?_, fun hold => ?_, fun g more z hold list alone here down => ?_, finishes⟩
    · have tested := followed.tested
      rw [wanted] at tested
      generalize y = v at tested ⊢
      cases tested with
      | still b same => exact .inl ⟨state, rfl, rfl⟩
      | closed b closing _ => exact absurd (state.symm.trans closing) (by decide)
      | opened _ _ => exact .inr ⟨rfl, rfl, rfl⟩
    · obtain ⟨y', at_k', complete⟩ := followUp_raised swept state rfl (by simp [sweptBy, hold])
      rw [segmentEvent, withSegmentNotice_records] at at_k
      obtain rfl := Option.some.inj (at_k.symm.trans at_k')
      refine complete.trans ((allUp_iff _ _).trans ?_)
      simp only [isUp_iff]
      rfl
    · obtain ⟨v, there, raises, holds⟩ := sweep_first record' state hold list alone here down
      refine ⟨v, there, fun may => raises ((admits_iff _ _).2 may), fun no => ?_⟩
      obtain ⟨rests, told⟩ := holds (Bool.eq_false_iff.2 (fun may => no ((admits_iff _ _).1 may)))
      exact ⟨rests, fun free n => ((told free n).finish m _).taken.told⟩

end Sys2Proof.Proofs
end

