-- ==== Sys2Proof/Proofs/SignRows.lean ====
section
/-! The sign line short of its replies (R83 to R87, R92, R94, R95, R100 to R102): requests and their entries, the timers that
enter them, SET SIGN, and a transaction opened and sent. -/

namespace Sys2Proof.Proofs

open Sys2Proof.Machine Sys2Proof.Safety Sys2Proof.Laws

/-! ### Entries (R83) -/

/-- The transmit list has an entry of sign k. -/
def Entered (s : State) (k : Nat) : Prop := ∃ e ∈ s.line.entries, e.sign = k

section
variable {s : State} {k : Nat} {x : Sign} {r : EntryReason}

theorem updSign_set {f : Sign → Sign} (here : s.line.signs[k]? = some x) :
    (s.updSign k f).line.signs = s.line.signs.set k (f x) := modify_of_getElem? here f

theorem updSign_at {f : Sign → Sign} (here : s.line.signs[k]? = some x) :
    (s.updSign k f).line.signs[k]? = some (f x) := by
  obtain ⟨inside, -⟩ := List.getElem?_eq_some_iff.1 here
  rw [updSign_set here, List.getElem?_set_self inside]

theorem enter_entries (idle : s.inFlightFor k = false) : Entered (s.enter k r) k ∧
    ((∀ e ∈ s.line.entries, e.sign ≠ k) → (s.enter k r).line.entries =
      s.line.entries ++ [{ sign := k, reason := r, time := s.now, order := s.line.made }]) := by
  rw [State.enter, if_neg (by simp [idle])]
  split
  · next present =>
    obtain ⟨e, mem, own⟩ := List.any_eq_true.1 present
    have own' : e.sign = k := by simpa using own
    refine ⟨⟨_, List.mem_map.2 ⟨e, mem, rfl⟩, ?_⟩, fun none => absurd own' (none e mem)⟩
    split <;> exact own'
  · exact ⟨⟨_, List.mem_append_right _ (List.mem_singleton_self _), rfl⟩, fun _ => rfl⟩

theorem request_takes (here : s.line.signs[k]? = some x) (takes : x.takesRequests = true) :
    s.request k r = s.enter k r := by
  rw [State.request, here]
  exact if_pos takes

/-- R83: a request for a sign that takes it and has nothing in flight. -/
theorem request_entries (here : s.line.signs[k]? = some x) (takes : x.takesRequests = true)
    (idle : s.inFlightFor k = false) : Entered (s.request k r) k ∧
      ((∀ e ∈ s.line.entries, e.sign ≠ k) → ∃ e, (s.request k r).line.entries = s.line.entries ++ [e] ∧ e.sign = k ∧
        e.reason = r ∧ e.time = s.now) := by
  rw [request_takes here takes]
  obtain ⟨entered, new⟩ := enter_entries (r := r) idle
  exact ⟨entered, fun none => ⟨_, new none, rfl, rfl, rfl⟩⟩

/-- R83: a request for any sign leaves an entry in the list. -/
theorem entered_request (j : Nat) (h : Entered s k) : Entered (s.request j r) k := by
  obtain ⟨e, mem, own⟩ := h
  unfold State.request
  split
  · exact ⟨e, mem, own⟩
  · split
    · unfold State.enter
      split
      · exact ⟨e, mem, own⟩
      · split
        · refine ⟨_, List.mem_map.2 ⟨e, mem, rfl⟩, ?_⟩
          split <;> exact own
        · exact ⟨e, List.mem_append_left _ mem, own⟩
    · exact ⟨e, mem, own⟩

theorem inFlightFor_request (s : State) (j k : Nat) (r : EntryReason) : (s.request j r).inFlightFor k = s.inFlightFor k := by
  have flight := (moves_request s j r).flight
  unfold State.inFlightFor
  cases after : (s.request j r).line.inFlight with
  | none =>
    rw [after] at flight
    simp [Option.map_eq_none_iff.1 flight.symm]
  | some x =>
    rw [after] at flight
    obtain ⟨y, before, same⟩ := Option.map_eq_some_iff.1 flight.symm
    simp only [before]
    rw [← congrArg InFlight.entry same]

end

/-! ### The timers of the line (R92, R94, R95) -/

theorem eachRequest_entered {s : State} {k : Nat} {x : Sign} (r : EntryReason) (here : s.line.signs[k]? = some x)
    (takes : x.takesRequests = true) (idle : s.inFlightFor k = false) :
    Entered (s.eachSign (fun t k => t.request k r)) k := by
  obtain ⟨inside, -⟩ := List.getElem?_eq_some_iff.1 here
  rw [State.eachSign, range_split inside, List.foldl_append, List.foldl_cons]
  refine List.foldlRecOn (motive := fun t => Entered t k) _ _ ?_ (fun t h j _ => entered_request j h)
  have before := Effect.fold (fun (t : State) j => t.request j r) (fun t j => effect_request t j r)
    (List.range k) s
  have signs : ((List.range k).foldl (fun (t : State) j => t.request j r) s).line.signs = s.line.signs :=
    before.frame .signs (by decide)
  refine (request_entries (signs ▸ here) takes ?_).1
  exact List.foldlRecOn (motive := fun t : State => t.inFlightFor k = false) _ _ idle
    (fun t h j _ => (inFlightFor_request t j k _).trans h)

/-- Settles O50. -/
theorem signTimersEnterRequests : Obligations.SignTimersEnterRequests := by
  refine ⟨fun s k x due run here due_ come takes idle => ?_, fun s k x due run here due_ come takes idle => ?_,
    fun s due run due_ come => ?_⟩
  · have runs : exec (.refreshDue k) s =
        .next ((s.updSign k (fun x => { x with refreshDue := none })).request k .refresh) := by
      show Host.Outcome.next (s.whenRunning (fun s => s.refreshArrives k)) = _
      rw [exec_whenRunning run, State.refreshArrives, here, Option.bind_some, due_]
      dsimp only
      rw [if_pos come]
    have effect := (effect_updSign s k (fun x => { x with refreshDue := none })).seq (l := [.signs, .transmit]) (K := [])
      (effect_request _ k .refresh)
    have signs : ((s.updSign k (fun x => { x with refreshDue := none })).request k .refresh).line.signs =
        s.line.signs.set k { x with refreshDue := none } :=
      ((effect_request _ k .refresh).frame .signs (by decide)).trans (updSign_set here)
    obtain ⟨entered, new⟩ := request_entries (s := s.updSign k (fun x => { x with refreshDue := none })) (r := .refresh)
      (updSign_at here) takes idle
    exact ⟨_, runs, signs, entered, new, effect.frame⟩
  · have runs : exec (.probeDue k) s =
        .next ((s.updSign k (fun x => { x with probeDue := some (due + 60) })).request k .probe) := by
      show Host.Outcome.next (s.whenRunning (fun s => s.probeArrives k)) = _
      rw [exec_whenRunning run, State.probeArrives, here, Option.bind_some, due_]
      dsimp only
      rw [if_pos come]
      rfl
    have effect := (effect_updSign s k (fun x => { x with probeDue := some (due + 60) })).seq (l := [.signs, .transmit])
      (K := []) (effect_request _ k .probe)
    have signs : ((s.updSign k (fun x => { x with probeDue := some (due + 60) })).request k .probe).line.signs =
        s.line.signs.set k { x with probeDue := some (due + 60) } :=
      ((effect_request _ k .probe).frame .signs (by decide)).trans (updSign_set here)
    obtain ⟨entered, new⟩ := request_entries (s := s.updSign k (fun x => { x with probeDue := some (due + 60) }))
      (r := .probe) (updSign_at here) takes idle
    exact ⟨_, runs, signs, entered, new, effect.frame⟩
  · have runs : exec .lineRecovery s = .next s.recoverLine := by
      show Host.Outcome.next (s.whenRunning (fun s => match s.line.recovery with
        | none => s
        | some t => if t ≤ s.now then s.recoverLine else s)) = _
      rw [exec_whenRunning run, due_]
      exact congrArg Host.Outcome.next (if_pos come)
    have asked := effect_eachSign
      ({ s with line := { s.line with errors := 0, state := .up, recovery := none } } : State)
      (fun t k => effect_request t k .refresh)
    obtain ⟨state, errors, recovery⟩ := asked.frame .line (by decide)
    exact ⟨_, runs, state, errors, recovery, fun k x here takes idle => eachRequest_entered .refresh (s :=
      { s with line := { s.line with errors := 0, state := .up, recovery := none } }) here takes idle,
      (effect_recoverLine s).frame⟩

/-! ### Transactions (R84 to R87, R188) -/

theorem entryBefore_iff (s : State) (a b : Entry) : s.entryBefore a b = true ↔ s.entryClass b < s.entryClass a ∨
    (s.entryClass a = s.entryClass b ∧ (a.time < b.time ∨ (a.time = b.time ∧ a.order < b.order))) := by
  simp [State.entryBefore]

/-- R84: what does not stand before d does not stand before an entry that d does not stand before. -/
theorem entryBefore_trans {s : State} {a b c : Entry} (h : s.entryBefore a b = false) (k : s.entryBefore b c = false) :
    s.entryBefore a c = false := by
  rw [← Bool.not_eq_true, entryBefore_iff] at *
  omega

theorem entryBefore_asymm {s : State} {a b : Entry} (h : s.entryBefore a b = true) : s.entryBefore b a = false := by
  rw [← Bool.not_eq_true, entryBefore_iff] at *
  omega

theorem entryBefore_irrefl (s : State) (a : Entry) : s.entryBefore a a = false := by
  rw [← Bool.not_eq_true, entryBefore_iff]
  omega

/-- R84: the head is an entry of the list that no other precedes. -/
theorem headEntry_first {s : State} {l : List Entry} {e : Entry} (h : s.headEntry l = some e) :
    e ∈ l ∧ ∀ d ∈ l, s.entryBefore d e = false := by
  induction l generalizing e with
  | nil => cases h
  | cons a rest ih =>
    rw [State.headEntry] at h
    cases head : s.headEntry rest with
    | none =>
      have empty : rest = [] := by
        cases rest with
        | nil => rfl
        | cons b more =>
          rw [State.headEntry] at head
          split at head
          · cases head
          · split at head <;> cases head
      rw [head] at h
      obtain rfl := Option.some.inj h
      subst empty
      exact ⟨List.mem_singleton_self _, fun d hd => by rw [List.mem_singleton.1 hd]; exact entryBefore_irrefl s _⟩
    | some d =>
      obtain ⟨mem, first⟩ := ih head
      rw [head] at h
      dsimp only at h
      split at h
      · next before =>
        obtain rfl := Option.some.inj h
        refine ⟨List.mem_cons_of_mem _ mem, fun c hc => ?_⟩
        obtain rfl | hc := List.mem_cons.1 hc
        · exact entryBefore_asymm before
        · exact first c hc
      · next before =>
        obtain rfl := Option.some.inj h
        refine ⟨List.mem_cons_self, fun c hc => ?_⟩
        obtain rfl | hc := List.mem_cons.1 hc
        · exact entryBefore_irrefl s _
        · exact entryBefore_trans (first c hc) (Bool.eq_false_iff.2 before)

theorem messageBytes_start (address : Nat) (op : Operation) :
    (messageBytes address op).take 2 = [0xC5#8, byteOf address] := by
  cases op <;> rfl

theorem sumBytes_withSumCheck (bytes : List Byte) : sumBytes (withSumCheck bytes) = 0#8 := by
  rw [withSumCheck, sumBytes, List.foldl_append]
  show sumBytes bytes + -sumBytes bytes = 0#8
  bv_omega

theorem sumBytes_message (address : Nat) (op : Operation) : sumBytes (messageBytes address op) = 0#8 := by
  cases op <;> exact sumBytes_withSumCheck _

theorem firstExchange_asked {s : State} {e : Entry} (h : e.reason = .change ∨ e.reason = .refresh) :
    (s.firstExchange e).2 = s.notedContent e.sign ∧ (s.firstExchange e).1 = (match s.notedContent e.sign with
      | none => .blank
      | some a => .show a.cls a.catalogue a.params) := by
  obtain reason | reason := h
  all_goals
    simp only [State.firstExchange, reason]
    cases s.notedContent e.sign <;> exact ⟨rfl, rfl⟩

/-- Settles O47. -/
theorem transactionsOpenAndSend : Obligations.TransactionsOpenAndSend := by
  refine ⟨fun s e x run up idle head here => ?_, fun s w run flying sending => ?_⟩
  · have free : s.line.idle = true := by simp [SignLine.idle, up, idle]
    have effect := effect_startTransaction s
    have runs : exec .transactionStart s = .next s.startTransaction := by
      show Host.Outcome.next (s.whenRunning (fun s => if s.line.idle then s.startTransaction else s)) = _
      rw [exec_whenRunning run, if_pos free]
    have opened : s.startTransaction = { s with line := { s.line with
        entries := s.line.entries.filter (fun y => y.sign != e.sign), inFlight := some (s.openTransaction e x) } } := by
      simp only [State.startTransaction, head, here]
    rw [opened] at runs effect
    obtain ⟨mem, first⟩ := headEntry_first head
    refine ⟨_, _, runs, rfl, rfl, rfl, mem, first, rfl, fun probe => ?_, fun blank => ?_, fun asked => ?_,
      messageBytes_start _ _, sumBytes_message _ _, effect.frame⟩
    · simp [State.openTransaction, State.firstExchange, probe]
    · simp [State.openTransaction, State.firstExchange, blank]
    · obtain ⟨noted, op⟩ := firstExchange_asked (s := s) asked
      refine ⟨noted, op.trans ?_⟩
      rw [← noted]
      rfl
  · have effect := effect_messageSent s
    have sent : s.messageSent = s.setInFlight (some { w with exchange := .window 30 }) := by
      simp only [State.messageSent, State.sending, flying, sending, if_true]
      rfl
    have runs : exec .messageSent s = .next s.messageSent := congrArg Host.Outcome.next (exec_whenRunning run _)
    rw [sent] at runs effect
    exact ⟨_, runs, rfl, rfl, effect.frame⟩

/-! ### SET SIGN (R100 to R102) -/

theorem forceBlank_entries {s : State} {k : Nat} (idle : s.inFlightFor k = false) :
    ∃ e ∈ (s.forceBlank k).line.entries, e.sign = k ∧ e.reason = .blank := by
  rw [State.forceBlank, if_neg (by simp [idle])]
  split
  · next present =>
    obtain ⟨e, mem, own⟩ := List.any_eq_true.1 present
    refine ⟨_, List.mem_map.2 ⟨e, mem, rfl⟩, ?_⟩
    rw [if_pos own]
    exact ⟨by simpa using own, rfl⟩
  · exact ⟨_, List.mem_append_right _ (List.mem_singleton_self _), rfl, rfl⟩

theorem forceBlank_held {s : State} {k : Nat} (flying : s.inFlightFor k = true) :
    ∃ w, (s.forceBlank k).line.inFlight = some w ∧ w.held = some .blank := by
  rw [State.forceBlank, if_pos flying]
  unfold State.inFlightFor at flying
  cases here : s.line.inFlight with
  | none => simp [here] at flying
  | some x => exact ⟨_, rfl, rfl⟩

theorem forceBlank_signs (s : State) (k : Nat) : (s.forceBlank k).line.signs = s.line.signs :=
  (effect_forceBlank s k).frame .signs (by decide)

section
variable {s : State} {r : Request} {rest : List Request} {x : Sign}

/-- SET SIGN from CENTRE on a described sign, with an enable byte of 0 or 1, is answered by the standing of the sign. -/
theorem owning_setSign (here : s.line.signs[read1 r.body 0]? = some x) (byte : read1 r.body 1 ≤ 1) :
    owning .setSign .centre r.body (s.takeQueued .centre rest) =
      (s.takeQueued .centre rest).applySetSign (read1 r.body 0) x (read1 r.body 1 == 1) := by
  have here' : (s.takeQueued .centre rest).line.signs[read1 r.body 0]? = some x := here
  simp [owning, State.setSign, here', Nat.not_lt.2 byte]

theorem signDisabled (w : Waits s .centre .setSign r rest) (here : s.line.signs[read1 r.body 0]? = some x)
    (byte : read1 r.body 1 = 0) (pending : x.disablePending = false) (state : x.state ≠ .disabled) :
    ∃ t y, exec (.setSignDisable .centre) s = .next t ∧ t.line.signs[read1 r.body 0]? = some y ∧ y.disablePending = true ∧
      y.state = x.state ∧ y.refreshDue = none ∧ y.probeDue = none ∧
      (s.inFlightFor (read1 r.body 0) = false → y.attempts = 0 ∧
        ∃ e ∈ t.line.entries, e.sign = read1 r.body 0 ∧ e.reason = .blank) ∧
      (s.inFlightFor (read1 r.body 0) = true → ∃ w, t.line.inFlight = some w ∧ w.held = some .blank) ∧
      Finishes s t .centre rest (okTo r []) [.signs, .transmit] := by
  have runs := exec_waiting w
  have row : Command.setSign.row .centre r.body = .setSignDisable .centre := by simp [Command.row, byte]
  rw [row] at runs
  have answer : owning .setSign .centre r.body (s.takeQueued .centre rest) =
      Answer.ok [] ((s.takeQueued .centre rest).disableSign (read1 r.body 0)) := by
    rw [owning_setSign here (by omega), State.applySetSign, pending, byte]
    simp [state]
  obtain ⟨runs, finishes⟩ := accepted runs answer (effect_disableSign _ _)
  have here' : ((s.takeQueued .centre rest).forceBlank (read1 r.body 0)).line.signs[read1 r.body 0]? = some x :=
    (forceBlank_signs _ _).symm ▸ here
  refine ⟨_, _, runs, updSign_at here', rfl, rfl, rfl, rfl, fun idle => ⟨?_, ?_⟩, fun flying => ?_, finishes⟩
  · exact if_neg (by rw [show (s.takeQueued .centre rest).inFlightFor (read1 r.body 0) = false from idle]; simp)
  · exact forceBlank_entries (s := s.takeQueued .centre rest) idle
  · exact forceBlank_held (s := s.takeQueued .centre rest) flying

/-- R102: the record of a sign that is enabled. -/
def enabled (x : Sign) : Sign :=
  { x with state := .unknown, lampFault := false, heaterFault := false, doorOpen := false, refused := false,
           attempts := 0, lastAck := none, refreshDue := none, probeDue := none }

theorem signEnabled (w : Waits s .centre .setSign r rest) (here : s.line.signs[read1 r.body 0]? = some x)
    (byte : read1 r.body 1 = 1) (pending : x.disablePending = false) (state : x.state = .disabled) :
    ∃ t y, exec (.setSignEnable .centre) s = .next t ∧ t.line.signs[read1 r.body 0]? = some y ∧ y.state = .unknown ∧
      y.lampFault = false ∧ y.heaterFault = false ∧ y.doorOpen = false ∧ y.refused = false ∧ y.attempts = 0 ∧
      y.lastAck = none ∧ y.refreshDue = none ∧ y.probeDue = none ∧ y.ack = x.ack ∧
      (∀ m, (s.port m).admits .signState = true →
        ((t.port m).overflow = true ∧ 16 ≤ (t.port m).notices.length) ∨
          ∃ n ∈ (t.port m).notices, n.kind = .signState ∧ n.object = read1 r.body 0) ∧
      (s.inFlightFor (read1 r.body 0) = false → (∃ e ∈ t.line.entries, e.sign = read1 r.body 0) ∧
        ((∀ e ∈ s.line.entries, e.sign ≠ read1 r.body 0) → ∃ e, t.line.entries = s.line.entries ++ [e] ∧
          e.sign = read1 r.body 0 ∧ e.reason = .probe ∧ e.time = s.now)) ∧
      Finishes s t .centre rest (okTo r []) ([.signs, .transmit] ++ noticeParts) := by
  have runs := exec_waiting w
  have row : Command.setSign.row .centre r.body = .setSignEnable .centre := by simp [Command.row, byte]
  rw [row] at runs
  have answer : owning .setSign .centre r.body (s.takeQueued .centre rest) =
      Answer.ok [] ((s.takeQueued .centre rest).enableSign (read1 r.body 0) x.state) := by
    rw [owning_setSign here (by omega), State.applySetSign, pending, byte]
    simp [state]
  obtain ⟨runs, finishes⟩ := accepted runs answer (effect_enableSign _ _ _)
  have here' : ((s.takeQueued .centre rest).updSign (read1 r.body 0) enabled).line.signs[read1 r.body 0]? =
      some (enabled x) := updSign_at here
  have written := effect_updSign (s.takeQueued .centre rest) (read1 r.body 0) enabled
  have tells : ((s.takeQueued .centre rest).updSign (read1 r.body 0) enabled).tellSign (read1 r.body 0) x.state =
      ((s.takeQueued .centre rest).updSign (read1 r.body 0) enabled).tellAll
        (((s.takeQueued .centre rest).updSign (read1 r.body 0) enabled).signNotice (read1 r.body 0) (enabled x)) := by
    rw [State.tellSign, here']
    exact if_neg (by rw [state]; exact nofun)
  have told := effect_tellSign ((s.takeQueued .centre rest).updSign (read1 r.body 0) enabled) (read1 r.body 0) x.state
  have asked := effect_request (((s.takeQueued .centre rest).updSign (read1 r.body 0) enabled).tellSign
    (read1 r.body 0) x.state) (read1 r.body 0) .probe
  have after : (((s.takeQueued .centre rest).updSign (read1 r.body 0) enabled).tellSign
      (read1 r.body 0) x.state).line.signs[read1 r.body 0]? = some (enabled x) :=
    (told.frame .signs (by decide)).symm ▸ here'
  have signs : ((s.takeQueued .centre rest).enableSign (read1 r.body 0) x.state).line.signs[read1 r.body 0]? =
      some (enabled x) := (asked.frame .signs (by decide)).symm ▸ after
  refine ⟨_, _, runs, signs, rfl, rfl, rfl, rfl, rfl, rfl, rfl, rfl, rfl, rfl, fun m admits => ?_, fun idle => ?_,
    finishes⟩
  · have heard := heard_tellAll ((s.takeQueued .centre rest).updSign (read1 r.body 0) enabled) m
      (((s.takeQueued .centre rest).updSign (read1 r.body 0) enabled).signNotice (read1 r.body 0) (enabled x))
    rw [← tells] at heard
    obtain ⟨mark, full, -⟩ | mem := (((Heard.before written heard).after asked (by simp)).finish .centre _).taken admits
    · exact .inl ⟨mark, full⟩
    · exact .inr ⟨_, mem, rfl, rfl⟩
  · obtain ⟨entries, flight, -⟩ := told.frame .transmit (by decide)
    have idle' : (((s.takeQueued .centre rest).updSign (read1 r.body 0) enabled).tellSign
        (read1 r.body 0) x.state).inFlightFor (read1 r.body 0) = false := by
      rw [State.inFlightFor, flight]
      exact idle
    obtain ⟨entered, new⟩ := request_entries (r := .probe) after (by simp [Sign.takesRequests, enabled, pending]) idle'
    refine ⟨entered, fun none => ?_⟩
    obtain ⟨e, list, sign, reason, time⟩ := new (by rw [entries]; exact none)
    refine ⟨e, list.trans (by rw [entries]; rfl), sign, reason, time.trans (told.frame .clock (by decide)).1⟩

end

/-- Settles O46: the two standings that move a sign, and those that answer without a change. -/
theorem setSignDisablesAndEnables : Obligations.SetSignDisablesAndEnables := by
  intro s r rest k x w number here
  subst number
  have runs := exec_waiting w
  have row : Command.setSign.row .centre r.body =
      if read1 r.body 1 = 1 then .setSignEnable .centre else .setSignDisable .centre := rfl
  rw [row] at runs
  refine ⟨fun byte pending state => signDisabled w here byte pending state,
    fun byte pending state => signEnabled w here byte pending state, fun byte pending => ?_, fun byte standing => ?_,
    fun byte pending state => ?_, fun byte => ?_⟩
  · rw [if_pos byte] at runs
    refine refused (by decide) runs ?_
    rw [owning_setSign here (by omega), State.applySetSign, pending, byte]
    rfl
  · rw [if_neg (by omega)] at runs
    refine accepted_still runs ?_
    rw [owning_setSign here (by omega), State.applySetSign, byte]
    obtain pending | state := standing
    · simp [pending]
    · simp [state]
  · rw [if_pos byte] at runs
    refine accepted_still runs ?_
    rw [owning_setSign here (by omega), State.applySetSign, pending, byte]
    simp [state]
  · rw [if_neg (by omega)] at runs
    refine refused (by decide) runs ?_
    have here' : (s.takeQueued .centre rest).line.signs[read1 r.body 0]? = some x := here
    simp [owning, State.setSign, here', byte]

end Sys2Proof.Proofs
end

