-- ==== Sys2Proof/Proofs/FailedExchanges.lean ====
section
/-! Exchanges that fail (R85, R89 to R91, R93): the attempt counted, the fallback of a refused content, the echo mismatch. -/

namespace Sys2Proof.Proofs

open Sys2Proof.Machine Sys2Proof.Safety Sys2Proof.Laws

/-- The state with this error count of the line. -/
def withErrors (s : State) (n : Nat) : State := { s with line := { s.line with errors := n } }

theorem frame_withErrors (s : State) (n : Nat) : Frame [.line] s (withErrors s n) :=
  frame_lineState s s.line.state n s.line.recovery

section
variable {s : State} {w : InFlight} {x : Sign} {left : Nat}

theorem awaiting_of (flying : s.line.inFlight = some w) (window : w.exchange = .window left) :
    s.awaiting = some (w, left) := by
  simp only [State.awaiting, flying, window]

theorem addressOf_of (here : s.line.signs[w.entry.sign]? = some x) : s.addressOf w = x.cfg.address := by
  rw [State.addressOf, here]
  rfl

/-- R88 to R90: what a reply of each kind makes of the transaction it answers. -/
def replyEnds (s : State) (w : InFlight) : SignReply → State
  | .ack lamp heater door => s.endAck w lamp heater door
  | .nakContent => s.refuseContent w
  | .nakBusy => (s.failAttempt w).lowerErrors
  | .bad => s.failAttempt w

theorem exec_replyReceived {bytes : List Byte} (run : Running s) (flying : s.line.inFlight = some w)
    (window : w.exchange = .window left) (here : s.line.signs[w.entry.sign]? = some x) (long : 5 ≤ bytes.length) :
    exec (.replyReceived bytes) s = .next (replyEnds s w (parseReply x.cfg.address bytes)) := by
  show Host.Outcome.next (s.whenRunning (fun s => s.replyReceived bytes)) = _
  rw [exec_whenRunning run]
  simp only [State.replyReceived, awaiting_of flying window, if_neg (Nat.not_lt.2 long), addressOf_of here]
  cases parseReply x.cfg.address bytes <;> rfl

/-! ### Failed attempts (R90) -/

theorem failAttempt_returns (here : s.line.signs[w.entry.sign]? = some x) (pending : x.disablePending = false)
    (few : x.attempts < 2) : s.failAttempt w =
      (s.updSign w.entry.sign (fun z => { z with attempts := z.attempts + 1 })).returnEntry w false := by
  simp [State.failAttempt, here, Nat.not_le.2 few, Sign.disabling, pending]

theorem failAttempt_third (here : s.line.signs[w.entry.sign]? = some x) (pending : x.disablePending = false)
    (blank : w.finalBlank = false) (third : 2 ≤ x.attempts) :
    s.failAttempt w = (s.setInFlight none).failUnreachable w.entry.sign x.state := by
  simp [State.failAttempt, here, third, State.thirdFailure, blank, Sign.disabling, pending]

theorem failAttempt_line (s : State) (w : InFlight) : (s.failAttempt w).line.errors = s.line.errors ∧
    (s.failAttempt w).line.state = s.line.state ∧ (s.failAttempt w).line.recovery = s.line.recovery := by
  obtain ⟨state, errors, recovery⟩ := (effect_failAttempt s w).frame .line (by decide)
  exact ⟨errors, state, recovery⟩

/-- R90: an attempt that fails short of the third, whatever is made of the error count. -/
theorem failed_returns (here : s.line.signs[w.entry.sign]? = some x) (pending : x.disablePending = false)
    (few : x.attempts < 2) (errors : Nat) :
    (withErrors (s.failAttempt w) errors).line.inFlight = none ∧
      (withErrors (s.failAttempt w) errors).line.signs =
        s.line.signs.set w.entry.sign { x with attempts := x.attempts + 1 } ∧
      (withErrors (s.failAttempt w) errors).line.entries =
        s.line.entries ++ [{ w.entry with reason := mergeHeld w.entry.reason w.held }] ∧
      Frame [.signs, .transmit, .line] s (withErrors (s.failAttempt w) errors) := by
  have written := (effect_updSign s w.entry.sign (fun z => { z with attempts := z.attempts + 1 })).frame
  rw [failAttempt_returns here pending few]
  refine ⟨rfl, updSign_set here, rfl, ?_⟩
  exact Moves.frame_trans (Moves.frame_mono (by decide) written)
    (Moves.frame_trans (Moves.frame_mono (by decide) (effect_returnEntry _ w false).frame)
      (Moves.frame_mono (by decide) (frame_withErrors _ errors)))

/-- R90: the third attempt that fails. -/
theorem failed_third (here : s.line.signs[w.entry.sign]? = some x) (pending : x.disablePending = false)
    (blank : w.finalBlank = false) (third : 2 ≤ x.attempts) (errors : Nat) :
    (withErrors (s.failAttempt w) errors).line.inFlight = none ∧
      (withErrors (s.failAttempt w) errors).line.signs = s.line.signs.set w.entry.sign
        { x with state := .unreachable, attempts := 0, refreshDue := none, probeDue := some (s.now + 60) } ∧
      (withErrors (s.failAttempt w) errors).line.entries = s.line.entries ∧
      Frame ([.signs, .transmit, .line] ++ noticeParts) s (withErrors (s.failAttempt w) errors) := by
  have effect := (effect_setInFlight s none).seq (l := [.signs, .transmit, .line] ++ noticeParts) (K := [.signState])
    (effect_failUnreachable (s.setInFlight none) w.entry.sign x.state)
  have told := effect_tellSign ((s.setInFlight none).updSign w.entry.sign (fun z => { z with
    state := .unreachable, attempts := 0, refreshDue := none, probeDue := some (s.now + 60) })) w.entry.sign x.state
  obtain ⟨entries, flight, -⟩ := told.frame .transmit (by decide)
  rw [failAttempt_third here pending blank third]
  refine ⟨flight, (told.frame .signs (by decide)).trans (updSign_set (s := s.setInFlight none) here), entries, ?_⟩
  exact Moves.frame_trans effect.frame (Moves.frame_mono (by decide) (frame_withErrors _ errors))

/-- R87 to R90: a window run out, a bad reply, a NAK BUSY and a NAK of a BLANK or PROBE count a failed attempt. -/
theorem exec_failed {c : Instr} {errors : Nat} (run : Running s) (flying : s.line.inFlight = some w)
    (window : w.exchange = .window left) (here : s.line.signs[w.entry.sign]? = some x)
    (h : (c = .replyTimeout ∧ left = 0 ∧ errors = s.line.errors) ∨
      (∃ bytes, c = .replyReceived bytes ∧ 5 ≤ bytes.length ∧
        ((parseReply x.cfg.address bytes = .bad ∧ errors = s.line.errors) ∨
          (parseReply x.cfg.address bytes = .nakBusy ∧ errors = s.line.errors - 1) ∨
          (parseReply x.cfg.address bytes = .nakContent ∧ (w.op = .blank ∨ w.op = .probe) ∧
            errors = s.line.errors - 1)))) :
    exec c s = .next (withErrors (s.failAttempt w) errors) := by
  have kept : s.failAttempt w = withErrors (s.failAttempt w) s.line.errors := by
    rw [← (failAttempt_line s w).1]
    rfl
  have lowered : (s.failAttempt w).lowerErrors = withErrors (s.failAttempt w) (s.line.errors - 1) := by
    rw [← (failAttempt_line s w).1]
    rfl
  obtain ⟨rfl, rfl, rfl⟩ | ⟨bytes, rfl, long, reply⟩ := h
  · rw [← kept]
    show Host.Outcome.next (s.whenRunning State.replyTimeout) = _
    rw [exec_whenRunning run]
    simp only [State.replyTimeout, awaiting_of flying window, if_true]
  · rw [exec_replyReceived run flying window here long]
    obtain ⟨parsed, rfl⟩ | ⟨parsed, rfl⟩ | ⟨parsed, op, rfl⟩ := reply
    · rw [parsed, ← kept]
      rfl
    · rw [parsed, ← lowered]
      rfl
    · rw [parsed, ← lowered]
      obtain op | op := op <;> simp only [replyEnds, State.refuseContent, here, op]

end

/-! ### Refused content (R89) -/

theorem fallbackOp_eq (cls : Nat) : fallbackOp cls = (match cls with
    | 3 => .show 3 5 []
    | 2 => .show 2 3 []
    | 1 => .show 1 1 []
    | _ => .blank) := by
  unfold fallbackOp
  split_ifs with three two one
  · subst three; rfl
  · subst two; rfl
  · subst one; rfl
  · split <;> first | rfl | contradiction

/-- R89: a refused SHOW goes on with the fallback of its class, and a refused fallback with a BLANK. -/
theorem refuseContent_show {s : State} {w : InFlight} {x : Sign} {cls catalogue : Nat} {params : List Int}
    (here : s.line.signs[w.entry.sign]? = some x) (op : w.op = .show cls catalogue params) :
    s.refuseContent w = s.nextExchange w x (if w.stage = .first then .fallback else .final)
      (if w.stage = .first then fallbackOp cls else .blank) := by
  unfold State.refuseContent
  rw [here, op]
  cases w.stage <;> rfl

/-! ### Echo mismatches (R91, R93) -/

theorem raiseErrors_low {s : State} (h : s.line.errors + 8 < 128) :
    s.raiseErrors = withErrors s (Nat.min 255 (s.line.errors + 8)) := by
  have low : ¬ Config.lineDownCount ≤ Nat.min 255 (s.line.errors + Config.echoPenalty) := by
    simp only [Config.lineDownCount, Config.echoPenalty, Nat.min_def]
    split <;> omega
  rw [State.raiseErrors]
  dsimp only
  rw [if_neg low]
  rfl

/-- R93: the line DOWN at 128 errors. -/
def lineDown (s : State) : State := { s with line := { s.line with
  errors := Nat.min 255 (s.line.errors + 8), state := .down, recovery := some (s.now + 10) } }

theorem raiseErrors_high {s : State} (h : 128 ≤ s.line.errors + 8) :
    s.raiseErrors = (lineDown s).tellAll (lineDown s).busNotice := by
  have high : Config.lineDownCount ≤ Nat.min 255 (s.line.errors + Config.echoPenalty) := by
    simp only [Config.lineDownCount, Config.echoPenalty, Nat.min_def]
    split <;> omega
  rw [State.raiseErrors]
  dsimp only
  rw [if_pos high]
  rfl

theorem raiseErrors_errors (s : State) : s.raiseErrors.line.errors = Nat.min 255 (s.line.errors + 8) := by
  obtain low | high := Nat.lt_or_ge (s.line.errors + 8) 128
  · rw [raiseErrors_low low]
    rfl
  · rw [raiseErrors_high high]
    rfl

theorem raiseErrors_transmit (s : State) : s.raiseErrors.line.inFlight = s.line.inFlight ∧
    s.raiseErrors.line.signs = s.line.signs ∧ s.raiseErrors.line.entries = s.line.entries := by
  obtain low | high := Nat.lt_or_ge (s.line.errors + 8) 128
  · rw [raiseErrors_low low]
    exact ⟨rfl, rfl, rfl⟩
  · rw [raiseErrors_high high]
    exact ⟨rfl, rfl, rfl⟩

/-- Settles O49. -/
theorem failedExchangesReturnTheEntry : Obligations.FailedExchangesReturnTheEntry := by
  refine ⟨fun s w x c left errors run flying window blank here pending cause => ⟨fun few => ?_, fun third => ?_⟩,
    fun s w x bytes left cls catalogue params run flying window here long parsed op => ?_,
    fun s w x run flying sending here pending => ?_⟩
  · obtain ⟨idle, signs, entries, frame⟩ := failed_returns here pending few errors
    obtain ⟨-, state, recovery⟩ := failAttempt_line s w
    exact ⟨_, exec_failed run flying window here cause, idle, rfl, state, recovery, signs, entries, frame⟩
  · obtain ⟨idle, signs, entries, frame⟩ := failed_third here pending blank third errors
    obtain ⟨-, state, recovery⟩ := failAttempt_line s w
    exact ⟨_, exec_failed run flying window here cause, idle, rfl, state, recovery, signs, entries, frame⟩
  · have runs := exec_replyReceived run flying window here long
    rw [parsed, replyEnds, refuseContent_show here op] at runs
    refine ⟨_, _, runs, rfl, rfl, ?_, rfl, rfl, (effect_setInFlight s _).frame⟩
    exact congrArg (fun op => if w.stage = .first then op else Operation.blank) (fallbackOp_eq cls)
  · have returned := frame_transmit s (s.line.entries ++ [{ w.entry with reason := mergeHeld w.entry.reason w.held }])
      none s.line.made
    have runs : exec .echoMismatch s = .next (s.returnEntry w false).raiseErrors := by
      show Host.Outcome.next (s.whenRunning State.echoMismatch) = _
      rw [exec_whenRunning run]
      simp [State.echoMismatch, State.sending, flying, sending, here, Sign.disabling, pending]
    obtain ⟨idle, signs, entries⟩ := raiseErrors_transmit (s.returnEntry w false)
    refine ⟨_, runs, idle, signs, entries, raiseErrors_errors _, fun low => ?_, fun high => ?_⟩
    · rw [raiseErrors_low (s := s.returnEntry w false) low]
      exact ⟨rfl, rfl, Moves.frame_trans (Moves.frame_mono (by decide) returned)
        (Moves.frame_mono (by decide) (frame_withErrors _ _))⟩
    · rw [raiseErrors_high (s := s.returnEntry w false) high]
      refine ⟨rfl, rfl, Moves.frame_trans (Moves.frame_mono (by decide) returned)
        (Moves.frame_trans (Moves.frame_mono (by decide) (frame_lineState _ .down _ _))
          (Moves.frame_mono (by decide) (effect_tellAll (lineDown (s.returnEntry w false)) _ .busState).frame))⟩

end Sys2Proof.Proofs
end

