-- ==== Sys2Proof/Proofs/AckedSign.lean ====
section
/-! The sign record that an ACK writes (R88): its refresh due follows each change of mode that the report of the ACK brings
about (R95). -/

namespace Sys2Proof.Proofs

open Sys2Proof.Machine Sys2Proof.Safety Sys2Proof.Laws

/-! ### The sign record at the moment of its ACK (R88, R95) -/

/-- Sign n was acknowledged now, and has record z but for its refresh due. -/
def AckedAs (n : Nat) (z : Sign) (s : State) : Prop :=
  (∃ due, s.line.signs[n]? = some { z with refreshDue := due }) ∧ z.lastAck = some s.now

/-- Its refresh due is that of the mode (R95). -/
def Refreshed (n : Nat) (z : Sign) (s : State) : Prop :=
  s.line.signs[n]? = some { z with refreshDue := z.refreshTime s.power.mode } ∧ z.lastAck = some s.now

section
variable {n : Nat} {z : Sign} {s : State}

theorem Refreshed.acked (h : Refreshed n z s) : AckedAs n z s := ⟨⟨_, h.1⟩, h.2⟩

theorem acked_rests : RestsOn [.signs, .clock] (AckedAs n z) := fun s t same ok => by
  have signs : t.line.signs = s.line.signs := same .signs (by simp)
  have clock : t.clocks.seconds = s.clocks.seconds := (same .clock (by simp)).1
  exact ⟨by rw [signs]; exact ok.1, ok.2.trans (congrArg some clock.symm)⟩

theorem refreshed_rests : RestsOn [.signs, .clock, .mode] (Refreshed n z) := fun s t same ok => by
  have signs : t.line.signs = s.line.signs := same .signs (by simp)
  have clock : t.clocks.seconds = s.clocks.seconds := (same .clock (by simp)).1
  have mode : t.power.mode = s.power.mode := same .mode (by simp)
  exact ⟨by rw [signs, mode]; exact ok.1, ok.2.trans (congrArg some clock.symm)⟩

theorem refreshTime_later {m : Mode} {due : Nat} (h : z.refreshTime m = some due) {now : Nat}
    (ack : z.lastAck = some now) : now < due := by
  unfold Sign.refreshTime at h
  split at h
  · rw [ack, Option.bind_some] at h
    obtain ⟨i, interval, rfl⟩ := Option.map_eq_some_iff.1 h
    have : 0 < i := by
      cases m <;> cases kind : z.cfg.kind <;> simp [refreshInterval, kind] at interval <;> omega
    omega
  · cases h

/-- R95: a sign acknowledged at this moment has its refresh due still to come. -/
theorem resetRefresh_acked (h : AckedAs n z s) : Refreshed n z (s.resetRefresh n) := by
  obtain ⟨⟨due, here⟩, ack⟩ := h
  have time (m : Mode) : ({ z with refreshDue := due } : Sign).refreshTime m = z.refreshTime m := rfl
  have written (d : Option Nat) : (s.updSign n (fun y => { y with refreshDue := d })).line.signs[n]? =
      some { z with refreshDue := d } := updSign_at (x := { z with refreshDue := due }) here
  have next : s.resetRefresh n = s.updSign n (fun y => { y with refreshDue := z.refreshTime s.power.mode }) := by
    unfold State.resetRefresh
    rw [here]
    dsimp only
    rw [time]
    cases next : z.refreshTime s.power.mode with
    | none => rfl
    | some t => exact if_neg (Nat.not_le.2 (refreshTime_later next ack))
  rw [next]
  exact ⟨written _, ack⟩

theorem request_signs (s : State) (k : Nat) (r : EntryReason) : (s.request k r).line.signs = s.line.signs :=
  (effect_request s k r).frame .signs (by decide)

/-- R95: another sign's refresh leaves this one. -/
theorem resetRefresh_apart {k : Nat} (other : k ≠ n) : (s.resetRefresh k).line.signs[n]? = s.line.signs[n]? := by
  have written (f : Sign → Sign) : (s.updSign k f).line.signs[n]? = s.line.signs[n]? := by
    simp [State.updSign, other]
  unfold State.resetRefresh
  split
  · rfl
  · split
    · exact written _
    · split
      · rw [request_signs, written]
      · exact written _

theorem resetRefresh_same (s : State) (k : Nat) : (s.resetRefresh k).now = s.now ∧
    (s.resetRefresh k).power.mode = s.power.mode :=
  ⟨now_of_frame (effect_resetRefresh s k).frame, (effect_resetRefresh s k).frame .mode (by decide)⟩

theorem eachRefresh (h : AckedAs n z s) : Refreshed n z (s.eachSign State.resetRefresh) := by
  have inside : n < s.line.signs.length := by
    obtain ⟨⟨_, here⟩, -⟩ := h
    exact (List.getElem?_eq_some_iff.1 here).1
  rw [State.eachSign, range_split inside, List.foldl_append, List.foldl_cons]
  refine List.foldlRecOn (motive := Refreshed n z) _ _ (resetRefresh_acked ?_) (fun t ok k mem => ?_)
  · refine List.foldlRecOn (motive := AckedAs n z) _ _ h (fun t ok k mem => ?_)
    have other : k ≠ n := (List.mem_range.1 mem).ne
    exact ⟨by rw [resetRefresh_apart other]; exact ok.1, by rw [(resetRefresh_same t k).1]; exact ok.2⟩
  · have other : k ≠ n := by
      have := (List.mem_range'_1.1 mem).1
      omega
    obtain ⟨now, mode⟩ := resetRefresh_same t k
    exact ⟨by rw [resetRefresh_apart other, mode]; exact ok.1, by rw [now]; exact ok.2⟩

/-- R96: in RESERVE a WEATHER sign has no refresh due anyhow. -/
theorem blankWeather_refreshed (k : Nat) (reserve : s.power.mode = .reserve) (h : Refreshed n z s) :
    Refreshed n z (s.blankWeather k) := by
  unfold State.blankWeather
  split
  · exact h
  · next x at_k =>
    split
    · next weather =>
      refine refreshed_rests.keep_effect ?_ (effect_request _ k .blank) (by rfl)
      obtain rfl | other := eq_or_ne k n
      · obtain ⟨here, ack⟩ := h
        obtain rfl := Option.some.inj (at_k.symm.trans here)
        have none : z.refreshTime s.power.mode = none := by
          have kind : z.cfg.kind = .weather := weather
          unfold Sign.refreshTime
          split <;> simp [reserve, kind, refreshInterval, ack]
        have written := updSign_at (f := fun y => { y with refreshDue := .none }) here
        rw [← none] at written ⊢
        exact ⟨written, ack⟩
      · exact ⟨(by simp [State.updSign, other] :
          (s.updSign k _).line.signs[n]? = s.line.signs[n]?).trans h.1, h.2⟩
    · exact h

theorem eachBlank_refreshed (reserve : s.power.mode = .reserve) (h : Refreshed n z s) :
    Refreshed n z (s.eachSign State.blankWeather) :=
  (List.foldlRecOn (motive := fun t : State => t.power.mode = .reserve ∧ Refreshed n z t)
    (List.range s.line.signs.length) State.blankWeather ⟨reserve, h⟩ (fun t ⟨mode, ok⟩ k _ =>
      ⟨((effect_blankWeather t k).frame .mode (by decide)).trans mode, blankWeather_refreshed k mode ok⟩)).2

theorem handMode_refreshed (old : Mode) (h : AckedAs n z s) : Refreshed n z (s.handMode old) := by
  have refreshed : Refreshed n z ((if old = .reserve ∨ s.power.mode = .reserve then s.reselect else s).eachSign
      State.resetRefresh) :=
    eachRefresh (keep_cases _ (fun _ => acked_rests.keep_effect h (effect_reselect s) (by rfl)) (fun _ => h))
  exact keep_cases _ (fun reserve => eachBlank_refreshed reserve refreshed) (fun _ => refreshed)

theorem evaluateMode_refreshed (silent : Bool) (h : Refreshed n z s) : Refreshed n z (s.evaluateMode silent) := by
  unfold State.evaluateMode
  dsimp only
  split
  · exact h
  · refine handMode_refreshed _ ?_
    split
    · exact h.acked
    · exact acked_rests.keep_effect (s := { s with power := { s.power with mode := s.power.nextMode } }) h.acked
        (effect_tellAll _ _ .powerMode) (by rfl)

theorem refreshed_arms : ArmKept [.signs, .clock, .mode] (Refreshed n z) where
  rests := refreshed_rests
  notices := rfl
  reserve s ok := by
    unfold State.updateReserve
    exact keep_cases _ (fun _ => ok) (fun _ => evaluateMode_refreshed (s := { s with power := { s.power with
      reserve := closureReserve s.gates } }) false ok)
  test s k ok := refreshed_rests.keep_effect ok (effect_testGates s k) (by rfl)
  move s g _ f ok _ _ := refreshed_rests.keep_effect ok (effect_updGate s g f) (by rfl)
  start s g _ ok _ _ _ := refreshed_rests.keep_effect ok (effect_updGate s g _) (by rfl)

theorem refreshed_reportAck (m : Nat) (h : Refreshed n z s) : Refreshed n z (s.reportAck m) := by
  refine keep_fold _ (fun s k ok => ?_) _ h
  unfold State.testConfirming
  split
  · refine keep_ite _ ok (fun _ => refreshed_arms.withSegmentNotice k
      (fun s => (s.updSegment k (fun z => { z.toPrewarn with unwarned := false })).followUp k) ?_)
    exact refreshed_arms.followUp rfl (fun s k ok => refreshed_rests.keep_effect ok (effect_formSegmentSlot s k) (by rfl)) k
      (refreshed_rests.keep_effect ok (effect_updSegment s k _) (by rfl))
  · exact ok

end

end Sys2Proof.Proofs
end

