-- ==== Sys2Proof/Proofs/AckRows.lean ====
section
/-! The acknowledgement of an exchange (R85, R88, R97): its report tests the segments in CONFIRMING one after the other, and
the test of one segment leaves the others, since each gate lies on its own segment's list. -/

namespace Sys2Proof.Proofs

open Sys2Proof.Machine Sys2Proof.Safety Sys2Proof.Laws

/-! ### The follow-up of one segment leaves the others -/

/-- Every gate of these is on segment k. -/
def Homed (k : Nat) (list : List Nat) (s : State) : Prop := ∀ g ∈ list, ∀ z, s.gates[g]? = some z → z.cfg.segment = k

section
variable {s t : State} {k o : Nat} {list : List Nat}

theorem Homed.moved (h : Homed k list s) (moves : Moves s t) : Homed k list t := fun g mem w there => by
  obtain ⟨z, here⟩ := Moves.gate_before moves there
  have same : (t.gates.map (·.cfg))[g]? = (s.gates.map (·.cfg))[g]? := by rw [moves.gates]
  rw [List.getElem?_map, List.getElem?_map, there, here] at same
  have cfg : w.cfg = z.cfg := Option.some.inj same
  rw [cfg]
  exact h g mem z here

theorem changeGate_records {g : Nat} {z : Gate} {f : Gate → Gate} (here : s.gates[g]? = some z) (away : z.cfg.segment ≠ o)
    (cfg : (f z).cfg = z.cfg := by rfl) : (s.changeGate g f).segs.records[o]? = s.segs.records[o]? := by
  rw [State.changeGate, gateReport_records (updGate_gate here), cfg, testGates_apart away]
  rfl

/-- A demand applied to a gate tests no segment but the gate's own. -/
theorem applyRecorded_records {g : Nat} (home : ∀ z, s.gates[g]? = some z → z.cfg.segment ≠ o) :
    (s.applyRecorded g).segs.records[o]? = s.segs.records[o]? := by
  unfold State.applyRecorded
  split
  · rfl
  · next z here =>
    have away := home z here
    split
    · unfold State.applyLower
      rw [here]
      dsimp only
      split
      · split
        · exact changeGate_records here away
        · exact changeGate_records here away
      · exact changeGate_records here away
      all_goals rfl
    · unfold State.applyRaise
      rw [here]
      dsimp only
      split
      · split
        · exact changeGate_records here away
        · split <;> rfl
      all_goals rfl
    all_goals rfl

theorem handDemand_apart {d : Demand} (home : Homed k list s) (other : o ≠ k) :
    (s.handDemand k list d).segs.records[o]? = s.segs.records[o]? := by
  have applied := List.foldlRecOn
    (motive := fun t : State => Homed k list t ∧ t.segs.records[o]? = s.segs.records[o]?) list State.applyRecorded
    (b := s.recordDemand list d) ⟨home.moved (moves_recordDemand s list d), by rw [recordDemand_records]⟩
    (fun t ⟨home, same⟩ g mem => ⟨home.moved (moves_applyRecorded t g),
      (applyRecorded_records (fun z here => (home g mem z here).symm ▸ other.symm)).trans same⟩)
  rw [State.handDemand, testGates_apart other.symm]
  exact applied.2

theorem updSegment_apart (s : State) (f : Segment → Segment) (other : o ≠ k) :
    (s.updSegment k f).segs.records[o]? = s.segs.records[o]? := by
  simp [updSegment_records, other.symm]

variable {x : Segment} (here : s.segs.records[k]? = some x)
include here

theorem followUp_apart (home : Homed k x.cfg.gates s) (other : o ≠ k) :
    (s.followUp k).segs.records[o]? = s.segs.records[o]? := by
  have formed (t : State) : (t.formSegmentSlot k).segs.records = t.segs.records :=
    (effect_formSegmentSlot t k).frame .records (by decide)
  simp only [State.followUp, here]
  rw [formed]
  split
  · rw [handLamps_records]
  · have lamps := (home.moved (moves_handLamps s x.cfg.gates x.wantedLamps)).moved
      (moves_updSegment _ k (fun y => { y with demand := x.wantedDemand }))
    rw [handDemand_apart lamps other, updSegment_apart _ _ other, handLamps_records]

/-- The follow-up of a segment moves at most the arms of its list. -/
theorem armsKept_followUp : ArmsKept x.cfg.gates s (s.followUp k) := by
  have lamps : ArmsKept x.cfg.gates s (s.handLamps x.cfg.gates x.wantedLamps) := fun g away z there =>
    ⟨z, by rw [handLamps_gate, there]; simp [away], .refl z⟩
  have recorded (t : State) (d : Demand) : ArmsKept x.cfg.gates t (t.recordDemand x.cfg.gates d) := fun g away z there =>
    ⟨z, by rw [recordDemand_gate, there]; simp [away], .refl z⟩
  simp only [State.followUp, here]
  refine ArmsKept.trans ?_ (.of_effect (effect_formSegmentSlot _ k))
  split
  · exact lamps
  · exact lamps.trans ((ArmsKept.of_effect (effect_updSegment _ k _)).trans
      (((recorded _ _).trans (ArmsKept.each armsKept_applyRecorded x.cfg.gates _)).trans (armsKept_testGates _ _ k)))

end

/-! ### The test of one segment as the others see it (R12) -/

/-- The segment closes, is closed or opens again: content of its slot warns of the segments behind it (R12). -/
def Barred (x : Segment) : Prop := x.state = .closing ∨ x.state = .closed ∨ x.state = .reopening

/-- What the tests of other segments leave of segment k: its record, its arms, and which segments bar the road. -/
structure Aside (k : Nat) (s t : State) : Prop where
  moves : Moves s t
  record : t.segs.records[k]? = s.segs.records[k]?
  arms : ∀ x, s.segs.records[k]? = some x → ∀ g ∈ x.cfg.gates, ∀ z, s.gates[g]? = some z →
    ∃ w, t.gates[g]? = some w ∧ w.state = z.state
  barred : ∀ (o : Nat) (z : Segment), s.segs.records[o]? = some z → ∃ w, t.segs.records[o]? = some w ∧ (Barred w ↔ Barred z)

namespace Aside

variable {k n : Nat} {s t u : State}

theorem refl (k : Nat) (s : State) : Aside k s s :=
  ⟨.refl s, rfl, fun _ _ _ _ z here => ⟨z, here, rfl⟩, fun _ z here => ⟨z, here, .rfl⟩⟩

theorem trans (h : Aside k s t) (j : Aside k t u) : Aside k s u := by
  refine ⟨h.moves.trans j.moves, j.record.trans h.record, fun x here g mem z at_g => ?_, fun o z at_o => ?_⟩
  · obtain ⟨w, at_t, first⟩ := h.arms x here g mem z at_g
    obtain ⟨v, at_u, second⟩ := j.arms x (h.record.trans here) g mem w at_t
    exact ⟨v, at_u, second.trans first⟩
  · obtain ⟨w, at_t, first⟩ := h.barred o z at_o
    obtain ⟨v, at_u, second⟩ := j.barred o w at_t
    exact ⟨v, at_u, second.trans first⟩

/-- R12: the tests of other segments do not change what warns for segment k. -/
theorem warns (h : Aside k s t) {y y' : Sign} (ack : y'.ack = y.ack) (cfg : y'.cfg = y.cfg) :
    Warns t k y' ↔ Warns s k y := by
  have alike (o : Nat) : (∃ z, t.segs.records[o]? = some z ∧ Barred z) ↔ ∃ z, s.segs.records[o]? = some z ∧ Barred z := by
    constructor
    · rintro ⟨w, there, bars⟩
      have inside : o < s.segs.records.length := by
        have same := congrArg List.length h.moves.records
        rw [List.length_map, List.length_map] at same
        exact same ▸ (List.getElem?_eq_some_iff.1 there).1
      obtain ⟨w', there', same⟩ := h.barred o _ (List.getElem?_eq_getElem inside)
      obtain rfl := Option.some.inj (there.symm.trans there')
      exact ⟨_, List.getElem?_eq_getElem inside, same.1 bars⟩
    · rintro ⟨z, here, bars⟩
      obtain ⟨w, there, same⟩ := h.barred o z here
      exact ⟨w, there, same.2 bars⟩
  have before (list : List Nat) (o : Nat) (s : State) : (∃ before after z, list = before ++ k :: after ∧ k ∉ before ∧
      o ∈ before ∧ s.segs.records[o]? = some z ∧ (z.state = .closing ∨ z.state = .closed ∨ z.state = .reopening)) ↔
      (∃ before after, list = before ++ k :: after ∧ k ∉ before ∧ o ∈ before) ∧
        ∃ z, s.segs.records[o]? = some z ∧ Barred z :=
    ⟨fun ⟨b, a, z, split, first, mem, here, bars⟩ => ⟨⟨b, a, split, first, mem⟩, z, here, bars⟩,
      fun ⟨⟨b, a, split, first, mem⟩, z, here, bars⟩ => ⟨b, a, z, split, first, mem, here, bars⟩⟩
  simp only [Warns, ack, cfg, before, alike]

/-- R88: the test of another segment. -/
theorem testConfirming {i : Nat} (road : Road s) (other : i ≠ k) : Aside k s (s.testConfirming n i) := by
  unfold State.testConfirming
  split
  · next x y here sign =>
    split
    · next confirms =>
      have closing : x.state = .closing := confirms.1
      have after := updSegment_at (f := fun z => { z.toPrewarn with unwarned := false }) here
      have cfg : ({ x.toPrewarn with unwarned := false } : Segment).cfg = x.cfg := by
        obtain ⟨phase, eq⟩ := toPrewarn_eq x
        rw [eq]
      have home : Homed i ({ x.toPrewarn with unwarned := false } : Segment).cfg.gates
          (s.updSegment i (fun z => { z.toPrewarn with unwarned := false })) := fun g mem z at_g =>
        (road.lists i x g z here (cfg ▸ mem) at_g).1
      have apart (o : Nat) (away : o ≠ i) : (s.withSegmentNotice i (fun s =>
          (s.updSegment i (fun z => { z.toPrewarn with unwarned := false })).followUp i)).segs.records[o]? =
            s.segs.records[o]? := by
        rw [withSegmentNotice_records, followUp_apart after home away, updSegment_apart _ _ away]
      have moves := moves_testConfirming s n i
      have tested : s.testConfirming n i = s.withSegmentNotice i (fun s =>
          (s.updSegment i (fun z => { z.toPrewarn with unwarned := false })).followUp i) := by
        rw [State.testConfirming, here, sign]
        exact if_pos confirms
      refine ⟨tested ▸ moves, apart k other.symm, fun v record g mem z at_g => ?_, fun o z at_o => ?_⟩
      · have outside : g ∉ ({ x.toPrewarn with unwarned := false } : Segment).cfg.gates := fun there =>
          other ((road.lists i x g z here (cfg ▸ there) at_g).1.symm.trans (road.lists k v g z record mem at_g).1)
        rw [withSegmentNotice_gates]
        obtain ⟨w, there, arm⟩ := armsKept_followUp after g outside z at_g
        exact ⟨w, there, arm.state⟩
      · obtain rfl | away := eq_or_ne o i
        · obtain rfl := Option.some.inj (at_o.symm.trans here)
          obtain ⟨w, at_w, followed⟩ := segmentEvent_record (f := fun z => { z.toPrewarn with unwarned := false }) here
          refine ⟨w, at_w, iff_of_true ?_ (.inl closing)⟩
          obtain ⟨phase, eq⟩ := toPrewarn_eq z
          have state : ({ z.toPrewarn with unwarned := false } : Segment).state = .closing := by rw [eq]; exact closing
          by_cases same : w.state = .closing
          · exact .inl same
          · obtain ⟨-, shut⟩ | ⟨reopens, -⟩ := followed.tested.moved (fun moved => same (moved.trans state))
            · exact .inr (.inl shut)
            · exact absurd (state.symm.trans reopens) (by decide)
        · exact ⟨z, (apart o away).trans at_o, .rfl⟩
    · exact .refl k s
  · exact .refl k s

end Aside

/-! ### The segment tested (R12, R88) -/

/-- R12: segment k, with record z, is in CONFIRMING, and its approach sign n shows warning content. -/
def Confirmed (s : State) (n k : Nat) (z : Segment) (y : Sign) : Prop :=
  z.state = .closing ∧ z.phase = some .confirming ∧ n ∈ z.cfg.approach ∧ Warns s k y

/-- R12, R13: the segment, z before, goes on to PREWARN with its countdown, or with nothing to count to LOWERING. -/
structure GoesOn (t : State) (z z' : Segment) : Prop where
  unwarned : z'.unwarned = false
  lowers : z.remaining = 0 → EntersLowering t z z'
  counts : z.remaining ≠ 0 → z'.state = .closing ∧ z'.phase = some .prewarn ∧ z'.remaining = z.remaining

section
variable {s t : State} {n k : Nat} {z z' : Segment} {y : Sign}

theorem confirms_iff (here : s.segs.records[k]? = some z) (closing : z.state = .closing) (y : Sign) :
    s.confirms k y = true ↔ Warns s k y := by
  have same : s.updSegment k (fun x => { x with state := .closing }) = s := by
    have records : s.segs.records.modify k (fun x => { x with state := .closing }) = s.segs.records := by
      obtain ⟨inside, rfl⟩ := List.getElem?_eq_some_iff.1 here
      rw [modify_of_getElem? here, ← closing]
      exact List.set_getElem_self inside
    rw [State.updSegment, records]
  rw [← confirms_closing here, same]

theorem testConfirming_still (here : s.segs.records[k]? = some z) (sign : s.line.signs[n]? = some y)
    (no : ¬ Confirmed s n k z y) : s.testConfirming n k = s := by
  rw [State.testConfirming, here, sign]
  refine if_neg (fun ⟨closing, phase, approach, confirms⟩ => no ⟨closing, phase, by simpa using approach, ?_⟩)
  exact (confirms_iff here closing y).1 confirms

theorem testConfirming_confirmed (here : s.segs.records[k]? = some z) (sign : s.line.signs[n]? = some y)
    (yes : Confirmed s n k z y) :
    ∃ z', (s.testConfirming n k).segs.records[k]? = some z' ∧ GoesOn (s.testConfirming n k) z z' := by
  obtain ⟨closing, phase, approach, warns⟩ := yes
  have event : s.testConfirming n k = segmentEvent s k (fun z => { z.toPrewarn with unwarned := false }) := by
    rw [State.testConfirming, here, sign]
    exact if_pos ⟨closing, phase, by simpa using approach, (confirms_iff here closing y).2 warns⟩
  rw [event]
  obtain ⟨z', at_k, followed⟩ := segmentEvent_record (f := fun z => { z.toPrewarn with unwarned := false }) here
  refine ⟨z', at_k, followed.kept.2.2.2.2, fun zero => ?_, fun some => ?_⟩
  · have lowers : z.toPrewarn = { z with phase := some .lowering, confirmDue := none } := if_pos zero
    rw [lowers] at followed
    exact followed.enters closing rfl zero rfl rfl
  · have counts : z.toPrewarn = { z with phase := .some .prewarn, confirmDue := none } := if_neg some
    rw [counts] at followed
    rw [followed.waits ⟨closing, .inr rfl⟩]
    exact ⟨closing, rfl, rfl⟩

/-- The tests of other segments leave a segment that has gone on as it is. -/
theorem GoesOn.after (h : GoesOn s z z') (apart : Aside k s t) (there : s.segs.records[k]? = some z') (cfg : z'.cfg = z.cfg) :
    GoesOn t z z' := by
  refine ⟨h.unwarned, fun zero => ?_, h.counts⟩
  obtain ⟨demand, remaining, state, closed⟩ := h.lowers zero
  refine ⟨demand, remaining, state, fun other => (closed other).trans (forall₂_congr fun g mem => ?_)⟩
  constructor
  · intro rest w at_t
    obtain ⟨v, at_s⟩ := Moves.gate_before apart.moves at_t
    obtain ⟨w', at_t', arm⟩ := apart.arms z' there g (cfg.symm ▸ mem) v at_s
    obtain rfl := Option.some.inj (at_t.symm.trans at_t')
    rw [arm]
    exact rest v at_s
  · intro rest v at_s
    obtain ⟨w, at_t, arm⟩ := apart.arms z' there g (cfg.symm ▸ mem) v at_s
    rw [← arm]
    exact rest w at_t

theorem aside_fold (list : List Nat) (others : ∀ i ∈ list, i ≠ k) (road : Road s) :
    Road (list.foldl (fun s i => s.testConfirming n i) s) ∧ Aside k s (list.foldl (fun s i => s.testConfirming n i) s) :=
  List.foldlRecOn (motive := fun t => Road t ∧ Aside k s t) list _ ⟨road, .refl k s⟩
    (fun _ ⟨road, apart⟩ i mem => ⟨road_road.testConfirming n i road, apart.trans (.testConfirming road (others i mem))⟩)

/-- A sign before and after a move. -/
theorem Moves.sign_after (moves : Moves s t) (sign : s.line.signs[n]? = some y) :
    ∃ y', t.line.signs[n]? = some y' ∧ y'.ack = y.ack ∧ y'.cfg = y.cfg := by
  have same : (t.line.signs.map (fun x => { x with refreshDue := none }))[n]? =
      (s.line.signs.map (fun x => { x with refreshDue := none }))[n]? := by rw [moves.signs]
  rw [List.getElem?_map, List.getElem?_map, sign] at same
  obtain ⟨y', there, eq⟩ := Option.map_eq_some_iff.1 same
  exact ⟨y', there, show ({ y' with refreshDue := none } : Sign).ack = y.ack by rw [eq],
    show ({ y' with refreshDue := none } : Sign).cfg = y.cfg by rw [eq]⟩

/-- R88: the acknowledgement reported to the segment table, as one segment sees it. -/
theorem reportAck_segment (road : Road s) (here : s.segs.records[k]? = some z) (sign : s.line.signs[n]? = some y) :
    ∃ z', (s.reportAck n).segs.records[k]? = some z' ∧ (Confirmed s n k z y → GoesOn (s.reportAck n) z z') ∧
      (¬ Confirmed s n k z y → z' = z) := by
  obtain ⟨inside, -⟩ := List.getElem?_eq_some_iff.1 here
  obtain ⟨roadBefore, before⟩ := aside_fold (n := n) (k := k) (List.range k) (fun i mem => (List.mem_range.1 mem).ne) road
  rw [State.reportAck, range_split inside, List.foldl_append, List.foldl_cons]
  generalize (List.range k).foldl (fun s i => s.testConfirming n i) s = u at roadBefore before ⊢
  have at_u : u.segs.records[k]? = some z := before.record.trans here
  obtain ⟨y', sign', ack, cfg⟩ := Moves.sign_after before.moves sign
  have same : Confirmed u n k z y' ↔ Confirmed s n k z y :=
    and_congr_right' (and_congr_right' (and_congr_right' (before.warns ack cfg)))
  obtain ⟨-, after⟩ := aside_fold (n := n) (k := k) (List.range' (k + 1) (s.segs.records.length - (k + 1)))
    (fun i mem => by
      have := (List.mem_range'_1.1 mem).1
      omega) (road_road.testConfirming n k roadBefore)
  rw [← same]
  by_cases yes : Confirmed u n k z y'
  · obtain ⟨z', at_k, goes⟩ := testConfirming_confirmed at_u sign' yes
    have cfg' : z'.cfg = z.cfg := by
      have records : ((u.testConfirming n k).segs.records.map (·.cfg))[k]? = (u.segs.records.map (·.cfg))[k]? := by
        rw [(moves_testConfirming u n k).records]
      rw [List.getElem?_map, List.getElem?_map, at_k, at_u] at records
      exact Option.some.inj records
    exact ⟨z', after.record.trans at_k, fun _ => goes.after after at_k cfg', fun no => absurd yes no⟩
  · rw [testConfirming_still at_u sign' yes] at after ⊢
    exact ⟨z, after.record.trans at_u, fun other => absurd other yes, fun _ => rfl⟩

end

/-! ### The transaction ends (R85, R88, R95) -/

/-- R95: the refresh due of a sign acknowledged now. -/
theorem refreshTime_acked {z : Sign} {now : Nat} (m : Mode) (state : z.state = .online ∨ z.state = .degraded)
    (pending : z.disablePending = false) (ack : z.lastAck = some now) : z.refreshTime m =
      if m = .normal then some (now + 60) else if m = .reserve ∧ z.cfg.kind = .weather then none else some (now + 120) := by
  unfold Sign.refreshTime
  rw [if_pos ⟨state, by simp [pending]⟩, ack]
  cases m <;> cases z.cfg.kind <;> rfl

theorem refreshTime_pending {z : Sign} (m : Mode) (pending : z.disablePending = true) : z.refreshTime m = none :=
  if_neg (fun both => by simp [pending] at both)

section
variable {s : State} {k : Nat} {y : Sign} {w z : InFlight}

/-- R85, R88: the transaction is over, and the ACK of a PROBE asks for a CHANGE. -/
theorem enterAfterAck_ended (sign : s.line.signs[k]? = some y) (flying : s.line.inFlight = some z) :
    (s.enterAfterAck k w).line.inFlight = none ∧ (w.op = .probe → w.finalBlank = false → y.disablePending = false →
      ∃ e ∈ (s.enterAfterAck k w).line.entries, e.sign = k ∧ e.reason = .change) := by
  have merged (held : Option EntryReason) : mergeHeld .change held = .change := by
    cases held with
    | none => rfl
    | some r => cases r <;> rfl
  simp only [State.enterAfterAck, sign, flying]
  split
  · next blank => exact ⟨rfl, fun _ no => absurd blank (by simp [no])⟩
  · split
    · next disabling => exact ⟨rfl, fun _ _ no => absurd disabling (by simp [Sign.disabling, no])⟩
    · split
      · exact ⟨rfl, fun _ _ _ => ⟨_, List.mem_append_right _ (List.mem_singleton_self _), rfl, merged _⟩⟩
      · next other => exact ⟨rfl, fun probe => (other probe).elim⟩
      · next other => exact ⟨rfl, fun probe => (other probe).elim⟩

theorem settleDisabled_sign (sign : s.line.signs[k]? = some y) : (s.settleDisabled k).line.signs[k]? = some { y with
    state := .disabled, disablePending := false, attempts := 0, refreshDue := none, probeDue := none } := by
  rw [State.settleDisabled, sign]
  exact (congrArg (·[k]?) ((effect_tellSign _ k y.state).frame .signs (by decide))).trans (updSign_at sign)

end

/-- The sign record written and the error count lowered, before the report. -/
def ackWritten (s : State) (w : InFlight) (lamp heater door : Bool) : State :=
  (s.updSign w.entry.sign (fun z => z.acknowledge w lamp heater door s.now s.power.mode)).lowerErrors

/-- The report of an ACK, which a PROBE's does not have. -/
def ackReported (s : State) (w : InFlight) (lamp heater door : Bool) : State :=
  if w.op = .probe then ackWritten s w lamp heater door else (ackWritten s w lamp heater door).reportAck w.entry.sign

/-- What ends the transaction after the report: the notice, the held request, the end of a disable. -/
def ackEnded (s : State) (w : InFlight) (old : SignState) : State :=
  if w.finalBlank then ((s.tellSign w.entry.sign old).enterAfterAck w.entry.sign w).settleDisabled w.entry.sign
  else (s.tellSign w.entry.sign old).enterAfterAck w.entry.sign w

section
variable {s : State} {w : InFlight} {x : Sign} {lamp heater door : Bool}

theorem endAck_eq (sign : s.line.signs[w.entry.sign]? = some x) :
    s.endAck w lamp heater door = ackEnded (ackReported s w lamp heater door) w x.state := by
  rw [State.endAck, sign]
  rfl

theorem effect_ackEnded (s : State) (w : InFlight) (old : SignState) :
    Effect (.signs :: .transmit :: noticeParts) [.signState] s (ackEnded s w old) := by
  have entered : Effect (.signs :: .transmit :: noticeParts) [.signState] s
      ((s.tellSign w.entry.sign old).enterAfterAck w.entry.sign w) :=
    .seq (effect_tellSign s w.entry.sign old) (effect_enterAfterAck _ w.entry.sign w)
  unfold ackEnded
  split
  · exact entered.seq (l := .signs :: .transmit :: noticeParts) (K := [.signState]) (effect_settleDisabled _ _)
  · exact entered

theorem effect_ackWritten (s : State) (w : InFlight) (lamp heater door : Bool) :
    Effect [.signs, .line] [] s (ackWritten s w lamp heater door) :=
  .seq (effect_updSign s w.entry.sign _) (effect_lowerErrors _)

theorem ackWritten_refreshed (sign : s.line.signs[w.entry.sign]? = some x) :
    Refreshed w.entry.sign (x.acknowledge w lamp heater door s.now s.power.mode) (ackWritten s w lamp heater door) :=
  ⟨updSign_at (f := fun z => z.acknowledge w lamp heater door s.now s.power.mode) sign, rfl⟩

theorem ackReported_refreshed (sign : s.line.signs[w.entry.sign]? = some x) :
    Refreshed w.entry.sign (x.acknowledge w lamp heater door s.now s.power.mode) (ackReported s w lamp heater door) :=
  keep_cases _ (fun _ => ackWritten_refreshed sign) (fun _ => refreshed_reportAck _ (ackWritten_refreshed sign))

theorem ackReported_line (s : State) (w : InFlight) (lamp heater door : Bool) :
    (ackReported s w lamp heater door).line.errors = s.line.errors - 1 ∧
      (ackReported s w lamp heater door).line.state = s.line.state := by
  unfold ackReported
  split
  · exact ⟨rfl, rfl⟩
  · obtain ⟨state, errors, -⟩ := (effect_reportAck (ackWritten s w lamp heater door) w.entry.sign).frame .line (by decide)
    exact ⟨errors, state⟩

theorem ackReported_flying (flying : s.line.inFlight = some w) :
    ∃ z, (ackReported s w lamp heater door).line.inFlight = some z := by
  unfold ackReported
  split
  · exact ⟨w, flying⟩
  · have moves : Moves (ackWritten s w lamp heater door) ((ackWritten s w lamp heater door).reportAck w.entry.sign) :=
      .fold _ (fun t j => moves_testConfirming t w.entry.sign j) _ _
    have flight := moves.flight
    rw [show (ackWritten s w lamp heater door).line.inFlight = some w from flying] at flight
    obtain ⟨z, there, -⟩ := Option.map_eq_some_iff.1 flight
    exact ⟨z, there⟩

/-- The sign record at the end of the transaction, that of the ACK being z. -/
theorem ackEnded_sign {t : State} {z : Sign} {old : SignState} (h : Refreshed w.entry.sign z t) :
    ∃ y, (ackEnded t w old).line.signs[w.entry.sign]? = some y ∧
      (w.finalBlank = false → y = { z with refreshDue := z.refreshTime (ackEnded t w old).power.mode }) ∧
      (w.finalBlank = true → y = { z with
        state := .disabled, disablePending := false, attempts := 0, refreshDue := none, probeDue := none }) := by
  have entered : Refreshed w.entry.sign z ((t.tellSign w.entry.sign old).enterAfterAck w.entry.sign w) :=
    refreshed_rests.keep_effect (refreshed_rests.keep_effect h (effect_tellSign t _ old) (by rfl))
      (effect_enterAfterAck _ _ w) (by rfl)
  unfold ackEnded
  split
  · next final => exact ⟨_, settleDisabled_sign entered.1, fun no => absurd final (by simp [no]), fun _ => rfl⟩
  · next final => exact ⟨_, entered.1, fun _ => rfl, fun yes => absurd yes final⟩

theorem ackEnded_ended {t : State} {z : Sign} {old : SignState} (h : Refreshed w.entry.sign z t) {v : InFlight}
    (flying : t.line.inFlight = some v) : (ackEnded t w old).line.inFlight = none ∧
      (w.op = .probe → w.finalBlank = false → z.disablePending = false →
        ∃ e ∈ (ackEnded t w old).line.entries, e.sign = w.entry.sign ∧ e.reason = .change) := by
  have told := refreshed_rests.keep_effect h (effect_tellSign t w.entry.sign old) (by rfl)
  obtain ⟨-, flight, -⟩ := (effect_tellSign t w.entry.sign old).frame .transmit (by decide)
  obtain ⟨idle, probed⟩ := enterAfterAck_ended (w := w) told.1 (flight.trans flying)
  unfold ackEnded
  split
  · next final =>
    obtain ⟨-, same, -⟩ := (effect_settleDisabled ((t.tellSign w.entry.sign old).enterAfterAck w.entry.sign w)
      w.entry.sign).frame .transmit (by decide)
    exact ⟨same.trans idle, fun _ no => absurd final (by simp [no])⟩
  · exact ⟨idle, probed⟩

theorem Confirmed.of_same {s t : State} {n k : Nat} {z : Segment} {y y' : Sign} (h : Confirmed s n k z y)
    (records : t.segs.records = s.segs.records) (ack : y'.ack = y.ack) (cfg : y'.cfg = y.cfg) : Confirmed t n k z y' := by
  simpa only [Confirmed, Warns, records, ack, cfg] using h

/-- Settles O48. -/
theorem ackWritesTheSignRecord : Obligations.AckWritesTheSignRecord := by
  intro s bytes w left x lamp heater door run flying window sign long parsed
  have effect := effect_endAck s w lamp heater door
  have runs := exec_replyReceived run flying window sign long
  rw [parsed, replyEnds] at runs
  rw [endAck_eq sign] at runs effect
  have reported := ackReported_refreshed (lamp := lamp) (heater := heater) (door := door) sign
  obtain ⟨errors, state⟩ := ackReported_line s w lamp heater door
  obtain ⟨v, flies⟩ := ackReported_flying (lamp := lamp) (heater := heater) (door := door) flying
  obtain ⟨idle, probed⟩ := ackEnded_ended (old := x.state) reported flies
  obtain ⟨y, at_n, goesOn, ends⟩ := ackEnded_sign (old := x.state) reported
  have ended := effect_ackEnded (ackReported s w lamp heater door) w x.state
  obtain ⟨state', errors', -⟩ := ended.frame .line (by decide)
  have records : (ackEnded (ackReported s w lamp heater door) w x.state).segs.records =
      (ackReported s w lamp heater door).segs.records := ended.frame .records (by decide)
  have fields : y.ack = w.acknowledged x.ack ∧ y.lampFault = lamp ∧ y.heaterFault = heater ∧ y.doorOpen = door ∧
      y.refused = (w.stage == .final) ∧ y.attempts = 0 ∧ y.lastAck = some s.now ∧ y.probeDue = none ∧ y.cfg = x.cfg := by
    cases final : w.finalBlank with
    | false => rw [goesOn final]; exact ⟨rfl, rfl, rfl, rfl, rfl, rfl, rfl, rfl, rfl⟩
    | true => rw [ends final]; exact ⟨rfl, rfl, rfl, rfl, rfl, rfl, rfl, rfl, rfl⟩
  obtain ⟨ack, lampFault, heaterFault, doorOpen, refused, attempts, lastAck, probeDue, cfg⟩ := fields
  have standing : (x.acknowledge w lamp heater door s.now s.power.mode).state = .online ∨
      (x.acknowledge w lamp heater door s.now s.power.mode).state = .degraded := by
    show ackState lamp heater door w.refusedAfter = .online ∨ ackState lamp heater door w.refusedAfter = .degraded
    unfold ackState
    split
    · exact .inr rfl
    · exact .inl rfl
  refine ⟨_, y, runs, at_n, idle, errors'.trans errors, state'.trans state, ack, lampFault, heaterFault, doorOpen, refused,
    attempts, lastAck, probeDue, fun final => ?_, fun final => ?_, cfg, fun silent => ?_, fun final pending => ?_,
    fun probe => ?_, fun other ok k z here => ?_, fun probe final pending => probed probe final pending, effect.frame⟩
  · rw [goesOn final]
    exact ⟨rfl, rfl⟩
  · rw [ends final]
    exact ⟨rfl, rfl⟩
  · cases final : w.finalBlank with
    | true => rw [ends final]
    | false =>
      rw [goesOn final]
      exact refreshTime_pending _ (silent.resolve_left (by simp [final]))
  · rw [goesOn final]
    exact refreshTime_acked _ standing pending rfl
  · rw [records, ackReported, if_pos probe]
    rfl
  · have road : Road (ackWritten s w lamp heater door) :=
      (roadWith_rests 0 []).keep_effect (road_of_roadOk ok run.2) (effect_ackWritten s w lamp heater door) (by rfl)
    have reports : ackReported s w lamp heater door = (ackWritten s w lamp heater door).reportAck w.entry.sign := if_neg other
    obtain ⟨z', at_k, confirmed, still⟩ := reportAck_segment road (show
      (ackWritten s w lamp heater door).segs.records[k]? = some z from here) (ackWritten_refreshed sign).1
    rw [← reports] at at_k confirmed
    refine ⟨z', by rw [records, at_k], fun yes => ?_,
      fun no => still (fun yes => no (yes.of_same rfl ack cfg))⟩
    obtain ⟨unwarned, lowers, counts⟩ := confirmed (Confirmed.of_same yes rfl ack.symm cfg.symm)
    exact ⟨unwarned, fun zero => entersLowering_after (lowers zero) (ended.frame .gates (by decide)), counts⟩

end

end Sys2Proof.Proofs
end

