-- ==== Sys2Proof/Proofs/TimeRow.lean ====
section
/-! The step on an empty queue: what is ready without time passing (R86, R165), a millisecond of the timers, and the events
that fall due in it, list by list. -/

namespace Sys2Proof.Proofs

open Sys2Proof.Machine Sys2Proof.Safety Sys2Proof.Laws

/-! ### What is ready -/

/-- The port whose waiting command a row executes. -/
def portOf : Instr → Option Master
  | .unknownCommand m | .status m | .fetchNotice m | .setNoticeMask m | .resetPort m | .readSegment m | .placeClaim m
  | .releaseClaim m | .confirmSweep m | .setAuthority m | .readGate m | .resetGate m | .postMessage m
  | .withdrawMessage m | .setPriorityMap m | .setClock m | .readSign m | .setSignDisable m | .setSignEnable m
  | .readChannel m | .submitObservation m | .readPower m | .readPath m | .reportDetection m | .clearPath m
  | .setPathFloor m | .seedPath m | .reload m => some m
  | _ => none

theorem portOf_row (d : Command) (m : Master) (body : List Byte) : portOf (d.row m body) = some m := by
  cases d
  case setSign => unfold Command.row; dsimp only; split <;> rfl
  all_goals rfl

theorem mem_waiting {s : State} {m : Master} {c : Instr} : c ∈ s.waiting m ↔ ∃ r rest, (s.port m).queued = r :: rest ∧
    c = (match commandOfCode r.code with
      | some d => d.row m r.body
      | none => .unknownCommand m) := by
  unfold State.waiting
  cases queue : (s.port m).queued with
  | nil => simp
  | cons r rest => cases code : commandOfCode r.code <;> simp [code]

theorem waiting_port {s : State} {m : Master} {c : Instr} (h : c ∈ s.waiting m) : portOf c = some m := by
  obtain ⟨r, _, -, rfl⟩ := mem_waiting.1 h
  cases commandOfCode r.code with
  | none => rfl
  | some d => exact portOf_row d m r.body

theorem waiting_nodup (s : State) (m : Master) : (s.waiting m).Nodup := by
  unfold State.waiting
  split
  · exact .nil
  · split <;> exact List.nodup_singleton _

theorem mayTransact_iff (s : State) : s.mayTransact = true ↔ MayTransact s := by
  simp only [State.mayTransact, SignLine.idle, MayTransact, Bool.and_eq_true, beq_iff_eq, Option.isNone_iff_eq_none,
    Option.any_eq_true, decide_eq_true_eq, and_assoc]
  refine and_congr_right' (and_congr_right' (and_congr_right' (exists_congr fun e => ?_)))
  simp only [exists_and_left, List.getElem?_eq_some_iff]
  simp

theorem mem_ready {s : State} {c : Instr} : c ∈ s.ready ↔ Ready s c := by
  have transact : c ∈ (if s.mayTransact then [Instr.transactionStart] else []) ↔ c = .transactionStart ∧ MayTransact s := by
    rw [← mayTransact_iff]
    split <;> simp [*]
  have ports : (c ∈ s.waiting .centre ∨ c ∈ s.waiting .slope) ∨ c ∈ s.waiting .crew ↔ ∃ m, c ∈ s.waiting m :=
    ⟨fun h => h.elim (·.elim (⟨_, ·⟩) (⟨_, ·⟩)) (⟨_, ·⟩), fun ⟨m, h⟩ => by
      cases m
      · exact .inl (.inl h)
      · exact .inl (.inr h)
      · exact .inr h⟩
  rw [State.ready, List.mem_append, List.mem_append, List.mem_append, transact, ports]
  exact or_congr_left (exists_congr fun m => mem_waiting)

theorem ready_nodup (s : State) : s.ready.Nodup := by
  have apart {m n : Master} (other : m ≠ n) : List.Disjoint (s.waiting m) (s.waiting n) := fun c hm hn =>
    other (Option.some.inj ((waiting_port hm).symm.trans (waiting_port hn)))
  have start : List.Disjoint (s.waiting .centre ++ s.waiting .slope ++ s.waiting .crew)
      (if s.mayTransact then [Instr.transactionStart] else []) := fun c row started => by
    have none : portOf c = none := by
      split at started
      · rw [List.mem_singleton.1 started]
        rfl
      · cases started
    simp only [List.mem_append] at row
    obtain (row | row) | row := row <;> simp [waiting_port row] at none
  have rows : (s.waiting .centre ++ s.waiting .slope ++ s.waiting .crew).Nodup :=
    .append (.append (waiting_nodup s _) (waiting_nodup s _) (apart (by decide))) (waiting_nodup s _)
      (List.disjoint_append_left.2 ⟨apart (by decide), apart (by decide)⟩)
  exact .append rows (by split <;> simp) start

/-! ### What falls due, list by list -/

section
variable {s : State} {c : Instr}

theorem mem_event {b : Bool} {e : Instr} : c ∈ event b e ↔ c = e ∧ b = true := by
  unfold event
  split <;> simp [*]

theorem reached_iff (s : State) (moment : Option Nat) : s.reached moment = true ↔ HasCome s moment := by
  simp [State.reached, HasCome, Option.any_eq_true]

theorem mem_dueClaims : c ∈ s.dueClaims ↔
    (∃ k h, c = .claimStart k h ∧ ∃ x ∈ s.segs.claims, x.segment = k ∧ x.holder = h ∧ x.pending = true ∧
      HasCome s x.start) ∨
    (∃ k h, c = .claimExpiry k h ∧ (∃ m, h = .master m) ∧ ∃ x ∈ s.segs.claims, x.segment = k ∧ x.holder = h ∧
      HasCome s x.endsAt) := by
  have holder (h : Holder) : (holderPath h).isNone = true ↔ ∃ m, h = .master m := by cases h <;> simp [holderPath]
  simp only [State.dueClaims, List.mem_flatMap, List.mem_append, mem_event, Bool.and_eq_true, reached_iff, holder]
  constructor
  · rintro ⟨x, mem, ⟨rfl, pending, start⟩ | ⟨rfl, master, ends⟩⟩
    · exact .inl ⟨_, _, rfl, x, mem, rfl, rfl, pending, start⟩
    · exact .inr ⟨_, _, rfl, master, x, mem, rfl, rfl, ends⟩
  · rintro (⟨_, _, rfl, x, mem, rfl, rfl, pending, start⟩ | ⟨_, _, rfl, master, x, mem, rfl, rfl, ends⟩)
    · exact ⟨x, mem, .inl ⟨rfl, pending, start⟩⟩
    · exact ⟨x, mem, .inr ⟨rfl, master, ends⟩⟩

theorem mem_zip_index {α β : Type} {l : List α} {m : List β} {x : α} {y : β} {k : Nat} :
    ((x, y), k) ∈ (l.zip m).zipIdx ↔ l[k]? = some x ∧ m[k]? = some y := by
  rw [List.mem_zipIdx_iff_getElem?, List.getElem?_zip_eq_some]

theorem mem_dueSegments {before : List Segment} (same : before.length = s.segs.records.length) :
    c ∈ s.dueSegments before ↔
    (∃ k, c = .confirmingExpiry k ∧ ∃ x, s.segs.records[k]? = some x ∧ x.state = .closing ∧ x.phase = some .confirming ∧
      HasCome s x.confirmDue) ∨
    (∃ k, c = .prewarnMinuteChange k ∧ ∃ x y, before[k]? = some x ∧ s.segs.records[k]? = some y ∧ y.state = .closing ∧
      y.phase = some .prewarn ∧ (y.remaining + 59) / 60 < (x.remaining + 59) / 60) ∨
    (∃ k, c = .prewarnEnd k ∧ ∃ x, s.segs.records[k]? = some x ∧ x.state = .closing ∧ x.phase = some .prewarn ∧
      x.remaining = 0) := by
  have stood {k : Nat} {x : Segment} (here : s.segs.records[k]? = some x) : ∃ y, before[k]? = some y := by
    obtain ⟨inside, -⟩ := List.getElem?_eq_some_iff.1 here
    exact ⟨_, List.getElem?_eq_getElem (same ▸ inside)⟩
  simp only [State.dueSegments, State.dueSegment, List.mem_flatMap, List.mem_append, mem_event, Bool.and_eq_true,
    beq_iff_eq, reached_iff, decide_eq_true_eq, and_assoc]
  constructor
  · rintro ⟨⟨⟨x, y⟩, k⟩, mem, (⟨rfl, state, phase, due⟩ | ⟨rfl, state, phase, less⟩) | ⟨rfl, state, phase, zero⟩⟩
    all_goals obtain ⟨here, stands⟩ := mem_zip_index.1 mem
    · exact .inl ⟨k, rfl, x, here, state, phase, due⟩
    · exact .inr (.inl ⟨k, rfl, y, x, stands, here, state, phase, less⟩)
    · exact .inr (.inr ⟨k, rfl, x, here, state, phase, zero⟩)
  · rintro (⟨k, rfl, x, here, state, phase, due⟩ | ⟨k, rfl, y, x, stands, here, state, phase, less⟩ |
      ⟨k, rfl, x, here, state, phase, zero⟩)
    · obtain ⟨y, stands⟩ := stood here
      exact ⟨((x, y), k), mem_zip_index.2 ⟨here, stands⟩, .inl (.inl ⟨rfl, state, phase, due⟩)⟩
    · exact ⟨((x, y), k), mem_zip_index.2 ⟨here, stands⟩, .inl (.inr ⟨rfl, state, phase, less⟩)⟩
    · obtain ⟨y, stands⟩ := stood here
      exact ⟨((x, y), k), mem_zip_index.2 ⟨here, stands⟩, .inr ⟨rfl, state, phase, zero⟩⟩

theorem mem_dueGates : c ∈ s.gates.zipIdx.flatMap (fun (x, g) => dueGate g x) ↔
    (∃ g, c = .travelTimeout g ∧ ∃ x, s.gates[g]? = some x ∧ (x.lowerDrive = true ∨ x.raiseDrive = true) ∧
      x.travel = 0) ∨
    (∃ g, c = .reversalPauseEnd g ∧ ∃ x, s.gates[g]? = some x ∧ x.state = .lowering ∧ x.sub = some .reversing ∧
      x.pause = some 0) ∨
    (∃ g, c = .holdOffEnd g ∧ ∃ x, s.gates[g]? = some x ∧ x.state = .stopped ∧ x.holdOff = some 0) ∨
    (∃ g, c = .lampToggle g ∧ ∃ x, s.gates[g]? = some x ∧ x.flashing = true ∧ x.lampLeft = 0) := by
  simp only [dueGate, Gate.travelling, List.mem_flatMap, List.mem_append, mem_event, Bool.and_eq_true, Bool.or_eq_true,
    beq_iff_eq, and_assoc]
  constructor
  · rintro ⟨⟨x, g⟩, mem, ((⟨rfl, drive, zero⟩ | ⟨rfl, state, sub, zero⟩) | ⟨rfl, state, zero⟩) | ⟨rfl, on, zero⟩⟩
    all_goals have here := List.mem_zipIdx_iff_getElem?.1 mem
    · exact .inl ⟨g, rfl, x, here, drive, zero⟩
    · exact .inr (.inl ⟨g, rfl, x, here, state, sub, zero⟩)
    · exact .inr (.inr (.inl ⟨g, rfl, x, here, state, zero⟩))
    · exact .inr (.inr (.inr ⟨g, rfl, x, here, on, zero⟩))
  · have mem {g : Nat} {x : Gate} (here : s.gates[g]? = some x) : (x, g) ∈ s.gates.zipIdx :=
      List.mem_zipIdx_iff_getElem?.2 here
    rintro (⟨g, rfl, x, here, drive, zero⟩ | ⟨g, rfl, x, here, state, sub, zero⟩ | ⟨g, rfl, x, here, state, zero⟩ |
      ⟨g, rfl, x, here, on, zero⟩)
    · exact ⟨(x, g), mem here, .inl (.inl (.inl ⟨rfl, drive, zero⟩))⟩
    · exact ⟨(x, g), mem here, .inl (.inl (.inr ⟨rfl, state, sub, zero⟩))⟩
    · exact ⟨(x, g), mem here, .inl (.inr ⟨rfl, state, zero⟩)⟩
    · exact ⟨(x, g), mem here, .inr ⟨rfl, on, zero⟩⟩

theorem hasCome_bind {α : Type} (o : Option α) (f : α → Option Nat) :
    HasCome s (o.bind f) ↔ ∃ p, o = some p ∧ HasCome s (f p) := by
  cases o <;> simp [HasCome]

theorem hasCome_map {α : Type} (o : Option α) (f : α → Nat) : HasCome s (o.map f) ↔ ∃ p, o = some p ∧ f p ≤ s.now := by
  cases o <;> simp [HasCome]

theorem mem_dueSlots : c ∈ s.dueSlots ↔
    ∃ n, c = .slotExpiry n ∧ 32 ≤ n ∧ n ≤ 63 ∧ ∃ p, s.postedIn n = some p ∧ HasCome s p.endsAt := by
  simp only [State.dueSlots, List.mem_flatMap, mem_event, reached_iff, hasCome_bind, List.mem_range'_1]
  exact ⟨fun ⟨n, inside, same, due⟩ => ⟨n, same, inside.1, by omega, due⟩,
    fun ⟨n, same, least, most, due⟩ => ⟨n, ⟨least, by omega⟩, same, due⟩⟩

theorem mem_dueLine : c ∈ s.dueLine ↔
    (c = .replyTimeout ∧ ∃ w, s.line.inFlight = some w ∧ w.exchange = .window 0) ∨
    (∃ k, c = .refreshDue k ∧ ∃ x, s.line.signs[k]? = some x ∧ HasCome s x.refreshDue) ∨
    (∃ k, c = .probeDue k ∧ ∃ x, s.line.signs[k]? = some x ∧ HasCome s x.probeDue) ∨
    (c = .lineRecovery ∧ HasCome s s.line.recovery) := by
  have waits : s.awaiting.any (fun x => x.2 == 0) = true ↔ ∃ w, s.line.inFlight = some w ∧ w.exchange = .window 0 := by
    simp only [Option.any_eq_true, Prod.exists, awaiting_iff, beq_iff_eq]
    exact ⟨fun ⟨w, left, ⟨flying, window⟩, zero⟩ => ⟨w, flying, zero ▸ window⟩,
      fun ⟨w, flying, window⟩ => ⟨w, 0, ⟨flying, window⟩, rfl⟩⟩
  simp only [State.dueLine, List.mem_flatMap, List.mem_append, mem_event, reached_iff, waits]
  constructor
  · rintro ((waits | ⟨⟨x, k⟩, mem, ⟨rfl, due⟩ | ⟨rfl, due⟩⟩) | recovers)
    · exact .inl waits
    · exact .inr (.inl ⟨k, rfl, x, List.mem_zipIdx_iff_getElem?.1 mem, due⟩)
    · exact .inr (.inr (.inl ⟨k, rfl, x, List.mem_zipIdx_iff_getElem?.1 mem, due⟩))
    · exact .inr (.inr (.inr recovers))
  · rintro (waits | ⟨k, rfl, x, here, due⟩ | ⟨k, rfl, x, here, due⟩ | recovers)
    · exact .inl (.inl waits)
    · exact .inl (.inr ⟨(x, k), List.mem_zipIdx_iff_getElem?.2 here, .inl ⟨rfl, due⟩⟩)
    · exact .inl (.inr ⟨(x, k), List.mem_zipIdx_iff_getElem?.2 here, .inr ⟨rfl, due⟩⟩)
    · exact .inr recovers

theorem mem_dueFloors : c ∈ s.dueFloors ↔
    ∃ n, c = .floorEnd n ∧ ∃ p f, s.hazard.paths[n]? = some p ∧ p.floor = some f ∧ f.endsAt ≤ s.now := by
  simp only [State.dueFloors, List.mem_flatMap, mem_event, reached_iff, hasCome_map]
  exact ⟨fun ⟨⟨p, n⟩, mem, same, f, floor, due⟩ => ⟨n, same, p, f, List.mem_zipIdx_iff_getElem?.1 mem, floor, due⟩,
    fun ⟨n, same, p, f, here, floor, due⟩ => ⟨(p, n), List.mem_zipIdx_iff_getElem?.2 here, same, f, floor, due⟩⟩

theorem mem_dueLines : c ∈ s.dueLines ↔
    ∃ l, c = .debounceExpiry l ∧ ∃ x, s.scan.lines[l]? = some x ∧ x.stability = some 0 := by
  simp only [State.dueLines, List.mem_flatMap, mem_event, beq_iff_eq]
  exact ⟨fun ⟨⟨x, l⟩, mem, same, zero⟩ => ⟨l, same, x, List.mem_zipIdx_iff_getElem?.1 mem, zero⟩,
    fun ⟨l, same, x, here, zero⟩ => ⟨(x, l), List.mem_zipIdx_iff_getElem?.2 here, same, zero⟩⟩

theorem mem_dueChannels (running : s.held = none) : c ∈ s.dueChannels ↔
    (∃ n, c = .holdAgeExpiry n ∧ n < 32 ∧ (s.described = true ∨ 28 ≤ n) ∧ ∃ x start, s.channel? n = some x ∧
      x.quality = .held ∧ x.heldSince = some start ∧ start + x.desc.holdLimit ≤ s.now) ∨
    (∃ n, c = .silenceExpiry n ∧ n < 32 ∧ (s.described = true ∨ 28 ≤ n) ∧ ∃ x start, s.channel? n = some x ∧
      x.quality ≠ .failed ∧ x.silenceFrom = some start ∧ start + x.desc.holdLimit ≤ s.now) := by
  have times (n : Nat) : s.timesChannel n = true ↔ s.described = true ∨ 28 ≤ n := by
    simp [State.timesChannel, running, or_comm]
  have each (n : Nat) : c ∈ (match s.channel? n with
      | none => []
      | some x =>
        event (s.timesChannel n && x.quality == Quality.held && s.reached x.holdAgeDue) (.holdAgeExpiry n) ++
          event (s.timesChannel n && x.quality != Quality.failed && s.reached x.silenceDue) (.silenceExpiry n)) ↔
      ∃ x, s.channel? n = some x ∧
        ((c = .holdAgeExpiry n ∧ (s.described = true ∨ 28 ≤ n) ∧ x.quality = .held ∧ HasCome s x.holdAgeDue) ∨
          (c = .silenceExpiry n ∧ (s.described = true ∨ 28 ≤ n) ∧ x.quality ≠ .failed ∧ HasCome s x.silenceDue)) := by
    cases s.channel? n <;> simp [mem_event, times, reached_iff, and_assoc]
  have due : c ∈ s.dueChannels ↔ ∃ n < 32, ∃ x, s.channel? n = some x ∧
        ((c = .holdAgeExpiry n ∧ (s.described = true ∨ 28 ≤ n) ∧ x.quality = .held ∧ HasCome s x.holdAgeDue) ∨
          (c = .silenceExpiry n ∧ (s.described = true ∨ 28 ≤ n) ∧ x.quality ≠ .failed ∧ HasCome s x.silenceDue)) := by
    rw [State.dueChannels, List.mem_flatMap]
    exact exists_congr fun n => and_congr List.mem_range (each n)
  simp only [due, Channel.holdAgeDue, Channel.silenceDue, hasCome_map]
  constructor
  · rintro ⟨n, inside, x, here, ⟨rfl, acts, held, start, since, due⟩ | ⟨rfl, acts, held, start, since, due⟩⟩
    · exact .inl ⟨n, rfl, inside, acts, x, start, here, held, since, due⟩
    · exact .inr ⟨n, rfl, inside, acts, x, start, here, held, since, due⟩
  · rintro (⟨n, rfl, inside, acts, x, start, here, held, since, due⟩ |
      ⟨n, rfl, inside, acts, x, start, here, held, since, due⟩)
    · exact ⟨n, inside, x, here, .inl ⟨rfl, acts, held, start, since, due⟩⟩
    · exact ⟨n, inside, x, here, .inr ⟨rfl, acts, held, start, since, due⟩⟩

theorem mem_dueAlways : c ∈ s.dueAlways ↔ c ∈ s.dueChannels ∨
    (c = .scanRoundStart ∧ s.scan.converting = none ∧ HasCome s s.scan.nextRound) ∨ c ∈ s.dueLines ∨
    (c = .hazardPeriodExpiry ∧ s.hazard.nextExpiry ≤ s.now) := by
  simp only [State.dueAlways, List.mem_append, mem_event, Bool.and_eq_true, Option.isNone_iff_eq_none, reached_iff,
    decide_eq_true_eq, or_assoc]

theorem mem_dueDescribed {before : List Segment} : c ∈ s.dueDescribed before ↔ c ∈ s.dueClaims ∨
    c ∈ s.dueSegments before ∨ c ∈ s.gates.zipIdx.flatMap (fun (x, g) => dueGate g x) ∨ c ∈ s.dueSlots ∨ c ∈ s.dueLine ∨
    c ∈ s.dueFloors := by
  simp only [State.dueDescribed, List.mem_append, or_assoc]

theorem mem_due {before : List Segment} :
    c ∈ s.due before ↔ c ∈ s.dueAlways ∨ (s.described = true ∧ c ∈ s.dueDescribed before) := by
  rw [State.due, List.mem_append]
  refine or_congr_right ?_
  split <;> simp [*]

end

section
variable {s t : State} {c : Instr}

theorem fallsDue_always (running : t.held = none) (h : c ∈ t.dueAlways) : FallsDue s t c := by
  obtain channel | ⟨rfl, round⟩ | line | ⟨rfl, period⟩ := mem_dueAlways.1 h
  · obtain ⟨n, rfl, due⟩ | ⟨n, rfl, due⟩ := (mem_dueChannels running).1 channel
    · exact due
    · exact due
  · exact round
  · obtain ⟨l, rfl, due⟩ := mem_dueLines.1 line
    exact due
  · exact period

theorem fallsDue_described (described : t.described = true) (same : s.segs.records.length = t.segs.records.length)
    (h : c ∈ t.dueDescribed s.segs.records) : FallsDue s t c := by
  obtain claim | segment | gate | slot | line | floor := mem_dueDescribed.1 h
  · obtain ⟨k, h, rfl, due⟩ | ⟨k, h, rfl, due⟩ := mem_dueClaims.1 claim
    · exact ⟨described, due⟩
    · exact ⟨described, due⟩
  · obtain ⟨k, rfl, due⟩ | ⟨k, rfl, due⟩ | ⟨k, rfl, due⟩ := (mem_dueSegments same).1 segment
    · exact ⟨described, due⟩
    · exact ⟨described, due⟩
    · exact ⟨described, due⟩
  · obtain ⟨g, rfl, due⟩ | ⟨g, rfl, due⟩ | ⟨g, rfl, due⟩ | ⟨g, rfl, due⟩ := mem_dueGates.1 gate
    · exact ⟨described, due⟩
    · exact ⟨described, due⟩
    · exact ⟨described, due⟩
    · exact ⟨described, due⟩
  · obtain ⟨n, rfl, due⟩ := mem_dueSlots.1 slot
    exact ⟨described, due⟩
  · obtain ⟨rfl, due⟩ | ⟨k, rfl, due⟩ | ⟨k, rfl, due⟩ | ⟨rfl, due⟩ := mem_dueLine.1 line
    · exact ⟨described, due⟩
    · exact ⟨described, due⟩
    · exact ⟨described, due⟩
    · exact ⟨described, due⟩
  · obtain ⟨n, rfl, due⟩ := mem_dueFloors.1 floor
    exact ⟨described, due⟩

theorem mem_of_fallsDue (running : t.held = none) (same : s.segs.records.length = t.segs.records.length)
    (h : FallsDue s t c) : c ∈ t.due s.segs.records := by
  have always {c : Instr} (h : c ∈ t.dueChannels ∨
      (c = .scanRoundStart ∧ t.scan.converting = none ∧ HasCome t t.scan.nextRound) ∨ c ∈ t.dueLines ∨
      (c = .hazardPeriodExpiry ∧ t.hazard.nextExpiry ≤ t.now)) : c ∈ t.due s.segs.records :=
    mem_due.2 (.inl (mem_dueAlways.2 h))
  have claims {c : Instr} (described : t.described = true) (h : c ∈ t.dueClaims) : c ∈ t.due s.segs.records :=
    mem_due.2 (.inr ⟨described, mem_dueDescribed.2 (.inl h)⟩)
  have segments {c : Instr} (described : t.described = true) (h : c ∈ t.dueSegments s.segs.records) :
      c ∈ t.due s.segs.records := mem_due.2 (.inr ⟨described, mem_dueDescribed.2 (.inr (.inl h))⟩)
  have gates {c : Instr} (described : t.described = true) (h : c ∈ t.gates.zipIdx.flatMap (fun (x, g) => dueGate g x)) :
      c ∈ t.due s.segs.records := mem_due.2 (.inr ⟨described, mem_dueDescribed.2 (.inr (.inr (.inl h)))⟩)
  have line {c : Instr} (described : t.described = true) (h : c ∈ t.dueLine) : c ∈ t.due s.segs.records :=
    mem_due.2 (.inr ⟨described, mem_dueDescribed.2 (.inr (.inr (.inr (.inr (.inl h)))))⟩)
  cases c
  case claimStart k h => exact claims h.1 (mem_dueClaims.2 (.inl ⟨_, _, rfl, h.2⟩))
  case claimExpiry => exact claims h.1 (mem_dueClaims.2 (.inr ⟨_, _, rfl, h.2⟩))
  case confirmingExpiry => exact segments h.1 ((mem_dueSegments same).2 (.inl ⟨_, rfl, h.2⟩))
  case prewarnMinuteChange => exact segments h.1 ((mem_dueSegments same).2 (.inr (.inl ⟨_, rfl, h.2⟩)))
  case prewarnEnd => exact segments h.1 ((mem_dueSegments same).2 (.inr (.inr ⟨_, rfl, h.2⟩)))
  case travelTimeout => exact gates h.1 (mem_dueGates.2 (.inl ⟨_, rfl, h.2⟩))
  case reversalPauseEnd => exact gates h.1 (mem_dueGates.2 (.inr (.inl ⟨_, rfl, h.2⟩)))
  case holdOffEnd => exact gates h.1 (mem_dueGates.2 (.inr (.inr (.inl ⟨_, rfl, h.2⟩))))
  case lampToggle => exact gates h.1 (mem_dueGates.2 (.inr (.inr (.inr ⟨_, rfl, h.2⟩))))
  case slotExpiry =>
    exact mem_due.2 (.inr ⟨h.1, mem_dueDescribed.2 (.inr (.inr (.inr (.inl (mem_dueSlots.2 ⟨_, rfl, h.2⟩)))))⟩)
  case replyTimeout => exact line h.1 (mem_dueLine.2 (.inl ⟨rfl, h.2⟩))
  case refreshDue => exact line h.1 (mem_dueLine.2 (.inr (.inl ⟨_, rfl, h.2⟩)))
  case probeDue => exact line h.1 (mem_dueLine.2 (.inr (.inr (.inl ⟨_, rfl, h.2⟩))))
  case lineRecovery => exact line h.1 (mem_dueLine.2 (.inr (.inr (.inr ⟨rfl, h.2⟩))))
  case floorEnd =>
    exact mem_due.2 (.inr ⟨h.1, mem_dueDescribed.2 (.inr (.inr (.inr (.inr (.inr (mem_dueFloors.2 ⟨_, rfl, h.2⟩))))))⟩)
  case holdAgeExpiry => exact always (.inl ((mem_dueChannels running).2 (.inl ⟨_, rfl, h⟩)))
  case silenceExpiry => exact always (.inl ((mem_dueChannels running).2 (.inr ⟨_, rfl, h⟩)))
  case scanRoundStart => exact always (.inr (.inl ⟨rfl, h⟩))
  case debounceExpiry => exact always (.inr (.inr (.inl (mem_dueLines.2 ⟨_, rfl, h⟩))))
  case hazardPeriodExpiry => exact always (.inr (.inr (.inr ⟨rfl, h⟩)))
  all_goals exact h.elim

/-- The events of a millisecond are those that fall due in it. -/
theorem mem_due_iff (running : t.held = none) (same : s.segs.records.length = t.segs.records.length) :
    c ∈ t.due s.segs.records ↔ FallsDue s t c :=
  ⟨fun h => (mem_due.1 h).elim (fallsDue_always running) (fun ⟨described, h⟩ => fallsDue_described described same h),
    mem_of_fallsDue running same⟩

/-- What falls due does not rest on the queue. -/
theorem fallsDue_enqueue (events : List Instr) : FallsDue s (t.enqueue events) c ↔ FallsDue s t c := by
  cases c <;> exact Iff.rfl

end

/-! ### A millisecond (R4, R13, R34, R42, R43, R48, R87, R113) -/

section
variable (s : State)

theorem clocks_tick (c : Clocks) : (c.millis < 999 → c.tick.millis = c.millis + 1 ∧ c.tick.seconds = c.seconds) ∧
    (999 ≤ c.millis → c.tick.millis = 0 ∧ (c.seconds + 1 < 4294967296 → c.tick.seconds = c.seconds + 1)) := by
  unfold Clocks.tick
  refine ⟨fun less => ?_, fun most => ?_⟩
  · rw [if_pos (by omega)]
    exact ⟨rfl, rfl⟩
  · rw [if_neg (by omega)]
    split
    · exact ⟨rfl, fun _ => rfl⟩
    · next highest => exact ⟨rfl, fun lower => absurd lower highest⟩

theorem tick_bare (bare : s.described = false) : s.tick = s.tickAlways := by
  rw [State.tick, if_neg (by rw [show s.tickAlways.described = s.described from rfl, bare]; simp)]

theorem tick_described (described : s.described = true) : s.tick = s.tickAlways.tickDescribed := by
  rw [State.tick, if_pos (show s.tickAlways.described = true from described)]

theorem tick_same : s.tick.clocks = s.clocks.tick ∧ s.tick.scan.lines = s.scan.lines.map InputLine.milli ∧
    s.tick.held = s.held ∧ s.tick.segs.records.length = s.segs.records.length := by
  cases described : s.described with
  | false =>
    rw [tick_bare s described]
    exact ⟨rfl, rfl, rfl, rfl⟩
  | true =>
    rw [tick_described s described]
    refine ⟨rfl, rfl, rfl, ?_⟩
    show (if s.clocks.tick.millis = 0 then s.segs.records.map Segment.second else s.segs.records).length = _
    split <;> simp

/-- R13: a countdown falls at a whole second. -/
theorem second_eq (n : Nat) (records : List Segment) :
    (if n = 0 then records.map Segment.second else records) = records.map (fun x => { x with
      remaining := if n = 0 ∧ x.state = .closing ∧ x.phase = some .prewarn then x.remaining - 1 else x.remaining }) := by
  by_cases zero : n = 0
  · rw [if_pos zero]
    refine List.map_congr_left fun x _ => ?_
    unfold Segment.second
    split <;> simp [*]
  · simp [zero]

/-- R34, R42, R43, R48: a gate's timers fall by their units. -/
theorem gate_milli (n : Nat) (x : Gate) : (if n % 100 = 0 then x.lampMilli.tenth else x.lampMilli) = { x with
    lampLeft := if x.flashing then x.lampLeft - 1 else x.lampLeft,
    travel := if n % 100 = 0 ∧ (x.lowerDrive = true ∨ x.raiseDrive = true) then x.travel - 1 else x.travel,
    pause := if n % 100 = 0 ∧ x.state = .lowering ∧ x.sub = some .reversing then x.pause.map (· - 1) else x.pause,
    holdOff := if n % 100 = 0 ∧ x.state = .stopped then x.holdOff.map (· - 1) else x.holdOff } := by
  have lamp : x.lampMilli = { x with lampLeft := if x.flashing then x.lampLeft - 1 else x.lampLeft } := by
    unfold Gate.lampMilli
    split <;> rfl
  have travels : ({ x with lampLeft := if x.flashing then x.lampLeft - 1 else x.lampLeft } : Gate).travelling =
      (x.lowerDrive || x.raiseDrive) := rfl
  by_cases tenth : n % 100 = 0
  · rw [if_pos tenth, lamp, Gate.tenth, travels]
    simp [tenth]
  · rw [if_neg tenth, lamp]
    simp [tenth]

theorem frame_tick_bare (bare : s.described = false) : Frame [.clock, .inputs] s s.tick := by
  rw [tick_bare s bare]
  have display : s.clocks.tick.display = s.clocks.display := (tick_frame s .display (by decide)).symm ▸ (by
    rw [tick_bare s bare]; rfl)
  intro p other
  cases p
  case clock | inputs => exact absurd (by decide) other
  case display => exact display
  all_goals simp [Part.same, State.tickAlways, State.port]

end

/-- Settles O2. -/
theorem timePassesWhileNothingWaits : Obligations.TimePassesWhileNothingWaits := by
  intro s empty
  have runs : step s = .next s.idle := by rw [step, empty]
  refine ⟨fun held => ?_, fun running waits => ?_, fun running waits => ?_⟩
  · rw [runs, State.idle, if_pos (Option.isSome_iff_ne_none.2 held)]
  · obtain ⟨c, ready⟩ := waits
    have some : s.ready.isEmpty = false := by
      cases list : s.ready with
      | nil => simp [← mem_ready, list] at ready
      | cons _ _ => rfl
    have idles : s.idle = s.enqueue s.ready := by simp [State.idle, running, some]
    exact ⟨_, runs.trans (congrArg _ idles), fun c => mem_enqueue.trans mem_ready, (enqueue_pending s s.ready).nodup_iff.2 (ready_nodup s),
      enqueue_frame s s.ready⟩
  · have idle : s.ready.isEmpty = true := List.isEmpty_iff.2 (List.eq_nil_iff_forall_not_mem.2
      fun c mem => waits c (mem_ready.1 mem))
    have idles : s.idle = s.tick.enqueue (s.tick.due s.segs.records) := by simp [State.idle, running, idle]
    obtain ⟨clocks, lines, held, length⟩ := tick_same s
    obtain ⟨early, late⟩ := clocks_tick s.clocks
    have millis : (s.tick.enqueue (s.tick.due s.segs.records)).clocks = s.clocks.tick := clocks
    refine ⟨_, runs.trans (congrArg _ idles), fun c => mem_enqueue.trans ((mem_due_iff (held.trans running) length.symm).trans
      (fallsDue_enqueue _).symm), fun less => ?_, fun most => ?_, lines, fun bare => ?_, fun described => ?_⟩
    · rw [State.now, State.now, millis]
      exact early less
    · rw [State.now, State.now, millis]
      exact late most
    · exact Moves.frame_trans (Moves.frame_mono (by decide) (frame_tick_bare s bare))
        (Moves.frame_mono (by decide) (enqueue_frame s.tick _))
    · have tick := tick_described s described
      rw [millis]
      refine ⟨?_, ?_, ?_, ?_, ?_, Moves.frame_trans (Moves.frame_mono (by decide) (tick_frame s))
        (Moves.frame_mono (by decide) (enqueue_frame s.tick _))⟩
      · show s.tick.gates = _
        rw [tick]
        exact List.map_congr_left fun x _ => gate_milli _ x
      · show s.tick.segs.records = _
        rw [tick]
        exact second_eq _ _
      · show s.tick.line.inFlight = _
        rw [tick]
        show s.line.inFlight.map _ = _
        refine congrArg (fun f => s.line.inFlight.map f) (funext fun w => ?_)
        cases w.exchange <;> rfl
      · show s.tick.line.entries = _
        rw [tick]
        rfl
      · show s.tick.line.made = _
        rw [tick]
        rfl

end Sys2Proof.Proofs
end

