-- ==== Sys2Proof/Proofs/ShutSegments.lean ====
section
/-! A segment that its claims shut (R11, R16, R18, R37): what the lowering makes of each gate of its list, and that it leaves
the closure reserve, and so the mode, as they are. -/

namespace Sys2Proof.Proofs

open Sys2Proof.Machine Sys2Proof.Safety Sys2Proof.Laws

/-! ### The closure reserve (R155) -/

/-- What a gate adds to the closure reserve. -/
def share (x : Gate) : Nat := if x.state.counted then x.cfg.lowerCost else 0

theorem closureReserve_shares (gates : List Gate) : closureReserve gates = (gates.map share).sum := by
  induction gates with
  | nil => rfl
  | cons x rest ih =>
    rw [List.map_cons, List.sum_cons, ← ih]
    rfl

/-- The reserve is that of the gates. -/
def ReserveOk (s : State) : Prop := s.power.reserve = closureReserve s.gates

section
variable {s t : State}

theorem reserveOk_of_shares (ok : ReserveOk s) (reserve : t.power.reserve = s.power.reserve)
    (shares : ∀ j : Nat, (t.gates[j]?).map share = (s.gates[j]?).map share) : ReserveOk t := by
  have same : t.gates.map share = s.gates.map share :=
    List.ext_getElem? fun j => by rw [List.getElem?_map, List.getElem?_map, shares]
  rw [ReserveOk, reserve, closureReserve_shares, same, ← closureReserve_shares]
  exact ok

theorem reserveOk_of_same (ok : ReserveOk s) (reserve : t.power.reserve = s.power.reserve) (gates : t.gates = s.gates) :
    ReserveOk t := reserveOk_of_shares ok reserve (fun j => by rw [gates])

theorem reserveOk_of_effect {l : List Part} {K : List NoticeKind} (ok : ReserveOk s) (e : Effect l K s t)
    (reserve : .reserve ∉ l := by decide) (gates : .gates ∉ l := by decide) : ReserveOk t :=
  reserveOk_of_same ok (e.frame .reserve reserve) (e.frame .gates gates)

/-- R155: a reserve that is right already starts no evaluation of the mode. -/
theorem updateReserve_still (ok : ReserveOk s) : s.updateReserve = s := if_pos ok.symm

theorem share_setLamp (x : Gate) (b : Bool) : share (x.setLamp b) = share x := by
  unfold Gate.setLamp
  split <;> rfl

end

/-! ### Gates that are lowered (R16, R37) -/

/-- R37: what demand LOWER makes of a gate that is not RAISING. -/
def lowered (s : State) (x : Gate) : Gate :=
  if x.state = .up then (if s.asserted x.cfg.obstructionLine then x.startStopped else x.startLowering) else x

section
variable (s : State) (x : Gate)

theorem lowered_cases : (x.state ≠ .up ∧ lowered s x = x) ∨
    (x.state = .up ∧ s.asserted x.cfg.obstructionLine = true ∧ lowered s x = x.startStopped) ∨
    (x.state = .up ∧ s.asserted x.cfg.obstructionLine = false ∧ lowered s x = x.startLowering) := by
  unfold lowered
  by_cases up : x.state = .up
  · cases asserted : s.asserted x.cfg.obstructionLine
    · exact .inr (.inr ⟨up, rfl, by simp [up]⟩)
    · exact .inr (.inl ⟨up, rfl, by simp [up]⟩)
  · exact .inl ⟨up, if_neg up⟩

theorem lowered_kept : (lowered s x).cfg = x.cfg ∧ (lowered s x).demand = x.demand ∧
    (lowered s x).flashing = x.flashing ∧ share (lowered s x) = share x := by
  obtain ⟨-, eq⟩ | ⟨up, -, eq⟩ | ⟨up, -, eq⟩ := lowered_cases s x
  · rw [eq]
    exact ⟨rfl, rfl, rfl, rfl⟩
  · rw [eq]
    exact ⟨rfl, rfl, rfl, by simp [share, Gate.startStopped, up, GateState.counted]⟩
  · rw [eq]
    exact ⟨rfl, rfl, rfl, by simp [share, Gate.startLowering, up, GateState.counted]⟩

theorem lowered_twice : lowered s (lowered s x) = lowered s x := by
  have rests : (lowered s x).state ≠ .up := by
    obtain ⟨down, eq⟩ | ⟨-, -, eq⟩ | ⟨-, -, eq⟩ := lowered_cases s x
    · rwa [eq]
    · rw [eq]
      simp [Gate.startStopped]
    · rw [eq]
      simp [Gate.startLowering]
  rw [lowered, if_neg rests]

theorem lowered_still (still : x.state ≠ .raising) : (lowered s x).state ≠ .raising := by
  obtain ⟨-, eq⟩ | ⟨-, -, eq⟩ | ⟨-, -, eq⟩ := lowered_cases s x
  · rwa [eq]
  · rw [eq]
    simp [Gate.startStopped]
  · rw [eq]
    simp [Gate.startLowering]

end

section
variable {k : Nat} {y : Segment}

/-- R16: while a gate of its list lowers or waits to lower, a segment in phase LOWERING waits. -/
theorem testGates_waits {s : State} {g : Nat} {x : Gate} (record : s.segs.records[k]? = some y) (state : y.state = .closing)
    (mem : g ∈ y.cfg.gates) (here : s.gates[g]? = some x) (lowers : x.lowers = true) : s.testGates k = s := by
  have waits : s.loweringDone y.cfg.gates = false := by
    rw [← Bool.not_eq_true, loweringDone_iff]
    intro done
    obtain ⟨low, stop⟩ := done g mem x here
    simp [Gate.lowers, low, stop] at lowers
  simp [State.testGates, record, state, waits]

/-- A gate that begins to lower reports itself, and moves nothing else. -/
theorem changeGate_lowers {s : State} {g : Nat} {x : Gate} {f : Gate → Gate} (record : s.segs.records[k]? = some y)
    (state : y.state = .closing) (mem : g ∈ y.cfg.gates) (home : (f x).cfg.segment = k) (here : s.gates[g]? = some x)
    (lowers : (f x).lowers = true) (ok : ReserveOk s) (same : share (f x) = share x) :
    s.changeGate g f = (s.updGate g f).tellAll ((s.updGate g f).gateNotice g (f x)) ∧ ReserveOk (s.updGate g f) := by
  have there : (s.updGate g f).gates[g]? = some (f x) := updGate_gate here
  have waits : (s.updGate g f).testGates k = s.updGate g f :=
    testGates_waits (s := s.updGate g f) record state mem there lowers
  have reserve : ReserveOk (s.updGate g f) := reserveOk_of_shares ok rfl (fun j => by
    rw [updGate_gates, List.getElem?_modify]
    obtain rfl | other := eq_or_ne g j
    · simp [here, same]
    · simp [other])
  refine ⟨?_, reserve⟩
  simp only [State.changeGate, State.gateReport, there, home, waits, updateReserve_still reserve]

/-- What the application of demand LOWER to the list of segment k goes by: the segment waits in phase LOWERING, and each gate
of the list lies on it, holds the demand and does not rise. -/
structure Lowering (k : Nat) (y : Segment) (s : State) : Prop where
  record : s.segs.records[k]? = some y
  state : y.state = .closing
  gates : ∀ g ∈ y.cfg.gates, ∀ x, s.gates[g]? = some x → x.cfg.segment = k ∧ x.demand = .lower ∧ x.state ≠ .raising
  reserve : ReserveOk s

namespace Lowering

variable {s : State} (h : Lowering k y s) {g : Nat} (mem : g ∈ y.cfg.gates)
include h mem

/-- R37: demand LOWER applied to one gate of the list. -/
theorem applyRecorded : (s.applyRecorded g).gates = (s.updGate g (lowered s)).gates ∧
    Effect (.gates :: noticeParts) [.gateState] s (s.applyRecorded g) ∧ Lowering k y (s.applyRecorded g) := by
  cases here : s.gates[g]? with
  | none =>
    have still : s.applyRecorded g = s := by rw [State.applyRecorded, here]
    rw [still]
    exact ⟨(List.modify_eq_self (List.getElem?_eq_none_iff.1 here)).symm, .refl _ _ s, h⟩
  | some x =>
    obtain ⟨home, demand, still⟩ := h.gates g mem x here
    rw [applyRecorded_lower here demand]
    have after (f : Gate → Gate) (eq : lowered s x = f x) (lowers : (f x).lowers = true) :
        (s.changeGate g f).gates = (s.updGate g (lowered s)).gates ∧
          Effect (.gates :: noticeParts) [.gateState] s (s.changeGate g f) ∧ Lowering k y (s.changeGate g f) := by
      obtain ⟨cfg, sameDemand, -, same⟩ := lowered_kept s x
      rw [eq] at cfg sameDemand same
      obtain ⟨change, reserve⟩ := changeGate_lowers h.record h.state mem (cfg ▸ home) here lowers h.reserve same
      have told := effect_tellAll (s.updGate g f) ((s.updGate g f).gateNotice g (f x)) .gateState
      have effect : Effect (.gates :: noticeParts) [.gateState] s (s.changeGate g f) := change ▸ .seq (effect_updGate s g f) told
      have gates : (s.changeGate g f).gates = s.gates.set g (f x) := by
        rw [change, tellAll_gates, updGate_gates, modify_of_getElem? here]
      refine ⟨by rw [gates, updGate_gates, modify_of_getElem? here, eq], effect, ?_⟩
      refine ⟨(effect.frame .records (by decide)).symm ▸ h.record, h.state, fun j hj z there => ?_,
        change ▸ reserveOk_of_effect reserve told⟩
      rw [gates] at there
      obtain rfl | other := eq_or_ne g j
      · rw [List.getElem?_set_self (List.getElem?_eq_some_iff.1 here).1] at there
        obtain rfl := Option.some.inj there
        exact ⟨cfg ▸ home, sameDemand.trans demand, eq ▸ lowered_still s x still⟩
      · rw [List.getElem?_set_ne other] at there
        exact h.gates j hj z there
    obtain ⟨down, eq⟩ | ⟨up, asserted, eq⟩ | ⟨up, asserted, eq⟩ := lowered_cases s x
    · rw [applyLower_still here down still]
      refine ⟨?_, .refl _ _ s, h⟩
      rw [updGate_gates, modify_of_getElem? here, eq]
      obtain ⟨inside, rfl⟩ := List.getElem?_eq_some_iff.1 here
      exact (List.set_getElem_self inside).symm
    · have applies : s.applyLower g = s.changeGate g Gate.startStopped := by simp [State.applyLower, here, up, asserted]
      rw [applies]
      exact after Gate.startStopped eq rfl
    · have applies : s.applyLower g = s.changeGate g Gate.startLowering := by simp [State.applyLower, here, up, asserted]
      rw [applies]
      exact after Gate.startLowering eq rfl

end Lowering

theorem asserted_of_inputs {s t : State} (h : t.scan.lines = s.scan.lines) (l : Nat) : t.asserted l = s.asserted l := by
  rw [State.asserted, State.asserted, h]

theorem lowered_of_inputs {s t : State} (h : t.scan.lines = s.scan.lines) : lowered t = lowered s :=
  funext fun x => by rw [lowered, lowered, asserted_of_inputs h]

/-- R36, R37: demand LOWER applied to the gates of the list, one after another. -/
theorem Lowering.applyAll {s : State} (h : Lowering k y s) (list : List Nat) (sub : ∀ g ∈ list, g ∈ y.cfg.gates) :
    (∀ j, (list.foldl State.applyRecorded s).gates[j]? =
      (s.gates[j]?).map (fun x => if j ∈ list then lowered s x else x)) ∧
    Effect (.gates :: noticeParts) [.gateState] s (list.foldl State.applyRecorded s) ∧
    Lowering k y (list.foldl State.applyRecorded s) := by
  induction list generalizing s with
  | nil => exact ⟨fun j => by simp, .refl _ _ s, h⟩
  | cons g rest ih =>
    obtain ⟨gates, effect, after⟩ := h.applyRecorded (sub g List.mem_cons_self)
    obtain ⟨gates', effect', after'⟩ := ih after (fun j mem => sub j (List.mem_cons_of_mem _ mem))
    have inputs : (s.applyRecorded g).scan.lines = s.scan.lines := effect.frame .inputs (by decide)
    refine ⟨fun j => ?_, effect.seq (l := .gates :: noticeParts) (K := [.gateState]) effect', after'⟩
    rw [List.foldl_cons, gates', gates, lowered_of_inputs inputs, updGate_gates, List.getElem?_modify]
    cases s.gates[j]? with
    | none => rfl
    | some x =>
      obtain rfl | other := eq_or_ne g j
      · by_cases again : g ∈ rest <;> simp [again, lowered_twice]
      · simp [other, other.symm]

end

/-! ### The segment shut -/

/-- R18, R36, R37: what the closing of its segment makes of a gate. -/
def shutGate (s : State) (x : Gate) : Gate := lowered s ((x.setLamp true).record .lower)

theorem shutGate_of_inputs {s t : State} (h : t.scan.lines = s.scan.lines) : shutGate t = shutGate s :=
  funext fun x => by rw [shutGate, shutGate, lowered_of_inputs h]

/-- The parts that a segment being shut may change. -/
def shutParts : List Part := [.records, .gates] ++ contentParts ++ noticeParts

section
variable {s : State} {k : Nat} {z : Segment} (here : s.segs.records[k]? = some z) (state : z.state = .closing)
  (phase : z.phase = some .lowering)
include here state phase

/-- A test in phase LOWERING moves no gate. -/
theorem testGates_lowering_gates : (s.testGates k).gates = s.gates := by
  obtain ⟨_, -, -, gates, -⟩ := testGates_lowering here state phase
  exact gates

theorem followUp_shuts (moved : z.demand ≠ .lower) (home : Homed k z.cfg.gates s)
    (still : ∀ g ∈ z.cfg.gates, ∀ x, s.gates[g]? = some x → x.state ≠ .raising) (ok : ReserveOk s) :
    (∀ j, (s.followUp k).gates[j]? = (s.gates[j]?).map (fun x => if j ∈ z.cfg.gates then shutGate s x else x)) ∧
      ReserveOk (s.followUp k) ∧ Effect shutParts [.gateState] s (s.followUp k) := by
  have wanted : z.wantedDemand = .lower := by simp [Segment.wantedDemand, state, phase]
  have lamps : z.wantedLamps = true := by simp [Segment.wantedLamps, state]
  have handed := followUp_handed here (wanted ▸ moved)
  rw [wanted] at handed
  -- the state in which demand LOWER is recorded in each gate of the list
  have before : Effect [.records, .gates] [] s ((demanded s k z).recordDemand z.cfg.gates .lower) :=
    .seq (effect_demanded s k z) (effect_recordDemand _ _ _)
  have gates (j : Nat) : ((demanded s k z).recordDemand z.cfg.gates .lower).gates[j]? =
      (s.gates[j]?).map (fun x => if j ∈ z.cfg.gates then (x.setLamp true).record .lower else x) := by
    have lampGates : (demanded s k z).gates = (s.handLamps z.cfg.gates true).gates := by rw [demanded, lamps]; rfl
    rw [recordDemand_gate, lampGates, handLamps_gate, Option.map_map]
    refine congrArg (fun f => Option.map f _) (funext fun x => ?_)
    by_cases mem : j ∈ z.cfg.gates <;> simp [mem]
  have lowering : Lowering k { z with demand := z.wantedDemand } ((demanded s k z).recordDemand z.cfg.gates .lower) := by
    refine ⟨by rw [recordDemand_records]; exact demanded_record here, state, fun g mem x there => ?_,
      reserveOk_of_shares ok (before.frame .reserve (by decide)) (fun j => ?_)⟩
    · rw [gates] at there
      obtain ⟨w, at_g, rfl⟩ := Option.map_eq_some_iff.1 there
      have mem' : g ∈ z.cfg.gates := mem
      rw [if_pos mem']
      refine ⟨?_, rfl, ?_⟩
      · show (w.setLamp true).cfg.segment = k
        rw [setLamp_cfg]
        exact home g mem w at_g
      · show (w.setLamp true).state ≠ .raising
        rw [setLamp_state]
        exact still g mem w at_g
    · rw [gates, Option.map_map]
      refine congrArg (fun f => Option.map f _) (funext fun x => ?_)
      dsimp only [Function.comp]
      split
      · exact share_setLamp x true
      · rfl
  obtain ⟨applied, effect, after⟩ := lowering.applyAll z.cfg.gates (fun _ => id)
  have tested := testGates_lowering_gates after.record state phase
  have test := effect_testGates (z.cfg.gates.foldl State.applyRecorded ((demanded s k z).recordDemand z.cfg.gates .lower)) k
  have formed := effect_formSegmentSlot ((demanded s k z).handDemand k z.cfg.gates .lower) k
  have sameGates : (s.followUp k).gates =
      (z.cfg.gates.foldl State.applyRecorded ((demanded s k z).recordDemand z.cfg.gates .lower)).gates := by
    rw [handed]
    exact (formed.frame .gates (by decide)).trans tested
  have whole : Effect shutParts [.gateState] s (s.followUp k) := by
    rw [handed]
    exact .seq (.seq (l := shutParts) (K := [.gateState]) (.seq (l := shutParts) (K := [.gateState]) before effect) test) formed
  have inputs : ((demanded s k z).recordDemand z.cfg.gates .lower).scan.lines = s.scan.lines :=
    before.frame .inputs (by decide)
  refine ⟨fun j => ?_, reserveOk_of_same after.reserve ?_ sameGates, whole⟩
  · rw [sameGates, applied, gates, Option.map_map, lowered_of_inputs inputs]
    refine congrArg (fun f => Option.map f _) (funext fun x => ?_)
    by_cases mem : j ∈ z.cfg.gates <;> simp [mem, shutGate]
  · rw [whole.frame .reserve (by decide)]
    exact ((effect.frame .reserve (by decide)).trans (before.frame .reserve (by decide))).symm

end

end Sys2Proof.Proofs
end

