-- ==== Sys2Proof/Proofs/ShutClaims.lean ====
section
/-! The recomputation of a segment that a CLOSE urgent claim shuts, and of one already shut (R8, R11, R16, R18, R28). -/

namespace Sys2Proof.Proofs

open Sys2Proof.Machine Sys2Proof.Safety Sys2Proof.Laws

/-! ### SEGMENT_STATE in a queue (R169) -/

/-- The queue has a SEGMENT_STATE of segment k, or was full when one was raised. -/
def HoldsSegment (k : Nat) (p : Port) : Prop := (p.overflow = true ∧ 16 ≤ p.notices.length) ∨
  ∃ n ∈ p.notices, n.kind = .segmentState ∧ n.object = k

theorem segment_of_holds {p : Port} {n : Notice} (h : HoldsNotice p n) (kind : n.kind = .segmentState) :
    HoldsSegment n.object p :=
  h.imp (fun ⟨mark, full, _⟩ => ⟨mark, full⟩) (fun mem => ⟨n, mem, kind, rfl⟩)

theorem shows_take {k : Nat} {p : Port} (x : Notice) (h : HoldsSegment k p) : HoldsSegment k (p.take x) := by
  by_cases admits : p.admits x.kind = true
  · by_cases present : ∃ e ∈ p.notices, e.kind = x.kind ∧ e.object = x.object
    · rw [take_of_present admits present]
      obtain ⟨mark, full⟩ | ⟨n, mem, kind, object⟩ := h
      · exact .inl ⟨mark, by simpa using full⟩
      · refine .inr ⟨_, List.mem_map.2 ⟨n, mem, rfl⟩, ?_⟩
        split
        · next same => exact ⟨same.1.symm.trans kind, same.2.symm.trans object⟩
        · exact ⟨kind, object⟩
    · rw [take_of_new admits (fun e he same => present ⟨e, he, same⟩)]
      split
      · next full =>
        exact .inl ⟨rfl, full⟩
      · next room =>
        obtain ⟨-, full⟩ | ⟨n, mem, kind⟩ := h
        · exact absurd full room
        · exact .inr ⟨n, List.mem_append_left _ mem, kind⟩
  · rwa [take_of_masked (by simpa using admits)]

theorem shows_effect {k : Nat} {s t : State} {l : List Part} {K : List NoticeKind} (e : Effect l K s t) {m : Master}
    (h : HoldsSegment k (s.port m)) : HoldsSegment k (t.port m) := by
  obtain ⟨ns, -, port⟩ := e.heard m
  rw [port]
  exact List.foldlRecOn (motive := HoldsSegment k) ns Port.take h (fun _ h x _ => shows_take x h)

/-- R28: a recomputation that moves the state of its segment raises SEGMENT_STATE at every port. -/
theorem recompute_shows {s : State} {k : Nat} {x y : Segment} (here : s.segs.records[k]? = some x)
    (there : (s.recompute k).segs.records[k]? = some y) (moved : x.state ≠ y.state) {m : Master}
    (admits : (s.port m).admits .segmentState = true) : HoldsSegment k ((s.recompute k).port m) := by
  have records : ((s.stepSegment k).followUp k).segs.records[k]? = some y := by
    rw [State.recompute, withSegmentNotice_records] at there
    exact there
  have other : x.key ≠ y.key := fun same => moved (congrArg SegmentKey.state same)
  have told : s.recompute k = ((s.stepSegment k).followUp k).tellAll
      (((s.stepSegment k).followUp k).segmentNotice k y) := by
    simp only [State.recompute, State.withSegmentNotice, here, records, if_neg other]
  have before := (effect_stepSegment s k).seq (l := roadParts) (K := roadKinds) (effect_followUp _ k)
  rw [told]
  exact segment_of_holds (Heard.before before (heard_tellAll _ m _) admits) rfl

/-! ### The state rule where a CLOSE urgent claim stands -/

/-- R11, R18: the record in which a segment enters phase LOWERING. -/
def shutting (now : Nat) (x : Segment) : Segment := { x with
  state := .closing, phase := some .lowering, since := now, swept := false, remaining := 0, confirmDue := none,
  unwarned := false }

section
variable {x : Segment} {now : Nat} {b : Bool}

theorem step_shuts (begins : Open x ∨ x.state = .reopening) (unwarned : x.unwarned = false) (close : x.level = .close)
    (urgent : x.urgent = true) : x.step now b = shutting now x := by
  obtain opens | reopening := begins
  · rw [step_open opens, if_pos close, if_pos urgent]
    rfl
  · rw [step_reopening reopening, if_pos close]
    have same : x.toClosingLowering now = { x.toClosingLowering now with unwarned := x.unwarned } := rfl
    rw [same, unwarned]
    rfl

/-- The segment is in phase LOWERING or CLOSED. -/
def IsShut (x : Segment) : Prop := (x.state = .closing ∧ x.phase = some .lowering) ∨ x.state = .closed

theorem IsShut.lamps (h : IsShut x) : x.wantedLamps = true := by
  obtain ⟨state, -⟩ | state := h <;> simp [Segment.wantedLamps, state]

theorem IsShut.demand (h : IsShut x) : x.wantedDemand = .lower := by
  obtain ⟨state, phase⟩ | state := h
  · simp [Segment.wantedDemand, state, phase]
  · simp [Segment.wantedDemand, state]

theorem step_shut (h : IsShut x) (close : x.level = .close) : x.step now b = x := by
  obtain ⟨state, phase⟩ | state := h
  · rw [step_lowering state phase, if_pos close]
  · rw [step_closed state, if_pos close]

end

/-! ### The recomputation -/

theorem stepSegment_apart (s : State) {k o : Nat} (other : o ≠ k) :
    (s.stepSegment k).segs.records[o]? = s.segs.records[o]? := by
  unfold State.stepSegment
  split
  · rfl
  · exact updSegment_apart s _ other

theorem recompute_undescribed {s : State} {k : Nat} (here : s.segs.records[k]? = none) : s.recompute k = s := by
  have still : (s.stepSegment k).followUp k = s := by simp [State.stepSegment, State.followUp, here]
  simp only [State.recompute, State.withSegmentNotice, here, still]

/-- What the claims make of a segment, x before, whose gates are those of b: it is CLOSED exactly when no gate of its list
is left to lower. -/
structure ShutBy (b : State) (x y : Segment) : Prop where
  cfg : y.cfg = x.cfg
  since : y.since = b.now
  unwarned : y.unwarned = false
  demand : y.demand = .lower
  shut : IsShut y
  closed : y.state = .closed ↔ ∀ g ∈ x.cfg.gates, ∀ z, b.gates[g]? = some z → (shutGate b z).lowers = false

section
variable {s : State} {k : Nat} {x : Segment} (here : s.segs.records[k]? = some x)
  (home : Homed k x.cfg.gates s) (close : effectiveLevel (s.claimsOf k) = .close)
include here home close

omit close in
theorem recompute_apart {o : Nat} (other : o ≠ k) : (s.recompute k).segs.records[o]? = s.segs.records[o]? := by
  have cfg : (stepped s k x).cfg = x.cfg := step_cfg _ _ _
  have gates : (s.stepSegment k).gates = s.gates := (effect_stepSegment s k).frame .gates (by decide)
  have home' : Homed k (stepped s k x).cfg.gates (s.stepSegment k) := fun g mem z at_g => by
    rw [cfg] at mem
    rw [gates] at at_g
    exact home g mem z at_g
  rw [State.recompute, withSegmentNotice_records, followUp_apart (stepSegment_record here) home' other,
    stepSegment_apart s other]

/-- The first claim that shuts a segment. -/
theorem recompute_shuts (begins : Open x ∨ x.state = .reopening) (unwarned : x.unwarned = false)
    (moved : x.demand ≠ .lower) (urgent : urgentClaims (s.claimsOf k) = true)
    (still : ∀ g ∈ x.cfg.gates, ∀ z, s.gates[g]? = some z → z.state ≠ .raising) (ok : ReserveOk s) :
    (∀ j, (s.recompute k).gates[j]? = (s.gates[j]?).map (fun z => if j ∈ x.cfg.gates then shutGate s z else z)) ∧
      ReserveOk (s.recompute k) ∧ Effect shutParts [.segmentState, .gateState] s (s.recompute k) ∧
      ∃ y, (s.recompute k).segs.records[k]? = some y ∧ ShutBy s x y := by
  have record : stepped s k x = shutting s.now (x.derive (s.claimsOf k)) := step_shuts begins unwarned close urgent
  have step := effect_stepSegment s k
  have there : (s.stepSegment k).segs.records[k]? = some (shutting s.now (x.derive (s.claimsOf k))) :=
    record ▸ stepSegment_record here
  have sameGates : (s.stepSegment k).gates = s.gates := step.frame .gates (by decide)
  obtain ⟨gates, reserve, effect⟩ := followUp_shuts there rfl rfl moved
    (fun g mem z at_g => home g mem z (sameGates ▸ at_g)) (fun g mem z at_g => still g mem z (sameGates ▸ at_g))
    (reserveOk_of_effect ok step)
  have inputs : (s.stepSegment k).scan.lines = s.scan.lines := step.frame .inputs (by decide)
  have after : (s.recompute k).gates = ((s.stepSegment k).followUp k).gates := withSegmentNotice_gates
  have whole : Effect shutParts [.segmentState, .gateState] s (s.recompute k) :=
    effect_withSegmentNotice s k _ (.seq step effect)
  have gates' (j : Nat) : (s.recompute k).gates[j]? =
      (s.gates[j]?).map (fun z => if j ∈ x.cfg.gates then shutGate s z else z) := by
    rw [after, gates, sameGates, shutGate_of_inputs inputs]
    rfl
  obtain ⟨y, at_k, f⟩ := recompute_record here
  rw [record] at f
  obtain ⟨stands, demand, -⟩ := f.tested.lowering rfl rfl
  have reserve' : (s.recompute k).power.reserve = ((s.stepSegment k).followUp k).power.reserve := by
    rw [whole.frame .reserve (by decide), effect.frame .reserve (by decide), step.frame .reserve (by decide)]
  refine ⟨gates', reserveOk_of_same reserve reserve' after, whole, y, at_k, f.kept.1, ?_, f.kept.2.2.2.2, ?_, ?_, ?_⟩
  · rw [f.since]
    split <;> rfl
  · exact demand.trans (by simp [Segment.wantedDemand, shutting])
  · exact stands.imp (fun ⟨state, phase, _⟩ => ⟨state, phase⟩) And.left
  · refine (f.lowered rfl rfl moved).trans (forall₂_congr fun g mem => ?_)
    have mem' : g ∈ x.cfg.gates := mem
    rw [gates']
    cases s.gates[g]? with
    | none => simp
    | some z => simp [mem', Gate.lowers]

omit home in
/-- A further claim on a segment that is shut, whose lamps flash. -/
theorem recompute_shut (shut : IsShut x) (lower : x.demand = .lower)
    (flashing : ∀ g ∈ x.cfg.gates, ∀ z, s.gates[g]? = some z → z.flashing = true) :
    (s.recompute k).gates = s.gates ∧ Effect shutParts [.segmentState, .gateState] s (s.recompute k) ∧
      (s.recompute k).segs.records[k]? = some (x.derive (s.claimsOf k)) := by
  have shut' : IsShut (x.derive (s.claimsOf k)) := shut
  have record : stepped s k x = x.derive (s.claimsOf k) := step_shut shut' close
  have step := effect_stepSegment s k
  have there : (s.stepSegment k).segs.records[k]? = some (x.derive (s.claimsOf k)) := record ▸ stepSegment_record here
  have sameGates : (s.stepSegment k).gates = s.gates := step.frame .gates (by decide)
  have lamps := effect_handLamps (s.stepSegment k) x.cfg.gates true
  have followed : (s.stepSegment k).followUp k = ((s.stepSegment k).handLamps x.cfg.gates true).formSegmentSlot k := by
    have same : (x.derive (s.claimsOf k)).demand = (x.derive (s.claimsOf k)).wantedDemand := lower.trans shut'.demand.symm
    simp only [State.followUp, there, shut'.lamps, if_pos same]
    rfl
  have formed := effect_formSegmentSlot ((s.stepSegment k).handLamps x.cfg.gates true) k
  have after : (s.recompute k).gates = s.gates := by
    have gates : (s.recompute k).gates = ((s.stepSegment k).followUp k).gates := withSegmentNotice_gates
    rw [gates, followed, formed.frame .gates (by decide)]
    refine List.ext_getElem? fun j => ?_
    rw [handLamps_gate, sameGates]
    cases at_j : s.gates[j]? with
    | none => rfl
    | some z =>
      by_cases mem : j ∈ x.cfg.gates
      · have on := flashing j mem z at_j
        simp [mem, Gate.setLamp, on]
      · simp [mem]
  have effect : Effect shutParts [.segmentState, .gateState] s ((s.stepSegment k).followUp k) := by
    rw [followed]
    exact .seq (.seq (l := shutParts) (K := [.segmentState, .gateState]) step lamps) formed
  obtain ⟨y, at_k, f⟩ := recompute_record here
  rw [record] at f
  rw [f.still (lower.trans shut'.demand.symm)] at at_k
  exact ⟨after, effect_withSegmentNotice s k _ effect, at_k⟩

end

end Sys2Proof.Proofs
end

