-- ==== Sys2Proof/Proofs/StruckSegments.lean ====
section
/-! The claims of the paths whose trip lines stand asserted, handed over one after another in a corridor just derived (R134,
R138): which segments they shut, and what each has made of its gates. -/

namespace Sys2Proof.Proofs

open Sys2Proof.Machine Sys2Proof.Safety Sys2Proof.Laws

/-! ### CLOSE urgent claims -/

/-- R10, R134: the claim of path n, latched, on segment k. -/
def hazardClaim (now n k : Nat) : Claim := {
  segment := k, holder := .hazard n, level := .close, urgent := true, reason := 2, since := now, start := none,
  endsAt := none, link := none, pending := false }

theorem effectiveLevel_close {l : List Claim} (some : l ≠ []) (each : ∀ c ∈ l, c.counted = .close) :
    effectiveLevel l = .close := by
  obtain ⟨c, rest, rfl⟩ := List.exists_cons_of_ne_nil some
  rw [effectiveLevel, List.foldr_cons, each c List.mem_cons_self]
  cases List.foldr (fun c l => c.counted.higher l) Level.noLevel rest <;> rfl

theorem urgentClaims_of_mem {l : List Claim} {c : Claim} (mem : c ∈ l) (presses : c.presses = true) :
    urgentClaims l = true := List.any_eq_true.2 ⟨c, mem, presses⟩

theorem hazardClaim_isOf (now n k m j : Nat) : (hazardClaim now n k).isOf j (.hazard m) = true ↔ k = j ∧ n = m := by
  rw [isOf_iff]
  simp [hazardClaim]

/-! ### What the claims have shut -/

/-- A corridor just derived, before its paths: gates and segments name each other, no gate rises, no segment closes. -/
structure Built (b : State) : Prop where
  home : ∀ (g : Nat) (x : Gate), b.gates[g]? = some x → ∃ y, b.segs.records[x.cfg.segment]? = some y ∧ g ∈ y.cfg.gates
  lists : ∀ (k : Nat) (y : Segment) (g : Nat) (x : Gate), b.segs.records[k]? = some y → g ∈ y.cfg.gates →
    b.gates[g]? = some x → x.cfg.segment = k
  still : ∀ (g : Nat) (x : Gate), b.gates[g]? = some x → x.state ≠ .raising
  segments : ∀ (k : Nat) (x : Segment), b.segs.records[k]? = some x →
    (Open x ∨ x.state = .reopening) ∧ x.unwarned = false ∧ x.demand ≠ .lower
  reserve : ReserveOk b

/-- The parts that the handing over of the claims may change. -/
def struckParts : List Part := [.claims, .paths] ++ shutParts

/-- In u the claims P, of path and segment, stand in the corridor b: the segments they name are shut with their gates, the
others are as they were. -/
structure Shut (b : State) (P : Nat → Nat → Prop) (u : State) : Prop where
  claims : ∀ c, c ∈ u.segs.claims ↔ ∃ n k, P n k ∧ c = hazardClaim b.now n k
  standing : ∀ (g : Nat) (x : Gate), b.gates[g]? = some x → (∀ n, ¬ P n x.cfg.segment) → u.gates[g]? = some x
  lowering : ∀ (g : Nat) (x : Gate) (n : Nat), b.gates[g]? = some x → P n x.cfg.segment →
    u.gates[g]? = some (shutGate b x)
  waits : ∀ (k : Nat) (x : Segment), b.segs.records[k]? = some x → (∀ n, ¬ P n k) → u.segs.records[k]? = some x
  closes : ∀ (k : Nat) (x : Segment) (n : Nat), b.segs.records[k]? = some x → P n k →
    ∃ y, u.segs.records[k]? = some y ∧ ShutBy b x y
  shows : ∀ (k : Nat) (x : Segment) (n : Nat) (m : Master), b.segs.records[k]? = some x → P n k →
    (b.port m).admits .segmentState = true → HoldsSegment k (u.port m)
  reserve : ReserveOk u
  sizes : u.gates.length = b.gates.length ∧ u.segs.records.length = b.segs.records.length
  effect : Effect (struckParts) [.segmentState, .gateState] b u

theorem Moves.sizes {s t : State} (moves : Moves s t) :
    t.gates.length = s.gates.length ∧ t.segs.records.length = s.segs.records.length := by
  have gates := congrArg List.length moves.gates
  have records := congrArg List.length moves.records
  rw [List.length_map, List.length_map] at gates records
  exact ⟨gates, records⟩

namespace Shut

variable {b u t : State} {P Q : Nat → Nat → Prop} {k n : Nat}

/-- A corridor without claims. -/
theorem none (built : Built b) (claims : b.segs.claims = []) : Shut b (fun _ _ => False) b where
  claims c := by simp [claims]
  standing _ _ here _ := here
  lowering _ _ _ _ := False.elim
  waits _ _ here _ := here
  closes _ _ _ _ := False.elim
  shows _ _ _ _ _ := False.elim
  reserve := built.reserve
  sizes := ⟨rfl, rfl⟩
  effect := .refl _ _ b

theorem congr (h : Shut b P u) (same : ∀ n k, Q n k ↔ P n k) : Shut b Q u := by
  have eq : Q = P := funext fun n => funext fun k => propext (same n k)
  exact eq ▸ h

/-- A move of what neither the claims nor their segments and gates show. -/
theorem moved {l : List Part} {K : List NoticeKind} (h : Shut b P u) (e : Effect l K u t)
    (away : apart [.claims, .records, .gates, .reserve] l = true := by rfl)
    (sub : inside l struckParts = true := by rfl) (kinds : ∀ kind ∈ K, kind ∈ [NoticeKind.segmentState, .gateState] := by simp) :
    Shut b P t := by
  have notIn {p : Part} (mem : p ∈ [Part.claims, .records, .gates, .reserve]) : p ∉ l := by
    have := List.all_eq_true.1 away p mem
    simpa using this
  have claims : t.segs.claims = u.segs.claims := e.frame .claims (notIn (by simp))
  have records : t.segs.records = u.segs.records := e.frame .records (notIn (by simp))
  have gates : t.gates = u.gates := e.frame .gates (notIn (by simp))
  refine ⟨by rw [claims]; exact h.claims, by rw [gates]; exact h.standing, by rw [gates]; exact h.lowering,
    by rw [records]; exact h.waits, by rw [records]; exact h.closes,
    fun j x m p here hit admits => shows_effect e (h.shows j x m p here hit admits),
    reserveOk_of_effect h.reserve e (notIn (by simp)) (notIn (by simp)), by rw [gates, records]; exact h.sizes, ?_⟩
  refine h.effect.trans (e.mono (fun p mem => ?_) kinds)
  have := List.all_eq_true.1 sub p mem
  simpa using this

/-- A gate described in u was described in b. -/
theorem gate_before (h : Shut b P u) {g : Nat} {z : Gate} (there : u.gates[g]? = some z) : ∃ x, b.gates[g]? = some x := by
  obtain ⟨inside, -⟩ := List.getElem?_eq_some_iff.1 there
  exact ⟨_, List.getElem?_eq_getElem (h.sizes.1 ▸ inside)⟩

theorem clock (h : Shut b P u) : u.now = b.now := now_of_frame h.effect.frame
theorem inputs (h : Shut b P u) : u.scan.lines = b.scan.lines := h.effect.frame .inputs (by decide)

theorem found (h : Shut b P u) {c : Claim} (at_k : u.claim? k (.hazard n) = some c) :
    P n k ∧ c = hazardClaim b.now n k := by
  have mem : c ∈ u.segs.claims := List.mem_of_find?_eq_some at_k
  obtain ⟨m, j, hit, rfl⟩ := (h.claims c).1 mem
  obtain ⟨rfl, rfl⟩ := (hazardClaim_isOf _ m j n k).1 (List.find?_some (p := fun c : Claim => c.isOf k (.hazard n)) at_k)
  exact ⟨hit, rfl⟩

/-- The gates of a list that no claim has shut are those of b, the others are lowered. -/
theorem listed (built : Built b) (h : Shut b P u) {x : Segment} (here : b.segs.records[k]? = some x) {g : Nat}
    (mem : g ∈ x.cfg.gates) {z : Gate} (there : u.gates[g]? = some z) : ∃ w, b.gates[g]? = some w ∧ w.cfg.segment = k ∧
      ((∀ m, ¬ P m k) → z = w) ∧ (∀ m, P m k → z = shutGate b w) := by
  obtain ⟨w, at_g⟩ := h.gate_before there
  have home := built.lists k x g w here mem at_g
  refine ⟨w, at_g, home, fun free => ?_, fun m hit => ?_⟩
  · exact Option.some.inj (there.symm.trans (h.standing g w at_g (home ▸ free)))
  · exact Option.some.inj (there.symm.trans (h.lowering g w m at_g (home ▸ hit)))

theorem shutGate_kept (b : State) (x : Gate) : (shutGate b x).cfg = x.cfg ∧ (shutGate b x).flashing = true := by
  obtain ⟨cfg, -, flashing, -⟩ := lowered_kept b ((x.setLamp true).record .lower)
  refine ⟨cfg.trans (setLamp_cfg x true), flashing.trans ?_⟩
  show (x.setLamp true).flashing = true
  unfold Gate.setLamp
  split
  · assumption
  · rfl

section
variable (built : Built b) (h : Shut b P u) {v : State}
  (claims : ∀ c, c ∈ v.segs.claims ↔ c ∈ u.segs.claims ∨ c = hazardClaim b.now n k) (e : Effect [.claims] [] u v)
include built h claims e

/-- R138: path n's claim v on segment k, that segment being recomputed. -/
theorem strike : Shut b (fun m j => P m j ∨ (m = n ∧ j = k)) (v.recompute k) := by
  have clock : v.now = b.now := (now_of_frame e.frame).trans h.clock
  have inputs : v.scan.lines = b.scan.lines := (e.frame .inputs (by decide)).trans h.inputs
  have gates : v.gates = u.gates := e.frame .gates (by decide)
  have records : v.segs.records = u.segs.records := e.frame .records (by decide)
  have stand (c : Claim) : c ∈ (v.recompute k).segs.claims ↔ ∃ m j, (P m j ∨ (m = n ∧ j = k)) ∧ c = hazardClaim b.now m j := by
    have same : (v.recompute k).segs.claims = v.segs.claims := (effect_recompute v k).frame .claims (by decide)
    rw [same, claims, h.claims]
    constructor
    · rintro (⟨m, j, hit, rfl⟩ | rfl)
      · exact ⟨m, j, .inl hit, rfl⟩
      · exact ⟨n, k, .inr ⟨rfl, rfl⟩, rfl⟩
    · rintro ⟨m, j, hit | ⟨rfl, rfl⟩, rfl⟩
      · exact .inl ⟨m, j, hit, rfl⟩
      · exact .inr rfl
  have sizes : (v.recompute k).gates.length = b.gates.length ∧ (v.recompute k).segs.records.length = b.segs.records.length := by
    obtain ⟨one, two⟩ := Moves.sizes (moves_recompute v k)
    rw [one, two, gates, records]
    exact h.sizes
  have apart {j : Nat} (other : j ≠ k) (m : Nat) : (P m j ∨ (m = n ∧ j = k)) ↔ P m j :=
    or_iff_left (fun both => other both.2)
  cases here : b.segs.records[k]? with
  | none =>
    have gone : v.segs.records[k]? = Option.none := by
      rw [List.getElem?_eq_none_iff, records, h.sizes.2]
      exact List.getElem?_eq_none_iff.1 here
    have elsewhere {g : Nat} {x : Gate} (at_g : b.gates[g]? = some x) : x.cfg.segment ≠ k := fun same => by
      obtain ⟨y, there, -⟩ := built.home g x at_g
      rw [same, here] at there
      cases there
    have named {j : Nat} {x : Segment} (at_j : b.segs.records[j]? = some x) : j ≠ k := fun same => by
      rw [same, here] at at_j
      cases at_j
    rw [recompute_undescribed gone] at stand sizes ⊢
    refine ⟨stand, fun g x at_g free => ?_, fun g x m at_g hit => ?_, fun j x at_j free => ?_, fun j x m at_j hit => ?_,
      fun j x m p at_j hit admits => ?_, reserveOk_of_effect h.reserve e, sizes,
      h.effect.seq (l := struckParts) (K := [.segmentState, .gateState]) e⟩
    · rw [gates]
      exact h.standing g x at_g (fun m hit => free m (.inl hit))
    · rw [gates]
      exact h.lowering g x m at_g ((apart (elsewhere at_g) m).1 hit)
    · rw [records]
      exact h.waits j x at_j (fun m hit => free m (.inl hit))
    · rw [records]
      exact h.closes j x m at_j ((apart (named at_j) m).1 hit)
    · exact shows_effect e (h.shows j x m p at_j ((apart (named at_j) m).1 hit) admits)
  | some x =>
    have close : effectiveLevel (v.claimsOf k) = .close ∧ urgentClaims (v.claimsOf k) = true := by
      have mine : hazardClaim b.now n k ∈ v.claimsOf k :=
        List.mem_filter.2 ⟨(claims _).2 (.inr rfl), by simp [hazardClaim]⟩
      refine ⟨effectiveLevel_close (List.ne_nil_of_mem mine) (fun c mem => ?_), urgentClaims_of_mem mine rfl⟩
      obtain old | rfl := (claims c).1 (List.mem_filter.1 mem).1
      · obtain ⟨m, j, -, rfl⟩ := (h.claims c).1 old
        rfl
      · rfl
    have onList {g : Nat} {w : Gate} (at_g : b.gates[g]? = some w) : w.cfg.segment = k ↔ g ∈ x.cfg.gates := by
      constructor
      · intro same
        obtain ⟨y, there, mem⟩ := built.home g w at_g
        rw [same, here] at there
        obtain rfl := Option.some.inj there
        exact mem
      · exact fun mem => built.lists k x g w here mem at_g
    have home : Homed k x.cfg.gates v := fun g mem z there => by
      rw [gates] at there
      obtain ⟨w, at_g, same, free, hit⟩ := h.listed built here mem there
      by_cases shut : ∃ m, P m k
      · obtain ⟨m, shut⟩ := shut
        rw [hit m shut, (shutGate_kept b w).1]
        exact same
      · rw [free (not_exists.1 shut)]
        exact same
    by_cases shut : ∃ m, P m k
    · obtain ⟨m₀, shut⟩ := shut
      obtain ⟨y, at_k, shutBy⟩ := h.closes k x m₀ here shut
      rw [← records] at at_k
      have home' : Homed k y.cfg.gates v := shutBy.cfg ▸ home
      obtain ⟨sameGates, effect, after⟩ := recompute_shut at_k close.1 shutBy.shut shutBy.demand (fun g mem z there => by
        rw [gates] at there
        obtain ⟨w, -, -, -, hit⟩ := h.listed built here (shutBy.cfg ▸ mem) there
        rw [hit m₀ shut]
        exact (shutGate_kept b w).2)
      have was {j m : Nat} (hit : P m j ∨ (m = n ∧ j = k)) : ∃ m, P m j :=
        hit.elim (fun hit => ⟨m, hit⟩) (fun ⟨_, same⟩ => ⟨m₀, same ▸ shut⟩)
      refine ⟨stand, fun g w at_g free => ?_, fun g w m at_g hit => ?_, fun j z at_j free => ?_, fun j z m at_j hit => ?_,
        fun j z m p at_j hit admits => ?_, ?_, sizes, ?_⟩
      · rw [sameGates, gates]
        exact h.standing g w at_g (fun m hit => free m (.inl hit))
      · rw [sameGates, gates]
        obtain ⟨m', hit'⟩ := was hit
        exact h.lowering g w m' at_g hit'
      · have other : j ≠ k := fun same => free m₀ (.inl (same ▸ shut))
        rw [recompute_apart at_k home' other, records]
        exact h.waits j z at_j (fun m hit => free m (.inl hit))
      · obtain rfl | other := eq_or_ne j k
        · rw [here] at at_j
          obtain rfl := Option.some.inj at_j
          exact ⟨_, after, shutBy.cfg, shutBy.since, shutBy.unwarned, shutBy.demand, shutBy.shut, shutBy.closed⟩
        · rw [recompute_apart at_k home' other, records]
          exact h.closes j z m at_j ((apart other m).1 hit)
      · obtain ⟨m', hit'⟩ := was hit
        exact shows_effect effect (shows_effect e (h.shows j z m' p at_j hit' admits))
      · exact reserveOk_of_same (reserveOk_of_effect h.reserve e) (effect.frame .reserve (by decide)) sameGates
      · exact (h.effect.seq (l := struckParts) (K := [.segmentState, .gateState]) e).seq
          (l := struckParts) (K := [.segmentState, .gateState]) effect
    · have free := not_exists.1 shut
      have at_k : v.segs.records[k]? = some x := by
        rw [records]
        exact h.waits k x here free
      obtain ⟨begins, unwarned, demand⟩ := built.segments k x here
      have sameListed (g : Nat) (mem : g ∈ x.cfg.gates) : v.gates[g]? = b.gates[g]? := by
        cases at_g : b.gates[g]? with
        | none =>
          rw [List.getElem?_eq_none_iff, gates, h.sizes.1]
          exact List.getElem?_eq_none_iff.1 at_g
        | some w =>
          rw [gates]
          exact h.standing g w at_g ((onList at_g).2 mem ▸ free)
      obtain ⟨lowers, reserve, effect, y, after, shutBy⟩ := recompute_shuts at_k home close.1 begins unwarned demand close.2
        (fun g mem z there => by
          rw [sameListed g mem] at there
          exact built.still g z there) (reserveOk_of_effect h.reserve e)
      have shutBy' : ShutBy b x y := by
        refine ⟨shutBy.cfg, shutBy.since.trans clock, shutBy.unwarned, shutBy.demand, shutBy.shut, shutBy.closed.trans
          (forall₂_congr fun g mem => ?_)⟩
        rw [sameListed g mem, shutGate_of_inputs inputs]
      refine ⟨stand, fun g w at_g free' => ?_, fun g w m at_g hit => ?_, fun j z at_j free' => ?_, fun j z m at_j hit => ?_,
        fun j z m p at_j hit admits => ?_, reserve, sizes, ?_⟩
      · have off : g ∉ x.cfg.gates := fun mem => free' n (.inr ⟨rfl, (onList at_g).2 mem⟩)
        rw [lowers, gates, h.standing g w at_g (fun m hit => free' m (.inl hit))]
        simp [off]
      · by_cases mem : g ∈ x.cfg.gates
        · rw [lowers, sameListed g mem, at_g, shutGate_of_inputs inputs]
          simp [mem]
        · have other : w.cfg.segment ≠ k := fun same => mem ((onList at_g).1 same)
          rw [lowers, gates, h.lowering g w m at_g ((apart other m).1 hit)]
          simp [mem]
      · have other : j ≠ k := fun same => free' n (.inr ⟨rfl, same⟩)
        rw [recompute_apart at_k home other, records]
        exact h.waits j z at_j (fun m hit => free' m (.inl hit))
      · obtain rfl | other := eq_or_ne j k
        · rw [here] at at_j
          obtain rfl := Option.some.inj at_j
          exact ⟨y, after, shutBy'⟩
        · rw [recompute_apart at_k home other, records]
          exact h.closes j z m at_j ((apart other m).1 hit)
      · obtain rfl | other := eq_or_ne j k
        · have moved : x.state ≠ y.state := fun same => by
            obtain ⟨state, -⟩ | state := shutBy.shut
            all_goals
              rw [← same] at state
              obtain (opened | opened) | reopening := begins <;> simp_all
          have mask : (v.port p).admits .segmentState = true := by
            rw [Port.admits, e.mask p, h.effect.mask p]
            exact admits
          exact recompute_shows at_k after moved mask
        · exact shows_effect effect (shows_effect e (h.shows j z m p at_j ((apart other m).1 hit) admits))
      · exact (h.effect.seq (l := struckParts) (K := [.segmentState, .gateState]) e).seq
          (l := struckParts) (K := [.segmentState, .gateState]) effect

end

end Shut

end Sys2Proof.Proofs
end

