-- ==== Sys2Proof/Proofs/TripLines.lean ====
section
/-! The path records as built (R138): each path whose trip line stands asserted is latched and hands its claims over, path by
path and segment by segment. -/

namespace Sys2Proof.Proofs

open Sys2Proof.Machine Sys2Proof.Safety Sys2Proof.Laws

/-! ### One claim -/

/-- R134: the call of a latched path. -/
def urgentCall : Call := { level := .close, urgent := true }

namespace Shut

variable {b u : State} {P : Nat → Nat → Prop} (built : Built b) (h : Shut b P u) (n k : Nat)
include h

theorem claimed (hit : P n k) : u.claim? k (.hazard n) = some (hazardClaim b.now n k) := by
  have mem : hazardClaim b.now n k ∈ u.segs.claims := (h.claims _).2 ⟨n, k, hit, rfl⟩
  have own : (hazardClaim b.now n k).isOf k (.hazard n) = true := (hazardClaim_isOf _ n k n k).2 ⟨rfl, rfl⟩
  cases at_k : u.claim? k (.hazard n) with
  | none => exact absurd own (List.find?_eq_none.1 at_k _ mem)
  | some c => rw [(h.found at_k).2]

theorem unclaimed (free : ¬ P n k) : u.claim? k (.hazard n) = Option.none :=
  Option.eq_none_iff_forall_ne_some.2 fun _ at_k => free (h.found at_k).1

include built

theorem matchClaim : Shut b (fun m j => P m j ∨ (m = n ∧ j = k)) (u.matchClaim k n urgentCall) := by
  by_cases hit : P n k
  · have still : u.matchClaim k n urgentCall = u := by
      simp [State.matchClaim, h.claimed n k hit, hazardClaim, urgentCall, Level.code]
    rw [still]
    exact h.congr fun m j => or_iff_left_of_imp fun ⟨path, segment⟩ => path ▸ segment ▸ hit
  · have gone := h.unclaimed n k hit
    have struck : u.matchClaim k n urgentCall =
        (u.tailClaim k (.hazard n) (hazardClaim u.now n k)).recompute k := by
      simp [State.matchClaim, gone, urgentCall, hazardClaim]
    rw [struck]
    refine h.strike built (fun c => ?_) (effect_tailClaim u k _ _)
    rw [State.tailClaim, filter_of_claim?_none gone, setClaims_claims, List.mem_append, List.mem_singleton, h.clock]

theorem handCall : Shut b (fun m j => P m j ∨ (m = n ∧ j = k)) (u.handCall k n urgentCall) := by
  have struck := h.matchClaim built n k
  unfold State.handCall
  dsimp only
  split
  · exact struck.moved (effect_formSegmentSlot _ k)
  · exact struck

omit k in
/-- R135: the claims of path n on the segments of a list. -/
theorem handCalls (list : List Nat) : Shut b (fun m j => P m j ∨ (m = n ∧ j ∈ list))
    (list.foldl (fun s k => s.handCall k n urgentCall) u) := by
  induction list generalizing P u with
  | nil => exact h.congr fun m j => by simp
  | cons k rest ih =>
    refine (ih (h.handCall built n k)).congr fun m j => ?_
    rw [List.mem_cons, and_or_left, or_assoc]

end Shut

/-! ### One trip line -/

/-- A path record after the trip lines have been taken. -/
def PathConfig.standing (s : State) (p : PathConfig) : Path :=
  { p.newRecord with latch := if Tripped s p then .release else .clear }

/-- R136, R138: the record of a path as built, latched. -/
def PathConfig.released (p : PathConfig) : Path := { p.newRecord with latch := .release }

theorem detect_newRecord (p : PathConfig) : p.newRecord.detect .release = PathConfig.released p := by
  simp [Path.detect, PathConfig.newRecord, PathConfig.released, Path.reduced]

theorem takeTripLine_free {s : State} {n : Nat} {q : Path} (here : s.hazard.paths[n]? = some q)
    (free : Tripped s q.cfg = false) : s.takeTripLine n = s := by
  have free' : q.cfg.trip.any (fun l => s.asserted l) = false := free
  simp [State.takeTripLine, here, free']

theorem takeTripLine_tripped {s : State} {n : Nat} {p : PathConfig} (here : s.hazard.paths[n]? = some p.newRecord)
    (tripped : Tripped s p = true) :
    s.takeTripLine n = (s.updPath n (fun _ => PathConfig.released p)).handOver n := by
  have tripped' : p.newRecord.cfg.trip.any (fun l => s.asserted l) = true := tripped
  have other : (PathConfig.released p).latch ≠ p.newRecord.latch := by simp [PathConfig.released, PathConfig.newRecord]
  simp only [State.takeTripLine, here, tripped', if_true, State.takeDetection, detect_newRecord, if_neg other]

theorem tripped_of_inputs {s t : State} (h : t.scan.lines = s.scan.lines) : Tripped t = Tripped s :=
  funext fun p => congrArg (fun f => p.trip.any f) (funext fun l => asserted_of_inputs h l)

theorem standing_of_inputs {s t : State} (h : t.scan.lines = s.scan.lines) : PathConfig.standing t = PathConfig.standing s :=
  funext fun p => by rw [PathConfig.standing, PathConfig.standing, tripped_of_inputs h]

theorem standing_free {s : State} {p : PathConfig} (free : Tripped s p = false) : PathConfig.standing s p = p.newRecord := by
  rw [PathConfig.standing, free]
  rfl

/-- A path whose trip line stands asserted claims segment k. -/
def Trips (b : State) (paths : List PathConfig) (n k : Nat) : Prop :=
  ∃ p, paths[n]? = some p ∧ Tripped b p = true ∧ k ∈ p.segments

/-- The paths below m have taken their trip lines. -/
structure TakenBelow (b : State) (paths : List PathConfig) (m : Nat) (u : State) : Prop where
  shut : Shut b (fun n k => n < m ∧ Trips b paths n k) u
  paths : ∀ j : Nat, u.hazard.paths[j]? =
    (paths[j]?).map (fun p => if j < m then PathConfig.standing b p else p.newRecord)

section
variable {b u : State} {paths : List PathConfig} {m : Nat} (built : Built b)
include built

theorem TakenBelow.next (h : TakenBelow b paths m u) : TakenBelow b paths (m + 1) (u.takeTripLine m) := by
  have below (n k : Nat) : n < m + 1 ∧ Trips b paths n k ↔ n < m ∧ Trips b paths n k ∨ n = m ∧ Trips b paths n k := by
    rw [Nat.lt_succ_iff_lt_or_eq, or_and_right]
  have apart {j : Nat} (other : j ≠ m) : j < m + 1 ↔ j < m := by omega
  have inputs := h.shut.inputs
  have at_m := h.paths m
  cases here : paths[m]? with
  | none =>
    rw [here] at at_m
    have still : u.takeTripLine m = u := by simp [State.takeTripLine, at_m]
    rw [still]
    refine ⟨h.shut.congr fun n k => ?_, fun j => ?_⟩
    · rw [below]
      refine or_iff_left_of_imp fun ⟨same, p, there, _⟩ => ?_
      rw [same, here] at there
      cases there
    · rw [h.paths]
      obtain rfl | other := eq_or_ne j m
      · rw [here]
        rfl
      · simp only [apart other]
  | some p =>
    rw [here, Option.map_some, if_neg (Nat.lt_irrefl m)] at at_m
    cases tripped : Tripped b p with
    | false =>
      have free : Tripped u p.newRecord.cfg = false := by
        rw [tripped_of_inputs inputs]
        exact tripped
      rw [takeTripLine_free at_m free]
      refine ⟨h.shut.congr fun n k => ?_, fun j => ?_⟩
      · rw [below]
        refine or_iff_left_of_imp fun ⟨same, q, there, hit, _⟩ => ?_
        rw [same, here] at there
        obtain rfl := Option.some.inj there
        rw [tripped] at hit
        cases hit
      · rw [h.paths]
        obtain rfl | other := eq_or_ne j m
        · simp [here, standing_free tripped]
        · simp only [apart other]
    | true =>
      have tripped' : Tripped u p = true := by
        rw [tripped_of_inputs inputs]
        exact tripped
      rw [takeTripLine_tripped at_m tripped']
      have there := updPath_at (f := fun _ => PathConfig.released p) at_m
      have call : (PathConfig.released p).call = urgentCall := Path.call_of_latch (by simp [PathConfig.released])
      have struck := (h.shut.moved (effect_updPath u m (fun _ => PathConfig.released p))).handCalls built m
        p.segments
      refine ⟨?_, fun j => ?_⟩
      · rw [State.handOver, there]
        dsimp only
        rw [call]
        refine struck.congr fun n k => (below n k).trans (or_congr_right (and_congr_right fun same => ?_))
        simp [Trips, same, here, tripped]
      · rw [handOver_paths, updPath_set at_m, List.getElem?_set, h.paths]
        obtain rfl | other := eq_or_ne m j
        · rw [here]
          have inside : m < u.hazard.paths.length := (List.getElem?_eq_some_iff.1 at_m).1
          simp [inside, PathConfig.standing, PathConfig.released, tripped]
        · simp only [apart other.symm, if_neg other]

theorem takenBelow (claims : b.segs.claims = []) (records : b.hazard.paths = paths.map PathConfig.newRecord) (m : Nat) :
    TakenBelow b paths m ((List.range m).foldl State.takeTripLine b) := by
  induction m with
  | zero => exact ⟨(Shut.none built claims).congr (by simp), fun j => by simp [records]⟩
  | succ m ih =>
    rw [List.range_succ, List.foldl_append]
    exact ih.next built

end

/-! ### The derivation of the paths (R138, R184) -/

/-- The corridor with its path records as built. -/
def withPaths (s : State) (paths : List PathConfig) : State :=
  { s with hazard := { s.hazard with paths := paths.map PathConfig.newRecord } }

theorem effect_withPaths (s : State) (paths : List PathConfig) : Effect [.paths] [] s (withPaths s paths) :=
  .silent (frame_paths s _) rfl

section
variable {s : State} (paths : List PathConfig) (built : Built s) (claims : s.segs.claims = [])
include built

theorem built_withPaths : Built (withPaths s paths) :=
  ⟨built.home, built.lists, built.still, built.segments, built.reserve⟩

include claims in
theorem derivePaths_shut : Shut (withPaths s paths) (Trips s paths) (s.derivePaths paths) ∧
    (s.derivePaths paths).hazard.paths = paths.map (PathConfig.standing s) := by
  obtain ⟨shut, records⟩ :=
    takenBelow (b := withPaths s paths) (paths := paths) (built_withPaths paths built) claims rfl paths.length
  have inside {n k : Nat} : Trips s paths n k → n < paths.length := fun ⟨_, here, _⟩ =>
    (List.getElem?_eq_some_iff.1 here).1
  refine ⟨shut.congr fun n k => ⟨fun hit => ⟨inside hit, hit⟩, And.right⟩, List.ext_getElem? fun j => ?_⟩
  refine (records j).trans ?_
  rw [List.getElem?_map]
  cases here : paths[j]? with
  | none => rfl
  | some p =>
    have lt : j < paths.length := (List.getElem?_eq_some_iff.1 here).1
    simp [lt, standing_of_inputs (s := s) (t := withPaths s paths) rfl]

omit built in
/-- Where no trip line stands asserted, the records stay as built. -/
theorem derivePaths_free (free : ∀ p ∈ paths, Tripped s p = false) : s.derivePaths paths = withPaths s paths := by
  refine List.foldlRecOn (motive := (· = withPaths s paths)) (List.range paths.length) State.takeTripLine rfl ?_
  rintro u rfl n mem
  have lt : n < paths.length := List.mem_range.1 mem
  have here : (withPaths s paths).hazard.paths[n]? = some (PathConfig.newRecord paths[n]) := by
    show (paths.map PathConfig.newRecord)[n]? = _
    rw [List.getElem?_map, List.getElem?_eq_getElem lt]
    rfl
  exact takeTripLine_free here (free _ (List.getElem_mem lt))

end

end Sys2Proof.Proofs
end

