-- ==== Sys2Proof/Proofs/KeptEntries.lean ====
section
/-! An entry of the transmit list stays through the derivations of a load (R83, R98): what every request keeps, the content
of slots, the mode, and the segments with their claims keep. -/

namespace Sys2Proof.Proofs

open Sys2Proof.Machine Sys2Proof.Safety Sys2Proof.Laws

/-- A predicate of the transmit list kept by every request. -/
structure RequestKept (P : State → Prop) : Prop where
  rests : RestsOn [.transmit] P
  request : ∀ (s : State) (k : Nat) (r : EntryReason), P s → P (s.request k r)

namespace RequestKept

variable {P : State → Prop} (kept : RequestKept P) {s : State}
include kept

theorem still {l : List Part} {K : List NoticeKind} {t : State} (ok : P s) (h : Effect l K s t)
    (away : apart [.transmit] l = true := by rfl) : P t := kept.rests.keep_effect ok h away

/-! ### Content (R59, R73) -/

theorem reselect (ok : P s) : P s.reselect := by
  refine keep_fold _ (fun s k ok => ?_) _ ok
  unfold State.reselectSign
  split
  · exact keep_cases _ (fun _ => ok) (fun _ => kept.request _ k _ (kept.rests.keep ok (frame_tops s _)))
  · exact ok

theorem writeSlot (n : Nat) (f : Slot → Slot) (ok : P s) : P (s.writeSlot n f) := by
  unfold State.writeSlot
  split
  · exact ok
  · have written (l : List Slot) := kept.rests.keep ok (frame_slots s l)
    exact keep_cases _ (fun _ => written _) (fun _ => kept.reselect (written _))

theorem formSegmentSlot (k : Nat) (ok : P s) : P (s.formSegmentSlot k) := by
  unfold State.formSegmentSlot
  split
  · exact ok
  · exact kept.writeSlot k _ ok

theorem formWeather (k : Nat) (ok : P s) : P (s.formWeather k) := by
  unfold State.formWeather
  split
  · exact keep_ite _ ok (fun _ => kept.writeSlot _ _ ok)
  · exact ok

theorem endPosted (n : Nat) (cause : SlotEndCause) (tell : Bool) (ok : P s) : P (s.endPosted n cause tell) := by
  unfold State.endPosted
  split
  · exact ok
  · split
    · rename_i c p _ _
      dsimp only
      have unlinked : P (match p.link with | some k => s.unlinkClaim k p.owner | none => s) := by
        split
        · exact kept.still ok (effect_unlinkClaim s _ _)
        · exact ok
      have written := kept.writeSlot n (fun y => { y with content := none, posted := none }) unlinked
      exact keep_ite _ written (fun _ => kept.still written (effect_tell _ _ _ .slotEnded))
    · exact ok

/-! ### The mode (R156, R157) -/

theorem resetRefresh (k : Nat) (ok : P s) : P (s.resetRefresh k) := by
  unfold State.resetRefresh
  split
  · exact ok
  · split
    · exact kept.still ok (effect_updSign s k _)
    · exact keep_cases _ (fun _ => kept.request _ _ _ (kept.still ok (effect_updSign s k _)))
        (fun _ => kept.still ok (effect_updSign s k _))

theorem blankWeather (k : Nat) (ok : P s) : P (s.blankWeather k) := by
  unfold State.blankWeather
  split
  · exact ok
  · exact keep_ite _ ok (fun _ => kept.request _ _ _ (kept.still ok (effect_updSign s k _)))

omit kept in
theorem eachSign {f : State → Nat → State} (h : ∀ s k, P s → P (f s k)) (ok : P s) : P (s.eachSign f) := keep_fold f h _ ok

theorem handMode (old : Mode) (ok : P s) : P (s.handMode old) := by
  have chosen := keep_cases (old = .reserve ∨ s.power.mode = .reserve) (fun _ => kept.reselect ok) (fun _ => ok)
  have reset := eachSign (fun _ k ok => kept.resetRefresh k ok) chosen
  exact keep_cases _ (fun _ => eachSign (fun _ k ok => kept.blankWeather k ok) reset) (fun _ => reset)

theorem evaluateMode (silent : Bool) (ok : P s) : P (s.evaluateMode silent) := by
  have moved := kept.rests.keep ok (frame_mode s s.power.nextMode)
  refine keep_cases _ (fun _ => ok) (fun _ => kept.handMode _ ?_)
  exact keep_cases _ (fun _ => moved) (fun _ => kept.still moved (effect_tellAll _ _ .powerMode))

theorem updateReserve (ok : P s) : P s.updateReserve :=
  keep_cases _ (fun _ => ok) (fun _ => kept.evaluateMode false (kept.rests.keep ok (frame_reserve s _)))

/-! ### Segments -/

theorem testGates (k : Nat) (ok : P s) : P (s.testGates k) := by
  have written (f : Segment → Segment) : P (s.updSegment k f) := kept.still ok (effect_updSegment s k f)
  unfold State.testGates
  split
  · exact ok
  · split
    · exact keep_ite _ ok (fun _ => kept.formSegmentSlot k (written _))
    · exact written _
    · exact keep_ite _ ok (fun _ => kept.formSegmentSlot k (kept.still (kept.still (written _) (effect_handLamps _ _ _))
        (effect_recordDemand _ _ _)))
    · exact ok

theorem arms : ArmKept [.transmit] P where
  rests := kept.rests
  notices := rfl
  reserve _ ok := kept.updateReserve ok
  test _ k ok := kept.testGates k ok
  move s g _ f ok _ _ := kept.still ok (effect_updGate s g f)
  start s g _ ok _ _ _ := kept.still ok (effect_updGate s g _)

theorem followUp (k : Nat) (ok : P s) : P (s.followUp k) := by
  unfold State.followUp
  split
  · exact ok
  · rename_i x _
    have lit := kept.still ok (effect_handLamps s x.cfg.gates x.wantedLamps)
    refine kept.formSegmentSlot k (keep_cases _ (fun _ => lit) (fun _ => ?_))
    refine kept.testGates k (keep_fold State.applyRecorded (fun _ g ok => kept.arms.applyRecorded g ok) _ ?_)
    exact kept.still (kept.still lit (effect_updSegment _ _ _)) (effect_recordDemand _ _ _)

theorem road : RoadKept [.transmit] P (fun _ => P) where
  toArmKept := kept.arms
  quiet := rfl
  restsBut _ := kept.rests
  slot _ k ok := kept.formSegmentSlot k ok
  weather _ k ok := kept.formWeather k ok
  mode _ silent ok := kept.evaluateMode silent ok
  ended _ n cause tell ok := kept.endPosted n cause tell ok
  endedBut _ _ n cause tell ok := kept.endPosted n cause tell ok
  linkedBut _ s n link ok := kept.still ok (effect_linkSlot s n link)
  but _ _ := id
  claims _ s c ok _ _ := kept.still ok (effect_setClaims s c)
  recompute k s ok := kept.arms.withSegmentNotice k _ (kept.followUp k (kept.still ok (effect_stepSegment s k)))
  follow s k _ f ok _ _ := kept.followUp k (kept.still ok (effect_updSegment s k f))

/-! ### The derivations (R184) -/

theorem deriveGates (gates : List GateConfig) (ok : P s) : P (s.deriveGates gates) :=
  kept.evaluateMode true (kept.rests.keep (kept.rests.keep ok (frame_gates s _)) (frame_reserve _ _))

theorem handSegment (k : Nat) (ok : P s) : P (s.handSegment k) := by
  unfold State.handSegment
  split
  · exact ok
  · exact kept.formSegmentSlot k (kept.still (kept.still ok (effect_recordDemand s _ _)) (effect_handLamps _ _ _))

theorem deriveSegments (segments : List SegmentConfig) (ok : P s) : P (s.deriveSegments segments) :=
  keep_fold State.handSegment (fun _ k ok => kept.handSegment k ok) _
    (kept.still (kept.rests.keep ok (frame_records s (segments.map s.newSegment))) (effect_setClaims _ []))

theorem deriveWeather (ok : P s) : P s.deriveWeather :=
  kept.reselect (eachSign (fun _ k ok => kept.formWeather k ok) ok)

end RequestKept

/-! ### The entries of a description (R98) -/

theorem entered_kept (k : Nat) : RequestKept (fun s => Entered s k) where
  rests s t same h := by
    obtain ⟨e, mem, own⟩ := h
    obtain ⟨entries, -⟩ := same .transmit (by simp)
    exact ⟨e, entries ▸ mem, own⟩
  request _ j _ h := entered_request j h

theorem deriveSigns_entered (s : State) {signs : List SignConfig} {k : Nat} (lt : k < signs.length) :
    Entered (s.deriveSigns signs) k := by
  have here : (signs.map SignConfig.newRecord)[k]? = some signs[k].newRecord := by
    rw [List.getElem?_map, List.getElem?_eq_getElem lt]
    rfl
  exact eachRequest_entered (s := { s with
    line := { resetLine with signs := signs.map SignConfig.newRecord },
    store := { s.store with tops := List.replicate signs.length Top.blank } }) .probe here rfl rfl

end Sys2Proof.Proofs
end

