-- ==== Sys2Proof/Proofs/DerivedCorridor.lean ====
section
/-! The corridor derived from a description before its paths (R20, R53, R98, R146, R154, R155, R184 steps 1 to 3). -/

namespace Sys2Proof.Proofs

open Sys2Proof.Machine Sys2Proof.Safety Sys2Proof.Laws

/-! ### Step 1: maps, parameters, account, signs -/

/-- R184 step 1, but for the channels and signs. -/
def mapped (s : State) (d : Description) : State := { s with
  segs := { s.segs with authority := d.authority.getD defaultAuthority },
  store := { s.store with priority := d.priority.getD defaultPriority },
  power := (s.power.takeParams d.power).loadAccount s.loader.cause,
  hazard := s.hazard.takePeriod d.period s.now }

section
variable (s : State) (d : Description)

theorem effect_deriveMaps_mapped : Effect [.channels, .signs, .transmit, .line, .tops] [] (mapped s d) (s.deriveMaps d) :=
  .seq (effect_deriveChannels _ _) (effect_deriveSigns _ _)

theorem takePeriod_period (h : Hazard) (period now : Nat) : (h.takePeriod period now).period = period := by
  unfold Hazard.takePeriod
  split
  · next same => exact same.symm
  · rfl

theorem deriveMaps_signs : (s.deriveMaps d).line.signs = d.signs.map SignConfig.newRecord := by
  refine (effect_eachSign { (mapped s d).deriveChannels d.channels with
    line := { resetLine with signs := d.signs.map SignConfig.newRecord },
    store := { (mapped s d).store with tops := List.replicate d.signs.length Top.blank } }
    (fun t k => effect_request t k .probe)).frame .signs (by decide)

/-- R154: the account after a reset. -/
theorem loadAccount_halved (p : Power) {cause : ResetCause} (other : cause ≠ .reload) :
    (p.loadAccount cause).account = p.params.capacity / 2 ∧ (p.loadAccount cause).remainder = 0 := by
  rw [Power.loadAccount, if_neg other]
  exact ⟨rfl, rfl⟩

end

/-! ### Step 2: gates -/

/-- R160: an evaluation of the mode without POWER_MODE. -/
theorem effect_evaluateMode_silent (s : State) : Effect [.mode, .signs, .tops, .transmit] [] s (s.evaluateMode true) := by
  unfold State.evaluateMode
  dsimp only
  split
  · exact .refl _ _ s
  · exact Effect.seq (.silent (frame_mode s s.power.nextMode) rfl) (effect_handMode _ _)

theorem effect_deriveGates_silent (s : State) (gates : List GateConfig) :
    Effect [.gates, .reserve, .mode, .signs, .tops, .transmit] [] s (s.deriveGates gates) := by
  have built := Effect.seq (l := [.gates, .reserve]) (K := []) (.silent (frame_gates s (gates.map s.newGate)) rfl)
    (.silent (frame_reserve _ (closureReserve (gates.map s.newGate))) rfl)
  exact built.seq (effect_evaluateMode_silent _)

theorem reserveOk_deriveGates (s : State) (gates : List GateConfig) : ReserveOk (s.deriveGates gates) :=
  reserveOk_of_effect (s := { s with
    gates := gates.map s.newGate, power := { s.power with reserve := closureReserve (gates.map s.newGate) } }) rfl
    (effect_evaluateMode_silent _)

/-- The signs but for their refresh due. -/
theorem deriveGates_signs (s : State) (gates : List GateConfig) :
    (s.deriveGates gates).line.signs.map (fun x => { x with refreshDue := none }) =
      s.line.signs.map (fun x => { x with refreshDue := none }) := (moves_evaluateMode _ true).signs

/-- R53: a gate that its key and limits have derived, at rest; its segment's demand and lamp aside. -/
structure AsDerived (s : State) (c : GateConfig) (x : Gate) : Prop where
  cfg : x.cfg = c
  standing : (x.state, x.reason) = Standing s c
  travel : x.travel = 0
  sub : x.sub = none
  holdOff : x.holdOff = none
  raiseHeld : x.raiseHeld = false

section
variable {s t : State} {c : GateConfig} {x : Gate}

theorem standing_of_lines (h : t.scan.lines = s.scan.lines) : Standing t = Standing s :=
  funext fun c => by rw [Standing, Standing, asserted_of_inputs h, asserted_of_inputs h, asserted_of_inputs h]

theorem asDerived_new (s : State) (c : GateConfig) : AsDerived s c (s.newGate c) := ⟨rfl, rfl, rfl, rfl, rfl, rfl⟩

theorem AsDerived.setLamp (h : AsDerived s c x) (b : Bool) : AsDerived s c (x.setLamp b) := by
  unfold Gate.setLamp
  split
  · exact h
  · exact ⟨h.cfg, h.standing, h.travel, h.sub, h.holdOff, h.raiseHeld⟩

theorem AsDerived.record (h : AsDerived s c x) (d : Demand) : AsDerived s c (x.record d) :=
  ⟨h.cfg, h.standing, h.travel, h.sub, h.holdOff, by simp [Gate.record, h.raiseHeld]⟩

theorem AsDerived.state (h : AsDerived s c x) : x.state = (Standing s c).1 := congrArg Prod.fst h.standing

/-- R53: a gate derived UP has no fault reason. -/
theorem reason_of_up (up : (Standing s c).1 = .up) : (Standing s c).2 = none := by
  unfold Standing derivedGate at *
  split at up
  · cases up
  · split at up <;> simp_all

theorem AsDerived.still (h : AsDerived s c x) : x.state ≠ .raising := by
  rw [h.state]
  exact newGate_still s c

end

/-! ### Step 3: segments -/

/-- The corridor of a description before its paths. -/
def corridor (s : State) (d : Description) : State := ((s.deriveMaps d).deriveGates d.gates).deriveSegments d.segments

section
variable (s : State) {d : Description}

/-- Step 3 as far as the segment records. -/
def withSegments (t : State) (segments : List SegmentConfig) : State :=
  { t with segs := { t.segs with records := segments.map t.newSegment, claims := [] } }

theorem corridor_records (d : Description) :
    (corridor s d).segs.records = d.segments.map ((s.deriveMaps d).deriveGates d.gates).newSegment :=
  (Effect.fold State.handSegment effect_handSegment (List.range d.segments.length)
    (withSegments ((s.deriveMaps d).deriveGates d.gates) d.segments)).frame .records (by decide)

/-- The parts that the first three steps write. -/
def corridorParts : List Part := mapParts ++ [.gates, .reserve, .mode, .records, .claims, .slots]

theorem effect_corridor (d : Description) : Effect corridorParts [] s (corridor s d) :=
  .seq (.seq (l := corridorParts) (K := []) (effect_deriveMaps s d) (effect_deriveGates_silent _ _))
    (effect_deriveSegments _ _)

/-- From the maps on. -/
theorem effect_corridor_mapped (d : Description) :
    Effect [.channels, .signs, .transmit, .line, .tops, .gates, .reserve, .mode, .records, .claims, .slots] []
      (mapped s d) (corridor s d) :=
  .seq (.seq (l := [.channels, .signs, .transmit, .line, .tops, .gates, .reserve, .mode, .records, .claims, .slots]) (K := [])
    (effect_deriveMaps_mapped s d) (effect_deriveGates_silent _ _)) (effect_deriveSegments _ _)

theorem corridor_signs (d : Description) : (corridor s d).line.signs.map (fun x => { x with refreshDue := none }) =
    d.signs.map SignConfig.newRecord := by
  have handed : (corridor s d).line.signs = ((s.deriveMaps d).deriveGates d.gates).line.signs :=
    (effect_deriveSegments _ _).frame .signs (by decide)
  rw [handed, deriveGates_signs, deriveMaps_signs, List.map_map]
  rfl

theorem corridor_entered (d : Description) {k : Nat} (lt : k < d.signs.length) : Entered (corridor s d) k :=
  have kept := entered_kept k
  kept.deriveSegments _ (kept.deriveGates _ (deriveSigns_entered _ lt))

theorem optionRel_map {α β : Type} {R : α → β → Prop} {a : Option α} {b : Option β} {f : β → β} (h : Option.Rel R a b)
    (kept : ∀ x y, R x y → R x (f y)) : Option.Rel R a (b.map f) := by
  cases h with
  | some both => exact .some (kept _ _ both)
  | none => exact .none

/-- A gate of the corridor for each of the description. -/
theorem corridor_gate (d : Description) (g : Nat) : Option.Rel (AsDerived s) d.gates[g]? (corridor s d).gates[g]? := by
  refine List.foldlRecOn (motive := fun t : State => Option.Rel (AsDerived s) d.gates[g]? t.gates[g]?) _ State.handSegment
    ?_ (fun t h k _ => ?_)
  · show Option.Rel (AsDerived s) d.gates[g]? ((s.deriveMaps d).deriveGates d.gates).gates[g]?
    rw [deriveGates_gates, List.getElem?_map]
    cases d.gates[g]? with
    | none => exact .none
    | some c =>
      have same : Standing (s.deriveMaps d) = Standing s :=
        standing_of_lines ((effect_deriveMaps s d).frame .inputs (by decide))
      exact .some { asDerived_new (s.deriveMaps d) c with standing := same ▸ (asDerived_new (s.deriveMaps d) c).standing }
  · cases at_k : t.segs.records[k]? with
    | none =>
      have unmoved : t.handSegment k = t := by simp [State.handSegment, at_k]
      rwa [unmoved]
    | some y =>
      rw [handSegment_gate at_k]
      refine optionRel_map h (fun c x derived => ?_)
      split
      · exact (derived.record _).setLamp _
      · exact derived

theorem corridor_gate_described (d : Description) {g : Nat} {x : Gate} (at_g : (corridor s d).gates[g]? = some x) :
    ∃ c, d.gates[g]? = some c ∧ AsDerived s c x := by
  have both := corridor_gate s d g
  rw [at_g] at both
  generalize d.gates[g]? = described at both
  cases both with
  | some derived => exact ⟨_, rfl, derived⟩

theorem corridor_gate_built (d : Description) {g : Nat} {c : GateConfig} (at_g : d.gates[g]? = some c) :
    ∃ x, (corridor s d).gates[g]? = some x ∧ AsDerived s c x := by
  have both := corridor_gate s d g
  rw [at_g] at both
  generalize (corridor s d).gates[g]? = built at both
  cases both with
  | some derived => exact ⟨_, rfl, derived⟩

theorem corridor_gates_length (d : Description) : (corridor s d).gates.length = d.gates.length := by
  have handed := Moves.sizes (Moves.fold State.handSegment moves_handSegment (List.range d.segments.length)
    (withSegments ((s.deriveMaps d).deriveGates d.gates) d.segments))
  refine handed.1.trans ?_
  show ((s.deriveMaps d).deriveGates d.gates).gates.length = _
  rw [deriveGates_gates, List.length_map]

theorem corridor_reserve (d : Description) : ReserveOk (corridor s d) := by
  refine keep_fold (P := ReserveOk) State.handSegment (fun t k ok => ?_) _ (reserveOk_deriveGates (s.deriveMaps d) d.gates)
  refine reserveOk_of_shares ok ((effect_handSegment t k).frame .reserve (by decide)) (fun j => ?_)
  cases at_k : t.segs.records[k]? with
  | none =>
    have unmoved : t.handSegment k = t := by simp [State.handSegment, at_k]
    rw [unmoved]
  | some y =>
    rw [handSegment_gate at_k, Option.map_map]
    refine congrArg (fun f => Option.map f _) (funext fun x => ?_)
    dsimp only [Function.comp]
    split
    · exact share_setLamp _ _
    · rfl

/-- R20: a gate that makes its segment start in REOPENING, by the lines. -/
def StartsShut (s : State) (c : GateConfig) : Prop :=
  (Standing s c).1 = .down ∨ Standing s c = (.fault, some .positionUnknown)

/-- R20: a segment record as built, by the gates its list names. -/
theorem newSegment_cases (d : Description) (c : SegmentConfig) :
    let x := ((s.deriveMaps d).deriveGates d.gates).newSegment c
    ((x.state = .reopening ∧ x.demand = .hold) ∨ (x.state = .opened ∧ x.demand = .noDemand)) ∧
      (x.state = .reopening ↔ ∃ g ∈ c.gates, ∃ y, d.gates[g]? = some y ∧ StartsShut s y) := by
  have blocks : (((s.deriveMaps d).deriveGates d.gates).gatesOf c.gates).any Gate.blocks = true ↔
      ∃ g ∈ c.gates, ∃ y, d.gates[g]? = some y ∧ StartsShut s y := by
    have same : Standing (s.deriveMaps d) = Standing s :=
      standing_of_lines ((effect_deriveMaps s d).frame .inputs (by decide))
    have each (y : GateConfig) : ((s.deriveMaps d).newGate y).blocks = true ↔ StartsShut s y := by
      have standing := same ▸ (asDerived_new (s.deriveMaps d) y).standing
      rw [StartsShut, ← standing]
      simp [Gate.blocks]
    simp only [State.gatesOf, List.any_eq_true, List.mem_filterMap, deriveGates_gates, List.getElem?_map,
      Option.map_eq_some_iff]
    constructor
    · rintro ⟨x, ⟨g, mem, y, at_g, rfl⟩, hit⟩
      exact ⟨g, mem, y, at_g, (each y).1 hit⟩
    · rintro ⟨g, mem, y, at_g, hit⟩
      exact ⟨_, ⟨g, mem, y, at_g, rfl⟩, (each y).2 hit⟩
  dsimp only
  rw [← blocks]
  unfold State.newSegment
  cases (((s.deriveMaps d).deriveGates d.gates).gatesOf c.gates).any Gate.blocks <;> simp

theorem corridor_built (ok : Checked d) : Built (corridor s d) where
  home := (road_derived s ok).home
  lists k y g x at_k mem at_g := ((road_derived s ok).lists k y g x at_k mem at_g).1
  still g x at_g := by
    obtain ⟨c, -, derived⟩ := corridor_gate_described s d at_g
    exact derived.still
  segments k x at_k := by
    rw [corridor_records, List.getElem?_map] at at_k
    obtain ⟨c, -, rfl⟩ := Option.map_eq_some_iff.1 at_k
    obtain ⟨⟨state, demand⟩ | ⟨state, demand⟩, -⟩ := newSegment_cases s d c
    · exact ⟨.inr state, rfl, by simp [demand]⟩
    · exact ⟨.inl (.inl state), rfl, by simp [demand]⟩
  reserve := corridor_reserve s d

end

end Sys2Proof.Proofs
end

