-- ==== Sys2Proof/Proofs/DerivedPaths.lean ====
section
/-! The end of a load that gives a description (R138, R182, R184): the corridor with its paths' claims, gate by gate and
segment by segment. -/

namespace Sys2Proof.Proofs

open Sys2Proof.Machine Sys2Proof.Safety Sys2Proof.Laws

/-! ### Notices raised (R169) -/

theorem kind_of_take {p : Port} {x n : Notice} (mem : n ∈ (p.take x).notices) : n ∈ p.notices ∨ n.kind = x.kind := by
  by_cases admits : p.admits x.kind = true
  · by_cases present : ∃ e ∈ p.notices, e.kind = x.kind ∧ e.object = x.object
    · rw [take_of_present admits present] at mem
      obtain ⟨e, old, rfl⟩ := List.mem_map.1 mem
      split
      · exact .inr rfl
      · exact .inl old
    · rw [take_of_new admits (fun e he same => present ⟨e, he, same⟩)] at mem
      split at mem
      · exact .inl mem
      · exact (List.mem_append.1 mem).imp id (fun new => by rw [List.mem_singleton.1 new])
  · rw [take_of_masked (by simpa using admits)] at mem
    exact .inl mem

/-- A notice in the queue was there before or is of a kind raised. -/
theorem kind_of_effect {s t : State} {l : List Part} {K : List NoticeKind} (e : Effect l K s t) {m : Master} {n : Notice}
    (mem : n ∈ (t.port m).notices) : n ∈ (s.port m).notices ∨ n.kind ∈ K := by
  obtain ⟨ns, kinds, port⟩ := e.heard m
  rw [port] at mem
  refine List.foldlRecOn (motive := fun p : Port => n ∈ p.notices → n ∈ (s.port m).notices ∨ n.kind ∈ K) ns Port.take
    .inl (fun p h x hx mem => ?_) mem
  obtain old | same := kind_of_take mem
  · exact h old
  · exact .inr (same ▸ kinds x hx)

/-! ### The corridor at the end of the load -/

/-- The records at the end of a load, before its part state. -/
def derived (s : State) (d : Description) : State := ((corridor s d).derivePaths d.paths).deriveWeather

theorem endDescribed_derived (s : State) (d : Description) (state : PartState) (report : LoadReport) :
    s.endDescribed d state report =
      { derived s d with loader := { (derived s d).loader with state := state, report := report } } := rfl

theorem struck_iff (s : State) (d : Description) (k : Nat) : Struck s d k ↔ ∃ n, Trips s d.paths n k := by
  constructor
  · rintro ⟨p, mem, tripped, hit⟩
    obtain ⟨n, at_n⟩ := List.mem_iff_getElem?.1 mem
    exact ⟨n, p, at_n, tripped, hit⟩
  · rintro ⟨n, p, at_n, tripped, hit⟩
    exact ⟨p, List.mem_of_getElem? at_n, tripped, hit⟩

section
variable (s : State) {d : Description} (ok : Checked d)

theorem corridor_inputs (d : Description) : (corridor s d).scan.lines = s.scan.lines :=
  (effect_corridor s d).frame .inputs (by decide)

theorem corridor_now (d : Description) : (corridor s d).now = s.now := now_of_frame (effect_corridor s d).frame

include ok

theorem derived_shut : Shut (withPaths (corridor s d) d.paths) (Trips s d.paths) (derived s d) := by
  obtain ⟨shut, -⟩ := derivePaths_shut d.paths (corridor_built s ok) (deriveSegments_claims _ _)
  have weathered := shut.moved (effect_deriveWeather _)
  refine weathered.congr fun n k => ?_
  rw [Trips, Trips, tripped_of_inputs (corridor_inputs s d)]

theorem derived_paths : (derived s d).hazard.paths = d.paths.map (PathConfig.standing s) := by
  obtain ⟨-, paths⟩ := derivePaths_shut d.paths (corridor_built s ok) (deriveSegments_claims _ _)
  have kept : (derived s d).hazard.paths = ((corridor s d).derivePaths d.paths).hazard.paths :=
    (effect_deriveWeather _).frame .paths (by decide)
  rw [kept, paths, standing_of_inputs (corridor_inputs s d)]

theorem effect_derived_corridor :
    Effect struckParts [.segmentState, .gateState] (corridor s d) (derived s d) :=
  .seq (effect_withPaths _ d.paths) (derived_shut s ok).effect

theorem effect_derived : Effect (derivedParts ++ noticeParts) [.segmentState, .gateState] s (derived s d) :=
  .seq (effect_corridor s d) (effect_derived_corridor s ok)

omit ok in
theorem effect_derived_free (free : ∀ p ∈ d.paths, Tripped s p = false) : Effect derivedParts [] s (derived s d) := by
  have still := derivePaths_free (s := corridor s d) d.paths (fun p mem => by
    rw [tripped_of_inputs (corridor_inputs s d)]
    exact free p mem)
  rw [derived, still]
  exact .seq (.seq (l := derivedParts) (K := []) (effect_corridor s d) (effect_withPaths _ _)) (effect_deriveWeather _)

theorem derived_claims (c : Claim) : c ∈ (derived s d).segs.claims ↔ ∃ n p, d.paths[n]? = some p ∧ Tripped s p = true ∧
    c.segment ∈ p.segments ∧ c = hazardClaim s.now n c.segment := by
  have now : (withPaths (corridor s d) d.paths).now = s.now := corridor_now s d
  rw [(derived_shut s ok).claims, now]
  constructor
  · rintro ⟨n, k, ⟨p, at_n, tripped, hit⟩, rfl⟩
    exact ⟨n, p, at_n, tripped, hit, rfl⟩
  · rintro ⟨n, p, at_n, tripped, hit, same⟩
    exact ⟨n, c.segment, ⟨p, at_n, tripped, hit⟩, same⟩

omit ok in
theorem derived_levels : LevelsOk (derived s d) :=
  levels_still (levels_road.derivePaths _ (levels_deriveSegments _ d.segments)) (effect_deriveWeather _)

/-! #### Signs (R98) -/

theorem derived_signs : (derived s d).line.signs.map (fun x => { x with refreshDue := none }) =
    d.signs.map SignConfig.newRecord := by
  have kept : (derived s d).line.signs = (corridor s d).line.signs :=
    (effect_derived_corridor s ok).frame .signs (by decide)
  rw [kept, corridor_signs]

omit ok in
theorem derived_entered {k : Nat} (lt : k < d.signs.length) : Entered (derived s d) k :=
  have kept := entered_kept k
  kept.deriveWeather (kept.road.derivePaths _ (corridor_entered s d lt))

/-! #### Gates (R37, R53) -/

omit ok in
/-- A gate that the closing of its segment lowers, of a corridor just derived. -/
theorem shutGate_derived {b : State} (inputs : b.scan.lines = s.scan.lines) {c : GateConfig} {x : Gate}
    (h : AsDerived s c x) : (shutGate b x).cfg = c ∧ (shutGate b x).raiseHeld = false ∧ (shutGate b x).holdOff = none ∧
      (shutGate b x).demand = .lower ∧ (shutGate b x).flashing = true ∧
      ((Standing s c).1 ≠ .up → ((shutGate b x).state, (shutGate b x).reason) = Standing s c ∧ (shutGate b x).travel = 0 ∧
        (shutGate b x).sub = none) ∧
      ((Standing s c).1 = .up → (shutGate b x).travel = c.timeout ∧ (shutGate b x).reason = none ∧
        (s.asserted c.obstructionLine = true → (shutGate b x).state = .stopped ∧ (shutGate b x).sub = none) ∧
        (s.asserted c.obstructionLine = false → (shutGate b x).state = .lowering ∧
          (shutGate b x).sub = some .driving)) := by
  obtain ⟨cfg, flashing⟩ := Shut.shutGate_kept b x
  obtain ⟨-, demand, -⟩ := lowered_kept b ((x.setLamp true).record .lower)
  have ready : AsDerived s c ((x.setLamp true).record .lower) := (h.setLamp true).record .lower
  have reason (up : (Standing s c).1 = .up) : ((x.setLamp true).record .lower).reason = none :=
    (congrArg Prod.snd ready.standing).trans (reason_of_up up)
  have cases := lowered_cases b ((x.setLamp true).record .lower)
  rw [ready.state, ready.cfg, asserted_of_inputs inputs] at cases
  refine ⟨cfg.trans h.cfg, ?_⟩
  obtain ⟨rests, eq⟩ | ⟨up, blocked, eq⟩ | ⟨up, clear, eq⟩ := cases
  · refine ⟨?_, ?_, demand, flashing, fun _ => ?_, fun up => absurd up rests⟩
    all_goals rw [shutGate, eq]
    · exact ready.raiseHeld
    · exact ready.holdOff
    · exact ⟨ready.standing, ready.travel, ready.sub⟩
  · refine ⟨?_, ?_, demand, flashing, fun no => absurd up no, fun _ => ?_⟩
    all_goals rw [shutGate, eq]
    · exact ready.raiseHeld
    · rfl
    · exact ⟨congrArg GateConfig.timeout ready.cfg, reason up, fun _ => ⟨rfl, rfl⟩, fun clear => by simp [clear] at blocked⟩
  · refine ⟨?_, ?_, demand, flashing, fun no => absurd up no, fun _ => ?_⟩
    all_goals rw [shutGate, eq]
    · exact ready.raiseHeld
    · rfl
    · exact ⟨congrArg GateConfig.timeout ready.cfg, reason up, fun blocked => by simp [clear] at blocked, fun _ => ⟨rfl, rfl⟩⟩

/-- The gate at the end of the load: as derived, or as the closing of its segment has made it. -/
theorem derived_gate {g : Nat} {c : GateConfig} (at_g : d.gates[g]? = some c) : ∃ x, AsDerived s c x ∧
    (¬ Struck s d c.segment → (derived s d).gates[g]? = some x) ∧
    (Struck s d c.segment → (derived s d).gates[g]? = some (shutGate (withPaths (corridor s d) d.paths) x)) := by
  obtain ⟨x, built, asDerived⟩ := corridor_gate_built s d at_g
  have shut := derived_shut s ok
  refine ⟨x, asDerived, fun free => ?_, fun struck => ?_⟩
  · refine shut.standing g x built (fun n hit => free ((struck_iff s d _).2 ⟨n, ?_⟩))
    rwa [asDerived.cfg] at hit
  · obtain ⟨n, hit⟩ := (struck_iff s d _).1 struck
    exact shut.lowering g x n built (by rwa [asDerived.cfg])

/-! #### Segments (R11, R16, R20) -/

/-- The segment at the end of the load that no claim has shut. -/
theorem derived_segment_free {k : Nat} {c : SegmentConfig} (at_k : d.segments[k]? = some c) (free : ¬ Struck s d k) :
    (derived s d).segs.records[k]? = some (((s.deriveMaps d).deriveGates d.gates).newSegment c) := by
  refine (derived_shut s ok).waits k _ ?_ (fun n hit => free ((struck_iff s d k).2 ⟨n, hit⟩))
  show (corridor s d).segs.records[k]? = _
  rw [corridor_records, List.getElem?_map, at_k]
  rfl

/-- The segment at the end of the load that the paths' claims have shut. -/
theorem derived_segment_struck {k : Nat} {c : SegmentConfig} (at_k : d.segments[k]? = some c) (struck : Struck s d k) :
    ∃ y, (derived s d).segs.records[k]? = some y ∧
      ShutBy (withPaths (corridor s d) d.paths) (((s.deriveMaps d).deriveGates d.gates).newSegment c) y ∧
      ∀ m, (s.port m).admits .segmentState = true → HoldsSegment k ((derived s d).port m) := by
  obtain ⟨n, hit⟩ := (struck_iff s d k).1 struck
  have shut := derived_shut s ok
  have here : (withPaths (corridor s d) d.paths).segs.records[k]? =
      some (((s.deriveMaps d).deriveGates d.gates).newSegment c) := by
    show (corridor s d).segs.records[k]? = _
    rw [corridor_records, List.getElem?_map, at_k]
    rfl
  obtain ⟨y, there, shutBy⟩ := shut.closes k _ n here hit
  refine ⟨y, there, shutBy, fun m admits => shut.shows k _ n m here hit ?_⟩
  have mask : ((withPaths (corridor s d) d.paths).port m).mask = (s.port m).mask := (effect_corridor s d).mask m
  rw [Port.admits, mask]
  exact admits

/-- R7: the claims on a segment that they shut press CLOSE urgent. -/
theorem derived_presses {k : Nat} (struck : Struck s d k) : effectiveLevel ((derived s d).claimsOf k) = .close ∧
    urgentClaims ((derived s d).claimsOf k) = true := by
  obtain ⟨n, p, at_n, tripped, hit⟩ := (struck_iff s d k).1 struck
  have mine : hazardClaim s.now n k ∈ (derived s d).claimsOf k :=
    List.mem_filter.2 ⟨(derived_claims s ok _).2 ⟨n, p, at_n, tripped, hit, rfl⟩, by simp [hazardClaim]⟩
  refine ⟨effectiveLevel_close (List.ne_nil_of_mem mine) (fun c mem => ?_), urgentClaims_of_mem mine rfl⟩
  obtain ⟨m, q, -, -, -, same⟩ := (derived_claims s ok c).1 (List.mem_filter.1 mem).1
  rw [same]
  rfl

/-- R16: such a segment is CLOSED exactly when no gate of its list is left to lower. -/
theorem derived_closed {k : Nat} {c : SegmentConfig} (at_k : d.segments[k]? = some c) (struck : Struck s d k) :
    (∀ g ∈ c.gates, ∀ z, (corridor s d).gates[g]? = some z →
      (shutGate (withPaths (corridor s d) d.paths) z).lowers = false) ↔ (derived s d).loweringDone c.gates = true := by
  obtain ⟨n, hit⟩ := (struck_iff s d k).1 struck
  have shut := derived_shut s ok
  have after {g : Nat} {z : Gate} (mem : g ∈ c.gates) (here : (corridor s d).gates[g]? = some z) :
      (derived s d).gates[g]? = some (shutGate (withPaths (corridor s d) d.paths) z) := by
    obtain ⟨e, at_g, asDerived⟩ := corridor_gate_described s d here
    refine shut.lowering g z n here ?_
    rw [asDerived.cfg, ok.segment_of_listed at_g at_k mem]
    exact hit
  rw [loweringDone_iff]
  constructor
  · intro done g mem z there
    obtain ⟨w, here⟩ := shut.gate_before there
    have eq := Option.some.inj (there.symm.trans (after mem here))
    have low := done g mem w here
    rw [eq]
    simpa [Gate.lowers] using low
  · intro done g mem z here
    obtain ⟨low, stop⟩ := done g mem _ (after mem here)
    simp [Gate.lowers, low, stop]

end

end Sys2Proof.Proofs
end

