-- ==== Sys2Proof/Proofs/DescribedLoads.lean ====
section
/-! A load that gives a description (R182, R184): the statement, part by part. -/

namespace Sys2Proof.Proofs

open Sys2Proof.Machine Sys2Proof.Safety Sys2Proof.Laws

section
variable (s : State) {d : Description} (ok : Checked d)
include ok

/-- R146, R154: the maps, the power and the hazard period, which the later steps leave. -/
theorem effect_derived_mapped : Effect ([.channels, .signs, .transmit, .line, .tops, .gates, .reserve, .mode, .records, .claims,
    .slots, .paths] ++ noticeParts) [.segmentState, .gateState] (mapped s d) (derived s d) :=
  .seq (effect_corridor_mapped s d) (effect_derived_corridor s ok)

theorem derived_power : (derived s d).power.params = { s.power.params with capacity := (d.power.getD defaultParams).capacity } ∧
    (derived s d).power.fromGroup = s.power.fromGroup ∧ (derived s d).power.taken = d.power.getD defaultParams ∧
    (derived s d).power.takenFromGroup = d.power.isSome := by
  have kept : Part.same .parameters (mapped s d) (derived s d) :=
    (effect_derived_mapped s ok).frame .parameters (by decide)
  obtain ⟨params, fromGroup, taken, group⟩ := kept
  rw [params, fromGroup, taken, group, mapped, loadAccount_keeps]
  exact ⟨rfl, rfl, rfl, rfl⟩

theorem derived_account : (s.loader.cause ≠ .reload →
    (derived s d).power.account = (derived s d).power.params.capacity / 2 ∧ (derived s d).power.remainder = 0) ∧
    (s.loader.cause = .reload →
      (derived s d).power.account = Nat.min s.power.account (derived s d).power.params.capacity) := by
  have kept : Part.same .account (mapped s d) (derived s d) := (effect_derived_mapped s ok).frame .account (by decide)
  obtain ⟨account, remainder, -⟩ := kept
  obtain ⟨params, -⟩ := derived_power s ok
  rw [account, remainder, params]
  refine ⟨fun other => loadAccount_halved (s.power.takeParams d.power) other, fun reload => ?_⟩
  have cases := loadAccount_reload (s.power.takeParams d.power)
  rw [← reload] at cases
  exact cases

theorem derived_gates {g : Nat} {c : GateConfig} (at_g : d.gates[g]? = some c) :
    ∃ x, (derived s d).gates[g]? = some x ∧ x.cfg = c ∧ x.raiseHeld = false ∧ x.holdOff = none ∧
      ((∀ (k : Nat) (y : SegmentConfig), d.segments[k]? = some y → g ∈ y.gates → ¬ Struck s d k) →
        (x.state, x.reason) = Standing s c ∧ x.travel = 0 ∧ x.sub = none) ∧
      (∀ (k : Nat) (y : SegmentConfig), d.segments[k]? = some y → g ∈ y.gates → Struck s d k →
        x.demand = .lower ∧ x.flashing = true ∧
        ((Standing s c).1 ≠ .up → (x.state, x.reason) = Standing s c ∧ x.travel = 0 ∧ x.sub = none) ∧
        ((Standing s c).1 = .up → x.travel = c.timeout ∧ x.reason = none ∧
          (s.asserted c.obstructionLine = true → x.state = .stopped ∧ x.sub = none) ∧
          (s.asserted c.obstructionLine = false → x.state = .lowering ∧ x.sub = some .driving))) := by
  obtain ⟨x, asDerived, free, lowers⟩ := derived_gate s ok at_g
  by_cases struck : Struck s d c.segment
  · obtain ⟨cfg, raiseHeld, holdOff, moved⟩ :=
      shutGate_derived s (b := withPaths (corridor s d) d.paths) (corridor_inputs s d) asDerived
    refine ⟨_, lowers struck, cfg, raiseHeld, holdOff, fun away => ?_, fun _ _ _ _ _ => moved⟩
    obtain ⟨y, at_k, mem⟩ := ok.home at_g
    exact absurd struck (away c.segment y at_k mem)
  · refine ⟨x, free struck, asDerived.cfg, asDerived.raiseHeld, asDerived.holdOff,
      fun _ => ⟨asDerived.standing, asDerived.travel, asDerived.sub⟩, fun k y at_k mem hit => ?_⟩
    rw [ok.segment_of_listed at_g at_k mem] at struck
    exact absurd hit struck

theorem derived_segments {k : Nat} {c : SegmentConfig} (at_k : d.segments[k]? = some c) :
    ∃ x, (derived s d).segs.records[k]? = some x ∧ x.cfg = c ∧ x.since = s.now ∧ FollowsClaims (derived s d) k x ∧
      (¬ Struck s d k → x.level = .noLevel ∧
        ((x.state = .reopening ∧ x.demand = .hold) ∨ (x.state = .opened ∧ x.demand = .noDemand)) ∧
        (x.state = .reopening ↔ ∃ g ∈ c.gates, ∃ y, d.gates[g]? = some y ∧ StartsShut s y)) ∧
      (Struck s d k → x.level = .close ∧ x.urgent = true ∧ x.unwarned = false ∧ x.demand = .lower ∧
        IsShut x ∧ (x.state = .closed ↔ (derived s d).loweringDone c.gates = true) ∧
        ∀ m, (s.port m).admits .segmentState = true → HoldsSegment k ((derived s d).port m)) := by
  have levels := derived_levels s (d := d)
  by_cases struck : Struck s d k
  · obtain ⟨y, there, shutBy, shows⟩ := derived_segment_struck s ok at_k struck
    obtain ⟨close, urgent⟩ := derived_presses s ok struck
    have follows := levels k y there
    have ⟨level, presses, _⟩ := follows
    refine ⟨y, there, shutBy.cfg, shutBy.since.trans (corridor_now s d), follows, fun no => absurd struck no, fun _ => ?_⟩
    exact ⟨level.trans close, presses.trans urgent, shutBy.unwarned, shutBy.demand, shutBy.shut,
      shutBy.closed.trans (derived_closed s ok at_k struck), shows⟩
  · have there := derived_segment_free s ok at_k struck
    have now : ((s.deriveMaps d).deriveGates d.gates).now = s.now :=
      (now_of_frame (effect_deriveGates_silent _ _).frame).trans (now_of_frame (effect_deriveMaps s d).frame)
    exact ⟨_, there, rfl, now, levels k _ there, fun _ => ⟨rfl, newSegment_cases s d c⟩, fun hit => absurd hit struck⟩

theorem derived_signs_new : (derived s d).line.signs.map (·.cfg) = d.signs ∧
    ∀ x ∈ (derived s d).line.signs, x.state = .unknown ∧ x.ack = none := by
  have signs := derived_signs s ok
  constructor
  · have cfgs := congrArg (List.map (·.cfg)) signs
    rw [List.map_map, List.map_map] at cfgs
    exact cfgs.trans (List.map_id _)
  · intro x mem
    have image : { x with refreshDue := none } ∈ d.signs.map SignConfig.newRecord := signs ▸ List.mem_map_of_mem mem
    obtain ⟨c, -, same⟩ := List.mem_map.1 image
    exact ⟨(congrArg Sign.state same).symm, (congrArg Sign.ack same).symm⟩

end

/-- The part state and the report of the load come last. -/
theorem effect_loaded (t : State) (l : Loader) : Effect [.loader] [] t { t with loader := l } := .silent (frame_loader _ _) rfl

/-- Settles O18: the corridor of the first three steps (DerivedCorridor), shut segment by segment by the claims of the paths
whose trip lines stand asserted (DerivedPaths). -/
theorem descriptionDerivesTheCorridor : Obligations.DescriptionDerivesTheCorridor := by
  intro s image d run loading given
  have ok := checked_loadImage given
  have runs : exec (.descriptionLoadEnd image) s = .next { derived s d with loader := { (derived s d).loader with
      state := if (loadImage image).degraded then .degraded else .ready, report := (loadImage image).report } } := by
    simp only [exec, execDescriptionLoadEnd, run, loading, State.endLoad, given, Option.isNone_none, and_self, if_true,
      endDescribed_derived]
  have maps := (effect_derived_mapped s ok).frame
  have loader : (derived s d).loader = s.loader := maps .loader (by decide)
  have authority : (derived s d).segs.authority = d.authority.getD defaultAuthority := maps .authority (by decide)
  have priority : (derived s d).store.priority = d.priority.getD defaultPriority := maps .priority (by decide)
  have period : Part.same .period (mapped s d) (derived s d) := maps .period (by decide)
  have lengths : (derived s d).gates.length = d.gates.length ∧ (derived s d).segs.records.length = d.segments.length := by
    obtain ⟨gates, records⟩ := (derived_shut s ok).sizes
    refine ⟨gates.trans (corridor_gates_length s d), records.trans ?_⟩
    show (corridor s d).segs.records.length = _
    rw [corridor_records, List.length_map]
  have power := derived_power s ok
  have account := derived_account s ok
  have reserve : ReserveOk (derived s d) := (derived_shut s ok).reserve
  have paths := derived_paths s ok
  have claims := derived_claims s ok
  have gates := fun g c at_g => derived_gates s ok (g := g) (c := c) at_g
  have segments := fun k c at_k => derived_segments s ok (k := k) (c := c) at_k
  have signs := derived_signs_new s ok
  have entered := fun k lt => derived_entered s (d := d) (k := k) lt
  have effect := effect_derived s ok
  have free := effect_derived_free s (d := d)
  -- the statement looks at the records alone, not at how they are derived
  clear maps ok
  generalize derived s d = u at *
  obtain ⟨params, fromGroup, taken, group⟩ := power
  have loaded := effect_loaded u { u.loader with
    state := if (loadImage image).degraded then .degraded else .ready, report := (loadImage image).report }
  refine ⟨_, runs, ?_, authority, priority, taken, group, params, fromGroup, account.1, account.2, reserve, paths,
    period.1.trans (takePeriod_period _ _ _), claims, lengths.1, gates, lengths.2, segments, signs.1, signs.2, entered,
    fun m n mem => ?_, fun still => ?_, ?_⟩
  · rw [loader]
  · simpa using kind_of_effect effect mem
  · exact ((free still).seq (l := derivedParts) (K := []) loaded).frame
  · exact (effect.seq (l := derivedParts ++ noticeParts) (K := [.segmentState, .gateState]) loaded).frame

end Sys2Proof.Proofs
end

