-- ==== Sys2Proof/Proofs/StartAndQueue.lean ====
section
/-! The step on a queue and the values a reset leaves. -/

namespace Sys2Proof.Proofs

open Sys2Proof.Machine Sys2Proof.Safety Sys2Proof.Laws

/-- Settles O1: the step is defined by this equation. -/
theorem stepRunsTheFrontCommand : Obligations.StepRunsTheFrontCommand := fun _ _ _ => rfl

/-! ### Reset values -/

/-- R9: the default authority map, read right by right. -/
theorem reset_hasRight : ∀ k < 16, ∀ right < 5,
    State.reset.hasRight k .centre right = decide (right ≠ 4) ∧
    State.reset.hasRight k .slope right = decide (right = 0 ∨ right = 2) ∧
    State.reset.hasRight k .crew right = decide (right ≠ 3) := by decide

theorem reset_slots : ∀ x ∈ State.reset.store.slots, x.content = none ∧ x.generation = 0 ∧ x.posted = none := by
  intro x hx
  obtain ⟨-, rfl⟩ := List.mem_replicate.1 hx
  exact ⟨rfl, rfl, rfl⟩

theorem reset_channels : ∀ c < 32, ∀ x, State.reset.channel? c = some x →
    x.quality = .never ∧ x.value = none ∧ x.badCount = 0 := by
  have each : ∀ c < 32, (State.reset.channel? c).all
      (fun x => x.quality == .never && x.value == none && x.badCount == 0) = true := by decide
  intro c hc x hx
  have never := each c hc
  rw [hx] at never
  simpa [and_assoc] using never

theorem reset_admits (m : Master) (k : NoticeKind) : (State.reset.port m).admits k = true := by
  cases m <;> cases k <;> decide

/-- Settles O3. -/
theorem resetLeavesTheStartingValues : Obligations.ResetLeavesTheStartingValues := by
  have ports (m : Master) : (State.reset.port m).queued = [] ∧ (State.reset.port m).done = [] ∧
      (State.reset.port m).notices = [restartedNotice .powerOn 0] ∧
      (∀ k : NoticeKind, (State.reset.port m).admits k = true) ∧ (State.reset.port m).overrun = false ∧
      (State.reset.port m).overflow = false := by
    refine ⟨?_, ?_, ?_, reset_admits m, ?_, ?_⟩ <;> cases m <;> rfl
  exact ⟨rfl, rfl, rfl, rfl, rfl, ports, rfl, rfl, reset_hasRight, reset_slots, rfl, rfl, rfl, rfl, reset_channels, rfl, rfl,
    rfl, rfl, rfl, rfl, rfl, fun _ => rfl⟩

/-- Settles O4: no record is left to break an invariant but those of the ports, the account and the slots. -/
theorem resetMeetsEveryBound : Obligations.ResetMeetsEveryBound :=
  ⟨portsOk_reset rfl (by simp), pathsOk_nil rfl, accountOk_reset rfl, claimsOk_nil rfl, lineOk_empty rfl rfl, gatesOk_nil rfl,
    segmentsOk_nil rfl, levelsOk_nil rfl, roadOk_bare rfl rfl (by simp [State.reset]), classesOk_invalid reset_invalid rfl rfl,
    callsOk_nil rfl⟩

end Sys2Proof.Proofs
end
